-- ==== Sys2Proof/Word.lean ====
section
/-! DEFINITION. The plain data the block computes with: bytes, code lengths' codebooks and compiled
decoders (10_state.md R24, 41_codebook.md R82), and the names of the small alternatives of the spec.

A Huffman code has 0 to 15 bits and its length varies, so codes, lengths, symbols and slot indices are
`Nat`; registers and stream fields of one stated width are `BitVec`. -/

namespace Sys2Proof

/-- One byte of `IN` or `WIN` (20_memory.md R30). -/
abbrev Byte := BitVec 8

/-- One symbol of a codebook: its canonical code, written most significant bit first, and its length;
length 0 marks an unused symbol, whose code is 0 (41_codebook.md R82). -/
structure CodeEntry where
  code : Nat
  len : Nat
  deriving DecidableEq, Repr

/-- A codebook `{E, M}` (41_codebook.md R82): an entry for each symbol index, and the longest length. -/
structure Codebook where
  entries : List CodeEntry
  maxLen : Nat
  deriving DecidableEq, Repr

/-- A slot of a decoder table (10_state.md R24). -/
inductive Slot where
  | empty
  | direct (sym len : Nat)
  | link (base : Nat)
  deriving DecidableEq, Repr, Inhabited

/-- A compiled decoder `{M, P, PRI, SEC, SMASK}` (10_state.md R24). `SEC` is one sequence of slots; its
segments have `2^(M-P)` slots each. -/
structure Decoder where
  maxLen : Nat
  primaryBits : Nat
  pri : List Slot
  sec : List Slot
  smask : Nat
  deriving DecidableEq, Repr

/-- The decoder with no codes: one empty primary slot (42_huffman_decoder.md R89, corner case M = 0). -/
def Decoder.noCodes : Decoder :=
  { maxLen := 0, primaryBits := 0, pri := [.empty], sec := [], smask := 0 }

/-- The decoders an operation can name (42_huffman_decoder.md R91). -/
inductive DecoderName where
  | llDec
  | dDec
  | clDec
  deriving DecidableEq, Repr

/-- How the byte source ends after the last byte of `IN` (20_memory.md R31). -/
inductive InEnd where
  | eof
  | ioerr
  deriving DecidableEq, Repr

/-- The errors of 60_exceptions.md R138, code by code. `checksumMismatch`, `sizeMismatch` and
`endOfBlockNotFound` are reserved there: the block never raises them. -/
inductive Err where
  | ioError
  | unexpectedEndOfInput
  | emptyInput
  | invalidGzHeader
  | invalidBlockType
  | blockType0LenMismatch
  | invalidCodeLengths
  | huffmanDecoderCodeNotFound
  | distanceTooMuch
  | readDynamicCodebook
  | checksumMismatch
  | sizeMismatch
  | endOfBlockNotFound
  | invalidLengthSymbol
  | invalidDistanceSymbol
  | illegalCommand
  deriving DecidableEq, Repr

/-- The errors the header collaborator may raise (45_block_producer.md R113, item 4). -/
inductive HdrErr where
  | invalidGzHeader
  | unexpectedEndOfInput
  | ioError
  deriving DecidableEq, Repr

/-- What the header collaborator answers: how many bytes it read from the cursor on, and its record or
its error (45_block_producer.md R113, items 2 and 4). The record is opaque to the block. -/
inductive HdrAnswer where
  | record (consumed : Nat) (bytes : List Byte)
  | error (consumed : Nat) (e : HdrErr)
  deriving DecidableEq, Repr, Inhabited

/-- Which header collaborator the host has bound (70_reset_and_hazards.md R154): the reference instance of
95_test_vectors.md 0.1, or one of which only the contract of R113 is known. -/
inductive HdrBinding where
  | reference
  | external
  deriving DecidableEq, Repr

/-- How an LZ77 decode call ended (44_lz77.md R99; the flag of 10_state.md R21). -/
inductive LzResult where
  | done
  | windowFull
  deriving DecidableEq, Repr

/-- The operands of an internal operation. The operations' words carry none (30_encoding.md R69), so they
stand beside the word. DESIGN CHOICE, safe: notes/assumptions/12.md. -/
structure OpArgs where
  n : Nat
  final : Bool
  lens : List Nat
  book : Codebook
  dec : Decoder
  bits : BitVec 32
  which : DecoderName
  deriving DecidableEq, Repr

/-- The operand packet of an operation that uses none of its fields. -/
def OpArgs.unused : OpArgs :=
  { n := 0, final := false, lens := [], book := { entries := [], maxLen := 0 }, dec := Decoder.noCodes,
    bits := 0, which := .llDec }

end Sys2Proof
end

