-- ==== Sys2Proof/Config.lean ====
section
/-! DEFINITION. What one implementation fixes: the fixed parameters of 00_scope.md R7, with the values
this hardware takes, and the open parameters of R8 that no source gives a value. -/

namespace Sys2Proof.Config

/-- `DIST_LIMIT` (D): the largest back-reference distance and the size of the history kept. -/
abbrev distLimit : Nat := 32768

/-- `WIN_SIZE`: bytes in the window buffer, 3 × D. -/
abbrev winSize : Nat := 98304

/-- `MAX_LENGTH`: the longest back-reference, the WindowFull margin. -/
abbrev maxLength : Nat := 258

/-- `PRIMARY_BITS_MAX`: the primary-table index width when codes are long. -/
abbrev primaryBitsMax : Nat := 9

/-- `MAX_CODE_LEN`: the longest Huffman code. -/
abbrev maxCodeLen : Nat := 15

/-- `MAX_CODEBOOK_ENTRIES`: the most code lengths the builder accepts (90_conflicts.md C1). -/
abbrev maxCodebookEntries : Nat := 289

/-- `PEEK_BITS`: bits returned by one peek. -/
abbrev peekBits : Nat := 32

/-- `PEEK_MIN_BYTES`: bytes that must be obtainable for a peek to succeed. -/
abbrev peekMinBytes : Nat := 4

/-- `CONSUME_MAX`: the largest n of consume(n) and readBits(n). -/
abbrev consumeMax : Nat := 32

/-- `LL_ALPHABET`: the number of literal/length symbols. -/
abbrev llAlphabet : Nat := 288

/-- `DIST_ALPHABET`: the number of distance symbols. -/
abbrev distAlphabet : Nat := 32

/-- `CL_ALPHABET`: the number of code-length symbols. -/
abbrev clAlphabet : Nat := 19

/-- `FOOTER_BYTES`: bytes in the footer record. -/
abbrev footerBytes : Nat := 8

/-- The bytes of the fixed gzip header, which the header collaborator reads (45_block_producer.md R113, item 6). -/
abbrev headerBytes : Nat := 10

/-- How far `BR_BUF_SIZE` exceeds its lower bound 5: an open parameter (00_scope.md R8) of which nothing is
known. -/
opaque brBufSpare : Nat

/-- `BR_BUF_SIZE`, natural ≥ 5. No rule reads it (40_bitreader.md R70). -/
def brBufSize : Nat := 5 + brBufSpare

/-- An unknown header collaborator (45_block_producer.md R113): a function of the bytes from the cursor on
and of how the source ends, which is all that the byte operations it may use can show it. The machine
holds its answer to the contract (`Machine.hdrParseExternal`). DEDUCED, safe: notes/assumptions/3.md. -/
opaque hdrParse : List Byte → InEnd → HdrAnswer

/-! ## Values the rules do not state

The operations of 42_huffman_decoder.md are given only codebooks that the builder returned and decoders that the
compiler made (R89, R90). On other operands the pseudocode still runs, and reads what these stand for. No step
of a run meets one. DESIGN CHOICE, safe: notes/assumptions/26.md, notes/assumptions/32.md. -/

/-- The slot at an index that a table does not have (R90). -/
opaque missingSlot : Nat → Slot

/-- The `sym` and `len` of a slot that is `Link(base)` (R90). -/
opaque linkFields : Nat → Nat × Nat

/-- The `base` of a slot that is `Direct(sym, len)` (R89). -/
opaque directBase : Nat → Nat → Nat

/-- `2^(M - L)` for a length `L` that is longer than the codebook's longest (R89). -/
opaque slotsPast : Nat → Nat → Nat

end Sys2Proof.Config
end

