-- ==== Sys2Proof/Syntax.lean ====
section
/-! DEFINITION. The instructions: one constructor for each row of `spec/opcode_table.json`, in the table's
order, format by format (30_encoding.md R48). A row of a Huffman-coded format stands for the decoded
symbol VALUE, not for stream bits, so its extra bits are no operand here: its rule reads them from the
stream. The operands of an internal operation are those its rule names. -/

namespace Sys2Proof

inductive Instr where
  -- Block headers (30_encoding.md R50): `final` is BFINAL, bit 0.
  /-- `BLOCK_STORED`, R115. -/
  | blockStored (final : Bool)
  /-- `BLOCK_FIXED`, R116. -/
  | blockFixed (final : Bool)
  /-- `BLOCK_DYNAMIC`, R117. -/
  | blockDynamic (final : Bool)
  /-- `BLOCK_RESERVED`, R114. -/
  | blockReserved (final : Bool)
  -- The stored-block header (30_encoding.md R51).
  /-- `STORED_HEADER`, R115. -/
  | storedHeader (len : BitVec 16) (nlen : BitVec 16)
  -- The dynamic header's three counts (30_encoding.md R53), as the fields stand in the stream.
  /-- `DYNAMIC_HEADER`, R127. -/
  | dynamicHeader (hlit : BitVec 5) (hdist : BitVec 5) (hclen : BitVec 4)
  -- Code-length symbols (30_encoding.md R54).
  /-- `CL_LEN0`, R129. -/
  | clLen0
  /-- `CL_LEN1`, R129. -/
  | clLen1
  /-- `CL_LEN2`, R129. -/
  | clLen2
  /-- `CL_LEN3`, R129. -/
  | clLen3
  /-- `CL_LEN4`, R129. -/
  | clLen4
  /-- `CL_LEN5`, R129. -/
  | clLen5
  /-- `CL_LEN6`, R129. -/
  | clLen6
  /-- `CL_LEN7`, R129. -/
  | clLen7
  /-- `CL_LEN8`, R129. -/
  | clLen8
  /-- `CL_LEN9`, R129. -/
  | clLen9
  /-- `CL_LEN10`, R129. -/
  | clLen10
  /-- `CL_LEN11`, R129. -/
  | clLen11
  /-- `CL_LEN12`, R129. -/
  | clLen12
  /-- `CL_LEN13`, R129. -/
  | clLen13
  /-- `CL_LEN14`, R129. -/
  | clLen14
  /-- `CL_LEN15`, R129. -/
  | clLen15
  /-- `CL_REPEAT16`, R129. -/
  | clRepeat16
  /-- `CL_ZERO17`, R129. -/
  | clZero17
  /-- `CL_ZERO18`, R129. -/
  | clZero18
  -- Literal/length symbols (30_encoding.md R55, R62).
  /-- `LIT`, R101. -/
  | lit (byte : Byte)
  /-- `EOB`, R102. -/
  | eob
  /-- `LEN257`, R103. -/
  | len257
  /-- `LEN258`, R103. -/
  | len258
  /-- `LEN259`, R103. -/
  | len259
  /-- `LEN260`, R103. -/
  | len260
  /-- `LEN261`, R103. -/
  | len261
  /-- `LEN262`, R103. -/
  | len262
  /-- `LEN263`, R103. -/
  | len263
  /-- `LEN264`, R103. -/
  | len264
  /-- `LEN265`, R103. -/
  | len265
  /-- `LEN266`, R103. -/
  | len266
  /-- `LEN267`, R103. -/
  | len267
  /-- `LEN268`, R103. -/
  | len268
  /-- `LEN269`, R103. -/
  | len269
  /-- `LEN270`, R103. -/
  | len270
  /-- `LEN271`, R103. -/
  | len271
  /-- `LEN272`, R103. -/
  | len272
  /-- `LEN273`, R103. -/
  | len273
  /-- `LEN274`, R103. -/
  | len274
  /-- `LEN275`, R103. -/
  | len275
  /-- `LEN276`, R103. -/
  | len276
  /-- `LEN277`, R103. -/
  | len277
  /-- `LEN278`, R103. -/
  | len278
  /-- `LEN279`, R103. -/
  | len279
  /-- `LEN280`, R103. -/
  | len280
  /-- `LEN281`, R103. -/
  | len281
  /-- `LEN282`, R103. -/
  | len282
  /-- `LEN283`, R103. -/
  | len283
  /-- `LEN284`, R105. -/
  | len284
  /-- `LEN285`, R103. -/
  | len285
  /-- `LL286`, R104. -/
  | ll286
  /-- `LL287`, R104. -/
  | ll287
  -- Distance symbols (30_encoding.md R56, R63).
  /-- `DIST0`, R106. -/
  | dist0
  /-- `DIST1`, R106. -/
  | dist1
  /-- `DIST2`, R106. -/
  | dist2
  /-- `DIST3`, R106. -/
  | dist3
  /-- `DIST4`, R106. -/
  | dist4
  /-- `DIST5`, R106. -/
  | dist5
  /-- `DIST6`, R106. -/
  | dist6
  /-- `DIST7`, R106. -/
  | dist7
  /-- `DIST8`, R106. -/
  | dist8
  /-- `DIST9`, R106. -/
  | dist9
  /-- `DIST10`, R106. -/
  | dist10
  /-- `DIST11`, R106. -/
  | dist11
  /-- `DIST12`, R106. -/
  | dist12
  /-- `DIST13`, R106. -/
  | dist13
  /-- `DIST14`, R106. -/
  | dist14
  /-- `DIST15`, R106. -/
  | dist15
  /-- `DIST16`, R106. -/
  | dist16
  /-- `DIST17`, R106. -/
  | dist17
  /-- `DIST18`, R106. -/
  | dist18
  /-- `DIST19`, R106. -/
  | dist19
  /-- `DIST20`, R106. -/
  | dist20
  /-- `DIST21`, R106. -/
  | dist21
  /-- `DIST22`, R106. -/
  | dist22
  /-- `DIST23`, R106. -/
  | dist23
  /-- `DIST24`, R106. -/
  | dist24
  /-- `DIST25`, R106. -/
  | dist25
  /-- `DIST26`, R106. -/
  | dist26
  /-- `DIST27`, R106. -/
  | dist27
  /-- `DIST28`, R106. -/
  | dist28
  /-- `DIST29`, R106. -/
  | dist29
  /-- `DIST30`, R107. -/
  | dist30
  /-- `DIST31`, R107. -/
  | dist31
  -- Host command words (30_encoding.md R67); `low` is the low nibble, which R137 ignores.
  /-- `RESET`, R134. -/
  | reset
  /-- `STEP`, R135. -/
  | step
  /-- `STATUS`, R136. -/
  | status
  /-- `CMD_RESERVED_3`, R137. -/
  | cmdReserved3
  /-- `CMD_RESERVED_4`, R137. -/
  | cmdReserved4
  /-- `CMD_RESERVED_5`, R137. -/
  | cmdReserved5
  /-- `CMD_RESERVED_6`, R137. -/
  | cmdReserved6
  /-- `CMD_RESERVED_7`, R137. -/
  | cmdReserved7
  /-- `CMD_RESERVED_8`, R137. -/
  | cmdReserved8
  /-- `CMD_RESERVED_9`, R137. -/
  | cmdReserved9
  /-- `CMD_RESERVED_A`, R137. -/
  | cmdReservedA
  /-- `CMD_RESERVED_B`, R137. -/
  | cmdReservedB
  /-- `CMD_RESERVED_C`, R137. -/
  | cmdReservedC
  /-- `CMD_RESERVED_D`, R137. -/
  | cmdReservedD
  /-- `CMD_RESERVED_E`, R137. -/
  | cmdReservedE
  /-- `CMD_RESERVED_F`, R137. -/
  | cmdReservedF
  /-- `CMD_BADHIGH_1`, R137. -/
  | cmdBadhigh1 (low : BitVec 4)
  /-- `CMD_BADHIGH_2`, R137. -/
  | cmdBadhigh2 (low : BitVec 4)
  /-- `CMD_BADHIGH_3`, R137. -/
  | cmdBadhigh3 (low : BitVec 4)
  /-- `CMD_BADHIGH_4`, R137. -/
  | cmdBadhigh4 (low : BitVec 4)
  /-- `CMD_BADHIGH_5`, R137. -/
  | cmdBadhigh5 (low : BitVec 4)
  /-- `CMD_BADHIGH_6`, R137. -/
  | cmdBadhigh6 (low : BitVec 4)
  /-- `CMD_BADHIGH_7`, R137. -/
  | cmdBadhigh7 (low : BitVec 4)
  /-- `CMD_BADHIGH_8`, R137. -/
  | cmdBadhigh8 (low : BitVec 4)
  /-- `CMD_BADHIGH_9`, R137. -/
  | cmdBadhigh9 (low : BitVec 4)
  /-- `CMD_BADHIGH_A`, R137. -/
  | cmdBadhighA (low : BitVec 4)
  /-- `CMD_BADHIGH_B`, R137. -/
  | cmdBadhighB (low : BitVec 4)
  /-- `CMD_BADHIGH_C`, R137. -/
  | cmdBadhighC (low : BitVec 4)
  /-- `CMD_BADHIGH_D`, R137. -/
  | cmdBadhighD (low : BitVec 4)
  /-- `CMD_BADHIGH_E`, R137. -/
  | cmdBadhighE (low : BitVec 4)
  /-- `CMD_BADHIGH_F`, R137. -/
  | cmdBadhighF (low : BitVec 4)
  -- Internal operations (30_encoding.md R69).
  /-- `peekBits`, R72. -/
  | peekBits
  /-- `consume`, R73. -/
  | consume (n : Nat)
  /-- `readBits`, R74. -/
  | readBits (n : Nat)
  /-- `byteAlign`, R75. -/
  | byteAlign
  /-- `hasDataLeft`, R76. -/
  | hasDataLeft
  /-- `read`, R78. -/
  | read (n : Nat)
  /-- `readExact`, R77. -/
  | readExact (n : Nat)
  /-- `buildCodebook`, R83. -/
  | buildCodebook (lens : List Nat)
  /-- `compileDecoder`, R89. -/
  | compileDecoder (book : Codebook)
  /-- `decode`, R90. -/
  | decode (dec : Decoder) (bits : BitVec 32)
  /-- `decodeSymbol`, R91. -/
  | decodeSymbol (which : DecoderName)
  /-- `writeBuffer`, R94. -/
  | writeBuffer
  /-- `slide`, R95. -/
  | slide (n : Nat)
  /-- `windowReset`, R96. -/
  | windowReset
  /-- `lz77Decode`, R99. -/
  | lz77Decode
  /-- `parseDynamic`, R126. -/
  | parseDynamic
  /-- `HeaderStep`, R112. -/
  | headerStep
  /-- `BlockStep`, R114. -/
  | blockStep
  /-- `StoredBlock`, R115. -/
  | storedBlock (final : Bool)
  /-- `FixedBlock`, R116. -/
  | fixedBlock (final : Bool)
  /-- `DynamicBlock`, R117. -/
  | dynamicBlock (final : Bool)
  /-- `InflateStep`, R118. -/
  | inflateStep (final : Bool)
  /-- `FooterStep`, R121. -/
  | footerStep
  /-- `EndStep`, R122. -/
  | endStep
  /-- `DataEmission`, R119. -/
  | dataEmission (n : Nat)
  deriving DecidableEq, Repr

end Sys2Proof
end

