-- ==== Sys2Proof/WellFormed.lean ====
section
/-! DEFINITION. Which instructions are well formed: the operand ranges the rules of the internal operations
state, as a Bool. Every operand of the other instructions is legal at every value its field admits
(an illegal length array, LEN/NLEN pair or command word is executed, and raises or responds an error). An
operation on operands out of their ranges still runs as its rule is written: notes/assumptions/26.md and 31.md. -/

namespace Sys2Proof

/-- The code of `a` is not the first bits of the code of `b` nor the other way round
(41_codebook.md R85); an unused symbol has no code. -/
def CodeEntry.prefixFreeWith (a b : CodeEntry) : Bool :=
  a.len == 0 || b.len == 0 ||
    if a.len ≤ b.len then b.code >>> (b.len - a.len) != a.code else a.code >>> (a.len - b.len) != b.code

/-- An entry's ranges (41_codebook.md R82): a length of 0..15, a code below `2^len`, and code 0 for an unused
symbol. -/
def CodeEntry.wellFormed (e : CodeEntry) : Bool :=
  e.len ≤ Config.maxCodeLen && e.code < 2 ^ e.len

/-- No code of the list is a prefix of another (41_codebook.md R85). -/
def CodeEntry.allPrefixFree : List CodeEntry → Bool
  | [] => true
  | e :: rest => rest.all e.prefixFreeWith && CodeEntry.allPrefixFree rest

/-- What every codebook that buildCodebook returns satisfies (41_codebook.md R82, R85). -/
def Codebook.wellFormed (b : Codebook) : Bool :=
  0 < b.entries.length && b.entries.length ≤ Config.maxCodebookEntries &&
    b.entries.all CodeEntry.wellFormed &&
    b.maxLen == b.entries.foldl (fun m e => max m e.len) 0 &&
    CodeEntry.allPrefixFree b.entries

/-- A slot's ranges (10_state.md R24): a symbol of 0..287, a length of 1..`maxLen`, a link to a segment that
lies inside `SEC`. -/
def Slot.wellFormed (maxLen segment secLen : Nat) : Slot → Bool
  | .empty => true
  | .direct sym len => sym < Config.llAlphabet && 0 < len && len ≤ maxLen
  | .link base => base + segment ≤ secLen

/-- `SEC` is whole segments of the given number of slots, no more than `PRI` could ever link
(10_state.md R24). -/
def wholeSegments (segment secLen : Nat) : Bool :=
  secLen % segment == 0 && secLen ≤ 2 ^ Config.primaryBitsMax * segment

/-- The shape of a compiled decoder (10_state.md R24). A code of at most 9 bits needs no segment (R89). -/
def Decoder.wellFormed (d : Decoder) : Bool :=
  d.maxLen ≤ Config.maxCodeLen && d.primaryBits == min d.maxLen Config.primaryBitsMax &&
    d.pri.length == 2 ^ d.primaryBits && d.smask == 2 ^ (d.maxLen - d.primaryBits) - 1 &&
    wholeSegments (2 ^ (d.maxLen - d.primaryBits)) d.sec.length &&
    (Config.primaryBitsMax < d.maxLen || d.sec.isEmpty) &&
    d.pri.all (Slot.wellFormed d.maxLen (2 ^ (d.maxLen - d.primaryBits)) d.sec.length) &&
    d.sec.all (fun e => Slot.wellFormed d.maxLen 0 0 e && match e with
      | .link _ => false
      | _ => true)

/-- `consume` and `readBits` take at most 32 bits (40_bitreader.md R73, R74); a window operation moves at most
`WIN_SIZE` bytes (43_window.md R95); `compileDecoder` takes a codebook the builder could have made
(42_huffman_decoder.md R89) and `decode` a compiled decoder (R90). -/
def Instr.wellFormed : Instr → Bool
  | .consume n => n ≤ Config.consumeMax
  | .readBits n => n ≤ Config.consumeMax
  | .slide n => n ≤ Config.winSize
  | .dataEmission n => n ≤ Config.winSize
  | .compileDecoder book => book.wellFormed
  | .decode dec _ => dec.wellFormed
  | _ => true

end Sys2Proof
end

