-- ==== Sys2Proof/Decode.lean ====
section
/-! DEFINITION. The decoder, from the encodings of 30_encoding.md to `Instr`, and after it the encoder.

The block has several decoders, one for each format of R48, and the same bits mean different things to
each: a word is decoded AS an element of a format. -/

namespace Sys2Proof

/-- An encoded instruction: the format that reads it and its word or, for a Huffman-coded format, the
symbol value its decoder yields (30_encoding.md R48). -/
inductive Element where
  | blockHeader (w : BitVec 3)
  | storedHeader (w : BitVec 32)
  | dynamicHeader (w : BitVec 14)
  | clSymbol (v : Nat)
  | litlenSymbol (v : Nat)
  | distSymbol (v : Nat)
  | portCmd (w : BitVec 8)
  | internalOp (w : BitVec 8) (args : OpArgs)
  deriving DecidableEq, Repr

/-- The header word of the given type and final flag: BFINAL is bit 0 and BTYPE bits 2:1 (R50). -/
def blockHeaderWord (btype : BitVec 2) (final : Bool) : BitVec 3 := btype ++ BitVec.ofBool final

/-- BFINAL of a block header (R50). -/
def blockFinal (w : BitVec 3) : Bool := w.getLsbD 0

/-- BTYPE of a block header (R50). -/
def blockType (w : BitVec 3) : BitVec 2 := w.extractLsb' 1 2

/-- R50: the four block types. -/
def decodeBlockHeader (w : BitVec 3) : Instr :=
  match (blockType w).toNat with
  | 0 => .blockStored (blockFinal w)
  | 1 => .blockFixed (blockFinal w)
  | 2 => .blockDynamic (blockFinal w)
  | _ => .blockReserved (blockFinal w)

/-- R51: LEN is the low half of the four bytes, NLEN the high half. -/
def decodeStoredHeader (w : BitVec 32) : Instr :=
  .storedHeader (w.extractLsb' 0 16) (w.extractLsb' 16 16)

/-- R53: HLIT, HDIST and HCLEN in stream order. -/
def decodeDynamicHeader (w : BitVec 14) : Instr :=
  .dynamicHeader (w.extractLsb' 0 5) (w.extractLsb' 5 5) (w.extractLsb' 10 4)

/-- The code-length symbols 0..18, by value (R54). -/
def clInstrs : List Instr :=
  [.clLen0, .clLen1, .clLen2, .clLen3, .clLen4, .clLen5, .clLen6, .clLen7, .clLen8, .clLen9, .clLen10,
   .clLen11, .clLen12, .clLen13, .clLen14, .clLen15, .clRepeat16, .clZero17, .clZero18]

/-- The literal/length symbols 256..287, by value (R55, R62). -/
def lengthInstrs : List Instr :=
  [.eob, .len257, .len258, .len259, .len260, .len261, .len262, .len263, .len264, .len265, .len266,
   .len267, .len268, .len269, .len270, .len271, .len272, .len273, .len274, .len275, .len276,
   .len277, .len278, .len279, .len280, .len281, .len282, .len283, .len284, .len285, .ll286, .ll287]

/-- The distance symbols 0..31, by value (R56, R63). -/
def distInstrs : List Instr :=
  [.dist0, .dist1, .dist2, .dist3, .dist4, .dist5, .dist6, .dist7, .dist8, .dist9, .dist10, .dist11,
   .dist12, .dist13, .dist14, .dist15, .dist16, .dist17, .dist18, .dist19, .dist20, .dist21,
   .dist22, .dist23, .dist24, .dist25, .dist26, .dist27, .dist28, .dist29, .dist30, .dist31]

/-- The command words whose bits 7:4 are 0, by opcode (R67, R137). -/
def cmdInstrs : List Instr :=
  [.reset, .step, .status, .cmdReserved3, .cmdReserved4, .cmdReserved5, .cmdReserved6, .cmdReserved7,
   .cmdReserved8, .cmdReserved9, .cmdReservedA, .cmdReservedB, .cmdReservedC, .cmdReservedD,
   .cmdReservedE, .cmdReservedF]

/-- The command words whose bits 7:4 are 1..15, by that nibble (R137). -/
def badhighInstrs : List (BitVec 4 → Instr) :=
  [Instr.cmdBadhigh1, Instr.cmdBadhigh2, Instr.cmdBadhigh3, Instr.cmdBadhigh4, Instr.cmdBadhigh5,
   Instr.cmdBadhigh6, Instr.cmdBadhigh7, Instr.cmdBadhigh8, Instr.cmdBadhigh9, Instr.cmdBadhighA,
   Instr.cmdBadhighB, Instr.cmdBadhighC, Instr.cmdBadhighD, Instr.cmdBadhighE, Instr.cmdBadhighF]

/-- The internal operations 0x00..0x18, by index (R69). -/
def internalInstrs : List (OpArgs → Instr) :=
  [fun _ => .peekBits, fun a => .consume a.n, fun a => .readBits a.n, fun _ => .byteAlign,
   fun _ => .hasDataLeft, fun a => .read a.n, fun a => .readExact a.n,
   fun a => .buildCodebook a.lens, fun a => .compileDecoder a.book, fun a => .decode a.dec a.bits,
   fun a => .decodeSymbol a.which, fun _ => .writeBuffer, fun a => .slide a.n,
   fun _ => .windowReset, fun _ => .lz77Decode, fun _ => .parseDynamic, fun _ => .headerStep,
   fun _ => .blockStep, fun a => .storedBlock a.final, fun a => .fixedBlock a.final,
   fun a => .dynamicBlock a.final, fun a => .inflateStep a.final, fun _ => .footerStep,
   fun _ => .endStep, fun a => .dataEmission a.n]

/-- R54: symbols 19..31 do not exist. -/
def decodeClSymbol (v : Nat) : Option Instr := clInstrs[v]?

/-- R101: a value below 256 is the literal byte itself; R62: there is no symbol above 287. -/
def decodeLitlenSymbol (v : Nat) : Option Instr :=
  if v < 256 then some (.lit (BitVec.ofNat 8 v)) else lengthInstrs[v - 256]?

/-- R56, R63: there is no distance symbol above 31. -/
def decodeDistSymbol (v : Nat) : Option Instr := distInstrs[v]?

/-- R67, R137: every command word is a command or an illegal command. -/
def decodePortCmd (w : BitVec 8) : Option Instr :=
  let high := (w.extractLsb' 4 4).toNat
  let low := w.extractLsb' 0 4
  if high = 0 then cmdInstrs[low.toNat]? else badhighInstrs[high - 1]?.map (· low)

/-- R69: an index of 0x00..0x18. -/
def decodeInternalOp (w : BitVec 8) (args : OpArgs) : Option Instr :=
  internalInstrs[w.toNat]?.map (· args)

/-- The decoder, format by format (R48). A value that is no row's is refused. -/
def decode : Element → Option Instr
  | .blockHeader w => some (decodeBlockHeader w)
  | .storedHeader w => some (decodeStoredHeader w)
  | .dynamicHeader w => some (decodeDynamicHeader w)
  | .clSymbol v => decodeClSymbol v
  | .litlenSymbol v => decodeLitlenSymbol v
  | .distSymbol v => decodeDistSymbol v
  | .portCmd w => decodePortCmd w
  | .internalOp w args => decodeInternalOp w args

/-- The element that a word of the opcode table's numbering is, when nothing but its size is known: the
formats share sizes and values, so one is fixed for each size. 8 bits are a host command, the one 8-bit
word the block is given from outside; 16 bits a literal/length symbol, and a dynamic header above the
symbol's range; 32 bits a stored header. DESIGN CHOICE, safe: notes/assumptions/14.md. -/
def tableElement (nbits w : Nat) : Option Element :=
  if nbits = 8 ∧ w < 2 ^ 8 then some (.portCmd (BitVec.ofNat 8 w))
  else if nbits = 16 ∧ w < Config.llAlphabet then some (.litlenSymbol w)
  else if nbits = 16 ∧ w < 2 ^ 14 then some (.dynamicHeader (BitVec.ofNat 14 w))
  else if nbits = 32 ∧ w < 2 ^ 32 then some (.storedHeader (BitVec.ofNat 32 w))
  else none

/-- The instruction the decoder reads from a word of the opcode table's numbering. -/
def decodeTableWord (nbits w : Nat) : Option Instr := (tableElement nbits w).bind decode

/-- The encoder, from the same tables of 30_encoding.md: block headers (R50), the stored header (R51), the
dynamic header (R53), the symbol values (R54, R55, R56, R62, R63), the command words (R67, R137) and the
internal operations' indices (R69). -/
def encode : Instr → Element
  | .blockStored final => .blockHeader (blockHeaderWord 0 final)
  | .blockFixed final => .blockHeader (blockHeaderWord 1 final)
  | .blockDynamic final => .blockHeader (blockHeaderWord 2 final)
  | .blockReserved final => .blockHeader (blockHeaderWord 3 final)
  | .storedHeader len nlen => .storedHeader (nlen ++ len)
  | .dynamicHeader hlit hdist hclen => .dynamicHeader (hclen ++ hdist ++ hlit)
  | .clLen0 => .clSymbol 0
  | .clLen1 => .clSymbol 1
  | .clLen2 => .clSymbol 2
  | .clLen3 => .clSymbol 3
  | .clLen4 => .clSymbol 4
  | .clLen5 => .clSymbol 5
  | .clLen6 => .clSymbol 6
  | .clLen7 => .clSymbol 7
  | .clLen8 => .clSymbol 8
  | .clLen9 => .clSymbol 9
  | .clLen10 => .clSymbol 10
  | .clLen11 => .clSymbol 11
  | .clLen12 => .clSymbol 12
  | .clLen13 => .clSymbol 13
  | .clLen14 => .clSymbol 14
  | .clLen15 => .clSymbol 15
  | .clRepeat16 => .clSymbol 16
  | .clZero17 => .clSymbol 17
  | .clZero18 => .clSymbol 18
  | .lit byte => .litlenSymbol byte.toNat
  | .eob => .litlenSymbol 256
  | .len257 => .litlenSymbol 257
  | .len258 => .litlenSymbol 258
  | .len259 => .litlenSymbol 259
  | .len260 => .litlenSymbol 260
  | .len261 => .litlenSymbol 261
  | .len262 => .litlenSymbol 262
  | .len263 => .litlenSymbol 263
  | .len264 => .litlenSymbol 264
  | .len265 => .litlenSymbol 265
  | .len266 => .litlenSymbol 266
  | .len267 => .litlenSymbol 267
  | .len268 => .litlenSymbol 268
  | .len269 => .litlenSymbol 269
  | .len270 => .litlenSymbol 270
  | .len271 => .litlenSymbol 271
  | .len272 => .litlenSymbol 272
  | .len273 => .litlenSymbol 273
  | .len274 => .litlenSymbol 274
  | .len275 => .litlenSymbol 275
  | .len276 => .litlenSymbol 276
  | .len277 => .litlenSymbol 277
  | .len278 => .litlenSymbol 278
  | .len279 => .litlenSymbol 279
  | .len280 => .litlenSymbol 280
  | .len281 => .litlenSymbol 281
  | .len282 => .litlenSymbol 282
  | .len283 => .litlenSymbol 283
  | .len284 => .litlenSymbol 284
  | .len285 => .litlenSymbol 285
  | .ll286 => .litlenSymbol 286
  | .ll287 => .litlenSymbol 287
  | .dist0 => .distSymbol 0
  | .dist1 => .distSymbol 1
  | .dist2 => .distSymbol 2
  | .dist3 => .distSymbol 3
  | .dist4 => .distSymbol 4
  | .dist5 => .distSymbol 5
  | .dist6 => .distSymbol 6
  | .dist7 => .distSymbol 7
  | .dist8 => .distSymbol 8
  | .dist9 => .distSymbol 9
  | .dist10 => .distSymbol 10
  | .dist11 => .distSymbol 11
  | .dist12 => .distSymbol 12
  | .dist13 => .distSymbol 13
  | .dist14 => .distSymbol 14
  | .dist15 => .distSymbol 15
  | .dist16 => .distSymbol 16
  | .dist17 => .distSymbol 17
  | .dist18 => .distSymbol 18
  | .dist19 => .distSymbol 19
  | .dist20 => .distSymbol 20
  | .dist21 => .distSymbol 21
  | .dist22 => .distSymbol 22
  | .dist23 => .distSymbol 23
  | .dist24 => .distSymbol 24
  | .dist25 => .distSymbol 25
  | .dist26 => .distSymbol 26
  | .dist27 => .distSymbol 27
  | .dist28 => .distSymbol 28
  | .dist29 => .distSymbol 29
  | .dist30 => .distSymbol 30
  | .dist31 => .distSymbol 31
  | .reset => .portCmd 0x00
  | .step => .portCmd 0x01
  | .status => .portCmd 0x02
  | .cmdReserved3 => .portCmd 0x03
  | .cmdReserved4 => .portCmd 0x04
  | .cmdReserved5 => .portCmd 0x05
  | .cmdReserved6 => .portCmd 0x06
  | .cmdReserved7 => .portCmd 0x07
  | .cmdReserved8 => .portCmd 0x08
  | .cmdReserved9 => .portCmd 0x09
  | .cmdReservedA => .portCmd 0x0A
  | .cmdReservedB => .portCmd 0x0B
  | .cmdReservedC => .portCmd 0x0C
  | .cmdReservedD => .portCmd 0x0D
  | .cmdReservedE => .portCmd 0x0E
  | .cmdReservedF => .portCmd 0x0F
  | .cmdBadhigh1 low => .portCmd (0x1#4 ++ low)
  | .cmdBadhigh2 low => .portCmd (0x2#4 ++ low)
  | .cmdBadhigh3 low => .portCmd (0x3#4 ++ low)
  | .cmdBadhigh4 low => .portCmd (0x4#4 ++ low)
  | .cmdBadhigh5 low => .portCmd (0x5#4 ++ low)
  | .cmdBadhigh6 low => .portCmd (0x6#4 ++ low)
  | .cmdBadhigh7 low => .portCmd (0x7#4 ++ low)
  | .cmdBadhigh8 low => .portCmd (0x8#4 ++ low)
  | .cmdBadhigh9 low => .portCmd (0x9#4 ++ low)
  | .cmdBadhighA low => .portCmd (0xA#4 ++ low)
  | .cmdBadhighB low => .portCmd (0xB#4 ++ low)
  | .cmdBadhighC low => .portCmd (0xC#4 ++ low)
  | .cmdBadhighD low => .portCmd (0xD#4 ++ low)
  | .cmdBadhighE low => .portCmd (0xE#4 ++ low)
  | .cmdBadhighF low => .portCmd (0xF#4 ++ low)
  | .peekBits => .internalOp 0x00 .unused
  | .consume n => .internalOp 0x01 { OpArgs.unused with n := n }
  | .readBits n => .internalOp 0x02 { OpArgs.unused with n := n }
  | .byteAlign => .internalOp 0x03 .unused
  | .hasDataLeft => .internalOp 0x04 .unused
  | .read n => .internalOp 0x05 { OpArgs.unused with n := n }
  | .readExact n => .internalOp 0x06 { OpArgs.unused with n := n }
  | .buildCodebook lens => .internalOp 0x07 { OpArgs.unused with lens := lens }
  | .compileDecoder book => .internalOp 0x08 { OpArgs.unused with book := book }
  | .decode dec bits => .internalOp 0x09 { OpArgs.unused with dec := dec, bits := bits }
  | .decodeSymbol which => .internalOp 0x0A { OpArgs.unused with which := which }
  | .writeBuffer => .internalOp 0x0B .unused
  | .slide n => .internalOp 0x0C { OpArgs.unused with n := n }
  | .windowReset => .internalOp 0x0D .unused
  | .lz77Decode => .internalOp 0x0E .unused
  | .parseDynamic => .internalOp 0x0F .unused
  | .headerStep => .internalOp 0x10 .unused
  | .blockStep => .internalOp 0x11 .unused
  | .storedBlock final => .internalOp 0x12 { OpArgs.unused with final := final }
  | .fixedBlock final => .internalOp 0x13 { OpArgs.unused with final := final }
  | .dynamicBlock final => .internalOp 0x14 { OpArgs.unused with final := final }
  | .inflateStep final => .internalOp 0x15 { OpArgs.unused with final := final }
  | .footerStep => .internalOp 0x16 .unused
  | .endStep => .internalOp 0x17 .unused
  | .dataEmission n => .internalOp 0x18 { OpArgs.unused with n := n }

end Sys2Proof
end

