-- ==== Sys2Proof/Machine/State.lean ====
section
/-! DEFINITION. The machine's state as plain data, the reasons a step can stop, and the state after reset.

Register names are the spec's, in lower camel case: `brPos` is `BR_POS` (10_state.md R18, R27). -/

namespace Sys2Proof.Machine

/-- `PR_STATE` (10_state.md R22). Its encodings 6 and 7 are never held, so they are no value here. -/
inductive PrState where
  | header
  | block
  | inflate
  | inflateFinalBlock
  | footer
  | endOfStream
  deriving DecidableEq, Repr

/-- A response of the block (30_encoding.md R68). A Data response holds its bytes by value
(45_block_producer.md R120); its count n is their number. -/
inductive Response where
  | ok
  | header (record : List Byte)
  | data (bytes : List Byte)
  | footer (crc isize : BitVec 32)
  | endOfStream
  | error (code : BitVec 5)
  | status (word : BitVec 32)
  deriving DecidableEq, Repr

/-- Where the next step takes its instruction. In every run from reset it is the command port
(47_port_commands.md R133). The other points are those inside a STEP at which a unit takes its next element
of one format; a step from there runs that one element alone, and an internal operation likewise.
DESIGN CHOICE, safe: notes/assumptions/11.md. -/
inductive FetchPoint where
  | port
  | blockHeader
  | storedHeader
  | dynamicHeader
  | clSymbol
  | litlenSymbol
  | distSymbol
  | internalOp (w : BitVec 8) (args : OpArgs)
  deriving DecidableEq, Repr

/-- What an internal operation returned when it was run as an instruction of its own.
DESIGN CHOICE, safe: notes/assumptions/13.md. -/
inductive OpResult where
  | none
  | bits (v : BitVec 32)
  | bool (b : Bool)
  | bytes (v : List Byte)
  | codebook (b : Codebook)
  | decoder (d : Decoder)
  | symbolLength (sym len : Nat)
  | symbol (sym : Nat)
  | region (base size : Nat)
  | lz77 (r : LzResult) (count : Nat)
  | distance (d : Nat)
  | decoders (ll dist : Decoder)
  deriving DecidableEq, Repr

/-- Why the machine stops. -/
inductive Fault where
  /-- Raised by a window access outside addresses 0..98303, which do not exist (20_memory.md R30, R42). No rule
  makes one in a state a run from reset reaches. Safe: notes/assumptions/18.md. -/
  | windowAddress
  deriving DecidableEq, Repr

/-- Why the machine has no meaning for an instruction. -/
inductive Refusal where
  /-- Raised by an arm of `exec` whose instruction has no meaning in the model: by none. Safe. -/
  | notModelled (mnemonic : String)
  deriving DecidableEq, Repr

/-- The state of the block. -/
structure State where
  /-- `IN`, the input byte stream: the program (20_memory.md R31). No instruction writes it. -/
  inp : List Byte
  /-- `IN_END` (20_memory.md R31). No instruction writes it. -/
  inEnd : InEnd
  /-- `HDR_PARSE`, as bound by the host (70_reset_and_hazards.md R154). No instruction writes it. -/
  hdrParse : HdrBinding
  /-- `BR_POS`: index in `IN` of the current byte; unbounded, never wraps (00_scope.md R9). -/
  brPos : Nat
  /-- `BR_OFF`: bits of the current byte already consumed. -/
  brOff : BitVec 3
  /-- `BR_BUF`: the refill buffer, which no rule reads (40_bitreader.md R70; notes/assumptions/6.md). -/
  brBuf : List Byte
  /-- `WIN`: the window's bytes that are not 0, by rising address (notes/assumptions/5.md). -/
  win : List Host.Cell
  /-- `WIN_BOUND`: the window's next write position at the start of a step. -/
  winBound : BitVec 17
  /-- `PR_STATE`. -/
  prState : PrState
  /-- `PR_FINAL`: the last block header's final flag. -/
  prFinal : Bool
  /-- `PR_SEEN`: a header has been read since reset. -/
  prSeen : Bool
  /-- `PR_ERR`: 0, or the latched error's code (60_exceptions.md R138). -/
  prErr : BitVec 5
  /-- `LL_DEC`: the installed literal/length decoder, or none (10_state.md R25). -/
  llDec : Option Decoder
  /-- `D_DEC`: the installed distance decoder, or none (10_state.md R25). -/
  dDec : Option Decoder
  /-- `LZ_CUR`: the LZ77 write cursor. -/
  lzCur : BitVec 17
  /-- `LZ_START`: the write cursor at the start of the call. -/
  lzStart : BitVec 17
  /-- The LZ77 result flag of 10_state.md R21: set by a decode call, not kept after the step that made it. -/
  lzResult : Option LzResult
  /-- `ST_LEN`: the stored block's length. -/
  stLen : BitVec 16
  /-- `ST_NLEN`: the stored block's complemented length. -/
  stNlen : BitVec 16
  /-- `DY_HLIT`: the number of literal/length code lengths. -/
  dyHlit : BitVec 9
  /-- `DY_HDIST`: the number of distance code lengths. -/
  dyHdist : BitVec 6
  /-- `DY_HCLEN`: the number of code-length code lengths. -/
  dyHclen : BitVec 5
  /-- `DY_CL[0..18]`: the code-length alphabet's lengths, by symbol. -/
  dyCl : List (BitVec 3)
  /-- `DY_LENS`: the code lengths decoded so far. -/
  dyLens : List (BitVec 4)
  /-- `CL_DEC`: the code-length decoder. -/
  clDec : Decoder
  /-- `BH`: the block header just read. -/
  bh : BitVec 3
  /-- The command words the host has still to send, the next one first (47_port_commands.md R133). -/
  commands : List (BitVec 8)
  /-- The responses sent so far, the newest first (47_port_commands.md R133). -/
  responses : List Response
  /-- The model's own: the value the last internal operation returned, run as an instruction. -/
  opResult : OpResult
  /-- The model's own: where the next step takes its instruction. -/
  fetchPoint : FetchPoint
  deriving DecidableEq, Repr

/-- The machine after power-on (70_reset_and_hazards.md R152): every persistent register at the value given
there. The launch parameters are unbound and are given the values of notes/assumptions/1.md and 2.md; the
window reads 0 (5.md); the transient registers, which have no reset value, are 0 or empty (7.md). All of
these are DESIGN CHOICES, unsafe. -/
def State.reset : State where
  inp := []
  inEnd := .eof
  hdrParse := .reference
  brPos := 0
  brOff := 0
  brBuf := []
  win := []
  winBound := 0
  prState := .header
  prFinal := false
  prSeen := false
  prErr := 0
  llDec := none
  dDec := none
  lzCur := 0
  lzStart := 0
  lzResult := none
  stLen := 0
  stNlen := 0
  dyHlit := 0
  dyHdist := 0
  dyHclen := 0
  dyCl := List.replicate 19 0
  dyLens := []
  clDec := Decoder.noCodes
  bh := 0
  commands := []
  responses := []
  opResult := .none
  fetchPoint := .port

end Sys2Proof.Machine
end

