-- ==== Sys2Proof/Machine/Ops.lean ====
section
/-! DEFINITION. The shared operations under every meaning: the result of an operation and how operations
follow one another (00_scope.md R13), the window memory (R12), responding (30_encoding.md R68), taking an
error and the way out of one (60_exceptions.md R142, R144), and how an operation is run as an instruction. -/

namespace Sys2Proof.Machine

/-! ## Results of operations -/

/-- How an operation ends: `return` with a value, `raise` with the state it leaves (R13, R143), or a stop of the
model. -/
inductive Res (α : Type) where
  | ok (a : α) (s : State)
  | raise (e : Err) (s : State)
  | fault (f : Fault)
  deriving DecidableEq, Repr

/-- One operation after another: a raise ends both at once (R13). -/
def Res.bind {α β : Type} (r : Res α) (k : α → State → Res β) : Res β :=
  match r with
  | .ok a s => k a s
  | .raise e s => .raise e s
  | .fault f => .fault f

/-! ## The window memory -/

/-- The bytes of a space, by address: strictly rising addresses, no entry equal to what an unlisted address
reads as. -/
abbrev Memory := List Host.Cell

/-- What an address nothing has written reads as. No rule of the block reads one in a reachable state
(10_state.md R29). DESIGN CHOICE, unsafe: notes/assumptions/5.md. -/
def Memory.unwritten : Byte := 0

/-- The canonical form, from the given lowest address on. -/
def Memory.wfFrom (low : Nat) : Memory → Bool
  | [] => true
  | (a, b) :: m => low ≤ a && b != Memory.unwritten && Memory.wfFrom (a + 1) m

/-- The canonical form. -/
def Memory.wf (m : Memory) : Bool := Memory.wfFrom 0 m

/-- The byte at an address. -/
def Memory.read : Memory → Nat → Byte
  | [], _ => Memory.unwritten
  | (a, b) :: m, x => if a = x then b else Memory.read m x

/-- The cells that hold the given bytes from an address on. -/
def Memory.cells : Nat → List Byte → Memory
  | _, [] => []
  | a, b :: bs => if b = Memory.unwritten then Memory.cells (a + 1) bs else (a, b) :: Memory.cells (a + 1) bs

/-- Writes bytes from an address on. -/
def Memory.writeRange (m : Memory) (addr : Nat) (v : List Byte) : Memory :=
  m.filter (fun c => c.1 < addr) ++ Memory.cells addr v ++ m.filter (fun c => addr + v.length ≤ c.1)

/-- Writes one byte. -/
def Memory.write (m : Memory) (addr : Nat) (b : Byte) : Memory := m.writeRange addr [b]

/-- The `n` bytes from an address on, read in one walk of a canonical memory. -/
def Memory.readRange : Memory → Nat → Nat → List Byte
  | _, _, 0 => []
  | m, addr, n + 1 =>
    match m.dropWhile (fun c => c.1 < addr) with
    | [] => Memory.unwritten :: Memory.readRange [] (addr + 1) n
    | (a, b) :: rest =>
      if a = addr then b :: Memory.readRange rest (addr + 1) n
      else Memory.unwritten :: Memory.readRange ((a, b) :: rest) (addr + 1) n

/-- `MemRead(WIN, addr, n)` (00_scope.md R12). Addresses of the window are 0..98303 (20_memory.md R30). -/
def winRead (addr n : Nat) (s : State) : Res (List Byte) :=
  if addr + n ≤ Config.winSize then .ok (Memory.readRange s.win addr n) s else .fault .windowAddress

/-- `MemWrite(WIN, addr, len v, v)` (00_scope.md R12). -/
def winWrite (addr : Nat) (v : List Byte) (s : State) : Res Unit :=
  if addr + v.length ≤ Config.winSize then .ok () { s with win := Memory.writeRange s.win addr v }
  else .fault .windowAddress

/-! ## Responding, taking an error, and the way out of one -/

/-- `respond R` (00_scope.md R13): the one response of the current command. -/
def respond (r : Response) (s : State) : State := { s with responses := r :: s.responses }

/-- The error codes of 60_exceptions.md R138. -/
def errCode : Err → BitVec 5
  | .ioError => 1
  | .unexpectedEndOfInput => 2
  | .emptyInput => 3
  | .invalidGzHeader => 4
  | .invalidBlockType => 5
  | .blockType0LenMismatch => 6
  | .invalidCodeLengths => 7
  | .huffmanDecoderCodeNotFound => 8
  | .distanceTooMuch => 9
  | .readDynamicCodebook => 10
  | .checksumMismatch => 11
  | .sizeMismatch => 12
  | .endOfBlockNotFound => 13
  | .invalidLengthSymbol => 14
  | .invalidDistanceSymbol => 15
  | .illegalCommand => 16

/-- Taking an error (60_exceptions.md R142): the code is latched in `PR_ERR` and is the response. There is no
vector, saved program counter or mode change; what the step wrote before the raise stays and `PR_STATE`
keeps its value (R143). -/
def enterError (e : Err) (s : State) : State :=
  respond (.error (errCode e)) { s with prErr := errCode e }

/-- `resetState()` (70_reset_and_hazards.md R152), the only way out of an error (60_exceptions.md R144). The
input and its collaborator are unchanged, and so are the window's bytes; the LZ77 flag returns to its reset
value (10_state.md R21). The transient registers keep what they hold: notes/assumptions/28.md. -/
def resetState (s : State) : State :=
  { s with
    brPos := 0
    brOff := 0
    brBuf := []
    winBound := 0
    prState := .header
    prFinal := false
    prSeen := false
    prErr := 0
    llDec := none
    dDec := none
    lzResult := none }

/-! ## An operation run as an instruction -/

/-- The outcome of an operation that is the instruction: on return `k` puts the returned value where the
instruction leaves it, on raise the error is taken. -/
def deliver {α : Type} (r : Res α) (k : α → State → State) : Host.Outcome State Fault Refusal :=
  match r with
  | .ok a s => .next (k a s)
  | .raise e s => .next (enterError e s)
  | .fault f => .fault f

/-- The outcome of an operation that returns nothing the instruction keeps. -/
def deliverUnit (r : Res Unit) : Host.Outcome State Fault Refusal := deliver r fun _ s => s

/-- The outcome of an internal operation that returns a value: it stands in `opResult`. -/
def deliverResult {α : Type} (r : Res α) (f : α → OpResult) : Host.Outcome State Fault Refusal :=
  deliver r fun a s => { s with opResult := f a }

end Sys2Proof.Machine
end

