-- ==== Sys2Proof/Machine/Operands.lean ====
section
/-! DEFINITION. Bit fields and byte order (00_scope.md R11, R14), the tables of 30_encoding.md R55, R56, R57 and
R58, and the assembly of operands from a base and an extra-bits field (R60). The tables are RFC 1951's,
which the spec supplies [from general knowledge]: notes/assumptions/25.md. -/

namespace Sys2Proof.Machine

/-! ## Bits and bytes -/

/-- `mask(n)` (00_scope.md R11). -/
def mask (n : Nat) : Nat := 2 ^ n - 1

/-- `rev_L(c)`: the L-bit reversal (00_scope.md R11). -/
def revBits : Nat → Nat → Nat
  | 0, _ => 0
  | l + 1, c => (c % 2) * 2 ^ l + revBits l (c / 2)

/-- `LE16(b0, b1)` (00_scope.md R14). -/
def le16 (b0 b1 : Byte) : BitVec 16 := b1 ++ b0

/-- `LE32(b0, b1, b2, b3)` (00_scope.md R14). -/
def le32 (b0 b1 b2 b3 : Byte) : BitVec 32 := b3 ++ b2 ++ b1 ++ b0

/-- Byte `i` of a byte sequence (00_scope.md R14); the sequences it is used on are long enough. -/
def byteAt (v : List Byte) (i : Nat) : Byte := v.getD i 0

/-! ## Tables -/

/-- `LEN_BASE` (30_encoding.md R55), by symbol - 257. -/
def lenBase : List Nat :=
  [3, 4, 5, 6, 7, 8, 9, 10, 11, 13, 15, 17, 19, 23, 27, 31, 35, 43, 51, 59, 67, 83, 99, 115, 131, 163, 195, 227, 258]

/-- `LEN_EXTRA` (30_encoding.md R55), by symbol - 257. -/
def lenExtra : List Nat :=
  [0, 0, 0, 0, 0, 0, 0, 0, 1, 1, 1, 1, 2, 2, 2, 2, 3, 3, 3, 3, 4, 4, 4, 4, 5, 5, 5, 5, 0]

/-- `DIST_BASE` (30_encoding.md R56), by symbol. -/
def distBase : List Nat :=
  [1, 2, 3, 4, 5, 7, 9, 13, 17, 25, 33, 49, 65, 97, 129, 193, 257, 385, 513, 769, 1025, 1537, 2049, 3073,
   4097, 6145, 8193, 12289, 16385, 24577]

/-- `DIST_EXTRA` (30_encoding.md R56), by symbol. -/
def distExtra : List Nat :=
  [0, 0, 0, 0, 1, 1, 2, 2, 3, 3, 4, 4, 5, 5, 6, 6, 7, 7, 8, 8, 9, 9, 10, 10, 11, 11, 12, 12, 13, 13]

/-- `CL_PERM` (30_encoding.md R57): the code-length symbol whose length the i-th 3-bit value is. -/
def clPerm : List Nat := [16, 17, 18, 0, 8, 7, 9, 6, 10, 5, 11, 4, 12, 3, 13, 2, 14, 1, 15]

/-- The fixed literal/length code lengths (30_encoding.md R58). -/
def fixedLlLens : List Nat :=
  List.replicate 144 8 ++ List.replicate 112 9 ++ List.replicate 24 7 ++ List.replicate 8 8

/-- The fixed distance code lengths (30_encoding.md R58). -/
def fixedDLens : List Nat := List.replicate 32 5

/-! ## Operand assembly (30_encoding.md R60) -/

/-- The number of extra bits of a length symbol 257..285. -/
def lengthExtraBits (sym : Nat) : Nat := lenExtra.getD (sym - 257) 0

/-- A length from its symbol and its extra-bits field. -/
def lengthOf (sym : Nat) (extra : BitVec 32) : Nat := lenBase.getD (sym - 257) 0 + extra.toNat

/-- The number of extra bits of a distance symbol 0..29. -/
def distExtraBits (ds : Nat) : Nat := distExtra.getD ds 0

/-- A distance from its symbol and its extra-bits field. -/
def distanceOf (ds : Nat) (extra : BitVec 32) : Nat := distBase.getD ds 0 + extra.toNat

/-- The repeat counts of code-length symbols 16, 17 and 18 (30_encoding.md R54). -/
def repeatCount16 (extra : BitVec 32) : Nat := 3 + extra.toNat

/-- See `repeatCount16`. -/
def zeroCount17 (extra : BitVec 32) : Nat := 3 + extra.toNat

/-- See `repeatCount16`. -/
def zeroCount18 (extra : BitVec 32) : Nat := 11 + extra.toNat

end Sys2Proof.Machine
end

