-- ==== Sys2Proof/Machine/Flags.lean ====
section
/-! DEFINITION. The flags and the status word: the encodings of `PR_STATE` (10_state.md R22), the writes of
`PR_FINAL` and `BH` by a block header (45_block_producer.md R114), the STATUS word (10_state.md R23), the
response tags (30_encoding.md R68), and the one error value of a source that has run out
(40_bitreader.md R70). -/

namespace Sys2Proof.Machine

/-- The 3-bit encodings of `PR_STATE` (10_state.md R22). -/
def prStateCode : PrState → BitVec 3
  | .header => 0
  | .block => 1
  | .inflate => 2
  | .inflateFinalBlock => 3
  | .footer => 4
  | .endOfStream => 5

/-- The STATUS word (10_state.md R23, 47_port_commands.md R136): STATE 2:0, FINAL 3, SEEN 4, ERR 9:5,
BOUND 26:10, BITOFF 29:27, and 31:30 read as 0. -/
def statusWord (s : State) : BitVec 32 :=
  (prStateCode s.prState).setWidth 32
    ||| ((BitVec.ofBool s.prFinal).setWidth 32 <<< 3)
    ||| ((BitVec.ofBool s.prSeen).setWidth 32 <<< 4)
    ||| (s.prErr.setWidth 32 <<< 5)
    ||| (s.winBound.setWidth 32 <<< 10)
    ||| (s.brOff.setWidth 32 <<< 27)

/-- `BH <- w; PR_FINAL <- BH[0]`, before the type is looked at (45_block_producer.md R114). -/
def latchBlockHeader (w : BitVec 3) (s : State) : State := { s with bh := w, prFinal := blockFinal w }

/-- Where a block that has reached its end goes (45_block_producer.md R115, R118). -/
def afterBlock (final : Bool) : PrState := if final then .footer else .block

/-- Where a block that has filled the window goes (45_block_producer.md R118). -/
def afterWindowFull (final : Bool) : PrState := if final then .inflateFinalBlock else .inflate

/-- The 4-bit response tags (30_encoding.md R68). -/
def responseTag : Response → BitVec 4
  | .ok => 0x0
  | .header _ => 0x1
  | .data _ => 0x2
  | .footer _ _ => 0x3
  | .endOfStream => 0x4
  | .error _ => 0x5
  | .status _ => 0x6

/-- `SRC_FAIL` (40_bitreader.md R70, 60_exceptions.md R139). -/
def srcFail (s : State) : Err :=
  match s.inEnd with
  | .ioerr => .ioError
  | .eof => .unexpectedEndOfInput

end Sys2Proof.Machine
end

