-- ==== Sys2Proof/Machine/BitReader.lean ====
section
/-! DEFINITION. The Bit Stream Reader (40_bitreader.md): the seven operations over the bit cursor, and their
meanings as instructions of the `internal_op` format. The refill buffer is invisible (R70). -/

namespace Sys2Proof.Machine

/-- `AVAIL`: bytes from the current byte to the end of `IN` (R71). With the cursor past the end, where no run brings it
(R79), it is 0. DESIGN CHOICE, safe: notes/assumptions/37.md. -/
def avail (s : State) : Nat := s.inp.length - s.brPos

/-- The 32 bits from the cursor on, zero-padded past the end of `IN` (R72, 20_memory.md R33). -/
def peekWord (s : State) : BitVec 32 :=
  let b := fun k => byteAt s.inp (s.brPos + k)
  let w : BitVec 40 := b 4 ++ b 3 ++ b 2 ++ b 1 ++ b 0
  (w >>> s.brOff.toNat).setWidth 32

/-- `peekBits()` (R72). -/
def peekBits (s : State) : Res (BitVec 32) :=
  if avail s < Config.peekMinBytes then .raise (srcFail s) s else .ok (peekWord s) s

/-- `consume(n)` (R73): it never reads `IN` and never fails. -/
def consume (n : Nat) (s : State) : State :=
  let t := s.brOff.toNat + n
  { s with brPos := s.brPos + t / 8, brOff := BitVec.ofNat 3 t }

/-- `readBits(n)` (R74): peek, then consume, then mask. -/
def readBits (n : Nat) (s : State) : Res (BitVec 32) :=
  (peekBits s).bind fun v s => .ok (v &&& BitVec.ofNat 32 (mask n)) (consume n s)

/-- `byteAlign()` (R75). -/
def byteAlign (s : State) : State :=
  if s.brOff = 0 then s else { s with brPos := s.brPos + 1, brOff := 0 }

/-- `hasDataLeft()` (R76). -/
def hasDataLeft (s : State) : Res Bool :=
  if s.brPos < s.inp.length then .ok true s
  else match s.inEnd with
    | .ioerr => .raise .ioError s
    | .eof => .ok false s

/-- `MemRead(IN, addr, n)` (00_scope.md R12). -/
def inRead (addr n : Nat) (s : State) : List Byte := (s.inp.drop addr).take n

/-- `readExact(n)` (R77): the alignment has happened when it raises. `readExact(0)` returns no bytes wherever the cursor
is, also past the end of `IN`. DESIGN CHOICE, safe: notes/assumptions/37.md. -/
def readExact (n : Nat) (s : State) : Res (List Byte) :=
  let s := byteAlign s
  if avail s < n then .raise (srcFail s) s
  else .ok (inRead s.brPos n s) { s with brPos := s.brPos + n }

/-- `read(n)` (R78), the partial bulk read. Past the end of `IN` nothing is left to it: notes/assumptions/37.md. -/
def readSome (n : Nat) (s : State) : Res (List Byte) :=
  let s := byteAlign s
  let k := min n (avail s)
  if k = 0 ∧ 0 < n ∧ s.inEnd = .ioerr then .raise .ioError s
  else .ok (inRead s.brPos k s) { s with brPos := s.brPos + k }

/-! ## Meanings -/

/-- peekBits, R72. -/
def execPeekBits (s : State) : Host.Outcome State Fault Refusal := deliverResult (peekBits s) .bits

/-- consume, R73. -/
def execConsume (n : Nat) (s : State) : Host.Outcome State Fault Refusal := deliverUnit (.ok () (consume n s))

/-- readBits, R74. -/
def execReadBits (n : Nat) (s : State) : Host.Outcome State Fault Refusal := deliverResult (readBits n s) .bits

/-- byteAlign, R75. -/
def execByteAlign (s : State) : Host.Outcome State Fault Refusal := deliverUnit (.ok () (byteAlign s))

/-- hasDataLeft, R76. -/
def execHasDataLeft (s : State) : Host.Outcome State Fault Refusal := deliverResult (hasDataLeft s) .bool

/-- read, R78. -/
def execRead (n : Nat) (s : State) : Host.Outcome State Fault Refusal := deliverResult (readSome n s) .bytes

/-- readExact, R77. -/
def execReadExact (n : Nat) (s : State) : Host.Outcome State Fault Refusal := deliverResult (readExact n s) .bytes

end Sys2Proof.Machine
end

