-- ==== Sys2Proof/Machine/Codebook.lean ====
section
/-! DEFINITION. The Canonical Codebook Builder (41_codebook.md). -/

namespace Sys2Proof.Machine

/-- `bl_count[b]` (R83): the symbols of length `b`; `bl_count[0]` is 0 (D30). -/
def blCount (lens : List Nat) (b : Nat) : Nat := if b = 0 then 0 else lens.count b

/-- The first code of each length: `code = (code + bl_count[b-1]) << 1` from length 1 (R83). -/
def firstCode (lens : List Nat) : Nat → Nat
  | 0 => 0
  | b + 1 => (firstCode lens b + blCount lens b) <<< 1

/-- `next_code[0..15]` before any symbol is assigned (R83). -/
def firstCodes (lens : List Nat) : List Nat := (List.range (Config.maxCodeLen + 1)).map (firstCode lens)

/-- Assigns codes in increasing symbol order (R83); none when a code does not fit its length (R84). -/
def assignCodes : List Nat → List Nat → Option (List CodeEntry)
  | [], _ => some []
  | 0 :: lens, next => (assignCodes lens next).map (⟨0, 0⟩ :: ·)
  | l :: lens, next =>
    let c := next.getD l 0
    if 2 ^ l ≤ c then none else (assignCodes lens (next.set l (c + 1))).map (⟨c, l⟩ :: ·)

/-- `max(lens)` (R83). -/
def maxLenOf (lens : List Nat) : Nat := lens.foldl max 0

/-- `buildCodebook(lens)` (R83); none is `InvalidCodeLengths`. -/
def buildCodebook (lens : List Nat) : Option Codebook :=
  if lens.length = 0 ∨ Config.maxCodebookEntries < lens.length then none
  else if lens.any (fun l => Config.maxCodeLen < l) then none
  else (assignCodes lens (firstCodes lens)).map fun entries => { entries := entries, maxLen := maxLenOf lens }

/-- buildCodebook inside a step: the value, or the raise. It writes no register. -/
def buildOrRaise (lens : List Nat) (s : State) : Res Codebook :=
  match buildCodebook lens with
  | some b => .ok b s
  | none => .raise .invalidCodeLengths s

/-- buildCodebook, R83. -/
def execBuildCodebook (lens : List Nat) (s : State) : Host.Outcome State Fault Refusal :=
  deliverResult (buildOrRaise lens s) .codebook

end Sys2Proof.Machine
end

