-- ==== Sys2Proof/Machine/Huffman.lean ====
section
/-! DEFINITION. The Two-Level Huffman Decoder (42_huffman_decoder.md), and the fixed decoders (10_state.md R26). -/

namespace Sys2Proof.Machine

/-! ## Compilation (R89) -/

/-- `table[base + (start | (h << shift))] <- slot` for h in 0..count-1 (R89). -/
def fillSlots (table : List Slot) (base start shift count : Nat) (slot : Slot) : List Slot :=
  (List.range count).foldl (fun t h => t.set (base + (start ||| (h <<< shift))) slot) table

/-- The segment keyed by a code's first P stream bits, made when it is not there: its base, and the tables
`(PRI, SEC)` with it in place (R89). Of a codebook the builder returned, `PRI[key]` is empty or a link; the
base of another slot is a free value. -/
def reserveSegment (m p key : Nat) (t : List Slot × List Slot) : Nat × (List Slot × List Slot) :=
  match t.1.getD key .empty with
  | .link base => (base, t)
  | .direct sym len => (Config.directBase sym len, t)
  | .empty => (t.2.length, (t.1.set key (.link t.2.length), t.2 ++ List.replicate (2 ^ (m - p)) .empty))

/-- `2^(M - L)`: the slots of a code of length L (R89); a free value where the codebook says M is below L. -/
def slotsOf (m l : Nat) : Nat := if l ≤ m then 2 ^ (m - l) else Config.slotsPast m l

/-- Puts one symbol of code `e` into the tables `(PRI, SEC)` of a decoder with longest length `m` (R89). -/
def placeSymbol (m p sym : Nat) (e : CodeEntry) (t : List Slot × List Slot) : List Slot × List Slot :=
  let r := revBits e.len e.code
  if e.len = 0 then t
  else if e.len ≤ p then (fillSlots t.1 0 r e.len (2 ^ (p - e.len)) (.direct sym e.len), t.2)
  else
    let seg := reserveSegment m p (r &&& mask p) t
    (seg.2.1, fillSlots seg.2.2 seg.1 (r >>> p) (e.len - p) (slotsOf m e.len) (.direct sym e.len))

/-- Places the symbols of a codebook in increasing symbol index, from `sym` on (R89). -/
def placeSymbols (m p : Nat) : Nat → List CodeEntry → List Slot × List Slot → List Slot × List Slot
  | _, [], t => t
  | sym, e :: es, t => placeSymbols m p (sym + 1) es (placeSymbol m p sym e t)

/-- `compileDecoder(book)` (R89). -/
def compileDecoder (b : Codebook) : Decoder :=
  let p := min b.maxLen Config.primaryBitsMax
  let t := placeSymbols b.maxLen p 0 b.entries (List.replicate (2 ^ p) .empty, [])
  { maxLen := b.maxLen, primaryBits := p, pri := t.1, sec := t.2, smask := mask (b.maxLen - p) }

/-! ## Decoding (R90) -/

/-- The slot at an index of a table (R90); a compiled decoder has every slot that is asked for. -/
def slotAt (table : List Slot) (i : Nat) : Slot := table[i]?.getD (Config.missingSlot i)

/-- The slot the bits select, through at most one link (R90). -/
def lookupSlot (d : Decoder) (bits : Nat) : Slot :=
  match slotAt d.pri (bits &&& mask d.primaryBits) with
  | .link base => slotAt d.sec (base + ((bits >>> d.primaryBits) &&& d.smask))
  | slot => slot

/-- `decode(dec, bits)` (R90): the symbol and its length; none is `HuffmanDecoderCodeNotFound`. Of a compiled
decoder a secondary slot is never a link; what one would hold is a free value. -/
def decodeBits (d : Decoder) (bits : BitVec 32) : Option (Nat × Nat) :=
  match lookupSlot d bits.toNat with
  | .direct sym len => some (sym, len)
  | .empty => none
  | .link base => some (Config.linkFields base)

/-- decode inside a step. -/
def decodeOrRaise (d : Decoder) (bits : BitVec 32) (s : State) : Res (Nat × Nat) :=
  match decodeBits d bits with
  | some r => .ok r s
  | none => .raise .huffmanDecoderCodeNotFound s

/-- `decodeSymbol(dec)` (R91): peek, decode, consume the code's length. -/
def decodeSymbol (d : Decoder) (s : State) : Res Nat :=
  (peekBits s).bind fun bits s =>
    (decodeOrRaise d bits s).bind fun r s => .ok r.1 (consume r.2 s)

/-- An installed decoder; `none` reads as the decoder with no codes. No rule reads `none`
(70_reset_and_hazards.md R153). DESIGN CHOICE, safe: notes/assumptions/8.md. -/
def installed (d : Option Decoder) : Decoder := d.getD Decoder.noCodes

/-- The decoder an operation names. -/
def namedDecoder (which : DecoderName) (s : State) : Decoder :=
  match which with
  | .llDec => installed s.llDec
  | .dDec => installed s.dDec
  | .clDec => s.clDec

/-! ## The fixed decoders (10_state.md R26, 41_codebook.md R87) -/

/-- The decoder compiled from a list of code lengths; the lists it is used on are not refused (R87). -/
def decoderOfLens (lens : List Nat) : Decoder :=
  match buildCodebook lens with
  | some b => compileDecoder b
  | none => Decoder.noCodes

/-- `FIXED_LL_DEC`. -/
def fixedLlDec : Decoder := decoderOfLens fixedLlLens

/-- `FIXED_D_DEC`. -/
def fixedDDec : Decoder := decoderOfLens fixedDLens

/-! ## Meanings -/

/-- compileDecoder, R89. -/
def execCompileDecoder (book : Codebook) (s : State) : Host.Outcome State Fault Refusal :=
  deliverResult (.ok (compileDecoder book) s) .decoder

/-- decode, R90. -/
def execDecode (dec : Decoder) (bits : BitVec 32) (s : State) : Host.Outcome State Fault Refusal :=
  deliverResult (decodeOrRaise dec bits s) fun r => .symbolLength r.1 r.2

/-- decodeSymbol, R91. -/
def execDecodeSymbol (which : DecoderName) (s : State) : Host.Outcome State Fault Refusal :=
  deliverResult (decodeSymbol (namedDecoder which s) s) .symbol

end Sys2Proof.Machine
end

