-- ==== Sys2Proof/Machine/Window.lean ====
section
/-! DEFINITION. The Sliding Window (43_window.md): the boundary, the slide that compacts, the window reset. -/

namespace Sys2Proof.Machine

/-- `writeBuffer()` (R94): base and size of the region from the boundary on. -/
def writeBuffer (s : State) : Nat × Nat := (s.winBound.toNat, Config.winSize - s.winBound.toNat)

/-- `slide(n)` (R95). The compaction copies a snapshot of the last D bytes down, which R95 derives to be what
the ascending copy gives: notes/assumptions/19.md. -/
def slide (n : Nat) (s : State) : Res Unit :=
  let nb := s.winBound.toNat + n
  if Config.distLimit < nb then
    (winRead (nb - Config.distLimit) Config.distLimit s).bind fun v s =>
      (winWrite 0 v s).bind fun _ s => .ok () { s with winBound := BitVec.ofNat 17 Config.distLimit }
  else .ok () { s with winBound := BitVec.ofNat 17 nb }

/-- `windowReset()` (R96): the bytes are not cleared. -/
def windowReset (s : State) : State := { s with winBound := 0 }

/-! ## Meanings -/

/-- writeBuffer, R94. -/
def execWriteBuffer (s : State) : Host.Outcome State Fault Refusal :=
  deliverResult (.ok (writeBuffer s) s) fun r => .region r.1 r.2

/-- slide, R95. -/
def execSlide (n : Nat) (s : State) : Host.Outcome State Fault Refusal := deliverUnit (slide n s)

/-- windowReset, R96. -/
def execWindowReset (s : State) : Host.Outcome State Fault Refusal := deliverUnit (.ok () (windowReset s))

end Sys2Proof.Machine
end

