-- ==== Sys2Proof/Machine/Lz77.lean ====
section
/-! DEFINITION. The LZ77 Block Decoder (44_lz77.md): its literal/length and distance symbols, the copy, and the
decode loop. -/

namespace Sys2Proof.Machine

/-- `literal(sym)` (R101): one byte at the write cursor. -/
def literal (b : Byte) (s : State) : Res Unit :=
  (winWrite s.lzCur.toNat [b] s).bind fun _ s => .ok () { s with lzCur := BitVec.ofNat 17 (s.lzCur.toNat + 1) }

/-- The bytes written by this call: `LZ_CUR - LZ_START` (R99). -/
def lzCount (s : State) : Nat := s.lzCur.toNat - s.lzStart.toNat

/-- `WIN[pos + k] <- WIN[pos - dist + k]` for k in 0..length-1, ascending (R108). -/
def copyBytes (dist : Nat) : Nat → Nat → Memory → Memory
  | 0, _, m => m
  | length + 1, pos, m => copyBytes dist length (pos + 1) (Memory.write m pos (Memory.read m (pos - dist)))

/-- `copy(dist, length)` (R108). Its caller has checked `dist ≤ LZ_CUR`. -/
def copyBack (dist length : Nat) (s : State) : Res Unit :=
  let cur := s.lzCur.toNat
  if cur + length ≤ Config.winSize then
    .ok () { s with win := copyBytes dist length cur s.win, lzCur := BitVec.ofNat 17 (cur + length) }
  else .fault .windowAddress

/-- What follows a distance symbol (R106, R107): symbols 30 and 31 are illegal before any extra bits are
read; the others take their extra bits. -/
def distanceFrom (ds : Nat) (s : State) : Res Nat :=
  if 29 < ds then .raise .invalidDistanceSymbol s
  else (readBits (distExtraBits ds) s).bind fun x s => .ok (distanceOf ds x) s

/-- `distance()` (R106). -/
def readDistance (s : State) : Res Nat := (decodeSymbol (installed s.dDec) s).bind distanceFrom

/-- `backReference(sym)` (R103): the length's extra bits, the distance, the check, the copy. -/
def backReference (sym : Nat) (s : State) : Res Unit :=
  (readBits (lengthExtraBits sym) s).bind fun x s =>
    (readDistance s).bind fun dist s =>
      if s.lzCur.toNat < dist then .raise .distanceTooMuch s else copyBack dist (lengthOf sym x) s

/-- The WindowFull test made before each symbol (R100): `LZ_CUR + 258 > WIN_SIZE`. -/
def windowNearlyFull (s : State) : Bool := Config.winSize < s.lzCur.toNat + Config.maxLength

/-- The decode loop (R99), on a bound for the number of symbols. Each symbol that does not end the call writes
at least one byte, so a bound of `WIN_SIZE` is never met before the test of R100: notes/assumptions/20.md. -/
def lz77Loop : Nat → State → Res (LzResult × Nat)
  | 0, s => .ok (.windowFull, lzCount s) s
  | bound + 1, s =>
    if windowNearlyFull s then .ok (.windowFull, lzCount s) s
    else (decodeSymbol (installed s.llDec) s).bind fun sym s =>
      if sym ≤ 255 then (literal (BitVec.ofNat 8 sym) s).bind fun _ s => lz77Loop bound s
      else if sym = 256 then .ok (.done, lzCount s) s
      else if sym ≤ 285 then (backReference sym s).bind fun _ s => lz77Loop bound s
      else .raise .invalidLengthSymbol s

/-- The start of a call: both cursors at the boundary (R99). -/
def startLz77 (s : State) : State := { s with lzStart := s.winBound, lzCur := s.winBound }

/-- The end of a call: the flag of 10_state.md R21. -/
def endLz77 (r : LzResult × Nat) (s : State) : Res (LzResult × Nat) := .ok r { s with lzResult := some r.1 }

/-- `lz77Decode()` (R99). -/
def lz77Decode (s : State) : Res (LzResult × Nat) := (lz77Loop Config.winSize (startLz77 s)).bind endLz77

/-! ## Meanings: the symbols, each run at the unit's registers as they stand -/

/-- LIT, R101. -/
def execLit (byte : Byte) (s : State) : Host.Outcome State Fault Refusal := deliverUnit (literal byte s)

/-- EOB, R102: the call ends with Done and its count. -/
def execEob (s : State) : Host.Outcome State Fault Refusal :=
  deliverResult (endLz77 (.done, lzCount s) s) fun r => .lz77 r.1 r.2

/-- A length symbol as an instruction, R103. -/
def lengthSymbol (sym : Nat) (s : State) : Host.Outcome State Fault Refusal := deliverUnit (backReference sym s)

/-- A distance symbol as an instruction, R106, R107: the distance it gives the back-reference that reads it
stands in `opResult`. DEDUCED, safe: notes/assumptions/16.md. -/
def distanceSymbol (ds : Nat) (s : State) : Host.Outcome State Fault Refusal :=
  deliverResult (distanceFrom ds s) .distance

/-- An illegal literal/length symbol as an instruction, R104. -/
def illegalLengthSymbol (s : State) : Host.Outcome State Fault Refusal :=
  deliverUnit (.raise .invalidLengthSymbol s)

/-- LEN257, R103. -/
def execLen257 (s : State) : Host.Outcome State Fault Refusal := lengthSymbol 257 s

/-- LEN258, R103. -/
def execLen258 (s : State) : Host.Outcome State Fault Refusal := lengthSymbol 258 s

/-- LEN259, R103. -/
def execLen259 (s : State) : Host.Outcome State Fault Refusal := lengthSymbol 259 s

/-- LEN260, R103. -/
def execLen260 (s : State) : Host.Outcome State Fault Refusal := lengthSymbol 260 s

/-- LEN261, R103. -/
def execLen261 (s : State) : Host.Outcome State Fault Refusal := lengthSymbol 261 s

/-- LEN262, R103. -/
def execLen262 (s : State) : Host.Outcome State Fault Refusal := lengthSymbol 262 s

/-- LEN263, R103. -/
def execLen263 (s : State) : Host.Outcome State Fault Refusal := lengthSymbol 263 s

/-- LEN264, R103. -/
def execLen264 (s : State) : Host.Outcome State Fault Refusal := lengthSymbol 264 s

/-- LEN265, R103. -/
def execLen265 (s : State) : Host.Outcome State Fault Refusal := lengthSymbol 265 s

/-- LEN266, R103. -/
def execLen266 (s : State) : Host.Outcome State Fault Refusal := lengthSymbol 266 s

/-- LEN267, R103. -/
def execLen267 (s : State) : Host.Outcome State Fault Refusal := lengthSymbol 267 s

/-- LEN268, R103. -/
def execLen268 (s : State) : Host.Outcome State Fault Refusal := lengthSymbol 268 s

/-- LEN269, R103. -/
def execLen269 (s : State) : Host.Outcome State Fault Refusal := lengthSymbol 269 s

/-- LEN270, R103. -/
def execLen270 (s : State) : Host.Outcome State Fault Refusal := lengthSymbol 270 s

/-- LEN271, R103. -/
def execLen271 (s : State) : Host.Outcome State Fault Refusal := lengthSymbol 271 s

/-- LEN272, R103. -/
def execLen272 (s : State) : Host.Outcome State Fault Refusal := lengthSymbol 272 s

/-- LEN273, R103. -/
def execLen273 (s : State) : Host.Outcome State Fault Refusal := lengthSymbol 273 s

/-- LEN274, R103. -/
def execLen274 (s : State) : Host.Outcome State Fault Refusal := lengthSymbol 274 s

/-- LEN275, R103. -/
def execLen275 (s : State) : Host.Outcome State Fault Refusal := lengthSymbol 275 s

/-- LEN276, R103. -/
def execLen276 (s : State) : Host.Outcome State Fault Refusal := lengthSymbol 276 s

/-- LEN277, R103. -/
def execLen277 (s : State) : Host.Outcome State Fault Refusal := lengthSymbol 277 s

/-- LEN278, R103. -/
def execLen278 (s : State) : Host.Outcome State Fault Refusal := lengthSymbol 278 s

/-- LEN279, R103. -/
def execLen279 (s : State) : Host.Outcome State Fault Refusal := lengthSymbol 279 s

/-- LEN280, R103. -/
def execLen280 (s : State) : Host.Outcome State Fault Refusal := lengthSymbol 280 s

/-- LEN281, R103. -/
def execLen281 (s : State) : Host.Outcome State Fault Refusal := lengthSymbol 281 s

/-- LEN282, R103. -/
def execLen282 (s : State) : Host.Outcome State Fault Refusal := lengthSymbol 282 s

/-- LEN283, R103. -/
def execLen283 (s : State) : Host.Outcome State Fault Refusal := lengthSymbol 283 s

/-- LEN284, R103, R105. -/
def execLen284 (s : State) : Host.Outcome State Fault Refusal := lengthSymbol 284 s

/-- LEN285, R103. -/
def execLen285 (s : State) : Host.Outcome State Fault Refusal := lengthSymbol 285 s

/-- LL286, R104. -/
def execLl286 (s : State) : Host.Outcome State Fault Refusal := illegalLengthSymbol s

/-- LL287, R104. -/
def execLl287 (s : State) : Host.Outcome State Fault Refusal := illegalLengthSymbol s

/-- DIST0, R106. -/
def execDist0 (s : State) : Host.Outcome State Fault Refusal := distanceSymbol 0 s

/-- DIST1, R106. -/
def execDist1 (s : State) : Host.Outcome State Fault Refusal := distanceSymbol 1 s

/-- DIST2, R106. -/
def execDist2 (s : State) : Host.Outcome State Fault Refusal := distanceSymbol 2 s

/-- DIST3, R106. -/
def execDist3 (s : State) : Host.Outcome State Fault Refusal := distanceSymbol 3 s

/-- DIST4, R106. -/
def execDist4 (s : State) : Host.Outcome State Fault Refusal := distanceSymbol 4 s

/-- DIST5, R106. -/
def execDist5 (s : State) : Host.Outcome State Fault Refusal := distanceSymbol 5 s

/-- DIST6, R106. -/
def execDist6 (s : State) : Host.Outcome State Fault Refusal := distanceSymbol 6 s

/-- DIST7, R106. -/
def execDist7 (s : State) : Host.Outcome State Fault Refusal := distanceSymbol 7 s

/-- DIST8, R106. -/
def execDist8 (s : State) : Host.Outcome State Fault Refusal := distanceSymbol 8 s

/-- DIST9, R106. -/
def execDist9 (s : State) : Host.Outcome State Fault Refusal := distanceSymbol 9 s

/-- DIST10, R106. -/
def execDist10 (s : State) : Host.Outcome State Fault Refusal := distanceSymbol 10 s

/-- DIST11, R106. -/
def execDist11 (s : State) : Host.Outcome State Fault Refusal := distanceSymbol 11 s

/-- DIST12, R106. -/
def execDist12 (s : State) : Host.Outcome State Fault Refusal := distanceSymbol 12 s

/-- DIST13, R106. -/
def execDist13 (s : State) : Host.Outcome State Fault Refusal := distanceSymbol 13 s

/-- DIST14, R106. -/
def execDist14 (s : State) : Host.Outcome State Fault Refusal := distanceSymbol 14 s

/-- DIST15, R106. -/
def execDist15 (s : State) : Host.Outcome State Fault Refusal := distanceSymbol 15 s

/-- DIST16, R106. -/
def execDist16 (s : State) : Host.Outcome State Fault Refusal := distanceSymbol 16 s

/-- DIST17, R106. -/
def execDist17 (s : State) : Host.Outcome State Fault Refusal := distanceSymbol 17 s

/-- DIST18, R106. -/
def execDist18 (s : State) : Host.Outcome State Fault Refusal := distanceSymbol 18 s

/-- DIST19, R106. -/
def execDist19 (s : State) : Host.Outcome State Fault Refusal := distanceSymbol 19 s

/-- DIST20, R106. -/
def execDist20 (s : State) : Host.Outcome State Fault Refusal := distanceSymbol 20 s

/-- DIST21, R106. -/
def execDist21 (s : State) : Host.Outcome State Fault Refusal := distanceSymbol 21 s

/-- DIST22, R106. -/
def execDist22 (s : State) : Host.Outcome State Fault Refusal := distanceSymbol 22 s

/-- DIST23, R106. -/
def execDist23 (s : State) : Host.Outcome State Fault Refusal := distanceSymbol 23 s

/-- DIST24, R106. -/
def execDist24 (s : State) : Host.Outcome State Fault Refusal := distanceSymbol 24 s

/-- DIST25, R106. -/
def execDist25 (s : State) : Host.Outcome State Fault Refusal := distanceSymbol 25 s

/-- DIST26, R106. -/
def execDist26 (s : State) : Host.Outcome State Fault Refusal := distanceSymbol 26 s

/-- DIST27, R106. -/
def execDist27 (s : State) : Host.Outcome State Fault Refusal := distanceSymbol 27 s

/-- DIST28, R106. -/
def execDist28 (s : State) : Host.Outcome State Fault Refusal := distanceSymbol 28 s

/-- DIST29, R106. -/
def execDist29 (s : State) : Host.Outcome State Fault Refusal := distanceSymbol 29 s

/-- DIST30, R107. -/
def execDist30 (s : State) : Host.Outcome State Fault Refusal := distanceSymbol 30 s

/-- DIST31, R107. -/
def execDist31 (s : State) : Host.Outcome State Fault Refusal := distanceSymbol 31 s

/-- lz77Decode, R99. -/
def execLz77Decode (s : State) : Host.Outcome State Fault Refusal :=
  deliverResult (lz77Decode s) fun r => .lz77 r.1 r.2

end Sys2Proof.Machine
end

