-- ==== Sys2Proof/Machine/Dynamic.lean ====
section
/-! DEFINITION. Dynamic Codebook Parsing (46_dynamic_codebook.md): the counts, the code-length code, the coded
lengths with their repeats, and the two decoders. -/

namespace Sys2Proof.Machine

/-- The counts from their fields (R127, 30_encoding.md R60). -/
def setCounts (hlit hdist hclen : Nat) (s : State) : State :=
  { s with
    dyHlit := BitVec.ofNat 9 (hlit + 257)
    dyHdist := BitVec.ofNat 6 (hdist + 1)
    dyHclen := BitVec.ofNat 5 (hclen + 4) }

/-- `readCounts()` (R127): each count is written as its field is read. -/
def readCounts (s : State) : Res Unit :=
  (readBits 5 s).bind fun hlit s =>
    (readBits 5 { s with dyHlit := BitVec.ofNat 9 (hlit.toNat + 257) }).bind fun hdist s =>
      (readBits 4 { s with dyHdist := BitVec.ofNat 6 (hdist.toNat + 1) }).bind fun hclen s =>
        .ok () { s with dyHclen := BitVec.ofNat 5 (hclen.toNat + 4) }

/-- `DY_CL[sym] <- readBits(3)` for each symbol of the list, in order (R128). -/
def readClLens : List Nat → State → Res Unit
  | [], s => .ok () s
  | sym :: syms, s =>
    (readBits 3 s).bind fun v s => readClLens syms { s with dyCl := s.dyCl.set sym (v.setWidth 3) }

/-- `readCodeLengthCode()` (R128). -/
def readCodeLengthCode (s : State) : Res Unit :=
  (readClLens (clPerm.take s.dyHclen.toNat) { s with dyCl := List.replicate Config.clAlphabet 0 }).bind fun _ s =>
    (buildOrRaise (s.dyCl.map BitVec.toNat) s).bind fun b s => .ok () { s with clDec := compileDecoder b }

/-- Appends code lengths (R129). -/
def appendLens (v : List (BitVec 4)) (s : State) : State := { s with dyLens := s.dyLens ++ v }

/-- Code-length symbols 0..15: one length (R129). -/
def clLength (l : Nat) (s : State) : Res Unit := .ok () (appendLens [BitVec.ofNat 4 l] s)

/-- Code-length symbol 16: the last length again, which must be there (R129). -/
def clRepeat (s : State) : Res Unit :=
  match s.dyLens.getLast? with
  | none => .raise .readDynamicCodebook s
  | some l => (readBits 2 s).bind fun x s => .ok () (appendLens (List.replicate (repeatCount16 x) l) s)

/-- Code-length symbol 17: 3 to 10 zeros (R129). -/
def clZeros17 (s : State) : Res Unit :=
  (readBits 3 s).bind fun x s => .ok () (appendLens (List.replicate (zeroCount17 x) 0) s)

/-- Code-length symbol 18: 11 to 138 zeros (R129). -/
def clZeros18 (s : State) : Res Unit :=
  (readBits 7 s).bind fun x s => .ok () (appendLens (List.replicate (zeroCount18 x) 0) s)

/-- What a decoded code-length symbol does (R129). -/
def clSymbol (sym : Nat) (s : State) : Res Unit :=
  if sym ≤ 15 then clLength sym s
  else if sym = 16 then clRepeat s
  else if sym = 17 then clZeros17 s
  else clZeros18 s

/-- `total` (R129). -/
def lensTotal (s : State) : Nat := s.dyHlit.toNat + s.dyHdist.toNat

/-- `checkCount(total)` (R130). -/
def checkCount (s : State) : Res Unit :=
  if s.dyLens.length ≠ lensTotal s then .raise .readDynamicCodebook s else .ok () s

/-- The loop of R129 on a bound for the number of symbols. Each symbol appends at least one length, so a bound
of `total` is never met before the loop ends: notes/assumptions/20.md. -/
def lensLoop : Nat → State → Res Unit
  | 0, s => .ok () s
  | bound + 1, s =>
    if s.dyLens.length < lensTotal s then
      (decodeSymbol s.clDec s).bind fun sym s => (clSymbol sym s).bind fun _ s => lensLoop bound s
    else .ok () s

/-- `readLengths()` (R129, R130). -/
def readLengths (s : State) : Res Unit :=
  (lensLoop (lensTotal s) { s with dyLens := [] }).bind fun _ s => checkCount s

/-- `splitAndBuild()` (R131): the literal/length build runs first. -/
def splitAndBuild (s : State) : Res (Decoder × Decoder) :=
  let lens := s.dyLens.map BitVec.toNat
  (buildOrRaise (lens.take s.dyHlit.toNat) s).bind fun ll s =>
    (buildOrRaise ((lens.drop s.dyHlit.toNat).take s.dyHdist.toNat) s).bind fun d s =>
      .ok (compileDecoder ll, compileDecoder d) s

/-- `parseDynamic()` (R126). -/
def parseDynamic (s : State) : Res (Decoder × Decoder) :=
  (readCounts s).bind fun _ s =>
    (readCodeLengthCode s).bind fun _ s => (readLengths s).bind fun _ s => splitAndBuild s

/-! ## Meanings -/

/-- DYNAMIC_HEADER, R127. -/
def execDynamicHeader (hlit hdist : BitVec 5) (hclen : BitVec 4) (s : State) : Host.Outcome State Fault Refusal :=
  deliverUnit (.ok () (setCounts hlit.toNat hdist.toNat hclen.toNat s))

/-- CL_LEN0, R129. -/
def execClLen0 (s : State) : Host.Outcome State Fault Refusal := deliverUnit (clLength 0 s)

/-- CL_LEN1, R129. -/
def execClLen1 (s : State) : Host.Outcome State Fault Refusal := deliverUnit (clLength 1 s)

/-- CL_LEN2, R129. -/
def execClLen2 (s : State) : Host.Outcome State Fault Refusal := deliverUnit (clLength 2 s)

/-- CL_LEN3, R129. -/
def execClLen3 (s : State) : Host.Outcome State Fault Refusal := deliverUnit (clLength 3 s)

/-- CL_LEN4, R129. -/
def execClLen4 (s : State) : Host.Outcome State Fault Refusal := deliverUnit (clLength 4 s)

/-- CL_LEN5, R129. -/
def execClLen5 (s : State) : Host.Outcome State Fault Refusal := deliverUnit (clLength 5 s)

/-- CL_LEN6, R129. -/
def execClLen6 (s : State) : Host.Outcome State Fault Refusal := deliverUnit (clLength 6 s)

/-- CL_LEN7, R129. -/
def execClLen7 (s : State) : Host.Outcome State Fault Refusal := deliverUnit (clLength 7 s)

/-- CL_LEN8, R129. -/
def execClLen8 (s : State) : Host.Outcome State Fault Refusal := deliverUnit (clLength 8 s)

/-- CL_LEN9, R129. -/
def execClLen9 (s : State) : Host.Outcome State Fault Refusal := deliverUnit (clLength 9 s)

/-- CL_LEN10, R129. -/
def execClLen10 (s : State) : Host.Outcome State Fault Refusal := deliverUnit (clLength 10 s)

/-- CL_LEN11, R129. -/
def execClLen11 (s : State) : Host.Outcome State Fault Refusal := deliverUnit (clLength 11 s)

/-- CL_LEN12, R129. -/
def execClLen12 (s : State) : Host.Outcome State Fault Refusal := deliverUnit (clLength 12 s)

/-- CL_LEN13, R129. -/
def execClLen13 (s : State) : Host.Outcome State Fault Refusal := deliverUnit (clLength 13 s)

/-- CL_LEN14, R129. -/
def execClLen14 (s : State) : Host.Outcome State Fault Refusal := deliverUnit (clLength 14 s)

/-- CL_LEN15, R129. -/
def execClLen15 (s : State) : Host.Outcome State Fault Refusal := deliverUnit (clLength 15 s)

/-- CL_REPEAT16, R129. -/
def execClRepeat16 (s : State) : Host.Outcome State Fault Refusal := deliverUnit (clRepeat s)

/-- CL_ZERO17, R129. -/
def execClZero17 (s : State) : Host.Outcome State Fault Refusal := deliverUnit (clZeros17 s)

/-- CL_ZERO18, R129. -/
def execClZero18 (s : State) : Host.Outcome State Fault Refusal := deliverUnit (clZeros18 s)

/-- parseDynamic, R126. -/
def execParseDynamic (s : State) : Host.Outcome State Fault Refusal :=
  deliverResult (parseDynamic s) fun r => .decoders r.1 r.2

end Sys2Proof.Machine
end

