-- ==== Sys2Proof/Machine/Producer.lean ====
section
/-! DEFINITION. The Block Producer state machine (45_block_producer.md) and the header collaborator (R113). -/

namespace Sys2Proof.Machine

/-! ## The header collaborator -/

/-- The errors of the collaborator, as the block's (R113, item 4). -/
def hdrErr : HdrErr → Err
  | .invalidGzHeader => .invalidGzHeader
  | .unexpectedEndOfInput => .unexpectedEndOfInput
  | .ioError => .ioError

/-- The top 3 bits of the flag byte are 0 (R113, item 5). -/
def flagsLegal (flg : Byte) : Bool := flg &&& 0xE0 == 0

/-- Skips bytes up to and with the first NUL, one `readExact(1)` at a time, on a bound for their number; the
reader runs out of bytes before a bound above the bytes left is met (95_test_vectors.md 0.1). -/
def skipToNul : Nat → State → Res Unit
  | 0, s => .raise (srcFail s) s
  | bound + 1, s => (readExact 1 s).bind fun b s => if byteAt b 0 = 0 then .ok () s else skipToNul bound s

/-- Runs an optional field's reader when its flag is set. -/
def ifFlag (b : Bool) (r : State → Res Unit) (s : State) : Res Unit := if b then r s else .ok () s

/-- FEXTRA: a length and that many bytes (95_test_vectors.md 0.1). -/
def skipExtra (s : State) : Res Unit :=
  (readExact 2 s).bind fun x s =>
    (readExact (le16 (byteAt x 0) (byteAt x 1)).toNat s).bind fun _ s => .ok () s

/-- FNAME and FCOMMENT: a NUL-terminated string. -/
def skipString (s : State) : Res Unit := skipToNul (avail s + 1) s

/-- FHCRC: two bytes, not checked. -/
def skipCrc (s : State) : Res Unit := (readExact 2 s).bind fun _ s => .ok () s

/-- `HDR_PARSE_REF()` (95_test_vectors.md 0.1). PRESUMED, unsafe: notes/assumptions/4.md. -/
def hdrParseReference (s : State) : Res (List Byte) :=
  (readExact Config.headerBytes s).bind fun h s =>
    let flg := byteAt h 3
    if byteAt h 0 ≠ 0x1F ∨ byteAt h 1 ≠ 0x8B ∨ byteAt h 2 ≠ 8 ∨ flagsLegal flg = false then
      .raise .invalidGzHeader s
    else
      (ifFlag (flg.getLsbD 2) skipExtra s).bind fun _ s =>
        (ifFlag (flg.getLsbD 3) skipString s).bind fun _ s =>
          (ifFlag (flg.getLsbD 4) skipString s).bind fun _ s =>
            (ifFlag (flg.getLsbD 1) skipCrc s).bind fun _ s => .ok h s

/-- The cursor after the collaborator has read `consumed` bytes with the byte operations: at a byte boundary,
inside `IN` (R113, items 2 and 3). -/
def hdrAdvance (consumed : Nat) (s : State) : State :=
  let s := byteAlign s
  { s with brPos := s.brPos + min consumed (avail s) }

/-- A whole fixed header stands in the bytes from the cursor on, and its flag byte is illegal (R113, items 5, 6). -/
def illegalHeader (rest : List Byte) : Bool := Config.headerBytes ≤ rest.length && !flagsLegal (byteAt rest 3)

/-- A collaborator of which only the contract of R113 is known: it reads forward from the cursor, writes the
cursor alone, and answers with a record or one of its three errors. It raises `InvalidGzHeader` on a complete
fixed header with an illegal flag byte (item 5), and it returns a record only when it has read the bytes of the
fixed header (item 6): with fewer left, an answer that is a record is the failure of that read.
DEDUCED, safe: notes/assumptions/3.md. Its own `IoError` or `UnexpectedEndOfInput` stands whatever `IN_END` is
(60_exceptions.md R138). DESIGN CHOICE, safe: notes/assumptions/36.md. -/
def hdrParseExternal (s : State) : Res (List Byte) :=
  let rest := s.inp.drop (byteAlign s).brPos
  match Config.hdrParse rest s.inEnd with
  | .error n e => .raise (if illegalHeader rest then .invalidGzHeader else hdrErr e) (hdrAdvance n s)
  | .record n v =>
    if rest.length < Config.headerBytes then .raise (srcFail s) (hdrAdvance n s)
    else if illegalHeader rest then .raise .invalidGzHeader (hdrAdvance n s)
    else .ok v (hdrAdvance (max Config.headerBytes n) s)

/-- `HDR_PARSE()`, as bound (R113, 70_reset_and_hazards.md R154). -/
def hdrParse (s : State) : Res (List Byte) :=
  match s.hdrParse with
  | .reference => hdrParseReference s
  | .external => hdrParseExternal s

/-! ## Steps -/

/-- `PR_STATE <- p`. -/
def goTo (p : PrState) (s : State) : State := { s with prState := p }

/-- `LL_DEC` and `D_DEC` installed (R116, R117). -/
def installDecoders (ll d : Decoder) (s : State) : State := { s with llDec := some ll, dDec := some d }

/-- `ST_LEN` and `ST_NLEN` written (R115). -/
def latchLengths (len nlen : BitVec 16) (s : State) : State := { s with stLen := len, stNlen := nlen }

/-- A header has been read: `PR_SEEN <- 1` (R112). -/
def markSeen (s : State) : State := { s with prSeen := true }

/-- `headerStep()` (R112). -/
def headerStep (s : State) : Res Unit :=
  (hasDataLeft s).bind fun more s =>
    if more then
      (hdrParse s).bind fun record s =>
        .ok () (respond (.header record) (goTo .block (markSeen s)))
    else if s.prSeen then .ok () (respond .endOfStream (goTo .endOfStream s))
    else .raise .emptyInput s

/-- `emitData(n)` (R119): the bytes are read before the slide. -/
def emitData (n : Nat) (s : State) : Res Unit :=
  (winRead s.lzStart.toNat n s).bind fun v s => slide n (respond (.data v) s)

/-- The state an inflate step goes to (R118). -/
def afterInflate (r : LzResult) (final : Bool) : PrState :=
  match r with
  | .done => afterBlock final
  | .windowFull => afterWindowFull final

/-- The LZ77 result is not kept after the step that called for it (10_state.md R21); the inflate that reads it is the
last operation of every such step. -/
def dropLzResult (s : State) : State := { s with lzResult := none }

/-- `inflate(final)` (R118). -/
def inflate (final : Bool) (s : State) : Res Unit :=
  (lz77Decode s).bind fun r s =>
    (emitData r.2 s).bind fun _ s => .ok () (goTo (afterInflate r.1 final) (dropLzResult s))

/-- The stored block from its two length fields on (R115). -/
def storedBody (final : Bool) (len nlen : BitVec 16) (s : State) : Res Unit :=
  let s := latchLengths len nlen s
  if len ≠ ~~~nlen then .raise .blockType0LenMismatch s
  else
    (readExact len.toNat s).bind fun v s =>
      (winWrite s.winBound.toNat v s).bind fun _ s =>
        (slide len.toNat (respond (.data v) s)).bind fun _ s => .ok () (goTo (afterBlock final) s)

/-- `storedBlock(final)` (R115). -/
def storedBlock (final : Bool) (s : State) : Res Unit :=
  (readExact 4 (byteAlign s)).bind fun h s =>
    storedBody final (le16 (byteAt h 0) (byteAt h 1)) (le16 (byteAt h 2) (byteAt h 3)) s

/-- `fixedBlock(final)` (R116): the decoders are installed before decoding starts. -/
def fixedBlock (final : Bool) (s : State) : Res Unit :=
  inflate final (installDecoders fixedLlDec fixedDDec s)

/-- `dynamicBlock(final)` (R117): both decoders are installed once both are built. -/
def dynamicBlock (final : Bool) (s : State) : Res Unit :=
  (parseDynamic s).bind fun r s => inflate final (installDecoders r.1 r.2 s)

/-- The Block step from its header on (R114). -/
def blockBody (w : BitVec 3) (s : State) : Res Unit :=
  let final := blockFinal w
  let s := latchBlockHeader w s
  match (blockType w).toNat with
  | 0 => storedBlock final s
  | 1 => fixedBlock final s
  | 2 => dynamicBlock final s
  | _ => .raise .invalidBlockType s

/-- `blockStep()` (R114). -/
def blockStep (s : State) : Res Unit := (readBits 3 s).bind fun v s => blockBody (v.setWidth 3) s

/-- `footerStep()` (R121): the window is reset before the footer is read. -/
def footerStep (s : State) : Res Unit :=
  (readExact Config.footerBytes (windowReset s)).bind fun f s =>
    .ok ()
      (respond
        (.footer (le32 (byteAt f 0) (byteAt f 1) (byteAt f 2) (byteAt f 3))
          (le32 (byteAt f 4) (byteAt f 5) (byteAt f 6) (byteAt f 7)))
        (goTo .header s))

/-- `endStep()` (R122). -/
def endStep (s : State) : Res Unit := .ok () (respond .endOfStream s)

/-- `producerStep()` (R111). -/
def producerStep (s : State) : Res Unit :=
  match s.prState with
  | .header => headerStep s
  | .block => blockStep s
  | .inflate => inflate false s
  | .inflateFinalBlock => inflate true s
  | .footer => footerStep s
  | .endOfStream => endStep s

/-! ## Meanings -/

/-- BLOCK_STORED, R115. -/
def execBlockStored (final : Bool) (s : State) : Host.Outcome State Fault Refusal :=
  deliverUnit (blockBody (blockHeaderWord 0 final) s)

/-- BLOCK_FIXED, R116. -/
def execBlockFixed (final : Bool) (s : State) : Host.Outcome State Fault Refusal :=
  deliverUnit (blockBody (blockHeaderWord 1 final) s)

/-- BLOCK_DYNAMIC, R117. -/
def execBlockDynamic (final : Bool) (s : State) : Host.Outcome State Fault Refusal :=
  deliverUnit (blockBody (blockHeaderWord 2 final) s)

/-- BLOCK_RESERVED, R114. -/
def execBlockReserved (final : Bool) (s : State) : Host.Outcome State Fault Refusal :=
  deliverUnit (blockBody (blockHeaderWord 3 final) s)

/-- STORED_HEADER, R115; the final flag is the block header's, in `PR_FINAL`. DEDUCED, safe:
notes/assumptions/15.md. -/
def execStoredHeader (len nlen : BitVec 16) (s : State) : Host.Outcome State Fault Refusal :=
  deliverUnit (storedBody s.prFinal len nlen s)

/-- HeaderStep, R112. -/
def execHeaderStep (s : State) : Host.Outcome State Fault Refusal := deliverUnit (headerStep s)

/-- BlockStep, R114. -/
def execBlockStep (s : State) : Host.Outcome State Fault Refusal := deliverUnit (blockStep s)

/-- StoredBlock, R115. -/
def execStoredBlock (final : Bool) (s : State) : Host.Outcome State Fault Refusal := deliverUnit (storedBlock final s)

/-- FixedBlock, R116. -/
def execFixedBlock (final : Bool) (s : State) : Host.Outcome State Fault Refusal := deliverUnit (fixedBlock final s)

/-- DynamicBlock, R117. -/
def execDynamicBlock (final : Bool) (s : State) : Host.Outcome State Fault Refusal := deliverUnit (dynamicBlock final s)

/-- InflateStep, R118. -/
def execInflateStep (final : Bool) (s : State) : Host.Outcome State Fault Refusal := deliverUnit (inflate final s)

/-- FooterStep, R121. -/
def execFooterStep (s : State) : Host.Outcome State Fault Refusal := deliverUnit (footerStep s)

/-- EndStep, R122. -/
def execEndStep (s : State) : Host.Outcome State Fault Refusal := deliverUnit (endStep s)

/-- DataEmission, R119. -/
def execDataEmission (n : Nat) (s : State) : Host.Outcome State Fault Refusal := deliverUnit (emitData n s)

end Sys2Proof.Machine
end

