-- ==== Sys2Proof/Machine/Port.lean ====
section
/-! DEFINITION. The port commands (47_port_commands.md): RESET, STEP, STATUS and the illegal command words. -/

namespace Sys2Proof.Machine

/-- RESET, R134: accepted in every state. -/
def execReset (s : State) : Host.Outcome State Fault Refusal := deliverUnit (.ok () (respond .ok (resetState s)))

/-- STEP, R135: the latched error, or one producer step. -/
def execStep (s : State) : Host.Outcome State Fault Refusal :=
  if s.prErr ≠ 0 then deliverUnit (.ok () (respond (.error s.prErr) s)) else deliverUnit (producerStep s)

/-- STATUS, R136. -/
def execStatus (s : State) : Host.Outcome State Fault Refusal :=
  deliverUnit (.ok () (respond (.status (statusWord s)) s))

/-- An illegal command word, R137: `IllegalCommand` in the response only; it is not latched. -/
def illegalCommand (s : State) : Host.Outcome State Fault Refusal :=
  deliverUnit (.ok () (respond (.error (errCode .illegalCommand)) s))

/-- CMD_RESERVED_3, R137. -/
def execCmdReserved3 (s : State) : Host.Outcome State Fault Refusal := illegalCommand s

/-- CMD_RESERVED_4, R137. -/
def execCmdReserved4 (s : State) : Host.Outcome State Fault Refusal := illegalCommand s

/-- CMD_RESERVED_5, R137. -/
def execCmdReserved5 (s : State) : Host.Outcome State Fault Refusal := illegalCommand s

/-- CMD_RESERVED_6, R137. -/
def execCmdReserved6 (s : State) : Host.Outcome State Fault Refusal := illegalCommand s

/-- CMD_RESERVED_7, R137. -/
def execCmdReserved7 (s : State) : Host.Outcome State Fault Refusal := illegalCommand s

/-- CMD_RESERVED_8, R137. -/
def execCmdReserved8 (s : State) : Host.Outcome State Fault Refusal := illegalCommand s

/-- CMD_RESERVED_9, R137. -/
def execCmdReserved9 (s : State) : Host.Outcome State Fault Refusal := illegalCommand s

/-- CMD_RESERVED_A, R137. -/
def execCmdReservedA (s : State) : Host.Outcome State Fault Refusal := illegalCommand s

/-- CMD_RESERVED_B, R137. -/
def execCmdReservedB (s : State) : Host.Outcome State Fault Refusal := illegalCommand s

/-- CMD_RESERVED_C, R137. -/
def execCmdReservedC (s : State) : Host.Outcome State Fault Refusal := illegalCommand s

/-- CMD_RESERVED_D, R137. -/
def execCmdReservedD (s : State) : Host.Outcome State Fault Refusal := illegalCommand s

/-- CMD_RESERVED_E, R137. -/
def execCmdReservedE (s : State) : Host.Outcome State Fault Refusal := illegalCommand s

/-- CMD_RESERVED_F, R137. -/
def execCmdReservedF (s : State) : Host.Outcome State Fault Refusal := illegalCommand s

/-- CMD_BADHIGH_1, R137: whatever the low nibble. -/
def execCmdBadhigh1 (_low : BitVec 4) (s : State) : Host.Outcome State Fault Refusal := illegalCommand s

/-- CMD_BADHIGH_2, R137: whatever the low nibble. -/
def execCmdBadhigh2 (_low : BitVec 4) (s : State) : Host.Outcome State Fault Refusal := illegalCommand s

/-- CMD_BADHIGH_3, R137: whatever the low nibble. -/
def execCmdBadhigh3 (_low : BitVec 4) (s : State) : Host.Outcome State Fault Refusal := illegalCommand s

/-- CMD_BADHIGH_4, R137: whatever the low nibble. -/
def execCmdBadhigh4 (_low : BitVec 4) (s : State) : Host.Outcome State Fault Refusal := illegalCommand s

/-- CMD_BADHIGH_5, R137: whatever the low nibble. -/
def execCmdBadhigh5 (_low : BitVec 4) (s : State) : Host.Outcome State Fault Refusal := illegalCommand s

/-- CMD_BADHIGH_6, R137: whatever the low nibble. -/
def execCmdBadhigh6 (_low : BitVec 4) (s : State) : Host.Outcome State Fault Refusal := illegalCommand s

/-- CMD_BADHIGH_7, R137: whatever the low nibble. -/
def execCmdBadhigh7 (_low : BitVec 4) (s : State) : Host.Outcome State Fault Refusal := illegalCommand s

/-- CMD_BADHIGH_8, R137: whatever the low nibble. -/
def execCmdBadhigh8 (_low : BitVec 4) (s : State) : Host.Outcome State Fault Refusal := illegalCommand s

/-- CMD_BADHIGH_9, R137: whatever the low nibble. -/
def execCmdBadhigh9 (_low : BitVec 4) (s : State) : Host.Outcome State Fault Refusal := illegalCommand s

/-- CMD_BADHIGH_A, R137: whatever the low nibble. -/
def execCmdBadhighA (_low : BitVec 4) (s : State) : Host.Outcome State Fault Refusal := illegalCommand s

/-- CMD_BADHIGH_B, R137: whatever the low nibble. -/
def execCmdBadhighB (_low : BitVec 4) (s : State) : Host.Outcome State Fault Refusal := illegalCommand s

/-- CMD_BADHIGH_C, R137: whatever the low nibble. -/
def execCmdBadhighC (_low : BitVec 4) (s : State) : Host.Outcome State Fault Refusal := illegalCommand s

/-- CMD_BADHIGH_D, R137: whatever the low nibble. -/
def execCmdBadhighD (_low : BitVec 4) (s : State) : Host.Outcome State Fault Refusal := illegalCommand s

/-- CMD_BADHIGH_E, R137: whatever the low nibble. -/
def execCmdBadhighE (_low : BitVec 4) (s : State) : Host.Outcome State Fault Refusal := illegalCommand s

/-- CMD_BADHIGH_F, R137: whatever the low nibble. -/
def execCmdBadhighF (_low : BitVec 4) (s : State) : Host.Outcome State Fault Refusal := illegalCommand s

end Sys2Proof.Machine
end

