-- ==== Sys2Proof/Machine/Dispatch.lean ====
section
/-! DEFINITION. What each instruction does: one arm for each constructor of `Instr`, in the opcode table's order. -/

namespace Sys2Proof.Machine

def exec (i : Instr) (s : State) : Host.Outcome State Fault Refusal :=
  match i with
  | .blockStored final => Sys2Proof.Machine.execBlockStored final s
  | .blockFixed final => Sys2Proof.Machine.execBlockFixed final s
  | .blockDynamic final => Sys2Proof.Machine.execBlockDynamic final s
  | .blockReserved final => Sys2Proof.Machine.execBlockReserved final s
  | .storedHeader len nlen => Sys2Proof.Machine.execStoredHeader len nlen s
  | .dynamicHeader hlit hdist hclen => Sys2Proof.Machine.execDynamicHeader hlit hdist hclen s
  | .clLen0 => Sys2Proof.Machine.execClLen0 s
  | .clLen1 => Sys2Proof.Machine.execClLen1 s
  | .clLen2 => Sys2Proof.Machine.execClLen2 s
  | .clLen3 => Sys2Proof.Machine.execClLen3 s
  | .clLen4 => Sys2Proof.Machine.execClLen4 s
  | .clLen5 => Sys2Proof.Machine.execClLen5 s
  | .clLen6 => Sys2Proof.Machine.execClLen6 s
  | .clLen7 => Sys2Proof.Machine.execClLen7 s
  | .clLen8 => Sys2Proof.Machine.execClLen8 s
  | .clLen9 => Sys2Proof.Machine.execClLen9 s
  | .clLen10 => Sys2Proof.Machine.execClLen10 s
  | .clLen11 => Sys2Proof.Machine.execClLen11 s
  | .clLen12 => Sys2Proof.Machine.execClLen12 s
  | .clLen13 => Sys2Proof.Machine.execClLen13 s
  | .clLen14 => Sys2Proof.Machine.execClLen14 s
  | .clLen15 => Sys2Proof.Machine.execClLen15 s
  | .clRepeat16 => Sys2Proof.Machine.execClRepeat16 s
  | .clZero17 => Sys2Proof.Machine.execClZero17 s
  | .clZero18 => Sys2Proof.Machine.execClZero18 s
  | .lit byte => Sys2Proof.Machine.execLit byte s
  | .eob => Sys2Proof.Machine.execEob s
  | .len257 => Sys2Proof.Machine.execLen257 s
  | .len258 => Sys2Proof.Machine.execLen258 s
  | .len259 => Sys2Proof.Machine.execLen259 s
  | .len260 => Sys2Proof.Machine.execLen260 s
  | .len261 => Sys2Proof.Machine.execLen261 s
  | .len262 => Sys2Proof.Machine.execLen262 s
  | .len263 => Sys2Proof.Machine.execLen263 s
  | .len264 => Sys2Proof.Machine.execLen264 s
  | .len265 => Sys2Proof.Machine.execLen265 s
  | .len266 => Sys2Proof.Machine.execLen266 s
  | .len267 => Sys2Proof.Machine.execLen267 s
  | .len268 => Sys2Proof.Machine.execLen268 s
  | .len269 => Sys2Proof.Machine.execLen269 s
  | .len270 => Sys2Proof.Machine.execLen270 s
  | .len271 => Sys2Proof.Machine.execLen271 s
  | .len272 => Sys2Proof.Machine.execLen272 s
  | .len273 => Sys2Proof.Machine.execLen273 s
  | .len274 => Sys2Proof.Machine.execLen274 s
  | .len275 => Sys2Proof.Machine.execLen275 s
  | .len276 => Sys2Proof.Machine.execLen276 s
  | .len277 => Sys2Proof.Machine.execLen277 s
  | .len278 => Sys2Proof.Machine.execLen278 s
  | .len279 => Sys2Proof.Machine.execLen279 s
  | .len280 => Sys2Proof.Machine.execLen280 s
  | .len281 => Sys2Proof.Machine.execLen281 s
  | .len282 => Sys2Proof.Machine.execLen282 s
  | .len283 => Sys2Proof.Machine.execLen283 s
  | .len284 => Sys2Proof.Machine.execLen284 s
  | .len285 => Sys2Proof.Machine.execLen285 s
  | .ll286 => Sys2Proof.Machine.execLl286 s
  | .ll287 => Sys2Proof.Machine.execLl287 s
  | .dist0 => Sys2Proof.Machine.execDist0 s
  | .dist1 => Sys2Proof.Machine.execDist1 s
  | .dist2 => Sys2Proof.Machine.execDist2 s
  | .dist3 => Sys2Proof.Machine.execDist3 s
  | .dist4 => Sys2Proof.Machine.execDist4 s
  | .dist5 => Sys2Proof.Machine.execDist5 s
  | .dist6 => Sys2Proof.Machine.execDist6 s
  | .dist7 => Sys2Proof.Machine.execDist7 s
  | .dist8 => Sys2Proof.Machine.execDist8 s
  | .dist9 => Sys2Proof.Machine.execDist9 s
  | .dist10 => Sys2Proof.Machine.execDist10 s
  | .dist11 => Sys2Proof.Machine.execDist11 s
  | .dist12 => Sys2Proof.Machine.execDist12 s
  | .dist13 => Sys2Proof.Machine.execDist13 s
  | .dist14 => Sys2Proof.Machine.execDist14 s
  | .dist15 => Sys2Proof.Machine.execDist15 s
  | .dist16 => Sys2Proof.Machine.execDist16 s
  | .dist17 => Sys2Proof.Machine.execDist17 s
  | .dist18 => Sys2Proof.Machine.execDist18 s
  | .dist19 => Sys2Proof.Machine.execDist19 s
  | .dist20 => Sys2Proof.Machine.execDist20 s
  | .dist21 => Sys2Proof.Machine.execDist21 s
  | .dist22 => Sys2Proof.Machine.execDist22 s
  | .dist23 => Sys2Proof.Machine.execDist23 s
  | .dist24 => Sys2Proof.Machine.execDist24 s
  | .dist25 => Sys2Proof.Machine.execDist25 s
  | .dist26 => Sys2Proof.Machine.execDist26 s
  | .dist27 => Sys2Proof.Machine.execDist27 s
  | .dist28 => Sys2Proof.Machine.execDist28 s
  | .dist29 => Sys2Proof.Machine.execDist29 s
  | .dist30 => Sys2Proof.Machine.execDist30 s
  | .dist31 => Sys2Proof.Machine.execDist31 s
  | .reset => Sys2Proof.Machine.execReset s
  | .step => Sys2Proof.Machine.execStep s
  | .status => Sys2Proof.Machine.execStatus s
  | .cmdReserved3 => Sys2Proof.Machine.execCmdReserved3 s
  | .cmdReserved4 => Sys2Proof.Machine.execCmdReserved4 s
  | .cmdReserved5 => Sys2Proof.Machine.execCmdReserved5 s
  | .cmdReserved6 => Sys2Proof.Machine.execCmdReserved6 s
  | .cmdReserved7 => Sys2Proof.Machine.execCmdReserved7 s
  | .cmdReserved8 => Sys2Proof.Machine.execCmdReserved8 s
  | .cmdReserved9 => Sys2Proof.Machine.execCmdReserved9 s
  | .cmdReservedA => Sys2Proof.Machine.execCmdReservedA s
  | .cmdReservedB => Sys2Proof.Machine.execCmdReservedB s
  | .cmdReservedC => Sys2Proof.Machine.execCmdReservedC s
  | .cmdReservedD => Sys2Proof.Machine.execCmdReservedD s
  | .cmdReservedE => Sys2Proof.Machine.execCmdReservedE s
  | .cmdReservedF => Sys2Proof.Machine.execCmdReservedF s
  | .cmdBadhigh1 low => Sys2Proof.Machine.execCmdBadhigh1 low s
  | .cmdBadhigh2 low => Sys2Proof.Machine.execCmdBadhigh2 low s
  | .cmdBadhigh3 low => Sys2Proof.Machine.execCmdBadhigh3 low s
  | .cmdBadhigh4 low => Sys2Proof.Machine.execCmdBadhigh4 low s
  | .cmdBadhigh5 low => Sys2Proof.Machine.execCmdBadhigh5 low s
  | .cmdBadhigh6 low => Sys2Proof.Machine.execCmdBadhigh6 low s
  | .cmdBadhigh7 low => Sys2Proof.Machine.execCmdBadhigh7 low s
  | .cmdBadhigh8 low => Sys2Proof.Machine.execCmdBadhigh8 low s
  | .cmdBadhigh9 low => Sys2Proof.Machine.execCmdBadhigh9 low s
  | .cmdBadhighA low => Sys2Proof.Machine.execCmdBadhighA low s
  | .cmdBadhighB low => Sys2Proof.Machine.execCmdBadhighB low s
  | .cmdBadhighC low => Sys2Proof.Machine.execCmdBadhighC low s
  | .cmdBadhighD low => Sys2Proof.Machine.execCmdBadhighD low s
  | .cmdBadhighE low => Sys2Proof.Machine.execCmdBadhighE low s
  | .cmdBadhighF low => Sys2Proof.Machine.execCmdBadhighF low s
  | .peekBits => Sys2Proof.Machine.execPeekBits s
  | .consume n => Sys2Proof.Machine.execConsume n s
  | .readBits n => Sys2Proof.Machine.execReadBits n s
  | .byteAlign => Sys2Proof.Machine.execByteAlign s
  | .hasDataLeft => Sys2Proof.Machine.execHasDataLeft s
  | .read n => Sys2Proof.Machine.execRead n s
  | .readExact n => Sys2Proof.Machine.execReadExact n s
  | .buildCodebook lens => Sys2Proof.Machine.execBuildCodebook lens s
  | .compileDecoder book => Sys2Proof.Machine.execCompileDecoder book s
  | .decode dec bits => Sys2Proof.Machine.execDecode dec bits s
  | .decodeSymbol which => Sys2Proof.Machine.execDecodeSymbol which s
  | .writeBuffer => Sys2Proof.Machine.execWriteBuffer s
  | .slide n => Sys2Proof.Machine.execSlide n s
  | .windowReset => Sys2Proof.Machine.execWindowReset s
  | .lz77Decode => Sys2Proof.Machine.execLz77Decode s
  | .parseDynamic => Sys2Proof.Machine.execParseDynamic s
  | .headerStep => Sys2Proof.Machine.execHeaderStep s
  | .blockStep => Sys2Proof.Machine.execBlockStep s
  | .storedBlock final => Sys2Proof.Machine.execStoredBlock final s
  | .fixedBlock final => Sys2Proof.Machine.execFixedBlock final s
  | .dynamicBlock final => Sys2Proof.Machine.execDynamicBlock final s
  | .inflateStep final => Sys2Proof.Machine.execInflateStep final s
  | .footerStep => Sys2Proof.Machine.execFooterStep s
  | .endStep => Sys2Proof.Machine.execEndStep s
  | .dataEmission n => Sys2Proof.Machine.execDataEmission n s

end Sys2Proof.Machine
end

