-- ==== Sys2Proof/Machine/Fetch.lean ====
section
/-! DEFINITION. How the next instruction is fetched: a host command from the port (47_port_commands.md R133), or,
at a fetch point inside a STEP, the next element of one format, read from the stream at the bit cursor as
the unit that decodes it reads it (30_encoding.md R48). And how a word of the opcode table's numbering is
put there. -/

namespace Sys2Proof.Machine

/-- Reads a stream element as its unit does: the block header with `readBits(3)` (R114), the stored header with
`readExact(4)` (R115), the dynamic header's fields with `readBits` (R127), a symbol with `decodeSymbol` under
its decoder (R91). An internal operation and a command stand in the state. -/
def fetchElement (s : State) : Res (Option Element) :=
  match s.fetchPoint with
  | .port =>
    match s.commands with
    | [] => .ok none s
    | w :: rest => .ok (some (.portCmd w)) { s with commands := rest }
  | .blockHeader => (readBits 3 s).bind fun v s => .ok (some (.blockHeader (v.setWidth 3))) s
  | .storedHeader =>
    (readExact 4 s).bind fun h s =>
      .ok (some (.storedHeader (le32 (byteAt h 0) (byteAt h 1) (byteAt h 2) (byteAt h 3)))) s
  | .dynamicHeader =>
    (readBits 5 s).bind fun hlit s =>
      (readBits 5 s).bind fun hdist s =>
        (readBits 4 s).bind fun hclen s =>
          .ok (some (.dynamicHeader ((hclen.setWidth 4 : BitVec 4) ++ (hdist.setWidth 5 : BitVec 5) ++ (hlit.setWidth 5 : BitVec 5)))) s
  | .clSymbol => (decodeSymbol s.clDec s).bind fun v s => .ok (some (.clSymbol v)) s
  | .litlenSymbol => (decodeSymbol (installed s.llDec) s).bind fun v s => .ok (some (.litlenSymbol v)) s
  | .distSymbol => (decodeSymbol (installed s.dDec) s).bind fun v s => .ok (some (.distSymbol v)) s
  | .internalOp w args => .ok (some (.internalOp w args)) s

/-- After a fetch the next instruction is a host command again. -/
def toPort (s : State) : State := { s with fetchPoint := .port }

/-- The fetch, and the fetch point after it. -/
def fetch (s : State) : Res (Option Element) := (fetchElement s).bind fun e s => .ok e (toPort s)

/-- The element whose row runs for a fetched one. A symbol past its alphabet, which no decoder of a run yields, takes
the last arm of the rule that reads it: 46_dynamic_codebook.md R129, 44_lz77.md R99 and R106. DEDUCED, safe:
notes/assumptions/21.md. -/
def ruleArm : Element → Element
  | .blockHeader w => .blockHeader w
  | .storedHeader w => .storedHeader w
  | .dynamicHeader w => .dynamicHeader w
  | .clSymbol v => .clSymbol (min v 18)
  | .litlenSymbol v => .litlenSymbol (min v 287)
  | .distSymbol v => .distSymbol (min v 31)
  | .portCmd w => .portCmd w
  | .internalOp w args => .internalOp w args

/-- Runs a fetched element. Nothing to run leaves the block idle (60_exceptions.md R151); so does an index that
names no internal operation (30_encoding.md R69). DESIGN CHOICE, safe: notes/assumptions/35.md. -/
def runElement (e : Option Element) (s : State) : Host.Outcome State Fault Refusal :=
  match e with
  | none => .next s
  | some e =>
    match decode (ruleArm e) with
    | some i => exec i s
    | none => .next s

/-- The stream with bytes written over it from a position on; short of the position it is filled up with 0. -/
def overlay (inp : List Byte) (pos : Nat) (v : List Byte) : List Byte :=
  (inp ++ List.replicate pos 0).take pos ++ v ++ inp.drop (pos + v.length)

/-- Puts bytes into the stream at the cursor, brought to a byte boundary. -/
def placeBytes (v : List Byte) (s : State) : State :=
  { s with inp := overlay s.inp s.brPos v, brOff := 0 }

/-- Eight bytes of the stream, the first one lowest: a word of up to 64 bits. -/
def bytesOfWord (w : Nat) : List Byte := (List.range 8).map fun k => BitVec.ofNat 8 (w >>> (8 * k))

/-- A decoder under which a 0 bit is the given symbol. -/
def oneCode (sym : Nat) : Decoder :=
  { maxLen := 1, primaryBits := 1, pri := [.direct sym 1, .empty], sec := [], smask := 0 }

/-- Puts an element where the next fetch reads it, and points the fetch there: a command at the head of the
host's commands, a field at the bit cursor, a symbol as a code of the decoder its unit uses. -/
def placeElement (e : Element) (s : State) : State :=
  match e with
  | .portCmd w => { s with fetchPoint := .port, commands := w :: s.commands }
  | .blockHeader w => placeBytes (bytesOfWord w.toNat) { s with fetchPoint := .blockHeader }
  | .storedHeader w => placeBytes (bytesOfWord w.toNat) { s with fetchPoint := .storedHeader }
  | .dynamicHeader w => placeBytes (bytesOfWord w.toNat) { s with fetchPoint := .dynamicHeader }
  | .clSymbol v => placeBytes (bytesOfWord 0) { s with fetchPoint := .clSymbol, clDec := oneCode v }
  | .litlenSymbol v => placeBytes (bytesOfWord 0) { s with fetchPoint := .litlenSymbol, llDec := some (oneCode v) }
  | .distSymbol v => placeBytes (bytesOfWord 0) { s with fetchPoint := .distSymbol, dDec := some (oneCode v) }
  | .internalOp w args => { s with fetchPoint := .internalOp w args }

end Sys2Proof.Machine
end

