-- ==== Sys2Proof/Machine/Step.lean ====
section
/-! DEFINITION. One step of the machine: the next host command, run to completion (47_port_commands.md R133), or
the one element a unit takes at its fetch point (notes/assumptions/11.md). -/

namespace Sys2Proof.Machine

/-- One step. An error met while fetching is taken like any other (60_exceptions.md R142). -/
def step (s : State) : Host.Outcome State Fault Refusal :=
  match fetch s with
  | .ok e s => runElement e s
  | .raise e s => .next (enterError e (toPort s))
  | .fault f => .fault f

/-- The state with a word of the opcode table's numbering placed where `step` fetches its next instruction. It
stands for the host that sends the command, or for the stream that holds the element: notes/assumptions/24.md. -/
def State.withFetchWord (s : State) (nbits w : Nat) : State :=
  match tableElement nbits w with
  | some e => placeElement e s
  | none => s

end Sys2Proof.Machine
end

