-- ==== Sys2Proof/Safety.lean ====
section
/-! DEFINITION. The terms in which claims about runs are made: the bit address, what holds of every state a run
from reset reaches, the bytes the current member has put out, and what it means that a unit's loop runs
its elements one after another. -/

namespace Sys2Proof.Machine

/-! ## The cursor -/

/-- The absolute bit address of the cursor (10_state.md R19). -/
def bitAddr (s : State) : Nat := 8 * s.brPos + s.brOff.toNat

/-- The cursor moved forward by `n` bits (10_state.md R19). -/
def advance (n : Nat) (s : State) : State :=
  { s with brPos := (bitAddr s + n) / 8, brOff := BitVec.ofNat 3 ((bitAddr s + n) % 8) }

/-- The byte position of the cursor after alignment (40_bitreader.md R75). -/
def alignedPos (s : State) : Nat := (bitAddr s + 7) / 8

/-- The cursor at a byte position. -/
def atByte (pos : Nat) (s : State) : State := { s with brPos := pos, brOff := 0 }

/-- Bit `k` of the stream from the cursor on (20_memory.md R33); 0 past the end of `IN`. -/
def streamBit (k : Nat) (s : State) : Bool :=
  (s.inp.getD ((bitAddr s + k) / 8) 0).getLsbD ((bitAddr s + k) % 8)

/-- The value of the next `n` bits as a field, first bit lowest (20_memory.md R33). -/
def fieldValue (n : Nat) (s : State) : Nat :=
  ((List.range n).map fun k => if streamBit k s then 2 ^ k else 0).sum

/-- Bytes `pos .. pos + n - 1` of `IN`. -/
def inBytes (pos n : Nat) (s : State) : List Byte := (s.inp.drop pos).take n

/-- The cursor after a step: inside `IN`, and at its end only on a byte boundary (40_bitreader.md R79). -/
def cursorInside (s : State) : Prop :=
  s.brPos ≤ s.inp.length ∧ (s.brPos = s.inp.length → s.brOff = 0)

/-! ## Errors -/

/-- The state after an error of a code has been taken (60_exceptions.md R142): latched, and responded. -/
def latched (code : BitVec 5) (s : State) : State :=
  { s with prErr := code, responses := .error code :: s.responses }

/-- The code of `SRC_FAIL` (60_exceptions.md R139). -/
def srcFailCode (s : State) : BitVec 5 := if s.inEnd = .ioerr then 1 else 2

/-! ## The codes of 30_encoding.md R59, and the Kraft sum of 41_codebook.md R84 -/

/-- The length of a literal/length symbol's fixed code. -/
def fixedLlLen (sym : Nat) : Nat :=
  if sym < 144 then 8 else if sym < 256 then 9 else if sym < 280 then 7 else 8

/-- A literal/length symbol's fixed code. -/
def fixedLlCode (sym : Nat) : Nat :=
  if sym < 144 then 0x30 + sym else if sym < 256 then 0x190 + (sym - 144)
  else if sym < 280 then sym - 256 else 0xC0 + (sym - 280)

/-- The Kraft sum of a list of lengths of at most 15, in units of `2^(-15)`. -/
def kraftUnits (lens : List Nat) : Nat := (lens.map fun l => if l = 0 then 0 else 2 ^ (15 - l)).sum

/-- A code of `e` stands at the front of the stream bits (20_memory.md R34): its first bit is the code's most
significant one. -/
def CodeMatches (e : CodeEntry) (bits : BitVec 32) : Prop :=
  0 < e.len ∧ ∀ k < e.len, bits.getLsbD k = e.code.testBit (e.len - 1 - k)

/-! ## Window accesses -/

/-- Two memories read alike outside `lo .. hi - 1`. -/
def SameOutside (lo hi : Nat) (m m' : Memory) : Prop :=
  ∀ a, a < lo ∨ hi ≤ a → Memory.read m' a = Memory.read m a

/-- The window after a slide that brings the boundary to `nb` (43_window.md R95): past D, the D bytes below `nb`
stand at the bottom and nothing else has changed. -/
def SlidFrom (nb : Nat) (m m' : Memory) : Prop :=
  ∀ a, Memory.read m' a =
    if Config.distLimit < nb ∧ a < Config.distLimit then Memory.read m (nb - Config.distLimit + a)
    else Memory.read m a

/-- `WIN[i] <- WIN[src + i]` for `count` addresses from `i` on, ascending, one byte at a time (43_window.md R95). -/
def ascendingMove (src : Nat) : Nat → Nat → Memory → Memory
  | 0, _, m => m
  | count + 1, i, m => ascendingMove src count (i + 1) (Memory.write m i (Memory.read m (src + i)))

/-! ## The invariant of the machine -/

/-- The codes `PR_ERR` may hold (60_exceptions.md R138): 0, and the codes the block raises and latches. -/
def errLegal (c : BitVec 5) : Bool := c.toNat ≤ 10 || c.toNat == 14 || c.toNat == 15

/-- An installed decoder has the shape of 10_state.md R24. -/
def decoderLegal : Option Decoder → Bool
  | none => true
  | some d => d.wellFormed

/-- Every listed address lies below a bound. -/
def Memory.below (bound : Nat) (m : Memory) : Bool := m.all fun c => c.1 < bound

/-- What every state a run from reset reaches satisfies, and every step keeps. -/
structure State.Inv (s : State) : Prop where
  /-- Between commands the next instruction is a host command (47_port_commands.md R133). -/
  atPort : s.fetchPoint = .port
  /-- The window is in canonical form and inside its addresses (20_memory.md R30). -/
  winCanonical : Memory.wf s.win = true
  winInside : Memory.below Config.winSize s.win = true
  /-- 43_window.md R97. -/
  boundLegal : s.winBound.toNat ≤ Config.distLimit
  /-- 40_bitreader.md R79. -/
  cursor : cursorInside s
  /-- 60_exceptions.md R138. -/
  errCodeLegal : errLegal s.prErr = true
  /-- 10_state.md R24. -/
  llLegal : decoderLegal s.llDec = true
  dLegal : decoderLegal s.dDec = true
  /-- The continuation states have both decoders installed (70_reset_and_hazards.md R153), and agree with
  `PR_FINAL` (10_state.md R21). -/
  inflating : s.prState = .inflate → s.prFinal = false ∧ s.llDec.isSome = true ∧ s.dDec.isSome = true
  inflatingFinal : s.prState = .inflateFinalBlock → s.prFinal = true ∧ s.llDec.isSome = true ∧ s.dDec.isSome = true
  /-- A header has been read before anything else is decoded (45_block_producer.md R112). -/
  seen : s.prState ≠ .header → s.prSeen = true
  /-- Between members the cursor is at a byte boundary (45_block_producer.md R112) and the window is empty
  (43_window.md R96). -/
  headerAligned : s.prState = .header → s.brOff = 0 ∧ s.winBound = 0
  endEmpty : s.prState = .endOfStream → s.winBound = 0
  /-- No LZ77 result is kept after its step (10_state.md R21). -/
  noResult : s.lzResult = none

/-! ## The output of the current member -/

/-- The bytes the current member has put out: the Data units since its Header, oldest first. The list has the
newest response first, as the state keeps it. -/
def memberOutput : List Response → List Byte
  | [] => []
  | .data v :: rest => memberOutput rest ++ v
  | .ok :: _ => []
  | .header _ :: _ => []
  | .footer _ _ :: _ => []
  | .endOfStream :: rest => memberOutput rest
  | .error _ :: rest => memberOutput rest
  | .status _ :: rest => memberOutput rest

/-- The last `n` bytes of a sequence, or all of it. -/
def lastBytes (n : Nat) (v : List Byte) : List Byte := v.drop (v.length - n)

/-- The history below the boundary is the last 32768 bytes of the member's output (20_memory.md R41), as long as
no error is latched. -/
def HistoryHeld (s : State) : Prop :=
  s.prErr = 0 →
    s.winBound.toNat = min (memberOutput s.responses).length Config.distLimit ∧
    Memory.readRange s.win 0 s.winBound.toNat = lastBytes Config.distLimit (memberOutput s.responses)

/-! ## Loops as runs of elements -/

/-- The decode loop of 44_lz77.md R99 from `s` ends with `r` in `t`: it stops where the window is nearly full;
otherwise it reads a symbol, ends at end-of-block, and after any other symbol runs that symbol's
instruction, which must not raise (it sends no response), and goes on. -/
inductive RunsSymbols : State → LzResult → State → Prop where
  | windowFull {s : State} : windowNearlyFull s = true → RunsSymbols s .windowFull s
  | endOfBlock {s t : State} : windowNearlyFull s = false → decodeSymbol (installed s.llDec) s = .ok 256 t →
      RunsSymbols s .done t
  | symbol {s s₁ s₂ t : State} {v : Nat} {i : Instr} {r : LzResult} : windowNearlyFull s = false →
      decodeSymbol (installed s.llDec) s = .ok v s₁ → v ≠ 256 → decode (.litlenSymbol v) = some i →
      exec i s₁ = .next s₂ → s₂.responses = s₁.responses → RunsSymbols s₂ r t → RunsSymbols s r t

/-- The decode loop of 44_lz77.md R99 from `s` raises, and leaves `x`, the error taken: `SRC_FAIL` or
`HuffmanDecoderCodeNotFound` on the next symbol, or the error that symbol's own instruction raises (it sends a
response), after any number of symbols that go on. -/
inductive RaisesSymbols : State → State → Prop where
  | source {s : State} : windowNearlyFull s = false → avail s < 4 → RaisesSymbols s (latched (srcFailCode s) s)
  | noCode {s : State} : windowNearlyFull s = false → 4 ≤ avail s →
      decodeBits (installed s.llDec) (peekWord s) = none → RaisesSymbols s (latched 8 s)
  | raised {s u x : State} {v : Nat} {i : Instr} : windowNearlyFull s = false →
      decodeSymbol (installed s.llDec) s = .ok v u → decode (ruleArm (.litlenSymbol v)) = some i →
      exec i u = .next x → x.responses ≠ u.responses → RaisesSymbols s x
  | symbol {s s₁ s₂ x : State} {v : Nat} {i : Instr} : windowNearlyFull s = false →
      decodeSymbol (installed s.llDec) s = .ok v s₁ → v ≠ 256 → decode (.litlenSymbol v) = some i →
      exec i s₁ = .next s₂ → s₂.responses = s₁.responses → RaisesSymbols s₂ x → RaisesSymbols s x

/-- A decode call starts: both cursors of the unit at the boundary (44_lz77.md R99). -/
def callStart (s : State) : State := { s with lzStart := s.winBound, lzCur := s.winBound }

/-- The loop of 46_dynamic_codebook.md R129 from `s` ends in `t`: it stops once the count is reached; otherwise
it reads a code-length symbol and runs its instruction, which must not raise, and goes on. -/
inductive RunsLengths : State → State → Prop where
  | reached {s : State} : lensTotal s ≤ s.dyLens.length → RunsLengths s s
  | symbol {s s₁ s₂ t : State} {v : Nat} {i : Instr} : s.dyLens.length < lensTotal s →
      decodeSymbol s.clDec s = .ok v s₁ → decode (.clSymbol v) = some i →
      exec i s₁ = .next s₂ → s₂.responses = s₁.responses → RunsLengths s₂ t → RunsLengths s t

/-- The loop of 46_dynamic_codebook.md R129 gets from `s` to `t`, and may go on from there. -/
inductive RunsSomeLengths : State → State → Prop where
  | start {s : State} : RunsSomeLengths s s
  | symbol {s s₁ s₂ t : State} {v : Nat} {i : Instr} : s.dyLens.length < lensTotal s →
      decodeSymbol s.clDec s = .ok v s₁ → decode (.clSymbol v) = some i →
      exec i s₁ = .next s₂ → s₂.responses = s₁.responses → RunsSomeLengths s₂ t → RunsSomeLengths s t

/-- A back-reference with length symbol `sym` read from `s` (44_lz77.md R103, R106): its extra bits, a distance
symbol of 0..29 and its extra bits are there; they give `len` and `dist` and leave the cursor as in `t`. -/
structure ReadsReference (sym : Nat) (s : State) (len dist : Nat) (t : State) : Prop where
  lengthAvail : 4 ≤ avail s
  lengthIs : len = lenBase.getD (sym - 257) 0 + fieldValue (lenExtra.getD (sym - 257) 0) s
  distance : ∃ ds l s₁ s₂, s₁ = advance (lenExtra.getD (sym - 257) 0) s ∧ 4 ≤ avail s₁ ∧
    decodeBits (installed s.dDec) (peekWord s₁) = some (ds, l) ∧ ds ≤ 29 ∧
    s₂ = advance l s₁ ∧ 4 ≤ avail s₂ ∧
    dist = distBase.getD ds 0 + fieldValue (distExtra.getD ds 0) s₂ ∧ t = advance (distExtra.getD ds 0) s₂

/-- The counts of a dynamic header that stands at `s`, written into another state (46_dynamic_codebook.md R127). -/
def withCountsOf (s u : State) : State :=
  { u with
    dyHlit := BitVec.ofNat 9 (fieldValue 5 s + 257)
    dyHdist := BitVec.ofNat 6 (fieldValue 5 (advance 5 s) + 1)
    dyHclen := BitVec.ofNat 5 (fieldValue 4 (advance 10 s) + 4) }

/-- The number of 3-bit values of a dynamic header that stands at `s` (46_dynamic_codebook.md R127). -/
def clCount (s : State) : Nat := fieldValue 4 (advance 10 s) + 4

/-- The three counts of a dynamic header are there to be read: each field at a cursor with 4 bytes left. -/
abbrev CountsThere (s : State) : Prop := 4 ≤ avail s ∧ 4 ≤ avail (advance 5 s) ∧ 4 ≤ avail (advance 10 s)

/-- The first `n` 3-bit values of a dynamic header at `s` are there to be read. -/
abbrev ValuesThere (n : Nat) (s : State) : Prop := ∀ i < n, 4 ≤ avail (advance (14 + 3 * i) s)

/-- The code-length lengths, by symbol, that the 3-bit values of a dynamic header at `s` give in `CL_PERM` order
(46_dynamic_codebook.md R128). -/
def GivesClLengths (cl : List (BitVec 3)) (s : State) : Prop :=
  cl.length = 19 ∧ ∀ i < 19, cl.getD (clPerm.getD i 0) 0 =
    if i < clCount s then BitVec.ofNat 3 (fieldValue 3 (advance (14 + 3 * i) s)) else 0

/-- The state in which the coded lengths of a dynamic header at `s` are read, once its code-length code is built
(46_dynamic_codebook.md R128, R129). -/
def lengthsStart (cl : List (BitVec 3)) (cb : Codebook) (s : State) : State :=
  { withCountsOf s (advance (14 + 3 * clCount s) s) with dyCl := cl, clDec := compileDecoder cb, dyLens := [] }

/-- The dynamic header up to the coded lengths (46_dynamic_codebook.md R127, R128, R129): from `s` it is read,
its code-length code is built, and the coded lengths run to `t`. -/
structure ParsesLengths (s t : State) : Prop where
  countsThere : CountsThere s
  valuesThere : ValuesThere (clCount s) s
  run : ∃ (cl : List (BitVec 3)) (cb : Codebook), GivesClLengths cl s ∧
    buildCodebook (cl.map BitVec.toNat) = some cb ∧ RunsLengths (lengthsStart cl cb s) t

/-- The whole dynamic header (46_dynamic_codebook.md R126): the lengths are as many as declared, and the two
codebooks of R131 are built. -/
structure ParsesDynamic (s t : State) (ll d : Codebook) : Prop where
  lengths : ParsesLengths s t
  count : t.dyLens.length = lensTotal t
  llBook : buildCodebook ((t.dyLens.take t.dyHlit.toNat).map BitVec.toNat) = some ll
  dBook : buildCodebook ((t.dyLens.drop t.dyHlit.toNat).map BitVec.toNat) = some d

/-- What a stored block of `len` bytes does from the byte position of `s` (45_block_producer.md R115). -/
structure StoresData (final : Bool) (len : Nat) (s t : State) : Prop where
  response : t.responses = .data (inBytes s.brPos len s) :: s.responses
  cursor : t.brPos = s.brPos + len ∧ t.brOff = 0
  lengths : t.stLen = BitVec.ofNat 16 len ∧ t.stNlen = ~~~(BitVec.ofNat 16 len)
  bound : t.winBound.toNat = min (s.winBound.toNat + len) Config.distLimit
  state : t.prState = if final then .footer else .block
  /-- The bytes go to the boundary, and the window slides over them. -/
  window : ∃ m, SameOutside s.winBound.toNat (s.winBound.toNat + len) s.win m ∧
    (∀ k < len, Memory.read m (s.winBound.toNat + k) = s.inp.getD (s.brPos + k) 0) ∧
    SlidFrom (s.winBound.toNat + len) m t.win
  canonical : Memory.wf t.win = true
  others : t = { s with responses := t.responses, brPos := t.brPos, brOff := t.brOff, stLen := t.stLen,
                        stNlen := t.stNlen, winBound := t.winBound, prState := t.prState, win := t.win }

/-- The two length fields of a stored block stand at a byte position, each low byte first (30_encoding.md R51). -/
abbrev HoldsLengths (pos : Nat) (len nlen : BitVec 16) (s : State) : Prop :=
  inBytes pos 4 s = [len.extractLsb' 0 8, len.extractLsb' 8 8, nlen.extractLsb' 0 8, nlen.extractLsb' 8 8]

/-- A stored block of `len` bytes stands at a byte position: its length, the complement, its bytes (R51, R115). -/
structure HoldsStored (pos : Nat) (len : BitVec 16) (s : State) : Prop where
  inside : pos + 4 + len.toNat ≤ s.inp.length
  fields : HoldsLengths pos len (~~~len) s

/-- The errors of a stored block, in the order of 45_block_producer.md R115, of an instruction `row` that from `s`
comes to its length fields in `b`: too few bytes for them, halves that are not complements, too few bytes of data. -/
structure StoredRaises (row : Instr) (s b : State) : Prop where
  /-- The alignment is done, and no length is written. -/
  noFields : b.inp.length < alignedPos b + 4 →
    exec row s = .next (latched (srcFailCode b) (atByte (alignedPos b) b))
  /-- The four bytes are read, and no data. -/
  mismatch : ∀ len nlen, HoldsLengths (alignedPos b) len nlen b → nlen ≠ ~~~len →
    exec row s = .next (latched 6 { atByte (alignedPos b + 4) b with stLen := len, stNlen := nlen })
  noData : ∀ len, HoldsLengths (alignedPos b) len (~~~len) b → b.inp.length < alignedPos b + 4 + len.toNat →
    exec row s = .next (latched (srcFailCode b) { atByte (alignedPos b + 4) b with stLen := len, stNlen := ~~~len })

/-- A block header's bits latched (45_block_producer.md R114): the type's bits and the final flag. -/
def withBlockHeader (typeBits : BitVec 3) (final : Bool) (s : State) : State :=
  { s with bh := typeBits ||| (BitVec.ofBool final).setWidth 3, prFinal := final }

/-- The fixed decoders installed (45_block_producer.md R116). -/
def withFixedDecoders (s : State) : State := { s with llDec := some fixedLlDec, dDec := some fixedDDec }

/-- What an inflate step does whose decode call, from the boundary of `s`, ended with `r` in `u`
(45_block_producer.md R118, R119). -/
structure EmitsRun (final : Bool) (s : State) (r : LzResult) (u t : State) : Prop where
  /-- The bytes written by the call, as they stood before the slide. -/
  response : ∃ v, t.responses = .data v :: u.responses ∧ v.length = u.lzCur.toNat - s.winBound.toNat ∧
    ∀ k < v.length, v.getD k 0 = Memory.read u.win (s.winBound.toNat + k)
  bound : t.winBound.toNat = min u.lzCur.toNat Config.distLimit
  window : SlidFrom u.lzCur.toNat u.win t.win
  canonical : Memory.wf t.win = true
  state : t.prState =
    match r, final with
    | .done, true => .footer
    | .done, false => .block
    | .windowFull, true => .inflateFinalBlock
    | .windowFull, false => .inflate
  /-- The decode call's result is not kept (10_state.md R21). -/
  flag : t.lzResult = none
  others : t = { u with responses := t.responses, winBound := t.winBound, win := t.win, prState := t.prState,
                        lzResult := t.lzResult }

/-- What a decode call that starts in `s` leaves in `x` when it raises inside an inflate step (44_lz77.md R99,
45_block_producer.md R118, 60_exceptions.md R143): one of its errors is sent and nothing else; the bytes written stand
above `WIN_BOUND`, which stays, and so do the installed decoders and `PR_STATE`. -/
structure CallRaises (s x : State) : Prop where
  response : x.responses = .error x.prErr :: s.responses
  error : x.prErr ∈ [1, 2, 8, 9, 14, 15]
  window : SameOutside s.winBound.toNat x.lzCur.toNat s.win x.win
  canonical : Memory.wf x.win = true
  others : x = { s with brPos := x.brPos, brOff := x.brOff, win := x.win, lzCur := x.lzCur, prErr := x.prErr,
                        responses := x.responses }

/-- What an inflate step that the instruction `row` makes from `s` does with its decode call, which starts in
`start`: it emits what a call that returns has written, and a call that raises ends it. -/
structure EndsAsItsCall (final : Bool) (row : Instr) (s start : State) : Prop where
  returns : ∀ r u, RunsSymbols start r u → ∃ t, exec row s = .next t ∧ EmitsRun final s r u t
  raises : ∀ x, RaisesSymbols start x → exec row s = .next x ∧ CallRaises start x

/-- What parseDynamic leaves of `s` in `x` when it raises (46_dynamic_codebook.md R126, 45_block_producer.md R117):
one of its errors is sent; of the registers only the cursor and its own transient ones are written, so both installed
decoders stay. -/
structure ParseRaises (s x : State) : Prop where
  response : x.responses = .error x.prErr :: s.responses
  error : x.prErr ∈ [1, 2, 7, 8, 10]
  others : x = { s with brPos := x.brPos, brOff := x.brOff, dyHlit := x.dyHlit, dyHdist := x.dyHdist,
                        dyHclen := x.dyHclen, dyCl := x.dyCl, clDec := x.clDec, dyLens := x.dyLens,
                        prErr := x.prErr, responses := x.responses }

/-- What an instruction `row` run from `s` does with the dynamic block whose header it reads from `b`
(45_block_producer.md R117): a header that parses installs its decoders for the decode call, and one that raises ends
the instruction in what parseDynamic leaves. -/
structure EndsAsItsDynamicBlock (final : Bool) (row : Instr) (s b : State) : Prop where
  parses : ∀ p ll d, ParsesDynamic b p ll d →
    EndsAsItsCall final row s
      { callStart p with llDec := some (compileDecoder ll), dDec := some (compileDecoder d) }
  raises : ∀ x, exec .parseDynamic b = .next x → x.responses ≠ b.responses → exec row s = .next x ∧ ParseRaises b x

/-- The instruction one STEP runs, by `PR_STATE` (45_block_producer.md R111). -/
def stepInstr : PrState → Instr
  | .header => .headerStep
  | .block => .blockStep
  | .inflate => .inflateStep false
  | .inflateFinalBlock => .inflateStep true
  | .footer => .footerStep
  | .endOfStream => .endStep

end Sys2Proof.Machine
end

