-- ==== Sys2Proof/Certificates/Slice0/Obligations.lean ====
section
/-! DEFINITION. The statements for the provers. Each docstring names the rule of the spec it formalises.

A next state that is written as a record update of `s` says the whole effect and the whole frame at once;
where a field is given by its reads, `t = { s with f := t.f, … }` says that only the fields named change. -/

open Sys2Proof Sys2Proof.Machine

/-! ## Steps and fetching -/

/-- A step at the port runs the head command word's instruction, and every command word is one (47_port_commands.md
R133, 30_encoding.md R67); with no command to take, the block is idle and keeps all its state (60_exceptions.md R151).
-/
def Obligations.StepRunsHeadCommand : Prop :=
  ∀ s : State, s.fetchPoint = .port →
    (∀ (w : BitVec 8) (rest : List (BitVec 8)), s.commands = w :: rest →
      ∃ i, decode (.portCmd w) = some i ∧ step s = exec i { s with commands := rest }) ∧
    (s.commands = [] → step s = .next s)

/-- A step at a unit's fetch point runs the element its unit reads there, at the state after the read, and returns to
the port (model's choice, notes/assumptions/11.md). A symbol past its alphabet, which no decoder of a run yields,
takes the last arm of the rule that reads it (notes/assumptions/21.md), and an index that names no operation runs none
(model's choice, notes/assumptions/35.md). -/
def Obligations.StepRunsFetchedElement : Prop :=
  ∀ (s u : State) (e : Element), fetchElement s = .ok (some e) u →
    (∀ i, decode e = some i → step s = exec i { u with fetchPoint := .port }) ∧
    (∀ v, 19 ≤ v → e = .clSymbol v → step s = exec .clZero18 { u with fetchPoint := .port }) ∧
    (∀ v, 288 ≤ v → e = .litlenSymbol v → step s = exec .ll287 { u with fetchPoint := .port }) ∧
    (∀ v, 32 ≤ v → e = .distSymbol v → step s = exec .dist31 { u with fetchPoint := .port }) ∧
    (∀ w args, 0x19 ≤ w.toNat → e = .internalOp w args → step s = .next { u with fetchPoint := .port })

/-- An element placed for the next fetch is the one the fetch reads, from every state; the fetch moves nothing but the
cursor, and takes the command off the queue (model's choice, notes/assumptions/24.md). -/
def Obligations.PlacedElementIsFetched : Prop :=
  ∀ (s : State) (e : Element), ∃ t, fetchElement (placeElement e s) = .ok (some e) t ∧
    t = { placeElement e s with brPos := t.brPos, brOff := t.brOff, commands := s.commands }

/-! ## Encodings -/

/-- Decoding an encoded well-formed instruction gives it back, for every instruction and every operand. -/
def Obligations.DecodeEncode : Prop := ∀ i : Instr, i.wellFormed = true → decode (encode i) = some i

/-- An element of the stream or a command word that decodes is the encoding of what it decodes to. -/
def Obligations.EncodeDecode : Prop :=
  ∀ (e : Element) (i : Instr), (∀ w args, e ≠ .internalOp w args) → decode e = some i → encode i = e

/-- Values outside the alphabets of 30_encoding.md R54, R62, R63 and R69 are refused, and no command word is. -/
def Obligations.ReservedValuesRefused : Prop :=
  (∀ v, decode (.clSymbol v) = none ↔ 19 ≤ v) ∧
  (∀ v, decode (.litlenSymbol v) = none ↔ 288 ≤ v) ∧
  (∀ v, decode (.distSymbol v) = none ↔ 32 ≤ v) ∧
  (∀ w, (decode (.portCmd w)).isSome = true) ∧
  (∀ w args, 0x19 ≤ w.toNat → decode (.internalOp w args) = none)

/-- Words written out from the encodings of 30_encoding.md decode to what they stand for. -/
def Obligations.SampleWordsDecode : Prop :=
  decode (.blockHeader 0b011) = some (.blockFixed true) ∧
  decode (.blockHeader 0b110) = some (.blockReserved false) ∧
  decode (.storedHeader 0xFFFD0002) = some (.storedHeader 2 0xFFFD) ∧
  decode (.dynamicHeader 0b1110_00010_00010) = some (.dynamicHeader 2 2 14) ∧
  decode (.clSymbol 18) = some .clZero18 ∧
  decode (.litlenSymbol 0x61) = some (.lit 0x61) ∧
  decode (.litlenSymbol 256) = some .eob ∧
  decode (.litlenSymbol 285) = some .len285 ∧
  decode (.distSymbol 29) = some .dist29 ∧
  decode (.portCmd 0x01) = some .step ∧
  decode (.portCmd 0x0F) = some .cmdReservedF ∧
  decode (.portCmd 0x11) = some (.cmdBadhigh1 1) ∧
  decode (.internalOp 0x0C { OpArgs.unused with n := 1000 }) = some (.slide 1000)

/-! ## The bit reader (40_bitreader.md) -/

/-- R72, R33: a peek returns the 32 stream bits from the cursor on, zero-padded, and moves nothing; with fewer than 4
bytes left it raises `SRC_FAIL`. The result stands in the model's own field (notes/assumptions/13.md); a raise run
alone is latched and responded (notes/assumptions/17.md). -/
def Obligations.PeekReturnsStreamBits : Prop :=
  ∀ s : State,
    (4 ≤ avail s → ∃ v : BitVec 32, exec .peekBits s = .next { s with opResult := .bits v } ∧
      ∀ k < 32, v.getLsbD k = streamBit k s) ∧
    (avail s < 4 → exec .peekBits s = .next (latched (srcFailCode s) s))

/-- R73, R75: consume moves the cursor by n bits and does nothing else, wherever the input ends (of an n above 32,
which R73 never issues, this is the model's choice, notes/assumptions/31.md); byteAlign brings it to the next byte
boundary, and a second one does nothing. -/
def Obligations.ConsumeAndByteAlignMoveCursor : Prop :=
  ∀ s : State,
    (∀ n, exec (.consume n) s = .next (advance n s)) ∧
    exec .byteAlign s = .next (atByte (alignedPos s) s) ∧
    exec .byteAlign (atByte (alignedPos s) s) = .next (atByte (alignedPos s) s)

/-- R74: readBits returns the next n bits as a field and consumes them; a failing peek moves nothing, even when n is
0. The result stands in the model's own field (notes/assumptions/13.md); a raise run alone is latched and responded
(notes/assumptions/17.md). -/
def Obligations.ReadBitsReturnsField : Prop :=
  ∀ (s : State) (n : Nat), n ≤ 32 →
    (4 ≤ avail s → ∃ v : BitVec 32, v.toNat = fieldValue n s ∧
      exec (.readBits n) s = .next { advance n s with opResult := .bits v }) ∧
    (avail s < 4 → exec (.readBits n) s = .next (latched (srcFailCode s) s))

/-- R77: readExact aligns and returns the next n bytes, or raises with the alignment done; readExact of 0 bytes aligns
and returns none (with the cursor past the end of `IN` this is the model's choice, notes/assumptions/37.md). The
result stands in the model's own field (notes/assumptions/13.md); a raise run alone is latched and responded
(notes/assumptions/17.md). -/
def Obligations.ReadExactReturnsBytes : Prop :=
  ∀ (s : State) (n : Nat),
    (n ≤ s.inp.length - alignedPos s →
      exec (.readExact n) s =
        .next { atByte (alignedPos s + n) s with opResult := .bytes (inBytes (alignedPos s) n s) }) ∧
    (s.inp.length - alignedPos s < n →
      exec (.readExact n) s = .next (latched (srcFailCode s) (atByte (alignedPos s) s)))

/-- R78: read returns the bytes that are left, at most n; with none left it returns none, or raises `IoError` when the
source failed and n is not 0 (past the end of `IN` none is left: model's choice, notes/assumptions/37.md). The result
stands in the model's own field (notes/assumptions/13.md); a raise run alone is latched and responded
(notes/assumptions/17.md). -/
def Obligations.ReadReturnsWhatIsLeft : Prop :=
  ∀ (s : State) (n : Nat),
    let left := s.inp.length - alignedPos s
    ((left = 0 ∧ 0 < n ∧ s.inEnd = .ioerr) →
      exec (.read n) s = .next (latched 1 (atByte (alignedPos s) s))) ∧
    (¬ (left = 0 ∧ 0 < n ∧ s.inEnd = .ioerr) →
      exec (.read n) s =
        .next { atByte (alignedPos s + min n left) s with
          opResult := .bytes (inBytes (alignedPos s) (min n left) s) })

/-- R76: hasDataLeft answers whether a byte is left, and raises `IoError` at the end of a failed source. The result
stands in the model's own field (notes/assumptions/13.md); a raise run alone is latched and responded
(notes/assumptions/17.md). -/
def Obligations.HasDataLeftAnswers : Prop :=
  ∀ s : State,
    (s.brPos < s.inp.length → exec .hasDataLeft s = .next { s with opResult := .bool true }) ∧
    (s.inp.length ≤ s.brPos → s.inEnd = .eof → exec .hasDataLeft s = .next { s with opResult := .bool false }) ∧
    (s.inp.length ≤ s.brPos → s.inEnd = .ioerr → exec .hasDataLeft s = .next (latched 1 s))

/-! ## Codebooks and decoders (41_codebook.md, 42_huffman_decoder.md) -/

/-- R83, R84: a length array is built exactly when it has 1 to 289 entries of at most 15 and does not over-subscribe
the code space; otherwise `InvalidCodeLengths` is raised. The result stands in the model's own field
(notes/assumptions/13.md); a raise run alone is latched and responded (notes/assumptions/17.md). -/
def Obligations.BuildAcceptsExactlyKraft : Prop :=
  ∀ (lens : List Nat) (s : State),
    if lens ≠ [] ∧ lens.length ≤ 289 ∧ (∀ l ∈ lens, l ≤ 15) ∧ kraftUnits lens ≤ 2 ^ 15 then
      ∃ b : Codebook, b.entries.map CodeEntry.len = lens ∧
        exec (.buildCodebook lens) s = .next { s with opResult := .codebook b }
    else exec (.buildCodebook lens) s = .next (latched 7 s)

/-- R82, R85: what the builder returns is canonical. Its codes are in their ranges and prefix-free, codes of one
length are consecutive in symbol order, and shorter codes precede longer ones when left-shifted. -/
def Obligations.BuiltCodesAreCanonical : Prop :=
  ∀ (lens : List Nat) (b : Codebook), buildCodebook lens = some b →
    b.wellFormed = true ∧
    (∀ (i j : Nat) (e f : CodeEntry), b.entries[i]? = some e → b.entries[j]? = some f → 0 < e.len → 0 < f.len →
      (e.len = f.len → i ≤ j → f.code = e.code + ((lens.drop i).take (j - i)).count e.len) ∧
      (e.len < f.len → (e.code + 1) * 2 ^ (f.len - e.len) ≤ f.code))

/-- R92: decoding through the compiled tables is prefix matching against the codebook's codes. The result stands in
the model's own field (notes/assumptions/13.md); a raise run alone is latched and responded (notes/assumptions/17.md).
-/
def Obligations.DecodeIsPrefixMatch : Prop :=
  ∀ (lens : List Nat) (b : Codebook) (bits : BitVec 32) (s : State), buildCodebook lens = some b →
    (∀ (sym : Nat) (e : CodeEntry), b.entries[sym]? = some e → CodeMatches e bits →
      exec (.decode (compileDecoder b) bits) s = .next { s with opResult := .symbolLength sym e.len }) ∧
    ((∀ e ∈ b.entries, ¬ CodeMatches e bits) →
      exec (.decode (compileDecoder b) bits) s = .next (latched 8 s))

/-- R24, R89: every codebook compiles (of a record that the builder does not return this is the model's choice,
notes/assumptions/26.md), and one that the builder made of at most 288 lengths compiles to a decoder of the shape R24
gives, whose symbols end at 287: `PRI` of `2^P` slots, `SEC` of whole segments of `2^(M-P)` slots, at most 512 of
them, and none when M is at most 9. The result stands in the model's own field (notes/assumptions/13.md). -/
def Obligations.CompiledDecoderHasShape : Prop :=
  ∀ (b : Codebook) (s : State), ∃ d : Decoder,
    exec (.compileDecoder b) s = .next { s with opResult := .decoder d } ∧
    d.maxLen = b.maxLen ∧ d.primaryBits = min b.maxLen 9 ∧
    ∀ lens, lens.length ≤ 288 → buildCodebook lens = some b → d.wellFormed = true

/-- 30_encoding.md R58, R59: under the fixed decoders, the bits of a symbol's code of R59 decode to that symbol: the
literal/length codes, and the five bits of a distance code, first bit highest. The result stands in the model's own
field (notes/assumptions/13.md). -/
def Obligations.FixedCodesDecode : Prop :=
  ∀ (sym : Nat) (bits : BitVec 32) (s : State),
    (sym < 288 → CodeMatches ⟨fixedLlCode sym, fixedLlLen sym⟩ bits →
      exec (.decode fixedLlDec bits) s = .next { s with opResult := .symbolLength sym (fixedLlLen sym) }) ∧
    (sym < 32 → CodeMatches ⟨sym, 5⟩ bits →
      exec (.decode fixedDDec bits) s = .next { s with opResult := .symbolLength sym 5 })

/-- R91: decodeSymbol peeks, decodes and consumes the code's length; `SRC_FAIL` comes before
`HuffmanDecoderCodeNotFound`, and neither moves the cursor. The result stands in the model's own field
(notes/assumptions/13.md); a raise run alone is latched and responded (notes/assumptions/17.md). -/
def Obligations.DecodeSymbolConsumesCode : Prop :=
  ∀ (s : State) (which : DecoderName),
    (avail s < 4 → exec (.decodeSymbol which) s = .next (latched (srcFailCode s) s)) ∧
    (4 ≤ avail s → decodeBits (namedDecoder which s) (peekWord s) = none →
      exec (.decodeSymbol which) s = .next (latched 8 s)) ∧
    (∀ sym len, 4 ≤ avail s → decodeBits (namedDecoder which s) (peekWord s) = some (sym, len) →
      exec (.decodeSymbol which) s = .next { advance len s with opResult := .symbol sym })

/-! ## The window (43_window.md) -/

/-- R95: slide brings the boundary to `min(WIN_BOUND + n, D)` and, past D, the last D bytes down to address 0; nothing
else changes. -/
def Obligations.SlideKeepsHistory : Prop :=
  ∀ (s : State) (n : Nat), Memory.wf s.win = true → s.winBound.toNat + n ≤ 98304 →
    ∃ t, exec (.slide n) s = .next t ∧
      t.winBound.toNat = min (s.winBound.toNat + n) 32768 ∧
      SlidFrom (s.winBound.toNat + n) s.win t.win ∧ Memory.wf t.win = true ∧
      t = { s with winBound := t.winBound, win := t.win }

/-- R95: the slide's copy gives the very memory that the ascending byte-by-byte copy gives. -/
def Obligations.SlideIsAscendingCopy : Prop :=
  ∀ (s : State) (n : Nat), Memory.wf s.win = true → 32768 < s.winBound.toNat + n →
    s.winBound.toNat + n ≤ 98304 →
    exec (.slide n) s =
      .next { s with win := ascendingMove (s.winBound.toNat + n - 32768) 32768 0 s.win, winBound := 32768 }

/-- R94, R96: writeBuffer exposes the region from the boundary on; the window reset sets the boundary to 0 and clears
no byte. The result stands in the model's own field (notes/assumptions/13.md). -/
def Obligations.WindowResetAndWriteBuffer : Prop :=
  ∀ s : State,
    exec .windowReset s = .next { s with winBound := 0 } ∧
    exec .writeBuffer s =
      .next { s with opResult := .region s.winBound.toNat (98304 - s.winBound.toNat) }

/-- 45_block_producer.md R119: Data emission sends the n bytes from `LZ_START` on as they stand before the slide, and
slides n. -/
def Obligations.DataEmissionSendsThenSlides : Prop :=
  ∀ (s : State) (n : Nat), Memory.wf s.win = true → s.lzStart.toNat + n ≤ 98304 → s.winBound.toNat + n ≤ 98304 →
    ∃ t v, exec (.dataEmission n) s = .next t ∧ v.length = n ∧
      (∀ k < n, v.getD k 0 = Memory.read s.win (s.lzStart.toNat + k)) ∧
      t.responses = .data v :: s.responses ∧
      t.winBound.toNat = min (s.winBound.toNat + n) 32768 ∧
      SlidFrom (s.winBound.toNat + n) s.win t.win ∧
      t = { s with responses := t.responses, winBound := t.winBound, win := t.win }

/-- The model stops at a window address past 98303, which does not exist (20_memory.md R30; model's choice,
notes/assumptions/18.md): a slide or a Data emission past the end, a literal at the end, and a copy that reads no byte
it may not and would run over the end. -/
def Obligations.WindowAddressesPastEndFault : Prop :=
  ∀ s : State,
    (∀ n, 98304 < s.winBound.toNat + n → exec (.slide n) s = .fault .windowAddress) ∧
    (∀ n, 98304 < s.lzStart.toNat + n ∨ 98304 < s.winBound.toNat + n →
      exec (.dataEmission n) s = .fault .windowAddress) ∧
    (∀ b, 98304 ≤ s.lzCur.toNat → exec (.lit b) s = .fault .windowAddress) ∧
    (∀ sym i len dist u, 257 ≤ sym → sym ≤ 285 → decode (.litlenSymbol sym) = some i →
      ReadsReference sym s len dist u → dist ≤ s.lzCur.toNat → 98304 < s.lzCur.toNat + len →
      exec i s = .fault .windowAddress)

/-! ## The LZ77 decoder (44_lz77.md) -/

/-- R101: a literal writes its byte at the write cursor, which moves on by one; no other byte changes. -/
def Obligations.LiteralWritesOneByte : Prop :=
  ∀ (s : State) (b : Byte), Memory.wf s.win = true → s.lzCur.toNat < 98304 →
    ∃ t, exec (.lit b) s = .next t ∧
      t.lzCur.toNat = s.lzCur.toNat + 1 ∧ Memory.read t.win s.lzCur.toNat = b ∧
      SameOutside s.lzCur.toNat (s.lzCur.toNat + 1) s.win t.win ∧ Memory.wf t.win = true ∧
      t = { s with lzCur := t.lzCur, win := t.win }

/-- R102, R104: end-of-block ends the call with Done and the count of bytes written; symbols 286 and 287 raise
`InvalidLengthSymbol` and write nothing. The result stands in the model's own field (notes/assumptions/13.md); a raise
run alone is latched and responded (notes/assumptions/17.md). -/
def Obligations.EndOfBlockAndIllegalSymbols : Prop :=
  ∀ s : State,
    exec .eob s =
      .next { s with lzResult := some .done, opResult := .lz77 .done (s.lzCur.toNat - s.lzStart.toNat) } ∧
    exec .ll286 s = .next (latched 14 s) ∧ exec .ll287 s = .next (latched 14 s)

/-- R103, R108: a back-reference writes at the write cursor the bytes `dist` behind it, with period `dist` when that
is less than the length; no other byte changes. It holds for every symbol 257..285. -/
def Obligations.BackReferenceCopies : Prop :=
  ∀ (s u : State) (sym len dist : Nat) (i : Instr), Memory.wf s.win = true →
    257 ≤ sym → sym ≤ 285 → decode (.litlenSymbol sym) = some i →
    ReadsReference sym s len dist u → dist ≤ s.lzCur.toNat → s.lzCur.toNat + len ≤ 98304 →
    ∃ t, exec i s = .next t ∧ t.lzCur.toNat = s.lzCur.toNat + len ∧
      (∀ k < len, Memory.read t.win (s.lzCur.toNat + k) =
        Memory.read s.win (s.lzCur.toNat - dist + k % dist)) ∧
      SameOutside s.lzCur.toNat (s.lzCur.toNat + len) s.win t.win ∧ Memory.wf t.win = true ∧
      t = { u with lzCur := t.lzCur, win := t.win }

/-- R103, 60_exceptions.md R141: the errors of a back-reference, in stream order. `DistanceTooMuch` comes last and
writes no byte of the window. A raise run alone is latched and responded (notes/assumptions/17.md). -/
def Obligations.BackReferenceErrorOrder : Prop :=
  ∀ (s : State) (sym : Nat) (i : Instr), 257 ≤ sym → sym ≤ 285 → decode (.litlenSymbol sym) = some i →
    let s₁ := advance (lenExtra.getD (sym - 257) 0) s
    (avail s < 4 → exec i s = .next (latched (srcFailCode s) s)) ∧
    (4 ≤ avail s → avail s₁ < 4 → exec i s = .next (latched (srcFailCode s) s₁)) ∧
    (4 ≤ avail s → 4 ≤ avail s₁ → decodeBits (installed s.dDec) (peekWord s₁) = none →
      exec i s = .next (latched 8 s₁)) ∧
    (∀ ds l, 4 ≤ avail s → 4 ≤ avail s₁ → decodeBits (installed s.dDec) (peekWord s₁) = some (ds, l) →
      (29 < ds → exec i s = .next (latched 15 (advance l s₁))) ∧
      (ds ≤ 29 → avail (advance l s₁) < 4 → exec i s = .next (latched (srcFailCode s) (advance l s₁)))) ∧
    (∀ len dist u, ReadsReference sym s len dist u → s.lzCur.toNat < dist → exec i s = .next (latched 9 u))

/-- R106, R107: a distance symbol of 0..29 gives its base plus its extra bits, or raises `SRC_FAIL` on them; symbols
30 and 31 raise `InvalidDistanceSymbol` before any extra bits are read. The distance stands in the model's result
field (notes/assumptions/16.md). A raise run alone is latched and responded (notes/assumptions/17.md). -/
def Obligations.DistanceSymbolGivesDistance : Prop :=
  ∀ (s : State) (ds : Nat) (i : Instr), decode (.distSymbol ds) = some i →
    (ds ≤ 29 → 4 ≤ avail s →
      exec i s = .next { advance (distExtra.getD ds 0) s with
        opResult := .distance (distBase.getD ds 0 + fieldValue (distExtra.getD ds 0) s) }) ∧
    (ds ≤ 29 → avail s < 4 → exec i s = .next (latched (srcFailCode s) s)) ∧
    (29 < ds → exec i s = .next (latched 15 s))

/-- 30_encoding.md R55, R56, R60, R105: every length 3..258 and every distance 1..32768 is the base of a symbol plus a
value of its extra bits, and nothing else is; the distance's symbol and extra bits are unique, and so are the
length's, but for 258, which symbol 284 gives as well as 285. -/
def Obligations.LengthsAndDistancesTile : Prop :=
  (∀ d, (1 ≤ d ∧ d ≤ 32768) ↔
    ∃ ds x, ds ≤ 29 ∧ x < 2 ^ distExtra.getD ds 0 ∧ d = distBase.getD ds 0 + x) ∧
  (∀ ds x ds' x', ds ≤ 29 → x < 2 ^ distExtra.getD ds 0 → ds' ≤ 29 → x' < 2 ^ distExtra.getD ds' 0 →
    distBase.getD ds 0 + x = distBase.getD ds' 0 + x' → ds = ds' ∧ x = x') ∧
  (∀ l, (3 ≤ l ∧ l ≤ 258) ↔
    ∃ i x, i ≤ 28 ∧ x < 2 ^ lenExtra.getD i 0 ∧ l = lenBase.getD i 0 + x) ∧
  (∀ i x i' x', i ≤ 28 → x < 2 ^ lenExtra.getD i 0 → i' ≤ 28 → x' < 2 ^ lenExtra.getD i' 0 →
    lenBase.getD i 0 + x = lenBase.getD i' 0 + x' → lenBase.getD i 0 + x ≠ 258 → i = i' ∧ x = x')

/-- R99, R100: a decode call returns with `r` exactly when the loop, unbounded and run symbol by symbol through the
symbols' own instructions, ends with `r`; and it raises exactly when that loop, wherever it has got to, meets
`SRC_FAIL` or `HuffmanDecoderCodeNotFound` on the next symbol or the error that symbol's own instruction raises. The
result stands in the model's own field (notes/assumptions/13.md); a raise run alone is latched and responded
(notes/assumptions/17.md). -/
def Obligations.Lz77DecodeRunsItsSymbols : Prop :=
  ∀ s t : State,
    ((exec .lz77Decode s = .next t ∧ t.responses = s.responses) ↔
      ∃ r u, RunsSymbols (callStart s) r u ∧
        t = { u with lzResult := some r, opResult := .lz77 r (u.lzCur.toNat - u.lzStart.toNat) }) ∧
    ((exec .lz77Decode s = .next t ∧ t.responses ≠ s.responses) ↔ RaisesSymbols (callStart s) t)

/-- R100: the WindowFull test. A call that starts past 98046 returns at once with nothing read; one that starts at or
below it, with no input left, fails on its first symbol. The result stands in the model's own field
(notes/assumptions/13.md); a raise run alone is latched and responded (notes/assumptions/17.md). -/
def Obligations.WindowFullBoundary : Prop :=
  ∀ s : State,
    (98046 < s.winBound.toNat → exec .lz77Decode s =
      .next { s with lzStart := s.winBound, lzCur := s.winBound, lzResult := some .windowFull,
                     opResult := .lz77 .windowFull 0 }) ∧
    (s.winBound.toNat ≤ 98046 → avail s < 4 → exec .lz77Decode s =
      .next (latched (srcFailCode s) { s with lzStart := s.winBound, lzCur := s.winBound }))

/-! ## Dynamic codebooks (46_dynamic_codebook.md) -/

/-- R127: the dynamic header's counts are its fields plus 257, 1 and 4, at every value of the fields. -/
def Obligations.DynamicHeaderSetsCounts : Prop :=
  ∀ (s : State) (hlit hdist : BitVec 5) (hclen : BitVec 4), ∃ t,
    exec (.dynamicHeader hlit hdist hclen) s = .next t ∧
    t.dyHlit.toNat = hlit.toNat + 257 ∧ t.dyHdist.toNat = hdist.toNat + 1 ∧ t.dyHclen.toNat = hclen.toNat + 4 ∧
    t = { s with dyHlit := t.dyHlit, dyHdist := t.dyHdist, dyHclen := t.dyHclen }

/-- R129, R54: the code-length symbols. 0..15 append one length, 16 repeats the last length 3 to 6 times and must have
one, 17 and 18 append 3 to 10 and 11 to 138 zeros; the extra bits are consumed. A raise run alone is latched and
responded (notes/assumptions/17.md). -/
def Obligations.CodeLengthSymbolsAppend : Prop :=
  ∀ s : State,
    (∀ v i, v ≤ 15 → decode (.clSymbol v) = some i →
      exec i s = .next { s with dyLens := s.dyLens ++ [BitVec.ofNat 4 v] }) ∧
    (∀ l, s.dyLens.getLast? = some l → 4 ≤ avail s →
      exec .clRepeat16 s =
        .next { advance 2 s with dyLens := s.dyLens ++ List.replicate (3 + fieldValue 2 s) l }) ∧
    (s.dyLens = [] → exec .clRepeat16 s = .next (latched 10 s)) ∧
    (4 ≤ avail s →
      exec .clZero17 s = .next { advance 3 s with dyLens := s.dyLens ++ List.replicate (3 + fieldValue 3 s) 0 } ∧
      exec .clZero18 s = .next { advance 7 s with dyLens := s.dyLens ++ List.replicate (11 + fieldValue 7 s) 0 }) ∧
    (avail s < 4 →
      (s.dyLens ≠ [] → exec .clRepeat16 s = .next (latched (srcFailCode s) s)) ∧
      exec .clZero17 s = .next (latched (srcFailCode s) s) ∧
      exec .clZero18 s = .next (latched (srcFailCode s) s))

/-- R126 to R131: a dynamic header whose lengths are read, are as many as declared and build, gives the two decoders
compiled from its two codebooks, and installs nothing. The result stands in the model's own field
(notes/assumptions/13.md). -/
def Obligations.ParseDynamicBuildsDecoders : Prop :=
  ∀ (s t : State) (ll d : Codebook), ParsesDynamic s t ll d →
    exec .parseDynamic s = .next { t with opResult := .decoders (compileDecoder ll) (compileDecoder d) }

/-- R130, R131: a header whose lengths run past the declared count raises `ReadDynamicCodebook`; one whose
literal/length lengths or distance lengths do not build raises `InvalidCodeLengths`. A raise run alone is latched and
responded (notes/assumptions/17.md). -/
def Obligations.ParseDynamicRejectsLengths : Prop :=
  ∀ s t : State, ParsesLengths s t →
    (t.dyLens.length ≠ lensTotal t → exec .parseDynamic s = .next (latched 10 t)) ∧
    (t.dyLens.length = lensTotal t →
      buildCodebook ((t.dyLens.take t.dyHlit.toNat).map BitVec.toNat) = none ∨
      buildCodebook ((t.dyLens.drop t.dyHlit.toNat).map BitVec.toNat) = none →
      exec .parseDynamic s = .next (latched 7 t))

/-! ## The block producer (45_block_producer.md) -/

/-- R112, R113: the Header step at the end of the input and with data left. Whichever collaborator is bound, a Header
is sent only when it has read the 10 bytes of the fixed header, and with fewer left the step raises one of its errors.
A raise run alone is latched and responded (notes/assumptions/17.md). -/
def Obligations.HeaderStepCases : Prop :=
  ∀ s : State,
    (s.inp.length ≤ s.brPos → s.inEnd = .ioerr → exec .headerStep s = .next (latched 1 s)) ∧
    (s.inp.length ≤ s.brPos → s.inEnd = .eof → s.prSeen = false → exec .headerStep s = .next (latched 3 s)) ∧
    (s.inp.length ≤ s.brPos → s.inEnd = .eof → s.prSeen = true →
      exec .headerStep s =
        .next { s with prState := .endOfStream, responses := .endOfStream :: s.responses }) ∧
    (∀ record u, s.brPos < s.inp.length → hdrParse s = .ok record u →
      exec .headerStep s =
        .next { s with brPos := u.brPos, brOff := u.brOff, prSeen := true, prState := .block,
                       responses := .header record :: s.responses } ∧
      (s.brOff = 0 → s.brPos + 10 ≤ u.brPos ∧ u.brPos ≤ s.inp.length ∧ u.brOff = 0)) ∧
    (s.brOff = 0 → s.brPos < s.inp.length → s.inp.length < s.brPos + 10 →
      ∃ t, exec .headerStep s = .next t ∧ t.prErr ∈ [1, 2, 4] ∧ t.responses = .error t.prErr :: s.responses ∧
        t = { s with brPos := t.brPos, brOff := t.brOff, prErr := t.prErr, responses := t.responses })

/-- R113, item 5: with a whole fixed header at the cursor whose flag byte's top 3 bits are not 0, the Header step
raises `InvalidGzHeader`, whichever collaborator is bound; it writes the cursor alone. A raise run alone is latched
and responded (notes/assumptions/17.md). -/
def Obligations.IllegalFlagByteRaises : Prop :=
  ∀ s : State, s.brOff = 0 → s.brPos + 10 ≤ s.inp.length →
    s.inp.getD (s.brPos + 3) 0 &&& 0xE0 ≠ 0 →
    ∃ t, exec .headerStep s = .next t ∧ t.prErr = 4 ∧ t.responses = .error 4 :: s.responses ∧
      t = { s with brPos := t.brPos, brOff := t.brOff, prErr := t.prErr, responses := t.responses }

/-- 95_test_vectors.md 0.1: the reference collaborator reads a plain 10-byte header and hands it out (PRESUMED,
notes/assumptions/4.md). -/
def Obligations.ReferenceHeaderRead : Prop :=
  ∀ (s : State) (rest : List Byte), s.hdrParse = .reference → s.brOff = 0 → s.brPos + 10 ≤ s.inp.length →
    inBytes s.brPos 10 s = [0x1F, 0x8B, 8, 0] ++ rest →
    exec .headerStep s =
      .next { s with brPos := s.brPos + 10, prSeen := true, prState := .block,
                     responses := .header ([0x1F, 0x8B, 8, 0] ++ rest) :: s.responses }

/-- R114, R50: a Block step reads the 3-bit header and runs the block row it is; with fewer than 4 bytes left it fails
before `PR_FINAL` is written. A reserved type raises with `PR_FINAL` and `BH` written. A raise run alone is latched
and responded (notes/assumptions/17.md). -/
def Obligations.BlockStepRunsItsHeader : Prop :=
  ∀ s : State,
    (avail s < 4 → exec .blockStep s = .next (latched (srcFailCode s) s)) ∧
    (∀ i, 4 ≤ avail s → decode (.blockHeader (BitVec.ofNat 3 (fieldValue 3 s))) = some i →
      exec .blockStep s = exec i (advance 3 s)) ∧
    (∀ final, exec (.blockReserved final) s =
      .next (latched 5 { s with bh := 0b110 ||| (BitVec.ofBool final).setWidth 3, prFinal := final }))

/-- R114, R115, R51: a stored block, as its length fields alone, after its header word, from its header word on, and
as a whole Block step: all its bytes are sent, the window keeps the last D, and a final block goes to Footer. The
length fields alone take the final flag from `PR_FINAL` (notes/assumptions/15.md); an empty block with the cursor past
the end of `IN` is the model's choice (notes/assumptions/37.md). -/
def Obligations.StoredBlockSendsAllBytes : Prop :=
  ∀ (s : State) (final : Bool) (len : BitVec 16), Memory.wf s.win = true → s.winBound.toNat + len.toNat ≤ 98304 →
    (len.toNat ≤ s.inp.length - alignedPos s → ∃ t, exec (.storedHeader len (~~~len)) s = .next t ∧
      StoresData s.prFinal len.toNat (atByte (alignedPos s) s) t) ∧
    (HoldsStored (alignedPos s) len s →
      (∃ t, exec (.storedBlock final) s = .next t ∧
        StoresData final len.toNat (atByte (alignedPos s + 4) s) t) ∧
      (∃ t, exec (.blockStored final) s = .next t ∧
        StoresData final len.toNat
          { atByte (alignedPos s + 4) s with bh := (BitVec.ofBool final).setWidth 3, prFinal := final } t)) ∧
    (4 ≤ avail s → streamBit 0 s = final → streamBit 1 s = false → streamBit 2 s = false →
      HoldsStored (alignedPos (advance 3 s)) len s →
      ∃ t, exec .blockStep s = .next t ∧
        StoresData final len.toNat
          { atByte (alignedPos (advance 3 s) + 4) s with
            bh := (BitVec.ofBool final).setWidth 3, prFinal := final } t)

/-- R115, R51: the errors of a stored block, in order, as its length fields alone, after its header word, from its
header word on, and as a whole Block step. Fewer than 4 bytes of length fields raise `SRC_FAIL` with the alignment
done and no length written; halves that are not complements raise `BlockType0LenMismatch` before any data is read;
missing data raises `SRC_FAIL` with the lengths written. A block header read before stays written (R114). A raise run
alone is latched and responded (notes/assumptions/17.md). -/
def Obligations.StoredHeaderErrors : Prop :=
  ∀ s : State,
    (∀ len nlen : BitVec 16,
      (nlen ≠ ~~~len → exec (.storedHeader len nlen) s = .next (latched 6 { s with stLen := len, stNlen := nlen })) ∧
      (nlen = ~~~len → s.inp.length - alignedPos s < len.toNat →
        exec (.storedHeader len nlen) s =
          .next (latched (srcFailCode s) (atByte (alignedPos s) { s with stLen := len, stNlen := nlen })))) ∧
    ∀ final,
      StoredRaises (.storedBlock final) s s ∧
      StoredRaises (.blockStored final) s (withBlockHeader 0 final s) ∧
      (4 ≤ avail s → streamBit 0 s = final → streamBit 1 s = false → streamBit 2 s = false →
        StoredRaises .blockStep s (withBlockHeader 0 final (advance 3 s)))

/-- R114, R116, R117, R118, R119: a coded block, as the inflate step alone, after its header word, and from its header
word on, which writes `BH` and `PR_FINAL` first. A decode call that returns, from the decoders installed, from the
fixed decoders, or from those of the dynamic header, has its bytes sent and the state advanced as its result says, and
the result is not kept (10_state.md R21). One that raises ends the block with the call's error sent and no Data:
`WIN_BOUND` and `PR_STATE` stay, and the fixed or the dynamic decoders stay installed; a dynamic header that raises
leaves both decoders as they were (60_exceptions.md R143). A raise run alone is latched and responded
(notes/assumptions/17.md). -/
def Obligations.CodedBlocksEmitTheirRun : Prop :=
  ∀ (s : State) (final : Bool), Memory.wf s.win = true → s.winBound.toNat ≤ 32768 →
    EndsAsItsCall final (.inflateStep final) s (callStart s) ∧
    EndsAsItsCall final (.fixedBlock final) s (withFixedDecoders (callStart s)) ∧
    EndsAsItsCall final (.blockFixed final) s (withFixedDecoders (withBlockHeader 0b010 final (callStart s))) ∧
    EndsAsItsDynamicBlock final (.dynamicBlock final) s s ∧
    EndsAsItsDynamicBlock final (.blockDynamic final) s (withBlockHeader 0b100 final s)

/-- R121, R122: the Footer step resets the window and then reads eight bytes, little-endian, from the next byte
boundary and sends them unchecked; a STEP that finds fewer raises with the window reset and the alignment done. The
End step sends the end of the stream and changes nothing else. -/
def Obligations.FooterAndEndSteps : Prop :=
  ∀ s : State,
    (∀ crc isize : BitVec 32, alignedPos s + 8 ≤ s.inp.length →
      (∀ k < 4, s.inp.getD (alignedPos s + k) 0 = crc.extractLsb' (8 * k) 8) →
      (∀ k < 4, s.inp.getD (alignedPos s + 4 + k) 0 = isize.extractLsb' (8 * k) 8) →
      exec .footerStep s =
        .next { atByte (alignedPos s + 8) s with
          winBound := 0, prState := .header, responses := .footer crc isize :: s.responses }) ∧
    (s.prErr = 0 → s.prState = .footer → s.inp.length < alignedPos s + 8 →
      exec .step s = .next (latched (srcFailCode s) { atByte (alignedPos s) s with winBound := 0 })) ∧
    exec .endStep s = .next { s with responses := .endOfStream :: s.responses }

/-- R111's table: what a STEP with no error latched can send and where it can go. -/
def Obligations.StepUnitsAndTransitions : Prop :=
  ∀ s t : State, s.prErr = 0 → exec .step s = .next t → t.prErr = 0 →
    ∃ u, t.responses = u :: s.responses ∧
      match s.prState with
      | .header => ((∃ record, u = .header record) ∧ t.prState = .block) ∨ (u = .endOfStream ∧ t.prState = .endOfStream)
      | .block => (∃ v, u = .data v) ∧ t.prState ∈ [.block, .footer, .inflate, .inflateFinalBlock]
      | .inflate => (∃ v, u = .data v) ∧ t.prState ∈ [.inflate, .block]
      | .inflateFinalBlock => (∃ v, u = .data v) ∧ t.prState ∈ [.inflateFinalBlock, .footer]
      | .footer => (∃ crc isize, u = .footer crc isize) ∧ t.prState = .header
      | .endOfStream => u = .endOfStream ∧ t.prState = .endOfStream

/-! ## Port commands and errors (47_port_commands.md, 60_exceptions.md) -/

/-- R135, 45_block_producer.md R111, R122: with no error latched, STEP runs the producer step of `PR_STATE`; at the
end of the stream it sends that again and changes nothing else. -/
def Obligations.StepCommandDispatch : Prop :=
  ∀ s : State, s.prErr = 0 →
    exec .step s = exec (stepInstr s.prState) s ∧
    (s.prState = .endOfStream → exec .step s = .next { s with responses := .endOfStream :: s.responses })

/-- R142, R143: a STEP that raises latches the code it sends, sends nothing else, and `PR_STATE` keeps its value; from
then on every STEP sends that code, reads no input and changes nothing else; no instruction but RESET leaves `PR_ERR`
at 0. -/
def Obligations.ErrorEntryIsSticky : Prop :=
  ∀ s : State,
    (∀ t, s.prErr = 0 → exec .step s = .next t → t.prErr ≠ 0 →
      t.responses = .error t.prErr :: s.responses ∧ t.prState = s.prState ∧ errLegal t.prErr = true) ∧
    (s.prErr ≠ 0 → exec .step s = .next { s with responses := .error s.prErr :: s.responses }) ∧
    (∀ i t, i ≠ .reset → s.prErr ≠ 0 → exec i s = .next t → t.prErr ≠ 0)

/-- R133, R68: whatever command is taken, exactly one response is sent, and no other command is taken. -/
def Obligations.OneResponsePerCommand : Prop :=
  ∀ (s t : State) (w : BitVec 8) (rest : List (BitVec 8)), s.fetchPoint = .port → s.commands = w :: rest →
    step s = .next t → t.commands = rest ∧ ∃ r, t.responses = r :: s.responses

/-- 20_memory.md R46, 70_reset_and_hazards.md R154, R157, 10_state.md R20: no instruction writes the input, its end or
the collaborator's binding, and none but RESET moves the cursor backwards. -/
def Obligations.InputStandsAndCursorNeverRewinds : Prop :=
  ∀ (i : Instr) (s t : State), exec i s = .next t →
    t.inp = s.inp ∧ t.inEnd = s.inEnd ∧ t.hdrParse = s.hdrParse ∧ (i ≠ .reset → bitAddr s ≤ bitAddr t)

/-- R134, 70_reset_and_hazards.md R152: RESET, in every state, gives every persistent register its reset value and
leaves the input and the window's bytes; the power-on state has the same values, and STATUS reads 0 in both. -/
def Obligations.ResetRestoresResetValues : Prop :=
  (∀ s : State, ∃ t, exec .reset s = .next t ∧ t.responses = .ok :: s.responses ∧
    t.brPos = 0 ∧ t.brOff = 0 ∧ t.brBuf = [] ∧ t.winBound = 0 ∧ t.prState = .header ∧ t.prFinal = false ∧
    t.prSeen = false ∧ t.prErr = 0 ∧ t.llDec = none ∧ t.dDec = none ∧ statusWord t = 0 ∧
    t = { s with brPos := t.brPos, brOff := t.brOff, brBuf := t.brBuf, winBound := t.winBound,
                 prState := t.prState, prFinal := t.prFinal, prSeen := t.prSeen, prErr := t.prErr,
                 llDec := t.llDec, dDec := t.dDec, lzResult := t.lzResult, responses := t.responses }) ∧
  (∃ t, exec .reset State.reset = .next t ∧ t = { State.reset with responses := [.ok] }) ∧
  statusWord State.reset = 0

/-- R136, 10_state.md R22, R23: STATUS sends the word whose fields are STATE 2:0, FINAL 3, SEEN 4, ERR 9:5, BOUND
26:10 and BITOFF 29:27, with 31:30 read as 0, and changes nothing. STATE is Header 0, Block 1, Inflate 2,
InflateFinalBlock 3, Footer 4, End 5. -/
def Obligations.StatusSendsItsFields : Prop :=
  ∀ s : State, ∃ w : BitVec 32, exec .status s = .next { s with responses := .status w :: s.responses } ∧
    w.extractLsb' 0 3 = prStateCode s.prState ∧
    (w.extractLsb' 0 3).toNat = (match s.prState with
      | .header => 0
      | .block => 1
      | .inflate => 2
      | .inflateFinalBlock => 3
      | .footer => 4
      | .endOfStream => 5) ∧
    w.getLsbD 3 = s.prFinal ∧ w.getLsbD 4 = s.prSeen ∧
    w.extractLsb' 5 5 = s.prErr ∧ w.extractLsb' 10 17 = s.winBound ∧ w.extractLsb' 27 3 = s.brOff ∧
    w.extractLsb' 30 2 = 0

/-- R137: every command word but 0x00, 0x01 and 0x02 sends `ERROR(16)` and changes nothing, whatever is latched. -/
def Obligations.IllegalCommandsChangeNothing : Prop :=
  ∀ (s : State) (w : BitVec 8) (i : Instr), 3 ≤ w.toNat → decode (.portCmd w) = some i →
    exec i s = .next { s with responses := .error 16 :: s.responses }

/-! ## The whole machine -/

/-- The invariant holds at reset. -/
def Obligations.ResetSatisfiesInvariant : Prop := State.reset.Inv ∧ HistoryHeld State.reset

/-- Every step keeps the invariant (10_state.md R18, R21, R22; 43_window.md R97; 40_bitreader.md R79). -/
def Obligations.StepKeepsInvariant : Prop := ∀ s t : State, s.Inv → step s = .next t → t.Inv

/-- No step is refused. From a state that meets the invariant a step always answers a next state, and so does the STEP
command, with one response: no window access leaves the window, no command is refused (44_lz77.md R99, R103;
45_block_producer.md R115, R124). -/
def Obligations.InvariantStepsAlwaysComplete : Prop :=
  (∀ (s : State) (r : Refusal), step s ≠ .refused r) ∧
  ∀ s : State, s.Inv → (∃ t, step s = .next t) ∧ ∃ t u, exec .step s = .next t ∧ t.responses = u :: s.responses

/-- 20_memory.md R41: every step keeps the history below the boundary equal to the last 32768 bytes the current member
has put out. -/
def Obligations.StepKeepsHistory : Prop :=
  ∀ s t : State, s.Inv → HistoryHeld s → step s = .next t → HistoryHeld t

/-- 45_block_producer.md R124: a host that sends STEP often enough, given the length of the input, sees the end of the
stream or an error. -/
def Obligations.FiniteInputEnds : Prop :=
  ∀ s : State, s.Inv → s.prErr = 0 →
    ∃ t : State, Host.Core.run Sys2Proof.core (16 * s.inp.length + 3)
        { s with commands := List.replicate (16 * s.inp.length + 3) 0x01 } = .next t ∧
      (t.prErr ≠ 0 ∨ t.prState = .endOfStream)

/-- 40_bitreader.md R70: what stands in the refill buffer cannot be seen; two states that differ in it alone step to
outcomes that differ in it alone. -/
def Obligations.RefillBufferIsUnobservable : Prop :=
  ∀ (s t : State) (v : List Byte), step s = .next t →
    ∃ v', step { s with brBuf := v } = .next { t with brBuf := v' }

/-- 10_state.md R29, 93_implementation_defined.md I19: window bytes at and above the boundary cannot be seen; two
states that differ in them alone step to states that differ in them alone, with the same responses. -/
def Obligations.StaleWindowIsUnobservable : Prop :=
  ∀ (s t : State) (m : Memory), s.Inv → Memory.wf m = true → Memory.below 98304 m = true →
    (∀ a < s.winBound.toNat, Memory.read m a = Memory.read s.win a) → step s = .next t →
    ∃ m', step { s with win := m } = .next { t with win := m' } ∧
      ∀ a < t.winBound.toNat, Memory.read m' a = Memory.read t.win a

/-! ## The errors of a dynamic header (46_dynamic_codebook.md) -/

/-- R127, R128, R129, 60_exceptions.md R141: the errors of a dynamic header in stream order: `SRC_FAIL` on each count
and each 3-bit value, `InvalidCodeLengths` on a code-length code that does not build, and, wherever the lengths' loop
has got to, `SRC_FAIL` or `HuffmanDecoderCodeNotFound` on the next symbol, or the error that symbol's own instruction
raises. A raise run alone is latched and responded (notes/assumptions/17.md). -/
def Obligations.ParseDynamicErrorOrder : Prop :=
  ∀ s : State,
    (avail s < 4 → exec .parseDynamic s = .next (latched (srcFailCode s) s)) ∧
    (4 ≤ avail s → avail (advance 5 s) < 4 →
      exec .parseDynamic s = .next (latched (srcFailCode s)
        { advance 5 s with dyHlit := BitVec.ofNat 9 (fieldValue 5 s + 257) })) ∧
    (4 ≤ avail s → 4 ≤ avail (advance 5 s) → avail (advance 10 s) < 4 →
      exec .parseDynamic s = .next (latched (srcFailCode s)
        { advance 10 s with dyHlit := BitVec.ofNat 9 (fieldValue 5 s + 257),
                            dyHdist := BitVec.ofNat 6 (fieldValue 5 (advance 5 s) + 1) })) ∧
    (∀ n < clCount s, CountsThere s → ValuesThere n s → avail (advance (14 + 3 * n) s) < 4 →
      ∃ cl, exec .parseDynamic s =
        .next (latched (srcFailCode s) { withCountsOf s (advance (14 + 3 * n) s) with dyCl := cl })) ∧
    (∀ cl, CountsThere s → ValuesThere (clCount s) s → GivesClLengths cl s →
      buildCodebook (cl.map BitVec.toNat) = none →
      exec .parseDynamic s =
        .next (latched 7 { withCountsOf s (advance (14 + 3 * clCount s) s) with dyCl := cl })) ∧
    (∀ cl cb t, CountsThere s → ValuesThere (clCount s) s → GivesClLengths cl s →
      buildCodebook (cl.map BitVec.toNat) = some cb → RunsSomeLengths (lengthsStart cl cb s) t →
      t.dyLens.length < lensTotal t →
      (avail t < 4 → exec .parseDynamic s = .next (latched (srcFailCode s) t)) ∧
      (4 ≤ avail t → decodeBits t.clDec (peekWord t) = none → exec .parseDynamic s = .next (latched 8 t)) ∧
      (∀ v u i x, decodeSymbol t.clDec t = .ok v u → decode (.clSymbol v) = some i → exec i u = .next x →
        x.responses ≠ u.responses → exec .parseDynamic s = .next x))
end

