-- ==== Sys2Proof/Laws/State.lean ====
section
/-! SUPPORT. One lemma for each field of the state under each named update of it. -/

namespace Sys2Proof.Machine

variable (s : State)

/-! ## `respond` -/

@[simp] theorem respond_inp (r : Response) : (respond r s).inp = s.inp := rfl
@[simp] theorem respond_inEnd (r : Response) : (respond r s).inEnd = s.inEnd := rfl
@[simp] theorem respond_hdrParse (r : Response) : (respond r s).hdrParse = s.hdrParse := rfl
@[simp] theorem respond_brPos (r : Response) : (respond r s).brPos = s.brPos := rfl
@[simp] theorem respond_brOff (r : Response) : (respond r s).brOff = s.brOff := rfl
@[simp] theorem respond_brBuf (r : Response) : (respond r s).brBuf = s.brBuf := rfl
@[simp] theorem respond_win (r : Response) : (respond r s).win = s.win := rfl
@[simp] theorem respond_winBound (r : Response) : (respond r s).winBound = s.winBound := rfl
@[simp] theorem respond_prState (r : Response) : (respond r s).prState = s.prState := rfl
@[simp] theorem respond_prFinal (r : Response) : (respond r s).prFinal = s.prFinal := rfl
@[simp] theorem respond_prSeen (r : Response) : (respond r s).prSeen = s.prSeen := rfl
@[simp] theorem respond_prErr (r : Response) : (respond r s).prErr = s.prErr := rfl
@[simp] theorem respond_llDec (r : Response) : (respond r s).llDec = s.llDec := rfl
@[simp] theorem respond_dDec (r : Response) : (respond r s).dDec = s.dDec := rfl
@[simp] theorem respond_lzCur (r : Response) : (respond r s).lzCur = s.lzCur := rfl
@[simp] theorem respond_lzStart (r : Response) : (respond r s).lzStart = s.lzStart := rfl
@[simp] theorem respond_lzResult (r : Response) : (respond r s).lzResult = s.lzResult := rfl
@[simp] theorem respond_stLen (r : Response) : (respond r s).stLen = s.stLen := rfl
@[simp] theorem respond_stNlen (r : Response) : (respond r s).stNlen = s.stNlen := rfl
@[simp] theorem respond_dyHlit (r : Response) : (respond r s).dyHlit = s.dyHlit := rfl
@[simp] theorem respond_dyHdist (r : Response) : (respond r s).dyHdist = s.dyHdist := rfl
@[simp] theorem respond_dyHclen (r : Response) : (respond r s).dyHclen = s.dyHclen := rfl
@[simp] theorem respond_dyCl (r : Response) : (respond r s).dyCl = s.dyCl := rfl
@[simp] theorem respond_dyLens (r : Response) : (respond r s).dyLens = s.dyLens := rfl
@[simp] theorem respond_clDec (r : Response) : (respond r s).clDec = s.clDec := rfl
@[simp] theorem respond_bh (r : Response) : (respond r s).bh = s.bh := rfl
@[simp] theorem respond_commands (r : Response) : (respond r s).commands = s.commands := rfl
@[simp] theorem respond_responses (r : Response) : (respond r s).responses = r :: s.responses := rfl
@[simp] theorem respond_opResult (r : Response) : (respond r s).opResult = s.opResult := rfl
@[simp] theorem respond_fetchPoint (r : Response) : (respond r s).fetchPoint = s.fetchPoint := rfl

/-! ## `enterError` -/

@[simp] theorem enterError_inp (e : Err) : (enterError e s).inp = s.inp := rfl
@[simp] theorem enterError_inEnd (e : Err) : (enterError e s).inEnd = s.inEnd := rfl
@[simp] theorem enterError_hdrParse (e : Err) : (enterError e s).hdrParse = s.hdrParse := rfl
@[simp] theorem enterError_brPos (e : Err) : (enterError e s).brPos = s.brPos := rfl
@[simp] theorem enterError_brOff (e : Err) : (enterError e s).brOff = s.brOff := rfl
@[simp] theorem enterError_brBuf (e : Err) : (enterError e s).brBuf = s.brBuf := rfl
@[simp] theorem enterError_win (e : Err) : (enterError e s).win = s.win := rfl
@[simp] theorem enterError_winBound (e : Err) : (enterError e s).winBound = s.winBound := rfl
@[simp] theorem enterError_prState (e : Err) : (enterError e s).prState = s.prState := rfl
@[simp] theorem enterError_prFinal (e : Err) : (enterError e s).prFinal = s.prFinal := rfl
@[simp] theorem enterError_prSeen (e : Err) : (enterError e s).prSeen = s.prSeen := rfl
@[simp] theorem enterError_prErr (e : Err) : (enterError e s).prErr = errCode e := rfl
@[simp] theorem enterError_llDec (e : Err) : (enterError e s).llDec = s.llDec := rfl
@[simp] theorem enterError_dDec (e : Err) : (enterError e s).dDec = s.dDec := rfl
@[simp] theorem enterError_lzCur (e : Err) : (enterError e s).lzCur = s.lzCur := rfl
@[simp] theorem enterError_lzStart (e : Err) : (enterError e s).lzStart = s.lzStart := rfl
@[simp] theorem enterError_lzResult (e : Err) : (enterError e s).lzResult = s.lzResult := rfl
@[simp] theorem enterError_stLen (e : Err) : (enterError e s).stLen = s.stLen := rfl
@[simp] theorem enterError_stNlen (e : Err) : (enterError e s).stNlen = s.stNlen := rfl
@[simp] theorem enterError_dyHlit (e : Err) : (enterError e s).dyHlit = s.dyHlit := rfl
@[simp] theorem enterError_dyHdist (e : Err) : (enterError e s).dyHdist = s.dyHdist := rfl
@[simp] theorem enterError_dyHclen (e : Err) : (enterError e s).dyHclen = s.dyHclen := rfl
@[simp] theorem enterError_dyCl (e : Err) : (enterError e s).dyCl = s.dyCl := rfl
@[simp] theorem enterError_dyLens (e : Err) : (enterError e s).dyLens = s.dyLens := rfl
@[simp] theorem enterError_clDec (e : Err) : (enterError e s).clDec = s.clDec := rfl
@[simp] theorem enterError_bh (e : Err) : (enterError e s).bh = s.bh := rfl
@[simp] theorem enterError_commands (e : Err) : (enterError e s).commands = s.commands := rfl
@[simp] theorem enterError_responses (e : Err) : (enterError e s).responses = .error (errCode e) :: s.responses := rfl
@[simp] theorem enterError_opResult (e : Err) : (enterError e s).opResult = s.opResult := rfl
@[simp] theorem enterError_fetchPoint (e : Err) : (enterError e s).fetchPoint = s.fetchPoint := rfl

/-! ## `resetState` -/

@[simp] theorem resetState_inp : (resetState s).inp = s.inp := rfl
@[simp] theorem resetState_inEnd : (resetState s).inEnd = s.inEnd := rfl
@[simp] theorem resetState_hdrParse : (resetState s).hdrParse = s.hdrParse := rfl
@[simp] theorem resetState_brPos : (resetState s).brPos = 0 := rfl
@[simp] theorem resetState_brOff : (resetState s).brOff = 0 := rfl
@[simp] theorem resetState_brBuf : (resetState s).brBuf = [] := rfl
@[simp] theorem resetState_win : (resetState s).win = s.win := rfl
@[simp] theorem resetState_winBound : (resetState s).winBound = 0 := rfl
@[simp] theorem resetState_prState : (resetState s).prState = .header := rfl
@[simp] theorem resetState_prFinal : (resetState s).prFinal = false := rfl
@[simp] theorem resetState_prSeen : (resetState s).prSeen = false := rfl
@[simp] theorem resetState_prErr : (resetState s).prErr = 0 := rfl
@[simp] theorem resetState_llDec : (resetState s).llDec = none := rfl
@[simp] theorem resetState_dDec : (resetState s).dDec = none := rfl
@[simp] theorem resetState_lzCur : (resetState s).lzCur = s.lzCur := rfl
@[simp] theorem resetState_lzStart : (resetState s).lzStart = s.lzStart := rfl
@[simp] theorem resetState_lzResult : (resetState s).lzResult = none := rfl
@[simp] theorem resetState_stLen : (resetState s).stLen = s.stLen := rfl
@[simp] theorem resetState_stNlen : (resetState s).stNlen = s.stNlen := rfl
@[simp] theorem resetState_dyHlit : (resetState s).dyHlit = s.dyHlit := rfl
@[simp] theorem resetState_dyHdist : (resetState s).dyHdist = s.dyHdist := rfl
@[simp] theorem resetState_dyHclen : (resetState s).dyHclen = s.dyHclen := rfl
@[simp] theorem resetState_dyCl : (resetState s).dyCl = s.dyCl := rfl
@[simp] theorem resetState_dyLens : (resetState s).dyLens = s.dyLens := rfl
@[simp] theorem resetState_clDec : (resetState s).clDec = s.clDec := rfl
@[simp] theorem resetState_bh : (resetState s).bh = s.bh := rfl
@[simp] theorem resetState_commands : (resetState s).commands = s.commands := rfl
@[simp] theorem resetState_responses : (resetState s).responses = s.responses := rfl
@[simp] theorem resetState_opResult : (resetState s).opResult = s.opResult := rfl
@[simp] theorem resetState_fetchPoint : (resetState s).fetchPoint = s.fetchPoint := rfl

/-! ## `consume` -/

@[simp] theorem consume_inp (n : Nat) : (consume n s).inp = s.inp := rfl
@[simp] theorem consume_inEnd (n : Nat) : (consume n s).inEnd = s.inEnd := rfl
@[simp] theorem consume_hdrParse (n : Nat) : (consume n s).hdrParse = s.hdrParse := rfl
@[simp] theorem consume_brPos (n : Nat) : (consume n s).brPos = s.brPos + (s.brOff.toNat + n) / 8 := rfl
@[simp] theorem consume_brOff (n : Nat) : (consume n s).brOff = BitVec.ofNat 3 (s.brOff.toNat + n) := rfl
@[simp] theorem consume_brBuf (n : Nat) : (consume n s).brBuf = s.brBuf := rfl
@[simp] theorem consume_win (n : Nat) : (consume n s).win = s.win := rfl
@[simp] theorem consume_winBound (n : Nat) : (consume n s).winBound = s.winBound := rfl
@[simp] theorem consume_prState (n : Nat) : (consume n s).prState = s.prState := rfl
@[simp] theorem consume_prFinal (n : Nat) : (consume n s).prFinal = s.prFinal := rfl
@[simp] theorem consume_prSeen (n : Nat) : (consume n s).prSeen = s.prSeen := rfl
@[simp] theorem consume_prErr (n : Nat) : (consume n s).prErr = s.prErr := rfl
@[simp] theorem consume_llDec (n : Nat) : (consume n s).llDec = s.llDec := rfl
@[simp] theorem consume_dDec (n : Nat) : (consume n s).dDec = s.dDec := rfl
@[simp] theorem consume_lzCur (n : Nat) : (consume n s).lzCur = s.lzCur := rfl
@[simp] theorem consume_lzStart (n : Nat) : (consume n s).lzStart = s.lzStart := rfl
@[simp] theorem consume_lzResult (n : Nat) : (consume n s).lzResult = s.lzResult := rfl
@[simp] theorem consume_stLen (n : Nat) : (consume n s).stLen = s.stLen := rfl
@[simp] theorem consume_stNlen (n : Nat) : (consume n s).stNlen = s.stNlen := rfl
@[simp] theorem consume_dyHlit (n : Nat) : (consume n s).dyHlit = s.dyHlit := rfl
@[simp] theorem consume_dyHdist (n : Nat) : (consume n s).dyHdist = s.dyHdist := rfl
@[simp] theorem consume_dyHclen (n : Nat) : (consume n s).dyHclen = s.dyHclen := rfl
@[simp] theorem consume_dyCl (n : Nat) : (consume n s).dyCl = s.dyCl := rfl
@[simp] theorem consume_dyLens (n : Nat) : (consume n s).dyLens = s.dyLens := rfl
@[simp] theorem consume_clDec (n : Nat) : (consume n s).clDec = s.clDec := rfl
@[simp] theorem consume_bh (n : Nat) : (consume n s).bh = s.bh := rfl
@[simp] theorem consume_commands (n : Nat) : (consume n s).commands = s.commands := rfl
@[simp] theorem consume_responses (n : Nat) : (consume n s).responses = s.responses := rfl
@[simp] theorem consume_opResult (n : Nat) : (consume n s).opResult = s.opResult := rfl
@[simp] theorem consume_fetchPoint (n : Nat) : (consume n s).fetchPoint = s.fetchPoint := rfl

/-! ## `latchBlockHeader` -/

@[simp] theorem latchBlockHeader_inp (w : BitVec 3) : (latchBlockHeader w s).inp = s.inp := rfl
@[simp] theorem latchBlockHeader_inEnd (w : BitVec 3) : (latchBlockHeader w s).inEnd = s.inEnd := rfl
@[simp] theorem latchBlockHeader_hdrParse (w : BitVec 3) : (latchBlockHeader w s).hdrParse = s.hdrParse := rfl
@[simp] theorem latchBlockHeader_brPos (w : BitVec 3) : (latchBlockHeader w s).brPos = s.brPos := rfl
@[simp] theorem latchBlockHeader_brOff (w : BitVec 3) : (latchBlockHeader w s).brOff = s.brOff := rfl
@[simp] theorem latchBlockHeader_brBuf (w : BitVec 3) : (latchBlockHeader w s).brBuf = s.brBuf := rfl
@[simp] theorem latchBlockHeader_win (w : BitVec 3) : (latchBlockHeader w s).win = s.win := rfl
@[simp] theorem latchBlockHeader_winBound (w : BitVec 3) : (latchBlockHeader w s).winBound = s.winBound := rfl
@[simp] theorem latchBlockHeader_prState (w : BitVec 3) : (latchBlockHeader w s).prState = s.prState := rfl
@[simp] theorem latchBlockHeader_prFinal (w : BitVec 3) : (latchBlockHeader w s).prFinal = blockFinal w := rfl
@[simp] theorem latchBlockHeader_prSeen (w : BitVec 3) : (latchBlockHeader w s).prSeen = s.prSeen := rfl
@[simp] theorem latchBlockHeader_prErr (w : BitVec 3) : (latchBlockHeader w s).prErr = s.prErr := rfl
@[simp] theorem latchBlockHeader_llDec (w : BitVec 3) : (latchBlockHeader w s).llDec = s.llDec := rfl
@[simp] theorem latchBlockHeader_dDec (w : BitVec 3) : (latchBlockHeader w s).dDec = s.dDec := rfl
@[simp] theorem latchBlockHeader_lzCur (w : BitVec 3) : (latchBlockHeader w s).lzCur = s.lzCur := rfl
@[simp] theorem latchBlockHeader_lzStart (w : BitVec 3) : (latchBlockHeader w s).lzStart = s.lzStart := rfl
@[simp] theorem latchBlockHeader_lzResult (w : BitVec 3) : (latchBlockHeader w s).lzResult = s.lzResult := rfl
@[simp] theorem latchBlockHeader_stLen (w : BitVec 3) : (latchBlockHeader w s).stLen = s.stLen := rfl
@[simp] theorem latchBlockHeader_stNlen (w : BitVec 3) : (latchBlockHeader w s).stNlen = s.stNlen := rfl
@[simp] theorem latchBlockHeader_dyHlit (w : BitVec 3) : (latchBlockHeader w s).dyHlit = s.dyHlit := rfl
@[simp] theorem latchBlockHeader_dyHdist (w : BitVec 3) : (latchBlockHeader w s).dyHdist = s.dyHdist := rfl
@[simp] theorem latchBlockHeader_dyHclen (w : BitVec 3) : (latchBlockHeader w s).dyHclen = s.dyHclen := rfl
@[simp] theorem latchBlockHeader_dyCl (w : BitVec 3) : (latchBlockHeader w s).dyCl = s.dyCl := rfl
@[simp] theorem latchBlockHeader_dyLens (w : BitVec 3) : (latchBlockHeader w s).dyLens = s.dyLens := rfl
@[simp] theorem latchBlockHeader_clDec (w : BitVec 3) : (latchBlockHeader w s).clDec = s.clDec := rfl
@[simp] theorem latchBlockHeader_bh (w : BitVec 3) : (latchBlockHeader w s).bh = w := rfl
@[simp] theorem latchBlockHeader_commands (w : BitVec 3) : (latchBlockHeader w s).commands = s.commands := rfl
@[simp] theorem latchBlockHeader_responses (w : BitVec 3) : (latchBlockHeader w s).responses = s.responses := rfl
@[simp] theorem latchBlockHeader_opResult (w : BitVec 3) : (latchBlockHeader w s).opResult = s.opResult := rfl
@[simp] theorem latchBlockHeader_fetchPoint (w : BitVec 3) : (latchBlockHeader w s).fetchPoint = s.fetchPoint := rfl

/-! ## `windowReset` -/

@[simp] theorem windowReset_inp : (windowReset s).inp = s.inp := rfl
@[simp] theorem windowReset_inEnd : (windowReset s).inEnd = s.inEnd := rfl
@[simp] theorem windowReset_hdrParse : (windowReset s).hdrParse = s.hdrParse := rfl
@[simp] theorem windowReset_brPos : (windowReset s).brPos = s.brPos := rfl
@[simp] theorem windowReset_brOff : (windowReset s).brOff = s.brOff := rfl
@[simp] theorem windowReset_brBuf : (windowReset s).brBuf = s.brBuf := rfl
@[simp] theorem windowReset_win : (windowReset s).win = s.win := rfl
@[simp] theorem windowReset_winBound : (windowReset s).winBound = 0 := rfl
@[simp] theorem windowReset_prState : (windowReset s).prState = s.prState := rfl
@[simp] theorem windowReset_prFinal : (windowReset s).prFinal = s.prFinal := rfl
@[simp] theorem windowReset_prSeen : (windowReset s).prSeen = s.prSeen := rfl
@[simp] theorem windowReset_prErr : (windowReset s).prErr = s.prErr := rfl
@[simp] theorem windowReset_llDec : (windowReset s).llDec = s.llDec := rfl
@[simp] theorem windowReset_dDec : (windowReset s).dDec = s.dDec := rfl
@[simp] theorem windowReset_lzCur : (windowReset s).lzCur = s.lzCur := rfl
@[simp] theorem windowReset_lzStart : (windowReset s).lzStart = s.lzStart := rfl
@[simp] theorem windowReset_lzResult : (windowReset s).lzResult = s.lzResult := rfl
@[simp] theorem windowReset_stLen : (windowReset s).stLen = s.stLen := rfl
@[simp] theorem windowReset_stNlen : (windowReset s).stNlen = s.stNlen := rfl
@[simp] theorem windowReset_dyHlit : (windowReset s).dyHlit = s.dyHlit := rfl
@[simp] theorem windowReset_dyHdist : (windowReset s).dyHdist = s.dyHdist := rfl
@[simp] theorem windowReset_dyHclen : (windowReset s).dyHclen = s.dyHclen := rfl
@[simp] theorem windowReset_dyCl : (windowReset s).dyCl = s.dyCl := rfl
@[simp] theorem windowReset_dyLens : (windowReset s).dyLens = s.dyLens := rfl
@[simp] theorem windowReset_clDec : (windowReset s).clDec = s.clDec := rfl
@[simp] theorem windowReset_bh : (windowReset s).bh = s.bh := rfl
@[simp] theorem windowReset_commands : (windowReset s).commands = s.commands := rfl
@[simp] theorem windowReset_responses : (windowReset s).responses = s.responses := rfl
@[simp] theorem windowReset_opResult : (windowReset s).opResult = s.opResult := rfl
@[simp] theorem windowReset_fetchPoint : (windowReset s).fetchPoint = s.fetchPoint := rfl

/-! ## `startLz77` -/

@[simp] theorem startLz77_inp : (startLz77 s).inp = s.inp := rfl
@[simp] theorem startLz77_inEnd : (startLz77 s).inEnd = s.inEnd := rfl
@[simp] theorem startLz77_hdrParse : (startLz77 s).hdrParse = s.hdrParse := rfl
@[simp] theorem startLz77_brPos : (startLz77 s).brPos = s.brPos := rfl
@[simp] theorem startLz77_brOff : (startLz77 s).brOff = s.brOff := rfl
@[simp] theorem startLz77_brBuf : (startLz77 s).brBuf = s.brBuf := rfl
@[simp] theorem startLz77_win : (startLz77 s).win = s.win := rfl
@[simp] theorem startLz77_winBound : (startLz77 s).winBound = s.winBound := rfl
@[simp] theorem startLz77_prState : (startLz77 s).prState = s.prState := rfl
@[simp] theorem startLz77_prFinal : (startLz77 s).prFinal = s.prFinal := rfl
@[simp] theorem startLz77_prSeen : (startLz77 s).prSeen = s.prSeen := rfl
@[simp] theorem startLz77_prErr : (startLz77 s).prErr = s.prErr := rfl
@[simp] theorem startLz77_llDec : (startLz77 s).llDec = s.llDec := rfl
@[simp] theorem startLz77_dDec : (startLz77 s).dDec = s.dDec := rfl
@[simp] theorem startLz77_lzCur : (startLz77 s).lzCur = s.winBound := rfl
@[simp] theorem startLz77_lzStart : (startLz77 s).lzStart = s.winBound := rfl
@[simp] theorem startLz77_lzResult : (startLz77 s).lzResult = s.lzResult := rfl
@[simp] theorem startLz77_stLen : (startLz77 s).stLen = s.stLen := rfl
@[simp] theorem startLz77_stNlen : (startLz77 s).stNlen = s.stNlen := rfl
@[simp] theorem startLz77_dyHlit : (startLz77 s).dyHlit = s.dyHlit := rfl
@[simp] theorem startLz77_dyHdist : (startLz77 s).dyHdist = s.dyHdist := rfl
@[simp] theorem startLz77_dyHclen : (startLz77 s).dyHclen = s.dyHclen := rfl
@[simp] theorem startLz77_dyCl : (startLz77 s).dyCl = s.dyCl := rfl
@[simp] theorem startLz77_dyLens : (startLz77 s).dyLens = s.dyLens := rfl
@[simp] theorem startLz77_clDec : (startLz77 s).clDec = s.clDec := rfl
@[simp] theorem startLz77_bh : (startLz77 s).bh = s.bh := rfl
@[simp] theorem startLz77_commands : (startLz77 s).commands = s.commands := rfl
@[simp] theorem startLz77_responses : (startLz77 s).responses = s.responses := rfl
@[simp] theorem startLz77_opResult : (startLz77 s).opResult = s.opResult := rfl
@[simp] theorem startLz77_fetchPoint : (startLz77 s).fetchPoint = s.fetchPoint := rfl

/-! ## `callStart` -/

@[simp] theorem callStart_inp : (callStart s).inp = s.inp := rfl
@[simp] theorem callStart_inEnd : (callStart s).inEnd = s.inEnd := rfl
@[simp] theorem callStart_hdrParse : (callStart s).hdrParse = s.hdrParse := rfl
@[simp] theorem callStart_brPos : (callStart s).brPos = s.brPos := rfl
@[simp] theorem callStart_brOff : (callStart s).brOff = s.brOff := rfl
@[simp] theorem callStart_brBuf : (callStart s).brBuf = s.brBuf := rfl
@[simp] theorem callStart_win : (callStart s).win = s.win := rfl
@[simp] theorem callStart_winBound : (callStart s).winBound = s.winBound := rfl
@[simp] theorem callStart_prState : (callStart s).prState = s.prState := rfl
@[simp] theorem callStart_prFinal : (callStart s).prFinal = s.prFinal := rfl
@[simp] theorem callStart_prSeen : (callStart s).prSeen = s.prSeen := rfl
@[simp] theorem callStart_prErr : (callStart s).prErr = s.prErr := rfl
@[simp] theorem callStart_llDec : (callStart s).llDec = s.llDec := rfl
@[simp] theorem callStart_dDec : (callStart s).dDec = s.dDec := rfl
@[simp] theorem callStart_lzCur : (callStart s).lzCur = s.winBound := rfl
@[simp] theorem callStart_lzStart : (callStart s).lzStart = s.winBound := rfl
@[simp] theorem callStart_lzResult : (callStart s).lzResult = s.lzResult := rfl
@[simp] theorem callStart_stLen : (callStart s).stLen = s.stLen := rfl
@[simp] theorem callStart_stNlen : (callStart s).stNlen = s.stNlen := rfl
@[simp] theorem callStart_dyHlit : (callStart s).dyHlit = s.dyHlit := rfl
@[simp] theorem callStart_dyHdist : (callStart s).dyHdist = s.dyHdist := rfl
@[simp] theorem callStart_dyHclen : (callStart s).dyHclen = s.dyHclen := rfl
@[simp] theorem callStart_dyCl : (callStart s).dyCl = s.dyCl := rfl
@[simp] theorem callStart_dyLens : (callStart s).dyLens = s.dyLens := rfl
@[simp] theorem callStart_clDec : (callStart s).clDec = s.clDec := rfl
@[simp] theorem callStart_bh : (callStart s).bh = s.bh := rfl
@[simp] theorem callStart_commands : (callStart s).commands = s.commands := rfl
@[simp] theorem callStart_responses : (callStart s).responses = s.responses := rfl
@[simp] theorem callStart_opResult : (callStart s).opResult = s.opResult := rfl
@[simp] theorem callStart_fetchPoint : (callStart s).fetchPoint = s.fetchPoint := rfl

/-! ## `setCounts` -/

@[simp] theorem setCounts_inp (a b c : Nat) : (setCounts a b c s).inp = s.inp := rfl
@[simp] theorem setCounts_inEnd (a b c : Nat) : (setCounts a b c s).inEnd = s.inEnd := rfl
@[simp] theorem setCounts_hdrParse (a b c : Nat) : (setCounts a b c s).hdrParse = s.hdrParse := rfl
@[simp] theorem setCounts_brPos (a b c : Nat) : (setCounts a b c s).brPos = s.brPos := rfl
@[simp] theorem setCounts_brOff (a b c : Nat) : (setCounts a b c s).brOff = s.brOff := rfl
@[simp] theorem setCounts_brBuf (a b c : Nat) : (setCounts a b c s).brBuf = s.brBuf := rfl
@[simp] theorem setCounts_win (a b c : Nat) : (setCounts a b c s).win = s.win := rfl
@[simp] theorem setCounts_winBound (a b c : Nat) : (setCounts a b c s).winBound = s.winBound := rfl
@[simp] theorem setCounts_prState (a b c : Nat) : (setCounts a b c s).prState = s.prState := rfl
@[simp] theorem setCounts_prFinal (a b c : Nat) : (setCounts a b c s).prFinal = s.prFinal := rfl
@[simp] theorem setCounts_prSeen (a b c : Nat) : (setCounts a b c s).prSeen = s.prSeen := rfl
@[simp] theorem setCounts_prErr (a b c : Nat) : (setCounts a b c s).prErr = s.prErr := rfl
@[simp] theorem setCounts_llDec (a b c : Nat) : (setCounts a b c s).llDec = s.llDec := rfl
@[simp] theorem setCounts_dDec (a b c : Nat) : (setCounts a b c s).dDec = s.dDec := rfl
@[simp] theorem setCounts_lzCur (a b c : Nat) : (setCounts a b c s).lzCur = s.lzCur := rfl
@[simp] theorem setCounts_lzStart (a b c : Nat) : (setCounts a b c s).lzStart = s.lzStart := rfl
@[simp] theorem setCounts_lzResult (a b c : Nat) : (setCounts a b c s).lzResult = s.lzResult := rfl
@[simp] theorem setCounts_stLen (a b c : Nat) : (setCounts a b c s).stLen = s.stLen := rfl
@[simp] theorem setCounts_stNlen (a b c : Nat) : (setCounts a b c s).stNlen = s.stNlen := rfl
@[simp] theorem setCounts_dyHlit (a b c : Nat) : (setCounts a b c s).dyHlit = BitVec.ofNat 9 (a + 257) := rfl
@[simp] theorem setCounts_dyHdist (a b c : Nat) : (setCounts a b c s).dyHdist = BitVec.ofNat 6 (b + 1) := rfl
@[simp] theorem setCounts_dyHclen (a b c : Nat) : (setCounts a b c s).dyHclen = BitVec.ofNat 5 (c + 4) := rfl
@[simp] theorem setCounts_dyCl (a b c : Nat) : (setCounts a b c s).dyCl = s.dyCl := rfl
@[simp] theorem setCounts_dyLens (a b c : Nat) : (setCounts a b c s).dyLens = s.dyLens := rfl
@[simp] theorem setCounts_clDec (a b c : Nat) : (setCounts a b c s).clDec = s.clDec := rfl
@[simp] theorem setCounts_bh (a b c : Nat) : (setCounts a b c s).bh = s.bh := rfl
@[simp] theorem setCounts_commands (a b c : Nat) : (setCounts a b c s).commands = s.commands := rfl
@[simp] theorem setCounts_responses (a b c : Nat) : (setCounts a b c s).responses = s.responses := rfl
@[simp] theorem setCounts_opResult (a b c : Nat) : (setCounts a b c s).opResult = s.opResult := rfl
@[simp] theorem setCounts_fetchPoint (a b c : Nat) : (setCounts a b c s).fetchPoint = s.fetchPoint := rfl

/-! ## `appendLens` -/

@[simp] theorem appendLens_inp (v : List (BitVec 4)) : (appendLens v s).inp = s.inp := rfl
@[simp] theorem appendLens_inEnd (v : List (BitVec 4)) : (appendLens v s).inEnd = s.inEnd := rfl
@[simp] theorem appendLens_hdrParse (v : List (BitVec 4)) : (appendLens v s).hdrParse = s.hdrParse := rfl
@[simp] theorem appendLens_brPos (v : List (BitVec 4)) : (appendLens v s).brPos = s.brPos := rfl
@[simp] theorem appendLens_brOff (v : List (BitVec 4)) : (appendLens v s).brOff = s.brOff := rfl
@[simp] theorem appendLens_brBuf (v : List (BitVec 4)) : (appendLens v s).brBuf = s.brBuf := rfl
@[simp] theorem appendLens_win (v : List (BitVec 4)) : (appendLens v s).win = s.win := rfl
@[simp] theorem appendLens_winBound (v : List (BitVec 4)) : (appendLens v s).winBound = s.winBound := rfl
@[simp] theorem appendLens_prState (v : List (BitVec 4)) : (appendLens v s).prState = s.prState := rfl
@[simp] theorem appendLens_prFinal (v : List (BitVec 4)) : (appendLens v s).prFinal = s.prFinal := rfl
@[simp] theorem appendLens_prSeen (v : List (BitVec 4)) : (appendLens v s).prSeen = s.prSeen := rfl
@[simp] theorem appendLens_prErr (v : List (BitVec 4)) : (appendLens v s).prErr = s.prErr := rfl
@[simp] theorem appendLens_llDec (v : List (BitVec 4)) : (appendLens v s).llDec = s.llDec := rfl
@[simp] theorem appendLens_dDec (v : List (BitVec 4)) : (appendLens v s).dDec = s.dDec := rfl
@[simp] theorem appendLens_lzCur (v : List (BitVec 4)) : (appendLens v s).lzCur = s.lzCur := rfl
@[simp] theorem appendLens_lzStart (v : List (BitVec 4)) : (appendLens v s).lzStart = s.lzStart := rfl
@[simp] theorem appendLens_lzResult (v : List (BitVec 4)) : (appendLens v s).lzResult = s.lzResult := rfl
@[simp] theorem appendLens_stLen (v : List (BitVec 4)) : (appendLens v s).stLen = s.stLen := rfl
@[simp] theorem appendLens_stNlen (v : List (BitVec 4)) : (appendLens v s).stNlen = s.stNlen := rfl
@[simp] theorem appendLens_dyHlit (v : List (BitVec 4)) : (appendLens v s).dyHlit = s.dyHlit := rfl
@[simp] theorem appendLens_dyHdist (v : List (BitVec 4)) : (appendLens v s).dyHdist = s.dyHdist := rfl
@[simp] theorem appendLens_dyHclen (v : List (BitVec 4)) : (appendLens v s).dyHclen = s.dyHclen := rfl
@[simp] theorem appendLens_dyCl (v : List (BitVec 4)) : (appendLens v s).dyCl = s.dyCl := rfl
@[simp] theorem appendLens_dyLens (v : List (BitVec 4)) : (appendLens v s).dyLens = s.dyLens ++ v := rfl
@[simp] theorem appendLens_clDec (v : List (BitVec 4)) : (appendLens v s).clDec = s.clDec := rfl
@[simp] theorem appendLens_bh (v : List (BitVec 4)) : (appendLens v s).bh = s.bh := rfl
@[simp] theorem appendLens_commands (v : List (BitVec 4)) : (appendLens v s).commands = s.commands := rfl
@[simp] theorem appendLens_responses (v : List (BitVec 4)) : (appendLens v s).responses = s.responses := rfl
@[simp] theorem appendLens_opResult (v : List (BitVec 4)) : (appendLens v s).opResult = s.opResult := rfl
@[simp] theorem appendLens_fetchPoint (v : List (BitVec 4)) : (appendLens v s).fetchPoint = s.fetchPoint := rfl

/-! ## `toPort` -/

@[simp] theorem toPort_inp : (toPort s).inp = s.inp := rfl
@[simp] theorem toPort_inEnd : (toPort s).inEnd = s.inEnd := rfl
@[simp] theorem toPort_hdrParse : (toPort s).hdrParse = s.hdrParse := rfl
@[simp] theorem toPort_brPos : (toPort s).brPos = s.brPos := rfl
@[simp] theorem toPort_brOff : (toPort s).brOff = s.brOff := rfl
@[simp] theorem toPort_brBuf : (toPort s).brBuf = s.brBuf := rfl
@[simp] theorem toPort_win : (toPort s).win = s.win := rfl
@[simp] theorem toPort_winBound : (toPort s).winBound = s.winBound := rfl
@[simp] theorem toPort_prState : (toPort s).prState = s.prState := rfl
@[simp] theorem toPort_prFinal : (toPort s).prFinal = s.prFinal := rfl
@[simp] theorem toPort_prSeen : (toPort s).prSeen = s.prSeen := rfl
@[simp] theorem toPort_prErr : (toPort s).prErr = s.prErr := rfl
@[simp] theorem toPort_llDec : (toPort s).llDec = s.llDec := rfl
@[simp] theorem toPort_dDec : (toPort s).dDec = s.dDec := rfl
@[simp] theorem toPort_lzCur : (toPort s).lzCur = s.lzCur := rfl
@[simp] theorem toPort_lzStart : (toPort s).lzStart = s.lzStart := rfl
@[simp] theorem toPort_lzResult : (toPort s).lzResult = s.lzResult := rfl
@[simp] theorem toPort_stLen : (toPort s).stLen = s.stLen := rfl
@[simp] theorem toPort_stNlen : (toPort s).stNlen = s.stNlen := rfl
@[simp] theorem toPort_dyHlit : (toPort s).dyHlit = s.dyHlit := rfl
@[simp] theorem toPort_dyHdist : (toPort s).dyHdist = s.dyHdist := rfl
@[simp] theorem toPort_dyHclen : (toPort s).dyHclen = s.dyHclen := rfl
@[simp] theorem toPort_dyCl : (toPort s).dyCl = s.dyCl := rfl
@[simp] theorem toPort_dyLens : (toPort s).dyLens = s.dyLens := rfl
@[simp] theorem toPort_clDec : (toPort s).clDec = s.clDec := rfl
@[simp] theorem toPort_bh : (toPort s).bh = s.bh := rfl
@[simp] theorem toPort_commands : (toPort s).commands = s.commands := rfl
@[simp] theorem toPort_responses : (toPort s).responses = s.responses := rfl
@[simp] theorem toPort_opResult : (toPort s).opResult = s.opResult := rfl
@[simp] theorem toPort_fetchPoint : (toPort s).fetchPoint = .port := rfl

/-! ## `advance` -/

@[simp] theorem advance_inp (n : Nat) : (advance n s).inp = s.inp := rfl
@[simp] theorem advance_inEnd (n : Nat) : (advance n s).inEnd = s.inEnd := rfl
@[simp] theorem advance_hdrParse (n : Nat) : (advance n s).hdrParse = s.hdrParse := rfl
@[simp] theorem advance_brPos (n : Nat) : (advance n s).brPos = (bitAddr s + n) / 8 := rfl
@[simp] theorem advance_brOff (n : Nat) : (advance n s).brOff = BitVec.ofNat 3 ((bitAddr s + n) % 8) := rfl
@[simp] theorem advance_brBuf (n : Nat) : (advance n s).brBuf = s.brBuf := rfl
@[simp] theorem advance_win (n : Nat) : (advance n s).win = s.win := rfl
@[simp] theorem advance_winBound (n : Nat) : (advance n s).winBound = s.winBound := rfl
@[simp] theorem advance_prState (n : Nat) : (advance n s).prState = s.prState := rfl
@[simp] theorem advance_prFinal (n : Nat) : (advance n s).prFinal = s.prFinal := rfl
@[simp] theorem advance_prSeen (n : Nat) : (advance n s).prSeen = s.prSeen := rfl
@[simp] theorem advance_prErr (n : Nat) : (advance n s).prErr = s.prErr := rfl
@[simp] theorem advance_llDec (n : Nat) : (advance n s).llDec = s.llDec := rfl
@[simp] theorem advance_dDec (n : Nat) : (advance n s).dDec = s.dDec := rfl
@[simp] theorem advance_lzCur (n : Nat) : (advance n s).lzCur = s.lzCur := rfl
@[simp] theorem advance_lzStart (n : Nat) : (advance n s).lzStart = s.lzStart := rfl
@[simp] theorem advance_lzResult (n : Nat) : (advance n s).lzResult = s.lzResult := rfl
@[simp] theorem advance_stLen (n : Nat) : (advance n s).stLen = s.stLen := rfl
@[simp] theorem advance_stNlen (n : Nat) : (advance n s).stNlen = s.stNlen := rfl
@[simp] theorem advance_dyHlit (n : Nat) : (advance n s).dyHlit = s.dyHlit := rfl
@[simp] theorem advance_dyHdist (n : Nat) : (advance n s).dyHdist = s.dyHdist := rfl
@[simp] theorem advance_dyHclen (n : Nat) : (advance n s).dyHclen = s.dyHclen := rfl
@[simp] theorem advance_dyCl (n : Nat) : (advance n s).dyCl = s.dyCl := rfl
@[simp] theorem advance_dyLens (n : Nat) : (advance n s).dyLens = s.dyLens := rfl
@[simp] theorem advance_clDec (n : Nat) : (advance n s).clDec = s.clDec := rfl
@[simp] theorem advance_bh (n : Nat) : (advance n s).bh = s.bh := rfl
@[simp] theorem advance_commands (n : Nat) : (advance n s).commands = s.commands := rfl
@[simp] theorem advance_responses (n : Nat) : (advance n s).responses = s.responses := rfl
@[simp] theorem advance_opResult (n : Nat) : (advance n s).opResult = s.opResult := rfl
@[simp] theorem advance_fetchPoint (n : Nat) : (advance n s).fetchPoint = s.fetchPoint := rfl

/-! ## `atByte` -/

@[simp] theorem atByte_inp (p : Nat) : (atByte p s).inp = s.inp := rfl
@[simp] theorem atByte_inEnd (p : Nat) : (atByte p s).inEnd = s.inEnd := rfl
@[simp] theorem atByte_hdrParse (p : Nat) : (atByte p s).hdrParse = s.hdrParse := rfl
@[simp] theorem atByte_brPos (p : Nat) : (atByte p s).brPos = p := rfl
@[simp] theorem atByte_brOff (p : Nat) : (atByte p s).brOff = 0 := rfl
@[simp] theorem atByte_brBuf (p : Nat) : (atByte p s).brBuf = s.brBuf := rfl
@[simp] theorem atByte_win (p : Nat) : (atByte p s).win = s.win := rfl
@[simp] theorem atByte_winBound (p : Nat) : (atByte p s).winBound = s.winBound := rfl
@[simp] theorem atByte_prState (p : Nat) : (atByte p s).prState = s.prState := rfl
@[simp] theorem atByte_prFinal (p : Nat) : (atByte p s).prFinal = s.prFinal := rfl
@[simp] theorem atByte_prSeen (p : Nat) : (atByte p s).prSeen = s.prSeen := rfl
@[simp] theorem atByte_prErr (p : Nat) : (atByte p s).prErr = s.prErr := rfl
@[simp] theorem atByte_llDec (p : Nat) : (atByte p s).llDec = s.llDec := rfl
@[simp] theorem atByte_dDec (p : Nat) : (atByte p s).dDec = s.dDec := rfl
@[simp] theorem atByte_lzCur (p : Nat) : (atByte p s).lzCur = s.lzCur := rfl
@[simp] theorem atByte_lzStart (p : Nat) : (atByte p s).lzStart = s.lzStart := rfl
@[simp] theorem atByte_lzResult (p : Nat) : (atByte p s).lzResult = s.lzResult := rfl
@[simp] theorem atByte_stLen (p : Nat) : (atByte p s).stLen = s.stLen := rfl
@[simp] theorem atByte_stNlen (p : Nat) : (atByte p s).stNlen = s.stNlen := rfl
@[simp] theorem atByte_dyHlit (p : Nat) : (atByte p s).dyHlit = s.dyHlit := rfl
@[simp] theorem atByte_dyHdist (p : Nat) : (atByte p s).dyHdist = s.dyHdist := rfl
@[simp] theorem atByte_dyHclen (p : Nat) : (atByte p s).dyHclen = s.dyHclen := rfl
@[simp] theorem atByte_dyCl (p : Nat) : (atByte p s).dyCl = s.dyCl := rfl
@[simp] theorem atByte_dyLens (p : Nat) : (atByte p s).dyLens = s.dyLens := rfl
@[simp] theorem atByte_clDec (p : Nat) : (atByte p s).clDec = s.clDec := rfl
@[simp] theorem atByte_bh (p : Nat) : (atByte p s).bh = s.bh := rfl
@[simp] theorem atByte_commands (p : Nat) : (atByte p s).commands = s.commands := rfl
@[simp] theorem atByte_responses (p : Nat) : (atByte p s).responses = s.responses := rfl
@[simp] theorem atByte_opResult (p : Nat) : (atByte p s).opResult = s.opResult := rfl
@[simp] theorem atByte_fetchPoint (p : Nat) : (atByte p s).fetchPoint = s.fetchPoint := rfl

/-! ## `latched` -/

@[simp] theorem latched_inp (c : BitVec 5) : (latched c s).inp = s.inp := rfl
@[simp] theorem latched_inEnd (c : BitVec 5) : (latched c s).inEnd = s.inEnd := rfl
@[simp] theorem latched_hdrParse (c : BitVec 5) : (latched c s).hdrParse = s.hdrParse := rfl
@[simp] theorem latched_brPos (c : BitVec 5) : (latched c s).brPos = s.brPos := rfl
@[simp] theorem latched_brOff (c : BitVec 5) : (latched c s).brOff = s.brOff := rfl
@[simp] theorem latched_brBuf (c : BitVec 5) : (latched c s).brBuf = s.brBuf := rfl
@[simp] theorem latched_win (c : BitVec 5) : (latched c s).win = s.win := rfl
@[simp] theorem latched_winBound (c : BitVec 5) : (latched c s).winBound = s.winBound := rfl
@[simp] theorem latched_prState (c : BitVec 5) : (latched c s).prState = s.prState := rfl
@[simp] theorem latched_prFinal (c : BitVec 5) : (latched c s).prFinal = s.prFinal := rfl
@[simp] theorem latched_prSeen (c : BitVec 5) : (latched c s).prSeen = s.prSeen := rfl
@[simp] theorem latched_prErr (c : BitVec 5) : (latched c s).prErr = c := rfl
@[simp] theorem latched_llDec (c : BitVec 5) : (latched c s).llDec = s.llDec := rfl
@[simp] theorem latched_dDec (c : BitVec 5) : (latched c s).dDec = s.dDec := rfl
@[simp] theorem latched_lzCur (c : BitVec 5) : (latched c s).lzCur = s.lzCur := rfl
@[simp] theorem latched_lzStart (c : BitVec 5) : (latched c s).lzStart = s.lzStart := rfl
@[simp] theorem latched_lzResult (c : BitVec 5) : (latched c s).lzResult = s.lzResult := rfl
@[simp] theorem latched_stLen (c : BitVec 5) : (latched c s).stLen = s.stLen := rfl
@[simp] theorem latched_stNlen (c : BitVec 5) : (latched c s).stNlen = s.stNlen := rfl
@[simp] theorem latched_dyHlit (c : BitVec 5) : (latched c s).dyHlit = s.dyHlit := rfl
@[simp] theorem latched_dyHdist (c : BitVec 5) : (latched c s).dyHdist = s.dyHdist := rfl
@[simp] theorem latched_dyHclen (c : BitVec 5) : (latched c s).dyHclen = s.dyHclen := rfl
@[simp] theorem latched_dyCl (c : BitVec 5) : (latched c s).dyCl = s.dyCl := rfl
@[simp] theorem latched_dyLens (c : BitVec 5) : (latched c s).dyLens = s.dyLens := rfl
@[simp] theorem latched_clDec (c : BitVec 5) : (latched c s).clDec = s.clDec := rfl
@[simp] theorem latched_bh (c : BitVec 5) : (latched c s).bh = s.bh := rfl
@[simp] theorem latched_commands (c : BitVec 5) : (latched c s).commands = s.commands := rfl
@[simp] theorem latched_responses (c : BitVec 5) : (latched c s).responses = .error c :: s.responses := rfl
@[simp] theorem latched_opResult (c : BitVec 5) : (latched c s).opResult = s.opResult := rfl
@[simp] theorem latched_fetchPoint (c : BitVec 5) : (latched c s).fetchPoint = s.fetchPoint := rfl

/-! ## `withBlockHeader` -/

@[simp] theorem withBlockHeader_inp (w : BitVec 3) (f : Bool) : (withBlockHeader w f s).inp = s.inp := rfl
@[simp] theorem withBlockHeader_inEnd (w : BitVec 3) (f : Bool) : (withBlockHeader w f s).inEnd = s.inEnd := rfl
@[simp] theorem withBlockHeader_hdrParse (w : BitVec 3) (f : Bool) : (withBlockHeader w f s).hdrParse = s.hdrParse := rfl
@[simp] theorem withBlockHeader_brPos (w : BitVec 3) (f : Bool) : (withBlockHeader w f s).brPos = s.brPos := rfl
@[simp] theorem withBlockHeader_brOff (w : BitVec 3) (f : Bool) : (withBlockHeader w f s).brOff = s.brOff := rfl
@[simp] theorem withBlockHeader_brBuf (w : BitVec 3) (f : Bool) : (withBlockHeader w f s).brBuf = s.brBuf := rfl
@[simp] theorem withBlockHeader_win (w : BitVec 3) (f : Bool) : (withBlockHeader w f s).win = s.win := rfl
@[simp] theorem withBlockHeader_winBound (w : BitVec 3) (f : Bool) : (withBlockHeader w f s).winBound = s.winBound := rfl
@[simp] theorem withBlockHeader_prState (w : BitVec 3) (f : Bool) : (withBlockHeader w f s).prState = s.prState := rfl
@[simp] theorem withBlockHeader_prFinal (w : BitVec 3) (f : Bool) : (withBlockHeader w f s).prFinal = f := rfl
@[simp] theorem withBlockHeader_prSeen (w : BitVec 3) (f : Bool) : (withBlockHeader w f s).prSeen = s.prSeen := rfl
@[simp] theorem withBlockHeader_prErr (w : BitVec 3) (f : Bool) : (withBlockHeader w f s).prErr = s.prErr := rfl
@[simp] theorem withBlockHeader_llDec (w : BitVec 3) (f : Bool) : (withBlockHeader w f s).llDec = s.llDec := rfl
@[simp] theorem withBlockHeader_dDec (w : BitVec 3) (f : Bool) : (withBlockHeader w f s).dDec = s.dDec := rfl
@[simp] theorem withBlockHeader_lzCur (w : BitVec 3) (f : Bool) : (withBlockHeader w f s).lzCur = s.lzCur := rfl
@[simp] theorem withBlockHeader_lzStart (w : BitVec 3) (f : Bool) : (withBlockHeader w f s).lzStart = s.lzStart := rfl
@[simp] theorem withBlockHeader_lzResult (w : BitVec 3) (f : Bool) : (withBlockHeader w f s).lzResult = s.lzResult := rfl
@[simp] theorem withBlockHeader_stLen (w : BitVec 3) (f : Bool) : (withBlockHeader w f s).stLen = s.stLen := rfl
@[simp] theorem withBlockHeader_stNlen (w : BitVec 3) (f : Bool) : (withBlockHeader w f s).stNlen = s.stNlen := rfl
@[simp] theorem withBlockHeader_dyHlit (w : BitVec 3) (f : Bool) : (withBlockHeader w f s).dyHlit = s.dyHlit := rfl
@[simp] theorem withBlockHeader_dyHdist (w : BitVec 3) (f : Bool) : (withBlockHeader w f s).dyHdist = s.dyHdist := rfl
@[simp] theorem withBlockHeader_dyHclen (w : BitVec 3) (f : Bool) : (withBlockHeader w f s).dyHclen = s.dyHclen := rfl
@[simp] theorem withBlockHeader_dyCl (w : BitVec 3) (f : Bool) : (withBlockHeader w f s).dyCl = s.dyCl := rfl
@[simp] theorem withBlockHeader_dyLens (w : BitVec 3) (f : Bool) : (withBlockHeader w f s).dyLens = s.dyLens := rfl
@[simp] theorem withBlockHeader_clDec (w : BitVec 3) (f : Bool) : (withBlockHeader w f s).clDec = s.clDec := rfl
@[simp] theorem withBlockHeader_bh (w : BitVec 3) (f : Bool) : (withBlockHeader w f s).bh = w ||| (BitVec.ofBool f).setWidth 3 := rfl
@[simp] theorem withBlockHeader_commands (w : BitVec 3) (f : Bool) : (withBlockHeader w f s).commands = s.commands := rfl
@[simp] theorem withBlockHeader_responses (w : BitVec 3) (f : Bool) : (withBlockHeader w f s).responses = s.responses := rfl
@[simp] theorem withBlockHeader_opResult (w : BitVec 3) (f : Bool) : (withBlockHeader w f s).opResult = s.opResult := rfl
@[simp] theorem withBlockHeader_fetchPoint (w : BitVec 3) (f : Bool) : (withBlockHeader w f s).fetchPoint = s.fetchPoint := rfl

/-! ## `goTo` -/

@[simp] theorem goTo_inp (p : PrState) : (goTo p s).inp = s.inp := rfl
@[simp] theorem goTo_inEnd (p : PrState) : (goTo p s).inEnd = s.inEnd := rfl
@[simp] theorem goTo_hdrParse (p : PrState) : (goTo p s).hdrParse = s.hdrParse := rfl
@[simp] theorem goTo_brPos (p : PrState) : (goTo p s).brPos = s.brPos := rfl
@[simp] theorem goTo_brOff (p : PrState) : (goTo p s).brOff = s.brOff := rfl
@[simp] theorem goTo_brBuf (p : PrState) : (goTo p s).brBuf = s.brBuf := rfl
@[simp] theorem goTo_win (p : PrState) : (goTo p s).win = s.win := rfl
@[simp] theorem goTo_winBound (p : PrState) : (goTo p s).winBound = s.winBound := rfl
@[simp] theorem goTo_prState (p : PrState) : (goTo p s).prState = p := rfl
@[simp] theorem goTo_prFinal (p : PrState) : (goTo p s).prFinal = s.prFinal := rfl
@[simp] theorem goTo_prSeen (p : PrState) : (goTo p s).prSeen = s.prSeen := rfl
@[simp] theorem goTo_prErr (p : PrState) : (goTo p s).prErr = s.prErr := rfl
@[simp] theorem goTo_llDec (p : PrState) : (goTo p s).llDec = s.llDec := rfl
@[simp] theorem goTo_dDec (p : PrState) : (goTo p s).dDec = s.dDec := rfl
@[simp] theorem goTo_lzCur (p : PrState) : (goTo p s).lzCur = s.lzCur := rfl
@[simp] theorem goTo_lzStart (p : PrState) : (goTo p s).lzStart = s.lzStart := rfl
@[simp] theorem goTo_lzResult (p : PrState) : (goTo p s).lzResult = s.lzResult := rfl
@[simp] theorem goTo_stLen (p : PrState) : (goTo p s).stLen = s.stLen := rfl
@[simp] theorem goTo_stNlen (p : PrState) : (goTo p s).stNlen = s.stNlen := rfl
@[simp] theorem goTo_dyHlit (p : PrState) : (goTo p s).dyHlit = s.dyHlit := rfl
@[simp] theorem goTo_dyHdist (p : PrState) : (goTo p s).dyHdist = s.dyHdist := rfl
@[simp] theorem goTo_dyHclen (p : PrState) : (goTo p s).dyHclen = s.dyHclen := rfl
@[simp] theorem goTo_dyCl (p : PrState) : (goTo p s).dyCl = s.dyCl := rfl
@[simp] theorem goTo_dyLens (p : PrState) : (goTo p s).dyLens = s.dyLens := rfl
@[simp] theorem goTo_clDec (p : PrState) : (goTo p s).clDec = s.clDec := rfl
@[simp] theorem goTo_bh (p : PrState) : (goTo p s).bh = s.bh := rfl
@[simp] theorem goTo_commands (p : PrState) : (goTo p s).commands = s.commands := rfl
@[simp] theorem goTo_responses (p : PrState) : (goTo p s).responses = s.responses := rfl
@[simp] theorem goTo_opResult (p : PrState) : (goTo p s).opResult = s.opResult := rfl
@[simp] theorem goTo_fetchPoint (p : PrState) : (goTo p s).fetchPoint = s.fetchPoint := rfl

/-! ## `installDecoders` -/

@[simp] theorem installDecoders_inp (ll d : Decoder) : (installDecoders ll d s).inp = s.inp := rfl
@[simp] theorem installDecoders_inEnd (ll d : Decoder) : (installDecoders ll d s).inEnd = s.inEnd := rfl
@[simp] theorem installDecoders_hdrParse (ll d : Decoder) : (installDecoders ll d s).hdrParse = s.hdrParse := rfl
@[simp] theorem installDecoders_brPos (ll d : Decoder) : (installDecoders ll d s).brPos = s.brPos := rfl
@[simp] theorem installDecoders_brOff (ll d : Decoder) : (installDecoders ll d s).brOff = s.brOff := rfl
@[simp] theorem installDecoders_brBuf (ll d : Decoder) : (installDecoders ll d s).brBuf = s.brBuf := rfl
@[simp] theorem installDecoders_win (ll d : Decoder) : (installDecoders ll d s).win = s.win := rfl
@[simp] theorem installDecoders_winBound (ll d : Decoder) : (installDecoders ll d s).winBound = s.winBound := rfl
@[simp] theorem installDecoders_prState (ll d : Decoder) : (installDecoders ll d s).prState = s.prState := rfl
@[simp] theorem installDecoders_prFinal (ll d : Decoder) : (installDecoders ll d s).prFinal = s.prFinal := rfl
@[simp] theorem installDecoders_prSeen (ll d : Decoder) : (installDecoders ll d s).prSeen = s.prSeen := rfl
@[simp] theorem installDecoders_prErr (ll d : Decoder) : (installDecoders ll d s).prErr = s.prErr := rfl
@[simp] theorem installDecoders_llDec (ll d : Decoder) : (installDecoders ll d s).llDec = some ll := rfl
@[simp] theorem installDecoders_dDec (ll d : Decoder) : (installDecoders ll d s).dDec = some d := rfl
@[simp] theorem installDecoders_lzCur (ll d : Decoder) : (installDecoders ll d s).lzCur = s.lzCur := rfl
@[simp] theorem installDecoders_lzStart (ll d : Decoder) : (installDecoders ll d s).lzStart = s.lzStart := rfl
@[simp] theorem installDecoders_lzResult (ll d : Decoder) : (installDecoders ll d s).lzResult = s.lzResult := rfl
@[simp] theorem installDecoders_stLen (ll d : Decoder) : (installDecoders ll d s).stLen = s.stLen := rfl
@[simp] theorem installDecoders_stNlen (ll d : Decoder) : (installDecoders ll d s).stNlen = s.stNlen := rfl
@[simp] theorem installDecoders_dyHlit (ll d : Decoder) : (installDecoders ll d s).dyHlit = s.dyHlit := rfl
@[simp] theorem installDecoders_dyHdist (ll d : Decoder) : (installDecoders ll d s).dyHdist = s.dyHdist := rfl
@[simp] theorem installDecoders_dyHclen (ll d : Decoder) : (installDecoders ll d s).dyHclen = s.dyHclen := rfl
@[simp] theorem installDecoders_dyCl (ll d : Decoder) : (installDecoders ll d s).dyCl = s.dyCl := rfl
@[simp] theorem installDecoders_dyLens (ll d : Decoder) : (installDecoders ll d s).dyLens = s.dyLens := rfl
@[simp] theorem installDecoders_clDec (ll d : Decoder) : (installDecoders ll d s).clDec = s.clDec := rfl
@[simp] theorem installDecoders_bh (ll d : Decoder) : (installDecoders ll d s).bh = s.bh := rfl
@[simp] theorem installDecoders_commands (ll d : Decoder) : (installDecoders ll d s).commands = s.commands := rfl
@[simp] theorem installDecoders_responses (ll d : Decoder) : (installDecoders ll d s).responses = s.responses := rfl
@[simp] theorem installDecoders_opResult (ll d : Decoder) : (installDecoders ll d s).opResult = s.opResult := rfl
@[simp] theorem installDecoders_fetchPoint (ll d : Decoder) : (installDecoders ll d s).fetchPoint = s.fetchPoint := rfl

/-! ## `latchLengths` -/

@[simp] theorem latchLengths_inp (a b : BitVec 16) : (latchLengths a b s).inp = s.inp := rfl
@[simp] theorem latchLengths_inEnd (a b : BitVec 16) : (latchLengths a b s).inEnd = s.inEnd := rfl
@[simp] theorem latchLengths_hdrParse (a b : BitVec 16) : (latchLengths a b s).hdrParse = s.hdrParse := rfl
@[simp] theorem latchLengths_brPos (a b : BitVec 16) : (latchLengths a b s).brPos = s.brPos := rfl
@[simp] theorem latchLengths_brOff (a b : BitVec 16) : (latchLengths a b s).brOff = s.brOff := rfl
@[simp] theorem latchLengths_brBuf (a b : BitVec 16) : (latchLengths a b s).brBuf = s.brBuf := rfl
@[simp] theorem latchLengths_win (a b : BitVec 16) : (latchLengths a b s).win = s.win := rfl
@[simp] theorem latchLengths_winBound (a b : BitVec 16) : (latchLengths a b s).winBound = s.winBound := rfl
@[simp] theorem latchLengths_prState (a b : BitVec 16) : (latchLengths a b s).prState = s.prState := rfl
@[simp] theorem latchLengths_prFinal (a b : BitVec 16) : (latchLengths a b s).prFinal = s.prFinal := rfl
@[simp] theorem latchLengths_prSeen (a b : BitVec 16) : (latchLengths a b s).prSeen = s.prSeen := rfl
@[simp] theorem latchLengths_prErr (a b : BitVec 16) : (latchLengths a b s).prErr = s.prErr := rfl
@[simp] theorem latchLengths_llDec (a b : BitVec 16) : (latchLengths a b s).llDec = s.llDec := rfl
@[simp] theorem latchLengths_dDec (a b : BitVec 16) : (latchLengths a b s).dDec = s.dDec := rfl
@[simp] theorem latchLengths_lzCur (a b : BitVec 16) : (latchLengths a b s).lzCur = s.lzCur := rfl
@[simp] theorem latchLengths_lzStart (a b : BitVec 16) : (latchLengths a b s).lzStart = s.lzStart := rfl
@[simp] theorem latchLengths_lzResult (a b : BitVec 16) : (latchLengths a b s).lzResult = s.lzResult := rfl
@[simp] theorem latchLengths_stLen (a b : BitVec 16) : (latchLengths a b s).stLen = a := rfl
@[simp] theorem latchLengths_stNlen (a b : BitVec 16) : (latchLengths a b s).stNlen = b := rfl
@[simp] theorem latchLengths_dyHlit (a b : BitVec 16) : (latchLengths a b s).dyHlit = s.dyHlit := rfl
@[simp] theorem latchLengths_dyHdist (a b : BitVec 16) : (latchLengths a b s).dyHdist = s.dyHdist := rfl
@[simp] theorem latchLengths_dyHclen (a b : BitVec 16) : (latchLengths a b s).dyHclen = s.dyHclen := rfl
@[simp] theorem latchLengths_dyCl (a b : BitVec 16) : (latchLengths a b s).dyCl = s.dyCl := rfl
@[simp] theorem latchLengths_dyLens (a b : BitVec 16) : (latchLengths a b s).dyLens = s.dyLens := rfl
@[simp] theorem latchLengths_clDec (a b : BitVec 16) : (latchLengths a b s).clDec = s.clDec := rfl
@[simp] theorem latchLengths_bh (a b : BitVec 16) : (latchLengths a b s).bh = s.bh := rfl
@[simp] theorem latchLengths_commands (a b : BitVec 16) : (latchLengths a b s).commands = s.commands := rfl
@[simp] theorem latchLengths_responses (a b : BitVec 16) : (latchLengths a b s).responses = s.responses := rfl
@[simp] theorem latchLengths_opResult (a b : BitVec 16) : (latchLengths a b s).opResult = s.opResult := rfl
@[simp] theorem latchLengths_fetchPoint (a b : BitVec 16) : (latchLengths a b s).fetchPoint = s.fetchPoint := rfl

/-! ## `dropLzResult` -/

@[simp] theorem dropLzResult_inp : (dropLzResult s).inp = s.inp := rfl
@[simp] theorem dropLzResult_inEnd : (dropLzResult s).inEnd = s.inEnd := rfl
@[simp] theorem dropLzResult_hdrParse : (dropLzResult s).hdrParse = s.hdrParse := rfl
@[simp] theorem dropLzResult_brPos : (dropLzResult s).brPos = s.brPos := rfl
@[simp] theorem dropLzResult_brOff : (dropLzResult s).brOff = s.brOff := rfl
@[simp] theorem dropLzResult_brBuf : (dropLzResult s).brBuf = s.brBuf := rfl
@[simp] theorem dropLzResult_win : (dropLzResult s).win = s.win := rfl
@[simp] theorem dropLzResult_winBound : (dropLzResult s).winBound = s.winBound := rfl
@[simp] theorem dropLzResult_prState : (dropLzResult s).prState = s.prState := rfl
@[simp] theorem dropLzResult_prFinal : (dropLzResult s).prFinal = s.prFinal := rfl
@[simp] theorem dropLzResult_prSeen : (dropLzResult s).prSeen = s.prSeen := rfl
@[simp] theorem dropLzResult_prErr : (dropLzResult s).prErr = s.prErr := rfl
@[simp] theorem dropLzResult_llDec : (dropLzResult s).llDec = s.llDec := rfl
@[simp] theorem dropLzResult_dDec : (dropLzResult s).dDec = s.dDec := rfl
@[simp] theorem dropLzResult_lzCur : (dropLzResult s).lzCur = s.lzCur := rfl
@[simp] theorem dropLzResult_lzStart : (dropLzResult s).lzStart = s.lzStart := rfl
@[simp] theorem dropLzResult_lzResult : (dropLzResult s).lzResult = none := rfl
@[simp] theorem dropLzResult_stLen : (dropLzResult s).stLen = s.stLen := rfl
@[simp] theorem dropLzResult_stNlen : (dropLzResult s).stNlen = s.stNlen := rfl
@[simp] theorem dropLzResult_dyHlit : (dropLzResult s).dyHlit = s.dyHlit := rfl
@[simp] theorem dropLzResult_dyHdist : (dropLzResult s).dyHdist = s.dyHdist := rfl
@[simp] theorem dropLzResult_dyHclen : (dropLzResult s).dyHclen = s.dyHclen := rfl
@[simp] theorem dropLzResult_dyCl : (dropLzResult s).dyCl = s.dyCl := rfl
@[simp] theorem dropLzResult_dyLens : (dropLzResult s).dyLens = s.dyLens := rfl
@[simp] theorem dropLzResult_clDec : (dropLzResult s).clDec = s.clDec := rfl
@[simp] theorem dropLzResult_bh : (dropLzResult s).bh = s.bh := rfl
@[simp] theorem dropLzResult_commands : (dropLzResult s).commands = s.commands := rfl
@[simp] theorem dropLzResult_responses : (dropLzResult s).responses = s.responses := rfl
@[simp] theorem dropLzResult_opResult : (dropLzResult s).opResult = s.opResult := rfl
@[simp] theorem dropLzResult_fetchPoint : (dropLzResult s).fetchPoint = s.fetchPoint := rfl

/-! ## `withCountsOf` -/

@[simp] theorem withCountsOf_inp (u : State) : (withCountsOf u s).inp = s.inp := rfl
@[simp] theorem withCountsOf_inEnd (u : State) : (withCountsOf u s).inEnd = s.inEnd := rfl
@[simp] theorem withCountsOf_hdrParse (u : State) : (withCountsOf u s).hdrParse = s.hdrParse := rfl
@[simp] theorem withCountsOf_brPos (u : State) : (withCountsOf u s).brPos = s.brPos := rfl
@[simp] theorem withCountsOf_brOff (u : State) : (withCountsOf u s).brOff = s.brOff := rfl
@[simp] theorem withCountsOf_brBuf (u : State) : (withCountsOf u s).brBuf = s.brBuf := rfl
@[simp] theorem withCountsOf_win (u : State) : (withCountsOf u s).win = s.win := rfl
@[simp] theorem withCountsOf_winBound (u : State) : (withCountsOf u s).winBound = s.winBound := rfl
@[simp] theorem withCountsOf_prState (u : State) : (withCountsOf u s).prState = s.prState := rfl
@[simp] theorem withCountsOf_prFinal (u : State) : (withCountsOf u s).prFinal = s.prFinal := rfl
@[simp] theorem withCountsOf_prSeen (u : State) : (withCountsOf u s).prSeen = s.prSeen := rfl
@[simp] theorem withCountsOf_prErr (u : State) : (withCountsOf u s).prErr = s.prErr := rfl
@[simp] theorem withCountsOf_llDec (u : State) : (withCountsOf u s).llDec = s.llDec := rfl
@[simp] theorem withCountsOf_dDec (u : State) : (withCountsOf u s).dDec = s.dDec := rfl
@[simp] theorem withCountsOf_lzCur (u : State) : (withCountsOf u s).lzCur = s.lzCur := rfl
@[simp] theorem withCountsOf_lzStart (u : State) : (withCountsOf u s).lzStart = s.lzStart := rfl
@[simp] theorem withCountsOf_lzResult (u : State) : (withCountsOf u s).lzResult = s.lzResult := rfl
@[simp] theorem withCountsOf_stLen (u : State) : (withCountsOf u s).stLen = s.stLen := rfl
@[simp] theorem withCountsOf_stNlen (u : State) : (withCountsOf u s).stNlen = s.stNlen := rfl
@[simp] theorem withCountsOf_dyHlit (u : State) : (withCountsOf u s).dyHlit = BitVec.ofNat 9 (fieldValue 5 u + 257) := rfl
@[simp] theorem withCountsOf_dyHdist (u : State) : (withCountsOf u s).dyHdist = BitVec.ofNat 6 (fieldValue 5 (advance 5 u) + 1) := rfl
@[simp] theorem withCountsOf_dyHclen (u : State) : (withCountsOf u s).dyHclen = BitVec.ofNat 5 (fieldValue 4 (advance 10 u) + 4) := rfl
@[simp] theorem withCountsOf_dyCl (u : State) : (withCountsOf u s).dyCl = s.dyCl := rfl
@[simp] theorem withCountsOf_dyLens (u : State) : (withCountsOf u s).dyLens = s.dyLens := rfl
@[simp] theorem withCountsOf_clDec (u : State) : (withCountsOf u s).clDec = s.clDec := rfl
@[simp] theorem withCountsOf_bh (u : State) : (withCountsOf u s).bh = s.bh := rfl
@[simp] theorem withCountsOf_commands (u : State) : (withCountsOf u s).commands = s.commands := rfl
@[simp] theorem withCountsOf_responses (u : State) : (withCountsOf u s).responses = s.responses := rfl
@[simp] theorem withCountsOf_opResult (u : State) : (withCountsOf u s).opResult = s.opResult := rfl
@[simp] theorem withCountsOf_fetchPoint (u : State) : (withCountsOf u s).fetchPoint = s.fetchPoint := rfl

/-! ## `markSeen` -/

@[simp] theorem markSeen_inp : (markSeen s).inp = s.inp := rfl
@[simp] theorem markSeen_inEnd : (markSeen s).inEnd = s.inEnd := rfl
@[simp] theorem markSeen_hdrParse : (markSeen s).hdrParse = s.hdrParse := rfl
@[simp] theorem markSeen_brPos : (markSeen s).brPos = s.brPos := rfl
@[simp] theorem markSeen_brOff : (markSeen s).brOff = s.brOff := rfl
@[simp] theorem markSeen_brBuf : (markSeen s).brBuf = s.brBuf := rfl
@[simp] theorem markSeen_win : (markSeen s).win = s.win := rfl
@[simp] theorem markSeen_winBound : (markSeen s).winBound = s.winBound := rfl
@[simp] theorem markSeen_prState : (markSeen s).prState = s.prState := rfl
@[simp] theorem markSeen_prFinal : (markSeen s).prFinal = s.prFinal := rfl
@[simp] theorem markSeen_prSeen : (markSeen s).prSeen = true := rfl
@[simp] theorem markSeen_prErr : (markSeen s).prErr = s.prErr := rfl
@[simp] theorem markSeen_llDec : (markSeen s).llDec = s.llDec := rfl
@[simp] theorem markSeen_dDec : (markSeen s).dDec = s.dDec := rfl
@[simp] theorem markSeen_lzCur : (markSeen s).lzCur = s.lzCur := rfl
@[simp] theorem markSeen_lzStart : (markSeen s).lzStart = s.lzStart := rfl
@[simp] theorem markSeen_lzResult : (markSeen s).lzResult = s.lzResult := rfl
@[simp] theorem markSeen_stLen : (markSeen s).stLen = s.stLen := rfl
@[simp] theorem markSeen_stNlen : (markSeen s).stNlen = s.stNlen := rfl
@[simp] theorem markSeen_dyHlit : (markSeen s).dyHlit = s.dyHlit := rfl
@[simp] theorem markSeen_dyHdist : (markSeen s).dyHdist = s.dyHdist := rfl
@[simp] theorem markSeen_dyHclen : (markSeen s).dyHclen = s.dyHclen := rfl
@[simp] theorem markSeen_dyCl : (markSeen s).dyCl = s.dyCl := rfl
@[simp] theorem markSeen_dyLens : (markSeen s).dyLens = s.dyLens := rfl
@[simp] theorem markSeen_clDec : (markSeen s).clDec = s.clDec := rfl
@[simp] theorem markSeen_bh : (markSeen s).bh = s.bh := rfl
@[simp] theorem markSeen_commands : (markSeen s).commands = s.commands := rfl
@[simp] theorem markSeen_responses : (markSeen s).responses = s.responses := rfl
@[simp] theorem markSeen_opResult : (markSeen s).opResult = s.opResult := rfl
@[simp] theorem markSeen_fetchPoint : (markSeen s).fetchPoint = s.fetchPoint := rfl

/-! ## `withFixedDecoders` -/

@[simp] theorem withFixedDecoders_inp : (withFixedDecoders s).inp = s.inp := rfl
@[simp] theorem withFixedDecoders_inEnd : (withFixedDecoders s).inEnd = s.inEnd := rfl
@[simp] theorem withFixedDecoders_hdrParse : (withFixedDecoders s).hdrParse = s.hdrParse := rfl
@[simp] theorem withFixedDecoders_brPos : (withFixedDecoders s).brPos = s.brPos := rfl
@[simp] theorem withFixedDecoders_brOff : (withFixedDecoders s).brOff = s.brOff := rfl
@[simp] theorem withFixedDecoders_brBuf : (withFixedDecoders s).brBuf = s.brBuf := rfl
@[simp] theorem withFixedDecoders_win : (withFixedDecoders s).win = s.win := rfl
@[simp] theorem withFixedDecoders_winBound : (withFixedDecoders s).winBound = s.winBound := rfl
@[simp] theorem withFixedDecoders_prState : (withFixedDecoders s).prState = s.prState := rfl
@[simp] theorem withFixedDecoders_prFinal : (withFixedDecoders s).prFinal = s.prFinal := rfl
@[simp] theorem withFixedDecoders_prSeen : (withFixedDecoders s).prSeen = s.prSeen := rfl
@[simp] theorem withFixedDecoders_prErr : (withFixedDecoders s).prErr = s.prErr := rfl
@[simp] theorem withFixedDecoders_llDec : (withFixedDecoders s).llDec = some fixedLlDec := rfl
@[simp] theorem withFixedDecoders_dDec : (withFixedDecoders s).dDec = some fixedDDec := rfl
@[simp] theorem withFixedDecoders_lzCur : (withFixedDecoders s).lzCur = s.lzCur := rfl
@[simp] theorem withFixedDecoders_lzStart : (withFixedDecoders s).lzStart = s.lzStart := rfl
@[simp] theorem withFixedDecoders_lzResult : (withFixedDecoders s).lzResult = s.lzResult := rfl
@[simp] theorem withFixedDecoders_stLen : (withFixedDecoders s).stLen = s.stLen := rfl
@[simp] theorem withFixedDecoders_stNlen : (withFixedDecoders s).stNlen = s.stNlen := rfl
@[simp] theorem withFixedDecoders_dyHlit : (withFixedDecoders s).dyHlit = s.dyHlit := rfl
@[simp] theorem withFixedDecoders_dyHdist : (withFixedDecoders s).dyHdist = s.dyHdist := rfl
@[simp] theorem withFixedDecoders_dyHclen : (withFixedDecoders s).dyHclen = s.dyHclen := rfl
@[simp] theorem withFixedDecoders_dyCl : (withFixedDecoders s).dyCl = s.dyCl := rfl
@[simp] theorem withFixedDecoders_dyLens : (withFixedDecoders s).dyLens = s.dyLens := rfl
@[simp] theorem withFixedDecoders_clDec : (withFixedDecoders s).clDec = s.clDec := rfl
@[simp] theorem withFixedDecoders_bh : (withFixedDecoders s).bh = s.bh := rfl
@[simp] theorem withFixedDecoders_commands : (withFixedDecoders s).commands = s.commands := rfl
@[simp] theorem withFixedDecoders_responses : (withFixedDecoders s).responses = s.responses := rfl
@[simp] theorem withFixedDecoders_opResult : (withFixedDecoders s).opResult = s.opResult := rfl
@[simp] theorem withFixedDecoders_fetchPoint : (withFixedDecoders s).fetchPoint = s.fetchPoint := rfl

end Sys2Proof.Machine
end

