-- ==== Sys2Proof/Laws/Ops.lean ====
section
/-! SUPPORT. What follows from how operations are put together: binding, delivering as an instruction, and
`Res.Meets`, with which each operation says once everything it can do. -/

namespace Sys2Proof.Machine

/-! ## Binding -/

@[simp] theorem Res.ok_bind {α β : Type} (a : α) (s : State) (k : α → State → Res β) :
    (Res.ok a s).bind k = k a s := rfl

@[simp] theorem Res.raise_bind {α β : Type} (e : Err) (s : State) (k : α → State → Res β) :
    (Res.raise e s).bind k = .raise e s := rfl

@[simp] theorem Res.fault_bind {α β : Type} (f : Fault) (k : α → State → Res β) :
    (Res.fault f).bind k = .fault f := rfl

theorem Res.bind_eq_ok {α β : Type} {r : Res α} {k : α → State → Res β} {b : β} {t : State} :
    r.bind k = .ok b t ↔ ∃ a u, r = .ok a u ∧ k a u = .ok b t := by
  cases r <;> simp

theorem Res.bind_eq_raise {α β : Type} {r : Res α} {k : α → State → Res β} {e : Err} {t : State} :
    r.bind k = .raise e t ↔ r = .raise e t ∨ ∃ a u, r = .ok a u ∧ k a u = .raise e t := by
  cases r <;> simp

theorem Res.bind_eq_fault {α β : Type} {r : Res α} {k : α → State → Res β} {f : Fault} :
    r.bind k = .fault f ↔ r = .fault f ∨ ∃ a u, r = .ok a u ∧ k a u = .fault f := by
  cases r <;> simp

theorem Res.bind_assoc {α β γ : Type} (r : Res α) (k : α → State → Res β) (l : β → State → Res γ) :
    (r.bind k).bind l = r.bind fun a s => (k a s).bind l := by
  cases r <;> rfl

/-! ## Delivering -/

@[simp] theorem deliver_ok {α : Type} (a : α) (s : State) (k : α → State → State) :
    deliver (.ok a s) k = .next (k a s) := rfl

@[simp] theorem deliver_raise {α : Type} (e : Err) (s : State) (k : α → State → State) :
    deliver (.raise e s) k = .next (enterError e s) := rfl

@[simp] theorem deliver_fault {α : Type} (f : Fault) (k : α → State → State) :
    deliver (.fault f) k = .fault f := rfl

/-- An operation run as an instruction is never refused. -/
theorem deliver_not_refused {α : Type} (r : Res α) (k : α → State → State) (q : Refusal) : deliver r k ≠ .refused q := by
  cases r <;> simp [deliver]

@[simp] theorem deliverUnit_ok (a : Unit) (s : State) : deliverUnit (.ok a s) = .next s := rfl

@[simp] theorem deliverUnit_raise (e : Err) (s : State) : deliverUnit (.raise e s) = .next (enterError e s) := rfl

@[simp] theorem deliverUnit_fault (f : Fault) : deliverUnit (.fault f) = .fault f := rfl

@[simp] theorem deliverResult_ok {α : Type} (a : α) (s : State) (f : α → OpResult) :
    deliverResult (.ok a s) f = .next { s with opResult := f a } := rfl

@[simp] theorem deliverResult_raise {α : Type} (e : Err) (s : State) (f : α → OpResult) :
    deliverResult (.raise e s) f = .next (enterError e s) := rfl

@[simp] theorem deliverResult_fault {α : Type} (f : Fault) (g : α → OpResult) :
    deliverResult (.fault f) g = .fault f := rfl

/-- What a next state of an instruction is: the state its operation returned, with the value put away, or the
state it raised in, with the error taken. -/
theorem deliver_eq_next {α : Type} {r : Res α} {k : α → State → State} {t : State} :
    deliver r k = .next t ↔ (∃ a u, r = .ok a u ∧ t = k a u) ∨ ∃ e u, r = .raise e u ∧ t = enterError e u := by
  cases r <;> simp [deliver, eq_comm]

/-- A meaning never refuses. -/
theorem deliver_ne_refused {α : Type} (r : Res α) (k : α → State → State) (x : Refusal) :
    deliver r k ≠ .refused x := by
  cases r <;> simp [deliver]

/-! ## Everything an operation can do -/

/-- Whatever the operation does: it returns as `Q` says, or raises as `R` says, or stops only if `F`. -/
def Res.Meets {α : Type} (r : Res α) (Q : α → State → Prop) (R : Err → State → Prop) (F : Prop) : Prop :=
  match r with
  | .ok a s => Q a s
  | .raise e s => R e s
  | .fault _ => F

@[simp] theorem Res.meets_ok {α : Type} {a : α} {s : State} {Q : α → State → Prop} {R : Err → State → Prop}
    {F : Prop} : (Res.ok a s).Meets Q R F ↔ Q a s := Iff.rfl

@[simp] theorem Res.meets_raise {α : Type} {e : Err} {s : State} {Q : α → State → Prop} {R : Err → State → Prop}
    {F : Prop} : (Res.raise e s : Res α).Meets Q R F ↔ R e s := Iff.rfl

@[simp] theorem Res.meets_fault {α : Type} {f : Fault} {Q : α → State → Prop} {R : Err → State → Prop}
    {F : Prop} : (Res.fault f : Res α).Meets Q R F ↔ F := Iff.rfl

/-- What follows an operation meets a claim when it does from every return of the operation. -/
theorem Res.Meets.bind {α β : Type} {r : Res α} {k : α → State → Res β} {P : α → State → Prop}
    {Q : β → State → Prop} {R : Err → State → Prop} {F : Prop} (hr : r.Meets P R F)
    (hk : ∀ a s, P a s → (k a s).Meets Q R F) : (r.bind k).Meets Q R F := by
  cases r with
  | ok a s => exact hk a s hr
  | raise e s => exact hr
  | fault f => exact hr

/-- A claim may be weakened. -/
theorem Res.Meets.mono {α : Type} {r : Res α} {Q Q' : α → State → Prop} {R R' : Err → State → Prop} {F F' : Prop}
    (hr : r.Meets Q R F) (hQ : ∀ a s, Q a s → Q' a s) (hR : ∀ e s, R e s → R' e s) (hF : F → F') :
    r.Meets Q' R' F' := by
  cases r with
  | ok a s => exact hQ a s hr
  | raise e s => exact hR e s hr
  | fault f => exact hF hr

/-- Two claims about one operation hold together. -/
theorem Res.Meets.and {α : Type} {r : Res α} {Q Q' : α → State → Prop} {R R' : Err → State → Prop} {F F' : Prop}
    (h : r.Meets Q R F) (h' : r.Meets Q' R' F') :
    r.Meets (fun a s => Q a s ∧ Q' a s) (fun e s => R e s ∧ R' e s) (F ∧ F') := by
  cases r with
  | ok a s => exact ⟨h, h'⟩
  | raise e s => exact ⟨h, h'⟩
  | fault f => exact ⟨h, h'⟩

theorem Res.Meets.of_ok {α : Type} {r : Res α} {Q : α → State → Prop} {R : Err → State → Prop} {F : Prop}
    (h : r.Meets Q R F) {a : α} {s : State} (e : r = .ok a s) : Q a s := by subst e; exact h

theorem Res.Meets.of_raise {α : Type} {r : Res α} {Q : α → State → Prop} {R : Err → State → Prop} {F : Prop}
    (h : r.Meets Q R F) {x : Err} {s : State} (e : r = .raise x s) : R x s := by subst e; exact h

/-! ## Errors -/

/-- Taking an error is latching its code and responding it. -/
theorem enterError_eq_latched (e : Err) (s : State) : enterError e s = latched (errCode e) s := rfl

/-- No error has code 0 (60_exceptions.md R138). -/
theorem errCode_ne_zero (e : Err) : errCode e ≠ 0 := by cases e <;> decide

/-- `SRC_FAIL` has the code of `srcFailCode` (60_exceptions.md R139). -/
theorem errCode_srcFail (s : State) : errCode (srcFail s) = srcFailCode s := by
  unfold srcFail srcFailCode; cases s.inEnd <;> rfl

theorem enterError_srcFail (s u : State) : enterError (srcFail s) u = latched (srcFailCode s) u := by
  rw [enterError_eq_latched, errCode_srcFail]

end Sys2Proof.Machine
end

