-- ==== Sys2Proof/Laws/Memory.lean ====
section
/-! SUPPORT. The laws of the window memory: read after write, the canonical form kept by every operation, equal
reads make equal memories, and the copies. -/

namespace Sys2Proof.Machine

/-! ## The canonical form -/

@[simp] theorem Memory.wfFrom_nil (low : Nat) : Memory.wfFrom low [] = true := rfl

theorem Memory.wfFrom_cons {low a : Nat} {b : Byte} {m : Memory} :
    Memory.wfFrom low ((a, b) :: m) = true ↔ low ≤ a ∧ b ≠ Memory.unwritten ∧ Memory.wfFrom (a + 1) m = true := by
  simp [Memory.wfFrom, and_assoc]

theorem Memory.wfFrom_mono {low low' : Nat} {m : Memory} (h : Memory.wfFrom low m = true) (hl : low' ≤ low) :
    Memory.wfFrom low' m = true := by
  cases m with
  | nil => rfl
  | cons c m => rw [Memory.wfFrom_cons] at *; exact ⟨by omega, h.2⟩

theorem Memory.wf_of_wfFrom {low : Nat} {m : Memory} (h : Memory.wfFrom low m = true) : Memory.wf m = true :=
  Memory.wfFrom_mono h (Nat.zero_le _)

theorem Memory.le_of_mem {low : Nat} {m : Memory} (h : Memory.wfFrom low m = true) {c : Host.Cell} (hc : c ∈ m) :
    low ≤ c.1 := by
  induction m generalizing low with
  | nil => simp at hc
  | cons d m ih =>
    rw [Memory.wfFrom_cons] at h
    rcases List.mem_cons.1 hc with rfl | hc
    · exact h.1
    · have := ih h.2.2 hc; omega

/-- The window after reset is in canonical form. -/
theorem reset_win_wf : Memory.wf State.reset.win = true := rfl

/-! ## Reading -/

@[simp] theorem Memory.read_nil (x : Nat) : Memory.read [] x = Memory.unwritten := rfl

theorem Memory.read_cons (a : Nat) (b : Byte) (m : Memory) (x : Nat) :
    Memory.read ((a, b) :: m) x = if a = x then b else Memory.read m x := rfl

/-- No address below the lowest one of a canonical memory is listed. -/
theorem Memory.read_lt {low : Nat} {m : Memory} (h : Memory.wfFrom low m = true) {x : Nat} (hx : x < low) :
    Memory.read m x = Memory.unwritten := by
  induction m generalizing low with
  | nil => rfl
  | cons c m ih =>
    rw [Memory.wfFrom_cons] at h
    rw [Memory.read_cons, if_neg (by omega), ih h.2.2 (by omega)]

theorem Memory.read_append (m m' : Memory) (x : Nat) (h : ∀ c ∈ m, c.1 ≠ x) :
    Memory.read (m ++ m') x = Memory.read m' x := by
  induction m with
  | nil => rfl
  | cons c m ih =>
    obtain ⟨a, b⟩ := c
    rw [List.cons_append, Memory.read_cons, if_neg (h (a, b) (by simp)), ih fun c hc => h c (by simp [hc])]

theorem Memory.read_append_left (m m' : Memory) (x : Nat) (h : ∀ c ∈ m', c.1 ≠ x) :
    Memory.read (m ++ m') x = Memory.read m x := by
  induction m with
  | nil => simpa using Memory.read_append m' [] x h
  | cons c m ih => obtain ⟨a, b⟩ := c; rw [List.cons_append, Memory.read_cons, Memory.read_cons, ih]

theorem Memory.read_filter (m : Memory) (p : Nat → Bool) (x : Nat) :
    Memory.read (m.filter fun c => p c.1) x = if p x then Memory.read m x else Memory.unwritten := by
  induction m with
  | nil => simp
  | cons c m ih =>
    obtain ⟨a, b⟩ := c
    by_cases hp : p a
    · rw [List.filter_cons_of_pos (by simpa using hp), Memory.read_cons, ih, Memory.read_cons]
      by_cases hx : a = x
      · subst hx; simp [hp]
      · simp [hx]
    · rw [List.filter_cons_of_neg (by simpa using hp), ih, Memory.read_cons]
      by_cases hx : a = x
      · subst hx; simp [hp]
      · simp [hx]

theorem Memory.read_unlisted (m : Memory) (x : Nat) (h : ∀ c ∈ m, c.1 ≠ x) :
    Memory.read m x = Memory.unwritten := by
  simpa using Memory.read_append m [] x h

/-- Canonical memories that read alike are equal. -/
theorem Memory.ext_from {low : Nat} {m m' : Memory} (h : Memory.wfFrom low m = true) (h' : Memory.wfFrom low m' = true)
    (e : ∀ x, Memory.read m x = Memory.read m' x) : m = m' := by
  induction m generalizing low m' with
  | nil =>
    cases m' with
    | nil => rfl
    | cons c m' =>
      obtain ⟨a, b⟩ := c
      rw [Memory.wfFrom_cons] at h'
      exact absurd (by simpa [Memory.read_cons] using (e a).symm) h'.2.1
  | cons c m ih =>
    obtain ⟨a, b⟩ := c
    have hm := Memory.wfFrom_cons.1 h
    cases m' with
    | nil => exact absurd (by simpa [Memory.read_cons] using e a) hm.2.1
    | cons c' m' =>
      obtain ⟨a', b'⟩ := c'
      have hm' := Memory.wfFrom_cons.1 h'
      have ha : a = a' := by
        rcases Nat.lt_trichotomy a a' with hlt | heq | hgt
        · have := e a
          rw [Memory.read_cons, if_pos rfl, Memory.read_cons, if_neg (by omega),
            Memory.read_lt hm'.2.2 (by omega)] at this
          exact absurd this hm.2.1
        · exact heq
        · have := e a'
          rw [Memory.read_cons, if_neg (by omega), Memory.read_lt hm.2.2 (by omega), Memory.read_cons,
            if_pos rfl] at this
          exact absurd this.symm hm'.2.1
      subst ha
      have hb : b = b' := by simpa [Memory.read_cons] using e a
      subst hb
      rw [ih hm.2.2 hm'.2.2]
      intro x
      by_cases hx : a = x
      · subst hx; rw [Memory.read_lt hm.2.2 (by omega), Memory.read_lt hm'.2.2 (by omega)]
      · simpa [Memory.read_cons, hx] using e x

theorem Memory.ext {m m' : Memory} (h : Memory.wf m = true) (h' : Memory.wf m' = true)
    (e : ∀ x, Memory.read m x = Memory.read m' x) : m = m' := Memory.ext_from h h' e

/-! ## Writing -/

theorem Memory.mem_cells {a : Nat} {v : List Byte} {c : Host.Cell} (h : c ∈ Memory.cells a v) :
    a ≤ c.1 ∧ c.1 < a + v.length := by
  induction v generalizing a with
  | nil => simp [Memory.cells] at h
  | cons b v ih =>
    rw [Memory.cells] at h
    simp only [List.length_cons]
    split at h
    · have := ih h; omega
    · rcases List.mem_cons.1 h with rfl | h
      · simp
      · have := ih h; omega

theorem Memory.wfFrom_cells (a : Nat) (v : List Byte) : Memory.wfFrom a (Memory.cells a v) = true := by
  induction v generalizing a with
  | nil => rfl
  | cons b v ih =>
    rw [Memory.cells]
    split
    · exact Memory.wfFrom_mono (ih (a + 1)) (by omega)
    · exact Memory.wfFrom_cons.2 ⟨Nat.le_refl _, by assumption, ih (a + 1)⟩

theorem Memory.read_cells (a : Nat) (v : List Byte) (x : Nat) :
    Memory.read (Memory.cells a v) x = if a ≤ x ∧ x < a + v.length then v.getD (x - a) 0 else Memory.unwritten := by
  induction v generalizing a with
  | nil => rw [if_neg (by simp)]; rfl
  | cons b v ih =>
    have key : Memory.read (Memory.cells a (b :: v)) x =
        if a = x then b else Memory.read (Memory.cells (a + 1) v) x := by
      rw [Memory.cells]
      split
      · split
        · subst_vars
          exact Memory.read_lt (Memory.wfFrom_cells (_ + 1) v) (by omega)
        · rfl
      · exact Memory.read_cons _ _ _ _
    rw [key, ih]
    simp only [List.length_cons]
    by_cases hx : a = x
    · subst hx; rw [if_pos rfl, if_pos ⟨by omega, by omega⟩, Nat.sub_self]; rfl
    · rw [if_neg hx]
      by_cases hr : a + 1 ≤ x ∧ x < a + 1 + v.length
      · rw [if_pos hr, if_pos ⟨by omega, by omega⟩, show x - a = (x - (a + 1)) + 1 by omega]; rfl
      · rw [if_neg hr, if_neg (by omega)]

/-- Read after write: the byte written inside the range, the old byte outside it. -/
theorem Memory.read_writeRange (m : Memory) (addr : Nat) (v : List Byte) (x : Nat) :
    Memory.read (m.writeRange addr v) x =
      if addr ≤ x ∧ x < addr + v.length then v.getD (x - addr) 0 else Memory.read m x := by
  have hf := Memory.read_filter m (fun a => decide (a < addr)) x
  have hg := Memory.read_filter m (fun a => decide (addr + v.length ≤ a)) x
  rw [Memory.writeRange]
  rcases Nat.lt_or_ge x addr with hx | hx
  · rw [Memory.read_append_left, Memory.read_append_left, if_neg (by omega)]
    · rw [hf]; simp [hx]
    · intro c hc; have := Memory.mem_cells hc; omega
    · intro c hc; simp at hc; omega
  · rcases Nat.lt_or_ge x (addr + v.length) with hy | hy
    · rw [Memory.read_append_left, Memory.read_append, Memory.read_cells]
      · simp [hx, hy]
      · intro c hc; simp at hc; omega
      · intro c hc; simp at hc; omega
    · rw [Memory.read_append, if_neg (by omega)]
      · rw [hg]; simp [hy]
      · intro c hc
        rcases List.mem_append.1 hc with h | h
        · simp at h; omega
        · have := Memory.mem_cells h; omega

theorem Memory.read_write (m : Memory) (addr : Nat) (b : Byte) (x : Nat) :
    Memory.read (m.write addr b) x = if x = addr then b else Memory.read m x := by
  rw [Memory.write, Memory.read_writeRange]
  by_cases hx : x = addr
  · subst hx; simp
  · rw [if_neg (by simp; omega), if_neg hx]

theorem Memory.wfFrom_append {low mid : Nat} {m m' : Memory} (h : Memory.wfFrom low m = true)
    (hm : ∀ c ∈ m, c.1 < mid) (h' : Memory.wfFrom mid m' = true) (hl : low ≤ mid) :
    Memory.wfFrom low (m ++ m') = true := by
  induction m generalizing low with
  | nil => exact Memory.wfFrom_mono h' hl
  | cons c m ih =>
    obtain ⟨a, b⟩ := c
    have := Memory.wfFrom_cons.1 h
    have ha := hm (a, b) (by simp)
    exact Memory.wfFrom_cons.2 ⟨this.1, this.2.1, ih this.2.2 (fun c hc => hm c (by simp [hc])) ha⟩

theorem Memory.wfFrom_filter {low : Nat} {m : Memory} (h : Memory.wfFrom low m = true) (p : Host.Cell → Bool) :
    Memory.wfFrom low (m.filter p) = true := by
  induction m generalizing low with
  | nil => rfl
  | cons c m ih =>
    have hc := Memory.wfFrom_cons.1 h
    by_cases hp : p c
    · rw [List.filter_cons_of_pos hp]
      exact Memory.wfFrom_cons.2 ⟨hc.1, hc.2.1, ih hc.2.2⟩
    · rw [List.filter_cons_of_neg hp]
      exact Memory.wfFrom_mono (ih hc.2.2) (by omega)

theorem Memory.wfFrom_raise {low high : Nat} {m : Memory} (h : Memory.wfFrom low m = true)
    (hm : ∀ c ∈ m, high ≤ c.1) : Memory.wfFrom high m = true := by
  cases m with
  | nil => rfl
  | cons c m =>
    have hc := Memory.wfFrom_cons.1 h
    exact Memory.wfFrom_cons.2 ⟨hm c (by simp), hc.2⟩

/-- Writing keeps the canonical form. -/
theorem Memory.wf_writeRange {m : Memory} (h : Memory.wf m = true) (addr : Nat) (v : List Byte) :
    Memory.wf (m.writeRange addr v) = true := by
  rw [Memory.writeRange, List.append_assoc]
  refine Memory.wfFrom_append (mid := addr) (Memory.wfFrom_filter h _) (fun c hc => by simp at hc; omega) ?_ (by omega)
  refine Memory.wfFrom_append (mid := addr + v.length) (Memory.wfFrom_cells addr v)
    (fun c hc => (Memory.mem_cells hc).2) ?_ (by omega)
  exact Memory.wfFrom_raise (Memory.wfFrom_filter h _) fun c hc => by simp at hc; omega

theorem Memory.wf_write {m : Memory} (h : Memory.wf m = true) (addr : Nat) (b : Byte) :
    Memory.wf (m.write addr b) = true := Memory.wf_writeRange h addr [b]

/-- Writing below a bound lists nothing above it. -/
theorem Memory.below_writeRange {bound : Nat} {m : Memory} (h : Memory.below bound m = true) {addr : Nat}
    {v : List Byte} (hv : addr + v.length ≤ bound) : Memory.below bound (m.writeRange addr v) = true := by
  simp only [Memory.below, List.all_eq_true, decide_eq_true_eq] at *
  intro c hc
  rw [Memory.writeRange, List.mem_append, List.mem_append] at hc
  rcases hc with (hc | hc) | hc
  · exact h c (List.mem_of_mem_filter hc)
  · have := Memory.mem_cells hc; omega
  · exact h c (List.mem_of_mem_filter hc)

theorem Memory.below_write {bound : Nat} {m : Memory} (h : Memory.below bound m = true) {addr : Nat} (b : Byte)
    (ha : addr < bound) : Memory.below bound (m.write addr b) = true :=
  Memory.below_writeRange h (by simpa using ha)

/-! ## Reading a range -/

@[simp] theorem Memory.length_readRange (m : Memory) (addr n : Nat) : (Memory.readRange m addr n).length = n := by
  induction n generalizing m addr with
  | zero => simp [Memory.readRange]
  | succ n ih =>
    rw [Memory.readRange]
    split
    · simp [ih]
    · split <;> simp [ih]

theorem Memory.wfFrom_dropWhile {low addr : Nat} {m : Memory} (h : Memory.wfFrom low m = true) :
    Memory.wfFrom addr (m.dropWhile fun c => decide (c.1 < addr)) = true := by
  induction m generalizing low with
  | nil => rfl
  | cons c m ih =>
    have hc := Memory.wfFrom_cons.1 h
    by_cases hp : c.1 < addr
    · rw [List.dropWhile_cons_of_pos (by simpa using hp)]; exact ih hc.2.2
    · rw [List.dropWhile_cons_of_neg (by simpa using hp)]
      exact Memory.wfFrom_cons.2 ⟨by omega, hc.2⟩

theorem Memory.read_dropWhile {addr x : Nat} (m : Memory) (hx : addr ≤ x) :
    Memory.read (m.dropWhile fun c => decide (c.1 < addr)) x = Memory.read m x := by
  induction m with
  | nil => rfl
  | cons c m ih =>
    obtain ⟨a, b⟩ := c
    by_cases hp : a < addr
    · rw [List.dropWhile_cons_of_pos (by simpa using hp), ih, Memory.read_cons, if_neg (by omega)]
    · rw [List.dropWhile_cons_of_neg (by simpa using hp)]

/-- Byte `k` of a range read from a canonical memory is the byte at that address. -/
theorem Memory.getD_readRange {m : Memory} (h : Memory.wf m = true) (addr n k : Nat) (hk : k < n) :
    (Memory.readRange m addr n).getD k 0 = Memory.read m (addr + k) := by
  have general : ∀ (n : Nat) (low : Nat) (m : Memory) (addr k : Nat), Memory.wfFrom low m = true → k < n →
      (Memory.readRange m addr n).getD k 0 = Memory.read m (addr + k) := by
    intro n
    induction n with
    | zero => intro _ _ _ _ _ hk; omega
    | succ n ih =>
      intro low m addr k h hk
      have hd := Memory.wfFrom_dropWhile (addr := addr) h
      rw [← Memory.read_dropWhile (addr := addr) m (by omega), Memory.readRange]
      split
      next hnil =>
        rw [hnil]
        cases k with
        | zero => rfl
        | succ k => simpa using ih 0 [] (addr + 1) k rfl (by omega)
      next a b rest hcons =>
        rw [hcons] at hd ⊢
        have hc := Memory.wfFrom_cons.1 hd
        split
        next heq =>
          subst heq
          cases k with
          | zero => rw [Memory.read_cons, if_pos (by omega)]; rfl
          | succ k =>
            have := ih (a + 1) rest (a + 1) k hc.2.2 (by omega)
            rw [Memory.read_cons, if_neg (by omega), show a + (k + 1) = a + 1 + k by omega]
            simpa using this
        next hne =>
          cases k with
          | zero => rw [Nat.add_zero, Memory.read_lt (low := addr + 1) (Memory.wfFrom_cons.2 ⟨by omega, hc.2⟩)
              (by omega)]; rfl
          | succ k =>
            have := ih addr ((a, b) :: rest) (addr + 1) k hd (by omega)
            rw [show addr + (k + 1) = addr + 1 + k by omega]
            simpa using this
  exact general n 0 m addr k h hk

theorem Memory.readRange_eq_map {m : Memory} (h : Memory.wf m = true) (addr n : Nat) :
    Memory.readRange m addr n = (List.range n).map fun k => Memory.read m (addr + k) := by
  apply List.ext_getElem (by simp)
  intro k hk hk'
  have := Memory.getD_readRange h addr n k (by simpa using hk)
  rw [List.getD_eq_getElem?_getD, List.getElem?_eq_getElem hk] at this
  simpa using this

/-! ## The copy of 44_lz77.md R108 -/

theorem Memory.wf_copyBytes {m : Memory} (h : Memory.wf m = true) (dist length pos : Nat) :
    Memory.wf (copyBytes dist length pos m) = true := by
  induction length generalizing pos m with
  | zero => exact h
  | succ n ih => exact ih (Memory.wf_write h _ _) (pos + 1)

theorem Memory.below_copyBytes {bound : Nat} {m : Memory} (h : Memory.below bound m = true) (dist length pos : Nat)
    (hp : pos + length ≤ bound) : Memory.below bound (copyBytes dist length pos m) = true := by
  induction length generalizing pos m with
  | zero => exact h
  | succ n ih => exact ih (Memory.below_write h _ (by omega)) (pos + 1) (by omega)

theorem Memory.read_copyBytes_outside (m : Memory) (dist length pos x : Nat) (hx : x < pos ∨ pos + length ≤ x) :
    Memory.read (copyBytes dist length pos m) x = Memory.read m x := by
  induction length generalizing pos m with
  | zero => rfl
  | succ n ih => rw [copyBytes, ih _ _ (by omega), Memory.read_write, if_neg (by omega)]

/-- Byte `k` of a copy is the byte `dist` behind it, with period `dist`. -/
theorem Memory.read_copyBytes (m : Memory) (dist length pos k : Nat) (hd : 0 < dist) (hp : dist ≤ pos)
    (hk : k < length) :
    Memory.read (copyBytes dist length pos m) (pos + k) = Memory.read m (pos - dist + k % dist) := by
  induction length generalizing pos m k with
  | zero => omega
  | succ n ih =>
    rw [copyBytes]
    cases k with
    | zero =>
      rw [Memory.read_copyBytes_outside _ _ _ _ _ (by omega), Memory.read_write, if_pos (by omega), Nat.zero_mod,
        Nat.add_zero]
    | succ k =>
      rw [show pos + (k + 1) = pos + 1 + k by omega, ih _ _ _ (by omega) (by omega), Memory.read_write]
      have hm : k % dist < dist := Nat.mod_lt _ hd
      by_cases hlast : k % dist = dist - 1
      · rw [if_pos (by omega), show (k + 1) % dist = 0 by
          rw [Nat.add_mod, hlast]
          rcases Nat.lt_or_ge 1 dist with h1 | h1
          · rw [Nat.mod_eq_of_lt h1, Nat.sub_add_cancel (by omega), Nat.mod_self]
          · rw [show dist = 1 by omega, Nat.mod_one], Nat.add_zero]
      · rw [if_neg (by omega), show (k + 1) % dist = k % dist + 1 by
          rw [Nat.add_mod, Nat.mod_eq_of_lt (a := 1) (by omega), Nat.mod_eq_of_lt (by omega)]]
        congr 1; omega

end Sys2Proof.Machine
end

