-- ==== Sys2Proof/Laws/Reader.lean ====
section
/-! SUPPORT. The laws of the bit reader: each operation as a move of the bit address, the bits a peek holds, and
what an operation that reads can do to the state. -/

namespace Sys2Proof.Machine

/-! ## The bit address -/

theorem bitAddr_div (s : State) : bitAddr s / 8 = s.brPos := by have := s.brOff.isLt; unfold bitAddr; omega

theorem bitAddr_mod (s : State) : bitAddr s % 8 = s.brOff.toNat := by have := s.brOff.isLt; unfold bitAddr; omega

@[simp] theorem bitAddr_advance (n : Nat) (s : State) : bitAddr (advance n s) = bitAddr s + n := by
  have h : (bitAddr s + n) % 8 % 2 ^ 3 = (bitAddr s + n) % 8 := Nat.mod_eq_of_lt (Nat.mod_lt _ (by decide))
  show 8 * ((bitAddr s + n) / 8) + (BitVec.ofNat 3 ((bitAddr s + n) % 8)).toNat = _
  rw [BitVec.toNat_ofNat, h]; omega

@[simp] theorem bitAddr_atByte (p : Nat) (s : State) : bitAddr (atByte p s) = 8 * p := by simp [bitAddr]

/-- Two states with the same bit address have the same cursor. -/
theorem cursor_eq {s t : State} (h : bitAddr s = bitAddr t) : s.brPos = t.brPos ∧ s.brOff = t.brOff := by
  refine ⟨by rw [← bitAddr_div s, h, bitAddr_div], ?_⟩
  apply BitVec.eq_of_toNat_eq
  rw [← bitAddr_mod s, h, bitAddr_mod]

theorem advance_advance (m n : Nat) (s : State) : advance n (advance m s) = advance (m + n) s := by
  show ({ s with brPos := (bitAddr (advance m s) + n) / 8, brOff := BitVec.ofNat 3 ((bitAddr (advance m s) + n) % 8) } : State) = _
  rw [bitAddr_advance, Nat.add_assoc]; rfl

@[simp] theorem advance_zero (s : State) : advance 0 s = s := by
  have h := cursor_eq (s := advance 0 s) (t := s) (by simp)
  show ({ s with brPos := (advance 0 s).brPos, brOff := (advance 0 s).brOff } : State) = s
  rw [h.1, h.2]

theorem avail_eq (s : State) : avail s = s.inp.length - bitAddr s / 8 := by rw [bitAddr_div]; rfl

theorem alignedPos_eq (s : State) : alignedPos s = if s.brOff = 0 then s.brPos else s.brPos + 1 := by
  have hlt := s.brOff.isLt
  unfold alignedPos bitAddr
  split
  next h => rw [h]; simp; omega
  next h =>
    have : s.brOff.toNat ≠ 0 := fun h0 => h (BitVec.eq_of_toNat_eq (by simpa using h0))
    omega

@[simp] theorem alignedPos_atByte (p : Nat) (s : State) : alignedPos (atByte p s) = p := by
  unfold alignedPos; rw [bitAddr_atByte]; omega

@[simp] theorem atByte_atByte (p q : Nat) (s : State) : atByte p (atByte q s) = atByte p s := rfl

/-! ## The operations as moves of the cursor -/

/-- `consume` moves the bit address by `n` (40_bitreader.md R73). -/
theorem consume_eq (n : Nat) (s : State) : consume n s = advance n s := by
  have h1 : s.brPos + (s.brOff.toNat + n) / 8 = (bitAddr s + n) / 8 := by unfold bitAddr; omega
  have h2 : BitVec.ofNat 3 (s.brOff.toNat + n) = BitVec.ofNat 3 ((bitAddr s + n) % 8) := by
    apply BitVec.eq_of_toNat_eq
    simp only [BitVec.toNat_ofNat]; unfold bitAddr; omega
  show ({ s with brPos := s.brPos + (s.brOff.toNat + n) / 8, brOff := BitVec.ofNat 3 (s.brOff.toNat + n) } : State) = _
  rw [h1, h2]; rfl

/-- `byteAlign` goes to the next byte boundary (40_bitreader.md R75). -/
theorem byteAlign_eq (s : State) : byteAlign s = atByte (alignedPos s) s := by
  rw [alignedPos_eq]
  unfold byteAlign atByte
  split
  next h => cases s; subst h; rfl
  next => rfl

/-- Bit `k` of a peek is bit `k` of the stream (40_bitreader.md R72). -/
theorem getLsbD_peekWord (s : State) (k : Nat) (hk : k < 32) : (peekWord s).getLsbD k = streamBit k s := by
  have hlt := s.brOff.isLt
  have hd : (bitAddr s + k) / 8 = s.brPos + (s.brOff.toNat + k) / 8 := by unfold bitAddr; omega
  have hm : (bitAddr s + k) % 8 = (s.brOff.toNat + k) % 8 := by unfold bitAddr; omega
  unfold peekWord streamBit byteAt
  rw [hd, hm]
  simp only [BitVec.getLsbD_setWidth, BitVec.getLsbD_ushiftRight, BitVec.getLsbD_append, hk, decide_true,
    Bool.true_and]
  have hj : s.brOff.toNat + k < 40 := by omega
  clear hd hm
  generalize s.brOff.toNat + k = j at *
  interval_cases j <;> simp

/-- The value of the low `n` bits of a peek is the field of the next `n` bits (20_memory.md R33). -/
theorem fieldValue_eq (n : Nat) (s : State) (hn : n ≤ 32) : fieldValue n s = (peekWord s).toNat % 2 ^ n := by
  induction n with
  | zero => simp [fieldValue, Nat.mod_one]
  | succ n ih =>
    have h : fieldValue (n + 1) s = fieldValue n s + if streamBit n s then 2 ^ n else 0 := by
      simp [fieldValue, List.range_succ]
    rw [h, ih (by omega), ← getLsbD_peekWord s n (by omega), BitVec.getLsbD, Nat.mod_pow_succ]
    have : (peekWord s).toNat.testBit n = decide ((peekWord s).toNat / 2 ^ n % 2 = 1) := by
      rw [Nat.testBit_eq_decide_div_mod_eq]
    rw [this]
    rcases Nat.mod_two_eq_zero_or_one ((peekWord s).toNat / 2 ^ n) with h0 | h0 <;> simp [h0]

/-- The field a `readBits` returns (40_bitreader.md R74). -/
theorem toNat_maskedPeek (n : Nat) (s : State) (hn : n ≤ 32) :
    (peekWord s &&& BitVec.ofNat 32 (mask n)).toNat = fieldValue n s := by
  have hlt : mask n < 2 ^ 32 := by
    have := Nat.pow_le_pow_right (n := 2) (by decide) hn
    have := Nat.two_pow_pos n
    unfold mask; omega
  rw [fieldValue_eq n s hn, BitVec.toNat_and, BitVec.toNat_ofNat, Nat.mod_eq_of_lt hlt, mask,
    Nat.and_two_pow_sub_one_eq_mod]

theorem peekBits_eq (s : State) :
    peekBits s = if avail s < 4 then .raise (srcFail s) s else .ok (peekWord s) s := rfl

theorem readBits_eq (n : Nat) (s : State) :
    readBits n s = if avail s < 4 then .raise (srcFail s) s
      else .ok (peekWord s &&& BitVec.ofNat 32 (mask n)) (advance n s) := by
  unfold readBits
  rw [peekBits_eq]
  split
  · rfl
  · rw [Res.ok_bind, consume_eq]

theorem readExact_eq (n : Nat) (s : State) :
    readExact n s = if s.inp.length - alignedPos s < n then .raise (srcFail s) (atByte (alignedPos s) s)
      else .ok (inBytes (alignedPos s) n s) (atByte (alignedPos s + n) s) := by
  unfold readExact
  rw [byteAlign_eq]; rfl

theorem readSome_eq (n : Nat) (s : State) :
    readSome n s =
      if s.inp.length - alignedPos s = 0 ∧ 0 < n ∧ s.inEnd = .ioerr then .raise .ioError (atByte (alignedPos s) s)
      else .ok (inBytes (alignedPos s) (min n (s.inp.length - alignedPos s)) s)
        (atByte (alignedPos s + min n (s.inp.length - alignedPos s)) s) := by
  have h : (min n (s.inp.length - alignedPos s) = 0 ∧ 0 < n ∧ s.inEnd = .ioerr) ↔
      (s.inp.length - alignedPos s = 0 ∧ 0 < n ∧ s.inEnd = .ioerr) := by
    constructor <;> rintro ⟨a, b, c⟩ <;> exact ⟨by omega, b, c⟩
  unfold readSome
  rw [byteAlign_eq]
  show (if min n (s.inp.length - alignedPos s) = 0 ∧ 0 < n ∧ s.inEnd = .ioerr then
      Res.raise .ioError (atByte (alignedPos s) s)
    else .ok (inBytes (alignedPos s) (min n (s.inp.length - alignedPos s)) s)
      (atByte (alignedPos s + min n (s.inp.length - alignedPos s)) s)) = _
  by_cases hc : s.inp.length - alignedPos s = 0 ∧ 0 < n ∧ s.inEnd = .ioerr
  · rw [if_pos (h.2 hc), if_pos hc]
  · rw [if_neg (fun x => hc (h.1 x)), if_neg hc]

@[simp] theorem length_inBytes (pos n : Nat) (s : State) (h : n ≤ s.inp.length - pos) :
    (inBytes pos n s).length = n := by
  simp [inBytes]; omega

theorem getD_inBytes (pos n k : Nat) (s : State) (hk : k < n) : (inBytes pos n s).getD k 0 = s.inp.getD (pos + k) 0 := by
  simp [inBytes, List.getD_eq_getElem?_getD, hk]

/-! ## What reading can do to the state -/

/-- Only the cursor has moved, and not backwards. -/
structure ReadsOn (s t : State) : Prop where
  fields : t = { s with brPos := t.brPos, brOff := t.brOff }
  forward : bitAddr s ≤ bitAddr t

theorem ReadsOn.refl (s : State) : ReadsOn s s := ⟨rfl, Nat.le_refl _⟩

theorem ReadsOn.trans {s t u : State} (h : ReadsOn s t) (h' : ReadsOn t u) : ReadsOn s u :=
  ⟨by rw [h'.fields, h.fields], Nat.le_trans h.forward h'.forward⟩

theorem readsOn_advance (n : Nat) (s : State) : ReadsOn s (advance n s) := ⟨rfl, by simp⟩

theorem readsOn_atByte {p : Nat} {s : State} (h : alignedPos s ≤ p) : ReadsOn s (atByte p s) :=
  ⟨rfl, by have : (bitAddr s + 7) / 8 ≤ p := h; rw [bitAddr_atByte]; omega⟩

theorem readBits_meets (n : Nat) (s : State) :
    (readBits n s).Meets (fun _ t => t = advance n s ∧ 4 ≤ avail s) (fun e t => e = srcFail s ∧ t = s) False := by
  rw [readBits_eq]; split
  · exact ⟨rfl, rfl⟩
  · exact ⟨rfl, by omega⟩

theorem readExact_meets (n : Nat) (s : State) :
    (readExact n s).Meets
      (fun v t => v = inBytes (alignedPos s) n s ∧ t = atByte (alignedPos s + n) s ∧ n ≤ s.inp.length - alignedPos s)
      (fun e t => e = srcFail s ∧ t = atByte (alignedPos s) s) False := by
  rw [readExact_eq]; split
  · exact ⟨rfl, rfl⟩
  · exact ⟨rfl, rfl, by omega⟩

theorem hasDataLeft_meets (s : State) :
    (hasDataLeft s).Meets (fun b t => t = s ∧ (b = true ↔ s.brPos < s.inp.length) ∧ (b = false → s.inEnd = .eof))
      (fun e t => e = .ioError ∧ t = s ∧ s.inp.length ≤ s.brPos ∧ s.inEnd = .ioerr) False := by
  unfold hasDataLeft
  split
  next h => exact ⟨rfl, by simp [h], by simp⟩
  next h =>
    split
    next h' => exact ⟨rfl, rfl, by omega, h'⟩
    next h' => exact ⟨rfl, by simp; omega, fun _ => h'⟩

/-! ## The cursor inside the input (40_bitreader.md R79) -/

theorem cursorInside_advance {n : Nat} {s : State} (h : 4 ≤ avail s) (hn : n ≤ 24) : cursorInside (advance n s) := by
  have := s.brOff.isLt
  unfold avail at h
  have e : bitAddr s = 8 * s.brPos + s.brOff.toNat := rfl
  constructor
  · simp only [advance_brPos, advance_inp]; omega
  · simp only [advance_brPos, advance_inp]; omega

theorem cursorInside_atByte {p : Nat} {s : State} (h : p ≤ s.inp.length) : cursorInside (atByte p s) := ⟨h, fun _ => rfl⟩

theorem alignedPos_le {s : State} (h : cursorInside s) : alignedPos s ≤ s.inp.length := by
  rw [alignedPos_eq]
  obtain ⟨h1, h2⟩ := h
  split
  · exact h1
  · have : s.brPos ≠ s.inp.length := fun e => by have := h2 e; contradiction
    omega

end Sys2Proof.Machine
end

