-- ==== Sys2Proof/Laws/Huffman.lean ====
section
/-! SUPPORT. The laws of codebooks and decoders: what a build leaves of its lengths, the shape of a compiled
decoder, and `decodeSymbol` as a peek, a lookup and a move of the cursor. -/

namespace Sys2Proof.Machine

/-! ## Codebooks -/

theorem maxLenOf_ge {lens : List Nat} {l : Nat} (h : l ∈ lens) : l ≤ maxLenOf lens := by
  have general : ∀ (lens : List Nat) (m : Nat), m ≤ lens.foldl max m ∧ ∀ l ∈ lens, l ≤ lens.foldl max m := by
    intro lens
    induction lens with
    | nil => intro m; simp
    | cons a lens ih =>
      intro m
      have := ih (max m a)
      refine ⟨?_, ?_⟩
      · exact Nat.le_trans (Nat.le_max_left _ _) this.1
      · intro l hl
        rcases List.mem_cons.1 hl with rfl | hl
        · exact Nat.le_trans (Nat.le_max_right _ _) this.1
        · exact this.2 l hl
  exact (general lens 0).2 l h

theorem maxLenOf_le {lens : List Nat} {b : Nat} (h : ∀ l ∈ lens, l ≤ b) : maxLenOf lens ≤ b := by
  have general : ∀ (lens : List Nat) (m : Nat), m ≤ b → (∀ l ∈ lens, l ≤ b) → lens.foldl max m ≤ b := by
    intro lens
    induction lens with
    | nil => intro m hm _; exact hm
    | cons a lens ih =>
      intro m hm hl
      exact ih (max m a) (Nat.max_le.2 ⟨hm, hl a (by simp)⟩) fun l h => hl l (by simp [h])
  exact general lens 0 (Nat.zero_le _) h

/-- The codes are given to the symbols in order, each with its length. -/
theorem assignCodes_lens {lens next : List Nat} {es : List CodeEntry} (h : assignCodes lens next = some es) :
    es.map CodeEntry.len = lens := by
  induction lens generalizing next es with
  | nil => simp [assignCodes] at h; subst h; rfl
  | cons l lens ih =>
    cases l with
    | zero =>
      simp only [assignCodes, Option.map_eq_some_iff] at h
      obtain ⟨es', h', rfl⟩ := h
      simp [ih h']
    | succ l =>
      simp only [assignCodes] at h
      split at h
      · simp at h
      · simp only [Option.map_eq_some_iff] at h
        obtain ⟨es', h', rfl⟩ := h
        simp [ih h']

/-- What a build that succeeds leaves (41_codebook.md R82, R83). -/
theorem buildCodebook_some {lens : List Nat} {b : Codebook} (h : buildCodebook lens = some b) :
    b.entries.map CodeEntry.len = lens ∧ b.maxLen = maxLenOf lens ∧ lens ≠ [] ∧ lens.length ≤ 289 ∧
      (∀ l ∈ lens, l ≤ 15) ∧ assignCodes lens (firstCodes lens) = some b.entries := by
  unfold buildCodebook at h
  split at h
  · simp at h
  next h1 =>
    split at h
    · simp at h
    next h2 =>
      simp only [Option.map_eq_some_iff] at h
      obtain ⟨es, he, rfl⟩ := h
      refine ⟨assignCodes_lens he, rfl, ?_, ?_, ?_, he⟩
      · rintro rfl; simp at h1
      · simp only [Config.maxCodebookEntries, not_or] at h1; omega
      · intro l hl
        simp only [List.any_eq_true, decide_eq_true_eq, not_exists, not_and] at h2
        have := h2 l hl
        simp only [Config.maxCodeLen] at this; omega

theorem buildCodebook_length {lens : List Nat} {b : Codebook} (h : buildCodebook lens = some b) :
    b.entries.length = lens.length := by rw [← (buildCodebook_some h).1, List.length_map]

theorem buildOrRaise_meets (lens : List Nat) (s : State) :
    (buildOrRaise lens s).Meets (fun b t => buildCodebook lens = some b ∧ t = s)
      (fun e t => e = .invalidCodeLengths ∧ t = s ∧ buildCodebook lens = none) False := by
  unfold buildOrRaise; split
  next h => exact ⟨h, rfl⟩
  next h => exact ⟨rfl, rfl, h⟩

/-! ## The shape of a compiled decoder (10_state.md R24) -/

@[simp] theorem length_fillSlots (t : List Slot) (base start shift count : Nat) (slot : Slot) :
    (fillSlots t base start shift count slot).length = t.length := by
  unfold fillSlots
  generalize List.range count = l
  induction l generalizing t with
  | nil => rfl
  | cons h l ih => simp [ih]

theorem all_fillSlots {p : Slot → Bool} {t : List Slot} {slot : Slot} (ht : t.all p = true) (hs : p slot = true)
    (base start shift count : Nat) : (fillSlots t base start shift count slot).all p = true := by
  unfold fillSlots
  generalize List.range count = l
  induction l generalizing t with
  | nil => exact ht
  | cons h l ih =>
    apply ih
    rw [List.all_eq_true] at *
    intro x hx
    rcases List.mem_or_eq_of_mem_set hx with hx | rfl
    · exact ht x hx
    · exact hs

/-- The tables of a decoder under construction, after `n` symbols, whose segments have `2^(m-p)` slots. A symbol
makes at most one segment. -/
structure TablesLegal (m p n : Nat) (t : List Slot × List Slot) : Prop where
  whole : t.2.length % 2 ^ (m - p) = 0
  few : t.2.length ≤ n * 2 ^ (m - p)
  none : m ≤ p → t.2 = []
  size : t.1.length = 2 ^ p
  pri : t.1.all (Slot.wellFormed m (2 ^ (m - p)) t.2.length) = true
  sec : t.2.all (fun e => Slot.wellFormed m 0 0 e && match e with
    | .link _ => false
    | _ => true) = true

theorem Slot.wellFormed_mono {m seg n n' : Nat} {e : Slot} (h : Slot.wellFormed m seg n e = true) (hn : n ≤ n') :
    Slot.wellFormed m seg n' e = true := by
  cases e with
  | empty => rfl
  | direct sym len => exact h
  | link base => simp only [Slot.wellFormed, decide_eq_true_eq] at *; exact Nat.le_trans h hn

theorem TablesLegal.mono {m p n n' : Nat} {t : List Slot × List Slot} (h : TablesLegal m p n t) (hn : n ≤ n') :
    TablesLegal m p n' t :=
  { h with few := Nat.le_trans h.few (Nat.mul_le_mul_right _ hn) }

theorem TablesLegal.reserve {m p n : Nat} {t : List Slot × List Slot} (h : TablesLegal m p n t) (hp : p < m) (key : Nat) :
    TablesLegal m p (n + 1) (reserveSegment m p key t).2 := by
  unfold reserveSegment
  split
  · exact h.mono (Nat.le_succ n)
  · exact h.mono (Nat.le_succ n)
  · refine ⟨?_, ?_, fun hmp => absurd hmp (Nat.not_le.2 hp), by simp [h.size], ?_, ?_⟩
    · simp [h.whole]
    · simp only [List.length_append, List.length_replicate, Nat.succ_mul]
      exact Nat.add_le_add_right h.few _
    · rw [List.all_eq_true]
      intro x hx
      simp only [List.length_append, List.length_replicate]
      rcases List.mem_or_eq_of_mem_set hx with hx | rfl
      · exact Slot.wellFormed_mono (List.all_eq_true.1 h.pri x hx) (Nat.le_add_right _ _)
      · simp [Slot.wellFormed]
    · simp only [List.all_append, h.sec, Bool.true_and, List.all_eq_true]
      intro x hx
      rw [List.eq_of_mem_replicate hx]; rfl

theorem TablesLegal.place {m p n : Nat} {t : List Slot × List Slot} (h : TablesLegal m p n t) {sym : Nat}
    {e : CodeEntry} (hs : sym < 288) (he : e.len ≤ m) : TablesLegal m p (n + 1) (placeSymbol m p sym e t) := by
  unfold placeSymbol
  by_cases h0 : e.len = 0
  · simp only [h0, if_true]; exact h.mono (Nat.le_succ n)
  · have hd : ∀ seg k, Slot.wellFormed m seg k (.direct sym e.len) = true := by
      intro seg k; simp [Slot.wellFormed, Config.llAlphabet, hs, he]; omega
    simp only [h0, if_false]
    split
    · have h := h.mono (Nat.le_succ n)
      exact { h with size := by simp [h.size], pri := all_fillSlots h.pri (hd _ _) _ _ _ _ }
    · have hp : p < m := by omega
      have hr := h.reserve hp (revBits e.len e.code &&& mask p)
      refine ⟨?_, ?_, fun hmp => absurd hmp (Nat.not_le.2 hp), hr.size, ?_,
        all_fillSlots hr.sec (by simp [hd]) _ _ _ _⟩ <;> simp only [length_fillSlots]
      · exact hr.whole
      · exact hr.few
      · exact hr.pri

theorem TablesLegal.placeAll {m p n : Nat} {es : List CodeEntry} {sym : Nat} {t : List Slot × List Slot}
    (h : TablesLegal m p n t) (hs : sym + es.length ≤ 288) (he : ∀ e ∈ es, e.len ≤ m) :
    TablesLegal m p (n + es.length) (placeSymbols m p sym es t) := by
  induction es generalizing sym t n with
  | nil => exact h
  | cons e es ih =>
    simp only [List.length_cons] at hs
    have := ih (h.place (sym := sym) (by omega) (he e (by simp))) (sym := sym + 1) (by omega)
      fun e he' => he e (by simp [he'])
    rwa [List.length_cons, Nat.add_comm es.length, ← Nat.add_assoc]

/-- A codebook of at most 288 entries, none longer than its longest length, compiles to a decoder of the shape of
10_state.md R24. -/
theorem compileDecoder_wellFormed {b : Codebook} (hn : b.entries.length ≤ 288) (hm : b.maxLen ≤ 15)
    (he : ∀ e ∈ b.entries, e.len ≤ b.maxLen) : (compileDecoder b).wellFormed = true := by
  have h : TablesLegal b.maxLen (min b.maxLen 9) (0 + b.entries.length)
      (placeSymbols b.maxLen (min b.maxLen 9) 0 b.entries (List.replicate (2 ^ min b.maxLen 9) .empty, [])) := by
    apply TablesLegal.placeAll
    · refine ⟨by simp, by simp, fun _ => rfl, by simp, ?_, rfl⟩
      rw [List.all_eq_true]
      intro x hx
      rw [List.eq_of_mem_replicate hx]; rfl
    · omega
    · exact he
  have h := h.mono (n' := 512) (by omega)
  simp only [Decoder.wellFormed, wholeSegments, compileDecoder, mask, Bool.and_eq_true, Bool.or_eq_true, beq_iff_eq]
  refine ⟨⟨⟨⟨⟨⟨⟨decide_eq_true hm, trivial⟩, h.size⟩, trivial⟩, h.whole, decide_eq_true h.few⟩, ?_⟩, h.pri⟩, h.sec⟩
  rcases Nat.lt_or_ge 9 b.maxLen with h9 | h9
  · exact .inl (decide_eq_true h9)
  · exact .inr (List.isEmpty_iff.2 (h.none (by omega)))

theorem build_compile_wellFormed {lens : List Nat} {b : Codebook} (h : buildCodebook lens = some b)
    (hn : lens.length ≤ 288) : (compileDecoder b).wellFormed = true := by
  obtain ⟨h1, h2, _, _, h5, _⟩ := buildCodebook_some h
  refine compileDecoder_wellFormed (by rw [buildCodebook_length h]; exact hn) (by rw [h2]; exact maxLenOf_le h5) ?_
  intro e he
  rw [h2, ← h1]
  exact maxLenOf_ge (List.mem_map.2 ⟨e, he, rfl⟩)

theorem noCodes_wellFormed : Decoder.noCodes.wellFormed = true := by decide

theorem decoderOfLens_wellFormed {lens : List Nat} (hn : lens.length ≤ 288) :
    (decoderOfLens lens).wellFormed = true := by
  unfold decoderOfLens
  split
  next h => exact build_compile_wellFormed h hn
  next => exact noCodes_wellFormed

@[simp] theorem length_fixedLlLens : fixedLlLens.length = 288 := by
  simp only [fixedLlLens, List.length_append, List.length_replicate]

@[simp] theorem length_fixedDLens : fixedDLens.length = 32 := List.length_replicate

theorem fixedLlDec_wellFormed : fixedLlDec.wellFormed = true := decoderOfLens_wellFormed (by simp)

theorem fixedDDec_wellFormed : fixedDDec.wellFormed = true := decoderOfLens_wellFormed (by simp)

theorem installed_wellFormed {d : Option Decoder} (h : decoderLegal d = true) : (installed d).wellFormed = true := by
  cases d with
  | none => exact noCodes_wellFormed
  | some d => exact h

theorem and_mask_lt (x n : Nat) : x &&& mask n < 2 ^ n := by
  rw [mask, Nat.and_two_pow_sub_one_eq_mod]; exact Nat.mod_lt _ (Nat.two_pow_pos n)

/-- A slot a table has is the table's. -/
theorem slotAt_mem {table : List Slot} {i : Nat} (h : i < table.length) : slotAt table i ∈ table := by
  rw [slotAt, List.getElem?_eq_getElem h]; exact List.getElem_mem h

/-- A decoder of the legal shape gives symbols of 0..287 and lengths of 1..15. -/
theorem decodeBits_legal {d : Decoder} {bits : BitVec 32} {sym len : Nat} (hd : d.wellFormed = true)
    (h : decodeBits d bits = some (sym, len)) : sym < 288 ∧ 0 < len ∧ len ≤ 15 := by
  simp only [Decoder.wellFormed, Bool.and_eq_true, decide_eq_true_eq] at hd
  obtain ⟨⟨⟨⟨⟨⟨⟨hm, _⟩, hl⟩, hk⟩, _⟩, _⟩, hp⟩, hs⟩ := hd
  have hm : d.maxLen ≤ 15 := hm
  have key : ∀ {seg n : Nat}, Slot.wellFormed d.maxLen seg n (.direct sym len) = true →
      sym < 288 ∧ 0 < len ∧ len ≤ 15 := by
    intro seg n h
    simp only [Slot.wellFormed, Bool.and_eq_true, decide_eq_true_eq] at h
    exact ⟨h.1.1, h.1.2, Nat.le_trans h.2 hm⟩
  have hpri : slotAt d.pri (bits.toNat &&& mask d.primaryBits) ∈ d.pri :=
    slotAt_mem (by rw [eq_of_beq hl]; exact and_mask_lt _ _)
  have hsec : ∀ base, slotAt d.pri (bits.toNat &&& mask d.primaryBits) = .link base →
      slotAt d.sec (base + ((bits.toNat >>> d.primaryBits) &&& d.smask)) ∈ d.sec := by
    intro base hb
    have hw := List.all_eq_true.1 hp _ hpri
    rw [hb] at hw
    simp only [Slot.wellFormed, decide_eq_true_eq] at hw
    have := and_mask_lt (bits.toNat >>> d.primaryBits) (d.maxLen - d.primaryBits)
    rw [eq_of_beq hk]
    exact slotAt_mem (Nat.lt_of_lt_of_le (Nat.add_lt_add_left this base) hw)
  unfold decodeBits lookupSlot at h
  cases hq : slotAt d.pri (bits.toNat &&& mask d.primaryBits) with
  | empty => rw [hq] at h; simp at h
  | direct s l =>
    rw [hq] at h hpri
    simp only [Option.some.injEq, Prod.mk.injEq] at h
    obtain ⟨rfl, rfl⟩ := h
    exact key (List.all_eq_true.1 hp _ hpri)
  | link base =>
    have hm := hsec base hq
    rw [hq] at h
    dsimp only at h
    have hw := List.all_eq_true.1 hs _ hm
    cases hr : slotAt d.sec (base + ((bits.toNat >>> d.primaryBits) &&& d.smask)) with
    | empty => rw [hr] at h; simp at h
    | link b => rw [hr] at hw; simp at hw
    | direct s l =>
      rw [hr] at h hw
      simp only [Option.some.injEq, Prod.mk.injEq] at h
      obtain ⟨rfl, rfl⟩ := h
      simp only [Bool.and_eq_true] at hw
      exact key hw.1

/-! ## decodeSymbol -/

theorem decodeSymbol_eq (d : Decoder) (s : State) :
    decodeSymbol d s =
      if avail s < 4 then .raise (srcFail s) s
      else match decodeBits d (peekWord s) with
        | some (sym, len) => .ok sym (advance len s)
        | none => .raise .huffmanDecoderCodeNotFound s := by
  unfold decodeSymbol
  rw [peekBits_eq]
  split
  · rfl
  · rw [Res.ok_bind, decodeOrRaise]
    split <;> simp [consume_eq, *]

/-- Everything a decodeSymbol can do (42_huffman_decoder.md R91). -/
theorem decodeSymbol_meets (d : Decoder) (s : State) :
    (decodeSymbol d s).Meets
      (fun sym t => 4 ≤ avail s ∧ ∃ len, decodeBits d (peekWord s) = some (sym, len) ∧ t = advance len s)
      (fun e t => t = s ∧ (e = srcFail s ∧ avail s < 4 ∨
        e = .huffmanDecoderCodeNotFound ∧ 4 ≤ avail s ∧ decodeBits d (peekWord s) = none)) False := by
  rw [decodeSymbol_eq]
  split
  next h => exact ⟨rfl, .inl ⟨rfl, h⟩⟩
  next h =>
    split
    next sym len he => exact ⟨by omega, len, he, rfl⟩
    next he => exact ⟨rfl, .inr ⟨rfl, by omega, he⟩⟩

end Sys2Proof.Machine
end

