-- ==== Sys2Proof/Laws/Window.lean ====
section
/-! SUPPORT. The laws of the window: what a slide can do. -/

namespace Sys2Proof.Machine

theorem winRead_eq (addr n : Nat) (s : State) :
    winRead addr n s = if addr + n ≤ 98304 then .ok (Memory.readRange s.win addr n) s else .fault .windowAddress := rfl

theorem winWrite_eq (addr : Nat) (v : List Byte) (s : State) :
    winWrite addr v s = if addr + v.length ≤ 98304 then .ok () { s with win := Memory.writeRange s.win addr v }
      else .fault .windowAddress := rfl

/-- The three ways a slide can go (43_window.md R95; notes/assumptions/18.md). -/
theorem slide_eq (n : Nat) (s : State) :
    slide n s =
      if s.winBound.toNat + n ≤ 32768 then .ok () { s with winBound := BitVec.ofNat 17 (s.winBound.toNat + n) }
      else if s.winBound.toNat + n ≤ 98304 then
        .ok () { s with
          win := Memory.writeRange s.win 0 (Memory.readRange s.win (s.winBound.toNat + n - 32768) 32768)
          winBound := 32768 }
      else .fault .windowAddress := by
  unfold slide
  show (if 32768 < s.winBound.toNat + n then _ else _) = _
  by_cases h : s.winBound.toNat + n ≤ 32768
  · rw [if_neg (by omega), if_pos h]
  · rw [if_pos (by omega), if_neg h]
    show (winRead (s.winBound.toNat + n - 32768) 32768 s).bind _ = _
    rw [winRead_eq]
    by_cases h' : s.winBound.toNat + n ≤ 98304
    · rw [if_pos (by omega), if_pos h', Res.ok_bind, winWrite_eq, if_pos (by simp)]; rfl
    · rw [if_neg (by omega), if_neg h', Res.fault_bind]

/-- What a slide that returns has done. -/
structure Slid (n : Nat) (s t : State) : Prop where
  fields : t = { s with winBound := t.winBound, win := t.win }
  inside : s.winBound.toNat + n ≤ 98304 ∨ s.winBound.toNat + n ≤ 32768
  bound : t.winBound.toNat = min (s.winBound.toNat + n) 32768
  slid : Memory.wf s.win = true → SlidFrom (s.winBound.toNat + n) s.win t.win
  wf : Memory.wf s.win = true → Memory.wf t.win = true
  below : Memory.below 98304 s.win = true → Memory.below 98304 t.win = true

/-- Everything a slide can do. -/
theorem slide_meets (n : Nat) (s : State) :
    (slide n s).Meets (fun _ t => Slid n s t) (fun _ _ => False) (98304 < s.winBound.toNat + n) := by
  rw [slide_eq]
  split
  next h =>
    refine ⟨rfl, .inr h, ?_, ?_, id, id⟩
    · simp only [BitVec.toNat_ofNat]; omega
    · intro _ a; rw [if_neg (fun hc => by have := hc.1; simp only [Config.distLimit] at this; omega)]
  next h =>
    split
    next h' =>
      refine ⟨rfl, .inl h', ?_, ?_, fun hw => Memory.wf_writeRange hw _ _, fun hb =>
        Memory.below_writeRange hb (by simp)⟩
      · show (32768#17).toNat = _
        simp only [BitVec.toNat_ofNat]; omega
      · intro hw a
        simp only [Memory.read_writeRange, Memory.length_readRange, Config.distLimit, Nat.zero_le, Nat.zero_add,
          true_and, Nat.sub_zero]
        by_cases ha : a < 32768
        · rw [if_pos ha, if_pos ⟨by omega, ha⟩, Memory.getD_readRange hw _ _ _ ha]
        · rw [if_neg ha, if_neg (fun hc => ha hc.2)]
    next h' => show 98304 < _; omega

end Sys2Proof.Machine
end

