-- ==== Sys2Proof/Laws/Lz77.lean ====
section
/-! SUPPORT. The laws of the LZ77 decoder: what each symbol and the whole decode loop can do to the state. -/

namespace Sys2Proof.Machine

/-! ## The tables' ranges -/

theorem lengthExtraBits_le (sym : Nat) : lengthExtraBits sym ≤ 5 := by
  unfold lengthExtraBits
  rcases Nat.lt_or_ge (sym - 257) 29 with h | h
  · generalize sym - 257 = i at *; interval_cases i <;> decide
  · rw [List.getD_eq_getElem?_getD, List.getElem?_eq_none (by simpa [lenExtra] using h)]; decide

theorem distExtraBits_le (ds : Nat) : distExtraBits ds ≤ 13 := by
  unfold distExtraBits
  rcases Nat.lt_or_ge ds 30 with h | h
  · interval_cases ds <;> decide
  · rw [List.getD_eq_getElem?_getD, List.getElem?_eq_none (by simpa [distExtra] using h)]; decide

/-- A masked peek lies below `2^n`. -/
theorem toNat_maskedPeek_lt (n : Nat) (s : State) (hn : n ≤ 32) :
    (peekWord s &&& BitVec.ofNat 32 (mask n)).toNat < 2 ^ n := by
  rw [toNat_maskedPeek n s hn, fieldValue_eq n s hn]; exact Nat.mod_lt _ (Nat.two_pow_pos n)

/-- A length is 3 to 258 (30_encoding.md R55, R60). -/
theorem lengthOf_range {sym : Nat} {x : BitVec 32} (h1 : 257 ≤ sym) (h2 : sym ≤ 285)
    (hx : x.toNat < 2 ^ lengthExtraBits sym) : 3 ≤ lengthOf sym x ∧ lengthOf sym x ≤ 258 := by
  unfold lengthOf lengthExtraBits at *
  have h : sym - 257 ≤ 28 := by omega
  generalize sym - 257 = i at *
  interval_cases i <;> simp [lenBase, lenExtra] at * <;> omega

/-- A distance is 1 to 32768 (30_encoding.md R56, R60). -/
theorem distanceOf_range {ds : Nat} {x : BitVec 32} (h : ds ≤ 29) (hx : x.toNat < 2 ^ distExtraBits ds) :
    1 ≤ distanceOf ds x ∧ distanceOf ds x ≤ 32768 := by
  unfold distanceOf distExtraBits at *
  interval_cases ds <;> simp [distBase, distExtra] at * <;> omega

/-! ## What decoding can do to the state -/

/-- The cursor has moved on, and bytes have been written from the write cursor to where it is now. -/
structure SymbolsWrite (s t : State) : Prop where
  fields : t = { s with brPos := t.brPos, brOff := t.brOff, win := t.win, lzCur := t.lzCur }
  forward : bitAddr s ≤ bitAddr t
  grows : s.lzCur.toNat ≤ t.lzCur.toNat
  outside : SameOutside s.lzCur.toNat t.lzCur.toNat s.win t.win
  wf : Memory.wf s.win = true → Memory.wf t.win = true
  below : ∀ bound, t.lzCur.toNat ≤ bound → Memory.below bound s.win = true → Memory.below bound t.win = true

theorem SymbolsWrite.refl (s : State) : SymbolsWrite s s :=
  ⟨rfl, Nat.le_refl _, Nat.le_refl _, fun _ _ => rfl, id, fun _ _ => id⟩

theorem SymbolsWrite.trans {s t u : State} (h : SymbolsWrite s t) (h' : SymbolsWrite t u) : SymbolsWrite s u where
  fields := by rw [h'.fields, h.fields]
  forward := Nat.le_trans h.forward h'.forward
  grows := Nat.le_trans h.grows h'.grows
  outside := fun a ha => by
    have := h.grows; have := h'.grows
    rw [h'.outside a (by omega), h.outside a (by omega)]
  wf := fun w => h'.wf (h.wf w)
  below := fun b hb w => h'.below b hb (h.below b (Nat.le_trans h'.grows hb) w)

theorem ReadsOn.symbolsWrite {s t : State} (h : ReadsOn s t) : SymbolsWrite s t := by
  have e := h.fields
  have hw : t.win = s.win := by rw [e]
  have hc : t.lzCur = s.lzCur := by rw [e]
  refine ⟨?_, h.forward, by rw [hc], fun a _ => by rw [hw], fun w => by rw [hw]; exact w,
    fun b _ w => by rw [hw]; exact w⟩
  rw [hw, hc]; exact h.fields

/-! ## The symbols -/

theorem literal_eq (b : Byte) (s : State) :
    literal b s = if s.lzCur.toNat + 1 ≤ 98304 then
        .ok () { s with win := Memory.write s.win s.lzCur.toNat b, lzCur := BitVec.ofNat 17 (s.lzCur.toNat + 1) }
      else .fault .windowAddress := by
  unfold literal
  rw [winWrite_eq]
  show (if s.lzCur.toNat + 1 ≤ 98304 then _ else _ : Res Unit).bind _ = _
  split <;> rfl

theorem literal_meets (b : Byte) (s : State) :
    (literal b s).Meets
      (fun _ t => SymbolsWrite s t ∧ bitAddr t = bitAddr s ∧ t.lzCur.toNat = s.lzCur.toNat + 1 ∧
        Memory.read t.win s.lzCur.toNat = b)
      (fun _ _ => False) (98304 ≤ s.lzCur.toNat) := by
  rw [literal_eq]
  split
  next h =>
    have hc : (BitVec.ofNat 17 (s.lzCur.toNat + 1)).toNat = s.lzCur.toNat + 1 := by
      simp only [BitVec.toNat_ofNat]; omega
    refine ⟨⟨rfl, Nat.le_refl _, ?_, ?_, fun w => Memory.wf_write w _ _, ?_⟩, rfl, hc, ?_⟩
    · show _ ≤ (BitVec.ofNat 17 _).toNat; omega
    · intro a ha
      have ha : a < s.lzCur.toNat ∨ (BitVec.ofNat 17 (s.lzCur.toNat + 1)).toNat ≤ a := ha
      exact (Memory.read_write _ _ _ _).trans (if_neg (by omega))
    · intro bound hb w
      have hb : (BitVec.ofNat 17 (s.lzCur.toNat + 1)).toNat ≤ bound := hb
      exact Memory.below_write w _ (by omega)
    · exact (Memory.read_write _ _ _ _).trans (if_pos rfl)
  next h => show 98304 ≤ _; omega

theorem copyBack_meets (dist length : Nat) (s : State) :
    (copyBack dist length s).Meets
      (fun _ t => SymbolsWrite s t ∧ bitAddr t = bitAddr s ∧ t.lzCur.toNat = s.lzCur.toNat + length ∧
        t.win = copyBytes dist length s.lzCur.toNat s.win)
      (fun _ _ => False) (98304 < s.lzCur.toNat + length) := by
  unfold copyBack
  show (if s.lzCur.toNat + length ≤ 98304 then _ else _ : Res Unit).Meets _ _ _
  split
  next h =>
    have hc : (BitVec.ofNat 17 (s.lzCur.toNat + length)).toNat = s.lzCur.toNat + length := by
      simp only [BitVec.toNat_ofNat]; omega
    refine ⟨⟨rfl, Nat.le_refl _, ?_, ?_, fun w => Memory.wf_copyBytes w _ _ _, ?_⟩, rfl, hc, rfl⟩
    · show _ ≤ (BitVec.ofNat 17 _).toNat; omega
    · intro a ha
      have ha : a < s.lzCur.toNat ∨ (BitVec.ofNat 17 (s.lzCur.toNat + length)).toNat ≤ a := ha
      exact Memory.read_copyBytes_outside _ _ _ _ _ (by omega)
    · intro bound hb w
      have hb : (BitVec.ofNat 17 (s.lzCur.toNat + length)).toNat ≤ bound := hb
      exact Memory.below_copyBytes w _ _ _ (by omega)
  next h => show 98304 < _; omega

/-- Everything that can follow a distance symbol (44_lz77.md R106, R107). -/
theorem distanceFrom_meets (ds : Nat) (s : State) :
    (distanceFrom ds s).Meets
      (fun dist t => ds ≤ 29 ∧ 4 ≤ avail s ∧ t = advance (distExtraBits ds) s ∧
        dist = distBase.getD ds 0 + fieldValue (distExtraBits ds) s ∧ 1 ≤ dist ∧ dist ≤ 32768)
      (fun e t => t = s ∧ (e = .invalidDistanceSymbol ∧ 29 < ds ∨ e = srcFail s ∧ ds ≤ 29 ∧ avail s < 4)) False := by
  unfold distanceFrom
  split
  next h => exact ⟨rfl, .inl ⟨rfl, h⟩⟩
  next h =>
    rw [readBits_eq]
    split
    next h' => exact ⟨rfl, .inr ⟨rfl, by omega, h'⟩⟩
    next h' =>
      have hn : distExtraBits ds ≤ 32 := Nat.le_trans (distExtraBits_le ds) (by decide)
      refine ⟨by omega, by omega, rfl, ?_, ?_⟩
      · show distanceOf _ _ = _
        unfold distanceOf; rw [toNat_maskedPeek _ _ hn]
      · exact distanceOf_range (by omega) (toNat_maskedPeek_lt _ _ hn)

/-- The errors a decoding unit can raise, apart from `DistanceTooMuch`. -/
def streamError (e : Err) : Prop :=
  e = .ioError ∨ e = .unexpectedEndOfInput ∨ e = .huffmanDecoderCodeNotFound ∨ e = .invalidDistanceSymbol ∨
    e = .invalidLengthSymbol ∨ e = .distanceTooMuch

theorem streamError_srcFail (s : State) : streamError (srcFail s) := by
  unfold srcFail streamError; cases s.inEnd <;> simp

theorem readDistance_meets (s : State) :
    (readDistance s).Meets (fun dist t => ReadsOn s t ∧ 1 ≤ dist ∧ dist ≤ 32768)
      (fun e t => ReadsOn s t ∧ streamError e) False := by
  refine (decodeSymbol_meets _ s).mono (Q' := fun _ t => ReadsOn s t) (R' := fun e t => ReadsOn s t ∧ streamError e)
    ?_ ?_ id |>.bind ?_
  · rintro sym t ⟨_, len, _, rfl⟩; exact readsOn_advance _ _
  · rintro e t ⟨rfl, he⟩
    refine ⟨ReadsOn.refl _, ?_⟩
    rcases he with ⟨rfl, _⟩ | ⟨rfl, _⟩
    · exact streamError_srcFail _
    · simp [streamError]
  · intro ds u hu
    refine (distanceFrom_meets ds u).mono ?_ ?_ id
    · rintro dist t ⟨_, _, rfl, _, h⟩; exact ⟨hu.trans (readsOn_advance _ _), h⟩
    · rintro e t ⟨rfl, he⟩
      refine ⟨hu, ?_⟩
      rcases he with ⟨rfl, _⟩ | ⟨rfl, _⟩
      · simp [streamError]
      · exact streamError_srcFail _

/-- Everything a back-reference can do (44_lz77.md R103). -/
theorem backReference_meets {sym : Nat} (h1 : 257 ≤ sym) (h2 : sym ≤ 285) (s : State) :
    (backReference sym s).Meets
      (fun _ t => SymbolsWrite s t ∧ s.lzCur.toNat + 3 ≤ t.lzCur.toNat ∧ t.lzCur.toNat ≤ s.lzCur.toNat + 258)
      (fun e t => SymbolsWrite s t ∧ streamError e ∧ t.lzCur = s.lzCur ∧ t.win = s.win)
      (98304 < s.lzCur.toNat + 258) := by
  have hn : lengthExtraBits sym ≤ 32 := Nat.le_trans (lengthExtraBits_le sym) (by decide)
  unfold backReference
  rw [readBits_eq]
  split
  next h => exact ⟨SymbolsWrite.refl _, streamError_srcFail _, rfl, rfl⟩
  next h =>
    rw [Res.ok_bind]
    have hlen := lengthOf_range h1 h2 (toNat_maskedPeek_lt (lengthExtraBits sym) s hn)
    generalize peekWord s &&& BitVec.ofNat 32 (mask (lengthExtraBits sym)) = x at *
    have ha := readsOn_advance (lengthExtraBits sym) s
    refine ((readDistance_meets _).mono (Q' := fun _ t => ReadsOn s t)
      (R' := fun e t => SymbolsWrite s t ∧ streamError e ∧ t.lzCur = s.lzCur ∧ t.win = s.win) ?_ ?_ False.elim).bind ?_
    · rintro dist t ⟨ht, _⟩; exact ha.trans ht
    · rintro e t ⟨ht, he⟩
      have ht := ha.trans ht
      exact ⟨ht.symbolsWrite, he, by rw [ht.fields], by rw [ht.fields]⟩
    · intro dist u hu
      have hc : u.lzCur = s.lzCur := by rw [hu.fields]
      show (if u.lzCur.toNat < dist then _ else _ : Res Unit).Meets _ _ _
      split
      · exact ⟨hu.symbolsWrite, by simp [streamError], hc, by rw [hu.fields]⟩
      · refine (copyBack_meets dist (lengthOf sym x) u).mono ?_ (fun _ _ => False.elim) (by rw [hc]; omega)
        rintro _ t ⟨hw, _, hl, _⟩
        rw [hc] at hl
        exact ⟨hu.symbolsWrite.trans hw, by omega, by omega⟩

/-! ## The decode loop -/

/-- The call starts as the claims say it does. -/
theorem startLz77_eq_callStart (s : State) : startLz77 s = callStart s := rfl

theorem windowNearlyFull_iff (s : State) : windowNearlyFull s = true ↔ 98304 < s.lzCur.toNat + 258 := by
  simp only [windowNearlyFull, decide_eq_true_eq]

/-- Everything a decode loop can do: it writes from the write cursor on, never past the window's end. -/
theorem lz77Loop_meets (bound : Nat) (s : State) (hs : s.lzCur.toNat ≤ 98304) :
    (lz77Loop bound s).Meets
      (fun r t => SymbolsWrite s t ∧ r.2 = t.lzCur.toNat - s.lzStart.toNat ∧ t.lzCur.toNat ≤ 98304)
      (fun e t => SymbolsWrite s t ∧ streamError e ∧ t.lzCur.toNat ≤ 98304) False := by
  induction bound generalizing s with
  | zero => exact ⟨SymbolsWrite.refl _, rfl, hs⟩
  | succ bound ih =>
    rw [lz77Loop]
    split
    · exact ⟨SymbolsWrite.refl _, rfl, hs⟩
    next hfull =>
      have hcur : s.lzCur.toNat + 258 ≤ 98304 := by rw [windowNearlyFull_iff] at hfull; omega
      -- a symbol that goes on leaves a state from which the loop's own claim is the claim from here
      have next : ∀ (u t : State), ReadsOn s u → SymbolsWrite u t → t.lzCur.toNat ≤ u.lzCur.toNat + 258 →
          (lz77Loop bound t).Meets
            (fun r t => SymbolsWrite s t ∧ r.2 = t.lzCur.toNat - s.lzStart.toNat ∧ t.lzCur.toNat ≤ 98304)
            (fun e t => SymbolsWrite s t ∧ streamError e ∧ t.lzCur.toNat ≤ 98304) False := by
        intro u t hu ht hle
        have hc : u.lzCur = s.lzCur := by rw [hu.fields]
        have hst : t.lzStart = s.lzStart := by rw [ht.fields, hu.fields]
        have hw := hu.symbolsWrite.trans ht
        rw [hc] at hle
        refine (ih t (by omega)).mono ?_ ?_ id
        · rintro r v ⟨h1, h2, h3⟩; exact ⟨hw.trans h1, by rw [h2, hst], h3⟩
        · rintro e v ⟨h1, h2, h3⟩; exact ⟨hw.trans h1, h2, h3⟩
      refine (decodeSymbol_meets _ s).mono (Q' := fun _ t => ReadsOn s t)
        (R' := fun e t => SymbolsWrite s t ∧ streamError e ∧ t.lzCur.toNat ≤ 98304) ?_ ?_ id |>.bind ?_
      · rintro sym t ⟨_, len, _, rfl⟩; exact readsOn_advance _ _
      · rintro e t ⟨rfl, he⟩
        refine ⟨SymbolsWrite.refl _, ?_, hs⟩
        rcases he with ⟨rfl, _⟩ | ⟨rfl, _⟩
        · exact streamError_srcFail _
        · simp [streamError]
      · intro sym u hu
        have hc : u.lzCur = s.lzCur := by rw [hu.fields]
        have hst : u.lzStart = s.lzStart := by rw [hu.fields]
        split
        · refine ((literal_meets _ u).mono (fun _ _ h => h) (R' := fun e t => SymbolsWrite s t ∧ streamError e ∧
            t.lzCur.toNat ≤ 98304) (fun _ _ => False.elim) (F' := False) (by rw [hc]; omega)).bind ?_
          rintro _ t ⟨hw, _, hl, _⟩
          exact next u t hu hw (by omega)
        · split
          · exact ⟨hu.symbolsWrite, by simp only [lzCount, hc, hst], by rw [hc]; exact hs⟩
          · split
            · refine ((backReference_meets (sym := sym) (by omega) (by omega) u).mono (fun _ _ h => h)
                (R' := fun e t => SymbolsWrite s t ∧ streamError e ∧ t.lzCur.toNat ≤ 98304) ?_ (F' := False)
                (by rw [hc]; omega)).bind ?_
              · rintro e t ⟨hw, he, hl, _⟩
                exact ⟨hu.symbolsWrite.trans hw, he, by rw [hl, hc]; exact hs⟩
              · rintro _ t ⟨hw, _, hl⟩
                exact next u t hu hw hl
            · exact ⟨hu.symbolsWrite, by simp [streamError], by rw [hc]; exact hs⟩

/-- What a decode call can do to the state: the two cursors start at the boundary, and bytes are written from there
on, never past the window's end. -/
structure CallWrites (s t : State) : Prop where
  start : t.lzStart = s.winBound
  grows : s.winBound.toNat ≤ t.lzCur.toNat
  inside : t.lzCur.toNat ≤ 98304
  forward : bitAddr s ≤ bitAddr t
  outside : SameOutside s.winBound.toNat t.lzCur.toNat s.win t.win
  wf : Memory.wf s.win = true → Memory.wf t.win = true
  below : Memory.below 98304 s.win = true → Memory.below 98304 t.win = true
  fields : t = { s with brPos := t.brPos, brOff := t.brOff, win := t.win, lzCur := t.lzCur, lzStart := t.lzStart,
                        lzResult := t.lzResult }

/-- Everything a decode call can do (44_lz77.md R99). -/
theorem lz77Decode_meets (s : State) (hs : s.winBound.toNat ≤ 98304) :
    (lz77Decode s).Meets
      (fun r t => CallWrites s t ∧ r.2 = t.lzCur.toNat - s.winBound.toNat ∧ t.lzResult = some r.1)
      (fun e t => CallWrites s t ∧ streamError e ∧ t.lzResult = s.lzResult) False := by
  have key : ∀ t, SymbolsWrite (startLz77 s) t → t.lzCur.toNat ≤ 98304 → ∀ r, CallWrites s { t with lzResult := r } := by
    intro t ht hle r
    have e := ht.fields
    refine ⟨show t.lzStart = _ by rw [e]; rfl, ht.grows, hle, ht.forward, ht.outside, ht.wf, ht.below _ hle, ?_⟩
    show ({ t with lzResult := r } : State) =
      { s with
        brPos := t.brPos, brOff := t.brOff, win := t.win, lzCur := t.lzCur, lzStart := t.lzStart, lzResult := r }
    rw [e]; rfl
  unfold lz77Decode
  refine ((lz77Loop_meets _ _ hs).mono (fun _ _ h => h)
    (R' := fun e t => CallWrites s t ∧ streamError e ∧ t.lzResult = s.lzResult) ?_ id).bind ?_
  · rintro e t ⟨h1, h2, h3⟩; exact ⟨key t h1 h3 _, h2, by rw [h1.fields]; rfl⟩
  · rintro r t ⟨h1, h2, h3⟩; exact ⟨key t h1 h3 _, h2, rfl⟩

/-! ## The cursor stays inside the input (40_bitreader.md R79) -/

theorem readBits_cursor {n : Nat} {s : State} (hn : n ≤ 24) (hs : cursorInside s) :
    (readBits n s).Meets (fun _ t => cursorInside t) (fun _ t => cursorInside t) False := by
  refine (readBits_meets n s).mono ?_ ?_ id
  · rintro _ t ⟨rfl, ha⟩; exact cursorInside_advance ha hn
  · rintro _ t ⟨_, rfl⟩; exact hs

theorem decodeSymbol_cursor {d : Decoder} {s : State} (hd : d.wellFormed = true) (hs : cursorInside s) :
    (decodeSymbol d s).Meets (fun _ t => cursorInside t) (fun _ t => cursorInside t) False := by
  refine (decodeSymbol_meets d s).mono ?_ ?_ id
  · rintro _ t ⟨ha, len, he, rfl⟩
    have := decodeBits_legal hd he
    exact cursorInside_advance ha (by omega)
  · rintro _ t ⟨rfl, _⟩; exact hs

theorem SymbolsWrite.llDec_eq {s t : State} (h : SymbolsWrite s t) : t.llDec = s.llDec := by rw [h.fields]

theorem SymbolsWrite.dDec_eq {s t : State} (h : SymbolsWrite s t) : t.dDec = s.dDec := by rw [h.fields]

theorem SymbolsWrite.inp_eq {s t : State} (h : SymbolsWrite s t) : t.inp = s.inp := by rw [h.fields]

/-- A copy does not move the cursor. -/
theorem copyBack_cursor {dist length : Nat} {s : State} (hs : cursorInside s) :
    (copyBack dist length s).Meets (fun _ t => cursorInside t) (fun _ t => cursorInside t) True := by
  unfold copyBack; dsimp only; split
  · exact hs
  · trivial

theorem backReference_cursor {sym : Nat} {s : State} (hd : decoderLegal s.dDec = true) (hs : cursorInside s) :
    (backReference sym s).Meets (fun _ t => cursorInside t) (fun _ t => cursorInside t) True := by
  unfold backReference
  refine ((readBits_meets _ s).and (readBits_cursor (n := lengthExtraBits sym)
    (Nat.le_trans (lengthExtraBits_le sym) (by decide)) hs)).mono (fun _ _ h => h) (fun _ _ h => h.2) (fun h => h.1.elim)
    |>.bind ?_
  rintro x u ⟨⟨rfl, _⟩, hu⟩
  refine (Res.Meets.bind (Q := fun _ t => cursorInside t) (R := fun _ t => cursorInside t) (F := False)
    (decodeSymbol_cursor (installed_wellFormed hd) hu) ?_).mono (fun _ _ h => h) (fun _ _ h => h) False.elim |>.bind ?_
  · intro ds v hv
    unfold distanceFrom
    split
    · exact hv
    · refine (readBits_cursor (n := distExtraBits ds) (Nat.le_trans (distExtraBits_le ds) (by decide)) hv).bind ?_
      intro _ w hw; exact hw
  · intro dist v hv
    show (if v.lzCur.toNat < dist then _ else _ : Res Unit).Meets _ _ _
    split
    · exact hv
    · exact copyBack_cursor hv

theorem lz77Loop_cursor (bound : Nat) (s : State) (hl : decoderLegal s.llDec = true) (hd : decoderLegal s.dDec = true)
    (hs : cursorInside s) :
    (lz77Loop bound s).Meets (fun _ t => cursorInside t) (fun _ t => cursorInside t) True := by
  induction bound generalizing s with
  | zero => exact hs
  | succ bound ih =>
    rw [lz77Loop]
    split
    · exact hs
    next hfull =>
      refine ((decodeSymbol_meets _ s).and (decodeSymbol_cursor (installed_wellFormed hl) hs)).mono
        (fun _ _ h => h) (fun _ _ h => h.2) (fun h => h.1.elim) |>.bind ?_
      rintro sym u ⟨⟨_, len, _, rfl⟩, hu⟩
      split
      · refine Res.Meets.bind (P := fun _ t => SymbolsWrite (advance len s) t ∧ cursorInside t) ?_ ?_
        · refine (literal_meets (BitVec.ofNat 8 sym) (advance len s)).mono ?_ (fun _ _ => False.elim) fun _ => trivial
          rintro _ t ⟨hw, hb, _⟩
          have hc := cursor_eq hb
          refine ⟨hw, ?_⟩
          unfold cursorInside; rw [hc.1, hc.2, hw.inp_eq]; exact hu
        · rintro _ t ⟨hw, ht⟩
          exact ih t (by rw [hw.llDec_eq]; exact hl) (by rw [hw.dDec_eq]; exact hd) ht
      · split
        · exact hu
        · split
          · refine ((backReference_meets (sym := sym) (by omega) (by omega) (advance len s)).and
              (backReference_cursor (sym := sym) (s := advance len s) hd hu)).mono (fun _ _ h => h) (fun _ _ h => h.2)
              (fun _ => trivial) |>.bind ?_
            rintro _ t ⟨⟨hw, _⟩, ht⟩
            exact ih t (by rw [hw.llDec_eq]; exact hl) (by rw [hw.dDec_eq]; exact hd) ht
          · exact hu

theorem lz77Decode_cursor {s : State} (hl : decoderLegal s.llDec = true) (hd : decoderLegal s.dDec = true)
    (hs : cursorInside s) :
    (lz77Decode s).Meets (fun _ t => cursorInside t) (fun _ t => cursorInside t) True :=
  (lz77Loop_cursor _ (startLz77 s) hl hd hs).bind fun _ _ h => h

end Sys2Proof.Machine
end

