-- ==== Sys2Proof/Laws/Dynamic.lean ====
section
/-! SUPPORT. The laws of dynamic codebook parsing: what it can do to the state, and that its decoders have the shape
of 10_state.md R24. -/

namespace Sys2Proof.Machine

/-- The cursor has moved on, and only the parser's own registers have been written. -/
structure ParseWrites (s t : State) : Prop where
  fields : t = { s with brPos := t.brPos, brOff := t.brOff, dyHlit := t.dyHlit, dyHdist := t.dyHdist,
                        dyHclen := t.dyHclen, dyCl := t.dyCl, dyLens := t.dyLens, clDec := t.clDec }
  forward : bitAddr s ≤ bitAddr t
  cursor : cursorInside s → cursorInside t

theorem ParseWrites.refl (s : State) : ParseWrites s s := ⟨rfl, Nat.le_refl _, id⟩

theorem ParseWrites.trans {s t u : State} (h : ParseWrites s t) (h' : ParseWrites t u) : ParseWrites s u :=
  ⟨by rw [h'.fields, h.fields], Nat.le_trans h.forward h'.forward, fun c => h'.cursor (h.cursor c)⟩

/-- The errors parsing can raise. -/
def parseError (e : Err) : Prop :=
  e = .ioError ∨ e = .unexpectedEndOfInput ∨ e = .huffmanDecoderCodeNotFound ∨ e = .invalidCodeLengths ∨
    e = .readDynamicCodebook

theorem parseError_srcFail (s : State) : parseError (srcFail s) := by
  unfold srcFail parseError; cases s.inEnd <;> simp

/-- A field read by the parser. -/
theorem readBits_parse {n : Nat} (hn : n ≤ 24) (s : State) :
    (readBits n s).Meets (fun x t => ParseWrites s t ∧ t = advance n s ∧ x.toNat < 2 ^ n)
      (fun e t => ParseWrites s t ∧ parseError e) False := by
  rw [readBits_eq]
  split
  · exact ⟨ParseWrites.refl _, parseError_srcFail _⟩
  next h =>
    exact ⟨⟨rfl, by simp, fun _ => cursorInside_advance (by omega) hn⟩, rfl, toNat_maskedPeek_lt n s (by omega)⟩

theorem readCounts_meets (s : State) :
    (readCounts s).Meets (fun _ t => ParseWrites s t ∧ t.dyHlit.toNat ≤ 288 ∧ t.dyHdist.toNat ≤ 32 ∧ t.dyHclen.toNat ≤ 19)
      (fun e t => ParseWrites s t ∧ parseError e) False := by
  unfold readCounts
  refine (readBits_parse (by decide) s).bind ?_
  rintro hlit u ⟨hu, -, h1⟩
  have hu' : ParseWrites s { u with dyHlit := BitVec.ofNat 9 (hlit.toNat + 257) } :=
    hu.trans ⟨rfl, Nat.le_refl _, id⟩
  refine ((readBits_parse (by decide) _).mono (fun _ _ h => h) (R' := fun e t => ParseWrites s t ∧ parseError e) ?_ id).bind ?_
  · rintro e t ⟨ht, he⟩; exact ⟨hu'.trans ht, he⟩
  rintro hdist v ⟨hv, rfl, h2⟩
  have hv' : ParseWrites s
      { advance 5 { u with dyHlit := BitVec.ofNat 9 (hlit.toNat + 257) } with
        dyHdist := BitVec.ofNat 6 (hdist.toNat + 1) } :=
    (hu'.trans hv).trans ⟨rfl, Nat.le_refl _, id⟩
  refine ((readBits_parse (by decide) _).mono (fun _ _ h => h) (R' := fun e t => ParseWrites s t ∧ parseError e) ?_ id).bind ?_
  · rintro e t ⟨ht, he⟩; exact ⟨hv'.trans ht, he⟩
  rintro hclen w ⟨hw, rfl, h3⟩
  refine ⟨(hv'.trans hw).trans ⟨rfl, Nat.le_refl _, id⟩, ?_, ?_, ?_⟩
  · show (BitVec.ofNat 9 (hlit.toNat + 257)).toNat ≤ _; rw [BitVec.toNat_ofNat]; omega
  · show (BitVec.ofNat 6 (hdist.toNat + 1)).toNat ≤ _; rw [BitVec.toNat_ofNat]; omega
  · show (BitVec.ofNat 5 (hclen.toNat + 4)).toNat ≤ _; rw [BitVec.toNat_ofNat]; omega

theorem readClLens_meets (syms : List Nat) (s : State) :
    (readClLens syms s).Meets
      (fun _ t => ParseWrites s t ∧ t.dyCl.length = s.dyCl.length ∧ t.dyHlit = s.dyHlit ∧ t.dyHdist = s.dyHdist)
      (fun e t => ParseWrites s t ∧ parseError e) False := by
  induction syms generalizing s with
  | nil => exact ⟨ParseWrites.refl _, rfl, rfl, rfl⟩
  | cons sym syms ih =>
    rw [readClLens]
    refine (readBits_parse (by decide) s).bind ?_
    rintro x u ⟨hu, rfl, _⟩
    have hs : ParseWrites s { advance 3 s with dyCl := s.dyCl.set sym (x.setWidth 3) } :=
      hu.trans ⟨rfl, Nat.le_refl _, id⟩
    refine (ih { advance 3 s with dyCl := s.dyCl.set sym (x.setWidth 3) }).mono ?_ ?_ id
    · rintro _ t ⟨ht, hl, h1, h2⟩
      exact ⟨hs.trans ht, by rw [hl]; exact List.length_set, h1, h2⟩
    · rintro e t ⟨ht, he⟩; exact ⟨hs.trans ht, he⟩

theorem readCodeLengthCode_meets (s : State) :
    (readCodeLengthCode s).Meets
      (fun _ t => ParseWrites s t ∧ t.clDec.wellFormed = true ∧ t.dyHlit = s.dyHlit ∧ t.dyHdist = s.dyHdist)
      (fun e t => ParseWrites s t ∧ parseError e) False := by
  unfold readCodeLengthCode
  have h0 : ParseWrites s { s with dyCl := List.replicate Config.clAlphabet 0 } := ⟨rfl, Nat.le_refl _, id⟩
  refine (readClLens_meets _ { s with dyCl := List.replicate Config.clAlphabet 0 }).mono (fun _ _ h => h)
    (R' := fun e t => ParseWrites s t ∧ parseError e) ?_ id |>.bind ?_
  · rintro e t ⟨ht, he⟩; exact ⟨h0.trans ht, he⟩
  rintro _ u ⟨hu, hl, h1, h2⟩
  have hl : u.dyCl.length = 19 := hl.trans List.length_replicate
  refine (buildOrRaise_meets (u.dyCl.map BitVec.toNat) u).mono (fun _ _ h => h)
    (R' := fun e t => ParseWrites s t ∧ parseError e) ?_ id |>.bind ?_
  · rintro e t ⟨rfl, rfl, _⟩; exact ⟨h0.trans hu, by simp [parseError]⟩
  rintro b t ⟨hb, rfl⟩
  exact ⟨(h0.trans hu).trans ⟨rfl, Nat.le_refl _, id⟩, build_compile_wellFormed hb (by simp [hl]), h1, h2⟩

/-- One code-length symbol: it appends at least one length (46_dynamic_codebook.md R129). -/
theorem clSymbol_meets (sym : Nat) (s : State) :
    (clSymbol sym s).Meets
      (fun _ t => ParseWrites s t ∧ s.dyLens.length < t.dyLens.length ∧ t.clDec = s.clDec ∧ t.dyHlit = s.dyHlit ∧
        t.dyHdist = s.dyHdist)
      (fun e t => ParseWrites s t ∧ parseError e) False := by
  have step : ∀ (n : Nat), n ≤ 24 → ∀ (f : BitVec 32 → List (BitVec 4)), (∀ x, 0 < (f x).length) →
      ((readBits n s).bind fun x s => Res.ok () (appendLens (f x) s)).Meets
        (fun _ t => ParseWrites s t ∧ s.dyLens.length < t.dyLens.length ∧ t.clDec = s.clDec ∧ t.dyHlit = s.dyHlit ∧
          t.dyHdist = s.dyHdist)
        (fun e t => ParseWrites s t ∧ parseError e) False := by
    intro n hn f hf
    refine (readBits_parse hn s).bind ?_
    rintro x t ⟨ht, rfl, _⟩
    refine ⟨ht.trans ⟨rfl, Nat.le_refl _, id⟩, ?_, rfl, rfl, rfl⟩
    have := hf x
    simp [appendLens]
    omega
  unfold clSymbol
  split
  · exact ⟨⟨rfl, Nat.le_refl _, id⟩, by simp [appendLens], rfl, rfl, rfl⟩
  · split
    · unfold clRepeat
      split
      · exact ⟨ParseWrites.refl _, by simp [parseError]⟩
      · exact step 2 (by decide) _ fun x => by simp [repeatCount16]
    · split
      · exact step 3 (by decide) _ fun x => by simp [zeroCount17]
      · exact step 7 (by decide) _ fun x => by simp [zeroCount18]

theorem decodeSymbol_parse {d : Decoder} (hd : d.wellFormed = true) (s : State) :
    (decodeSymbol d s).Meets (fun _ t => ParseWrites s t ∧ ∃ n, t = advance n s)
      (fun e t => ParseWrites s t ∧ parseError e) False := by
  refine (decodeSymbol_meets d s).mono ?_ ?_ id
  · rintro sym t ⟨ha, len, he, rfl⟩
    have := decodeBits_legal hd he
    exact ⟨⟨rfl, by simp, fun _ => cursorInside_advance ha (by omega)⟩, _, rfl⟩
  · rintro e t ⟨rfl, he⟩
    refine ⟨ParseWrites.refl _, ?_⟩
    rcases he with ⟨rfl, _⟩ | ⟨rfl, _⟩
    · exact parseError_srcFail _
    · simp [parseError]

theorem lensLoop_meets (bound : Nat) (s : State) (hd : s.clDec.wellFormed = true) :
    (lensLoop bound s).Meets (fun _ t => ParseWrites s t ∧ t.dyHlit = s.dyHlit ∧ t.dyHdist = s.dyHdist)
      (fun e t => ParseWrites s t ∧ parseError e) False := by
  induction bound generalizing s with
  | zero => exact ⟨ParseWrites.refl _, rfl, rfl⟩
  | succ bound ih =>
    rw [lensLoop]
    split
    · refine (decodeSymbol_parse hd s).bind ?_
      rintro sym u ⟨hu, n, rfl⟩
      refine (clSymbol_meets sym _).mono (fun _ _ h => h) (R' := fun e t => ParseWrites s t ∧ parseError e) ?_ id |>.bind ?_
      · rintro e t ⟨ht, he⟩; exact ⟨hu.trans ht, he⟩
      rintro _ t ⟨ht, _, hc, h1, h2⟩
      refine (ih t (by rw [hc]; exact hd)).mono ?_ ?_ id
      · rintro _ v ⟨hv, g1, g2⟩; exact ⟨(hu.trans ht).trans hv, g1.trans h1, g2.trans h2⟩
      · rintro e v ⟨hv, he⟩; exact ⟨(hu.trans ht).trans hv, he⟩
    · exact ⟨ParseWrites.refl _, rfl, rfl⟩

/-- Everything parsing a dynamic header can do (46_dynamic_codebook.md R126): it writes its own registers alone, and
the decoders it returns have the shape of 10_state.md R24. -/
theorem parseDynamic_meets (s : State) :
    (parseDynamic s).Meets (fun r t => ParseWrites s t ∧ r.1.wellFormed = true ∧ r.2.wellFormed = true)
      (fun e t => ParseWrites s t ∧ parseError e) False := by
  unfold parseDynamic
  refine (readCounts_meets s).bind ?_
  rintro _ u ⟨hu, h1, h2, _⟩
  refine (readCodeLengthCode_meets u).mono (fun _ _ h => h) (R' := fun e t => ParseWrites s t ∧ parseError e) ?_ id |>.bind ?_
  · rintro e t ⟨ht, he⟩; exact ⟨hu.trans ht, he⟩
  rintro _ v ⟨hv, hd, g1, g2⟩
  have hsv := hu.trans hv
  have h0 : ParseWrites s { v with dyLens := [] } := hsv.trans ⟨rfl, Nat.le_refl _, id⟩
  unfold readLengths
  refine Res.Meets.bind (P := fun _ t => ParseWrites s t ∧ t.dyHlit.toNat ≤ 288 ∧ t.dyHdist.toNat ≤ 32) ?_ ?_
  · refine (lensLoop_meets _ { v with dyLens := [] } hd).mono (fun _ _ h => h)
      (R' := fun e t => ParseWrites s t ∧ parseError e) ?_ id |>.bind ?_
    · rintro e t ⟨ht, he⟩; exact ⟨h0.trans ht, he⟩
    rintro _ t ⟨ht, e1, e2⟩
    have e1 : t.dyHlit = v.dyHlit := e1
    have e2 : t.dyHdist = v.dyHdist := e2
    unfold checkCount
    split
    · exact ⟨h0.trans ht, by simp [parseError]⟩
    · exact ⟨h0.trans ht, by rw [e1, g1]; exact h1, by rw [e2, g2]; exact h2⟩
  rintro _ t ⟨ht, l1, l2⟩
  unfold splitAndBuild
  refine (buildOrRaise_meets _ t).mono (fun _ _ h => h) (R' := fun e t => ParseWrites s t ∧ parseError e) ?_ id |>.bind ?_
  · rintro e t' ⟨rfl, rfl, _⟩; exact ⟨ht, by simp [parseError]⟩
  rintro ll t' ⟨hll, rfl⟩
  refine (buildOrRaise_meets _ t').mono (fun _ _ h => h) (R' := fun e t => ParseWrites s t ∧ parseError e) ?_ id |>.bind ?_
  · rintro e t'' ⟨rfl, rfl, _⟩; exact ⟨ht, by simp [parseError]⟩
  rintro d t'' ⟨hd', rfl⟩
  refine ⟨ht, build_compile_wellFormed hll ?_, build_compile_wellFormed hd' ?_⟩
  · rw [List.length_take]; omega
  · rw [List.length_take]; omega

end Sys2Proof.Machine
end

