-- ==== Sys2Proof/Laws/PerInstr.lean ====
section
/-! SUPPORT. The family `TableRow`: each instruction's encoding is of the format and has the fixed bits of its row of
`spec/opcode_table.json`, whatever its operands. -/

namespace Sys2Proof.Laws.TableRow

/-- The formats of 30_encoding.md R48. -/
inductive Format where
  | blockHeader
  | storedHeader
  | dynamicHeader
  | clSymbol
  | litlenSymbol
  | distSymbol
  | portCmd
  | internalOp
  deriving DecidableEq, Repr

/-- The format of an element. -/
def format : Element → Format
  | .blockHeader _ => .blockHeader
  | .storedHeader _ => .storedHeader
  | .dynamicHeader _ => .dynamicHeader
  | .clSymbol _ => .clSymbol
  | .litlenSymbol _ => .litlenSymbol
  | .distSymbol _ => .distSymbol
  | .portCmd _ => .portCmd
  | .internalOp _ _ => .internalOp

/-- The word or value of an element. -/
def value : Element → Nat
  | .blockHeader w => w.toNat
  | .storedHeader w => w.toNat
  | .dynamicHeader w => w.toNat
  | .clSymbol v => v
  | .litlenSymbol v => v
  | .distSymbol v => v
  | .portCmd w => w.toNat
  | .internalOp w _ => w.toNat

/-- The format, mask and match of an instruction's row. -/
def row : Instr → Format × Nat × Nat
  | .blockStored _ => (.blockHeader, 0x6, 0x0)
  | .blockFixed _ => (.blockHeader, 0x6, 0x2)
  | .blockDynamic _ => (.blockHeader, 0x6, 0x4)
  | .blockReserved _ => (.blockHeader, 0x6, 0x6)
  | .storedHeader _ _ => (.storedHeader, 0x0, 0x0)
  | .dynamicHeader _ _ _ => (.dynamicHeader, 0x0, 0x0)
  | .clLen0 => (.clSymbol, 0x1f, 0x0)
  | .clLen1 => (.clSymbol, 0x1f, 0x1)
  | .clLen2 => (.clSymbol, 0x1f, 0x2)
  | .clLen3 => (.clSymbol, 0x1f, 0x3)
  | .clLen4 => (.clSymbol, 0x1f, 0x4)
  | .clLen5 => (.clSymbol, 0x1f, 0x5)
  | .clLen6 => (.clSymbol, 0x1f, 0x6)
  | .clLen7 => (.clSymbol, 0x1f, 0x7)
  | .clLen8 => (.clSymbol, 0x1f, 0x8)
  | .clLen9 => (.clSymbol, 0x1f, 0x9)
  | .clLen10 => (.clSymbol, 0x1f, 0xa)
  | .clLen11 => (.clSymbol, 0x1f, 0xb)
  | .clLen12 => (.clSymbol, 0x1f, 0xc)
  | .clLen13 => (.clSymbol, 0x1f, 0xd)
  | .clLen14 => (.clSymbol, 0x1f, 0xe)
  | .clLen15 => (.clSymbol, 0x1f, 0xf)
  | .clRepeat16 => (.clSymbol, 0x1f, 0x10)
  | .clZero17 => (.clSymbol, 0x1f, 0x11)
  | .clZero18 => (.clSymbol, 0x1f, 0x12)
  | .lit _ => (.litlenSymbol, 0x100, 0x0)
  | .eob => (.litlenSymbol, 0x1ff, 0x100)
  | .len257 => (.litlenSymbol, 0x1ff, 0x101)
  | .len258 => (.litlenSymbol, 0x1ff, 0x102)
  | .len259 => (.litlenSymbol, 0x1ff, 0x103)
  | .len260 => (.litlenSymbol, 0x1ff, 0x104)
  | .len261 => (.litlenSymbol, 0x1ff, 0x105)
  | .len262 => (.litlenSymbol, 0x1ff, 0x106)
  | .len263 => (.litlenSymbol, 0x1ff, 0x107)
  | .len264 => (.litlenSymbol, 0x1ff, 0x108)
  | .len265 => (.litlenSymbol, 0x1ff, 0x109)
  | .len266 => (.litlenSymbol, 0x1ff, 0x10a)
  | .len267 => (.litlenSymbol, 0x1ff, 0x10b)
  | .len268 => (.litlenSymbol, 0x1ff, 0x10c)
  | .len269 => (.litlenSymbol, 0x1ff, 0x10d)
  | .len270 => (.litlenSymbol, 0x1ff, 0x10e)
  | .len271 => (.litlenSymbol, 0x1ff, 0x10f)
  | .len272 => (.litlenSymbol, 0x1ff, 0x110)
  | .len273 => (.litlenSymbol, 0x1ff, 0x111)
  | .len274 => (.litlenSymbol, 0x1ff, 0x112)
  | .len275 => (.litlenSymbol, 0x1ff, 0x113)
  | .len276 => (.litlenSymbol, 0x1ff, 0x114)
  | .len277 => (.litlenSymbol, 0x1ff, 0x115)
  | .len278 => (.litlenSymbol, 0x1ff, 0x116)
  | .len279 => (.litlenSymbol, 0x1ff, 0x117)
  | .len280 => (.litlenSymbol, 0x1ff, 0x118)
  | .len281 => (.litlenSymbol, 0x1ff, 0x119)
  | .len282 => (.litlenSymbol, 0x1ff, 0x11a)
  | .len283 => (.litlenSymbol, 0x1ff, 0x11b)
  | .len284 => (.litlenSymbol, 0x1ff, 0x11c)
  | .len285 => (.litlenSymbol, 0x1ff, 0x11d)
  | .ll286 => (.litlenSymbol, 0x1ff, 0x11e)
  | .ll287 => (.litlenSymbol, 0x1ff, 0x11f)
  | .dist0 => (.distSymbol, 0x1f, 0x0)
  | .dist1 => (.distSymbol, 0x1f, 0x1)
  | .dist2 => (.distSymbol, 0x1f, 0x2)
  | .dist3 => (.distSymbol, 0x1f, 0x3)
  | .dist4 => (.distSymbol, 0x1f, 0x4)
  | .dist5 => (.distSymbol, 0x1f, 0x5)
  | .dist6 => (.distSymbol, 0x1f, 0x6)
  | .dist7 => (.distSymbol, 0x1f, 0x7)
  | .dist8 => (.distSymbol, 0x1f, 0x8)
  | .dist9 => (.distSymbol, 0x1f, 0x9)
  | .dist10 => (.distSymbol, 0x1f, 0xa)
  | .dist11 => (.distSymbol, 0x1f, 0xb)
  | .dist12 => (.distSymbol, 0x1f, 0xc)
  | .dist13 => (.distSymbol, 0x1f, 0xd)
  | .dist14 => (.distSymbol, 0x1f, 0xe)
  | .dist15 => (.distSymbol, 0x1f, 0xf)
  | .dist16 => (.distSymbol, 0x1f, 0x10)
  | .dist17 => (.distSymbol, 0x1f, 0x11)
  | .dist18 => (.distSymbol, 0x1f, 0x12)
  | .dist19 => (.distSymbol, 0x1f, 0x13)
  | .dist20 => (.distSymbol, 0x1f, 0x14)
  | .dist21 => (.distSymbol, 0x1f, 0x15)
  | .dist22 => (.distSymbol, 0x1f, 0x16)
  | .dist23 => (.distSymbol, 0x1f, 0x17)
  | .dist24 => (.distSymbol, 0x1f, 0x18)
  | .dist25 => (.distSymbol, 0x1f, 0x19)
  | .dist26 => (.distSymbol, 0x1f, 0x1a)
  | .dist27 => (.distSymbol, 0x1f, 0x1b)
  | .dist28 => (.distSymbol, 0x1f, 0x1c)
  | .dist29 => (.distSymbol, 0x1f, 0x1d)
  | .dist30 => (.distSymbol, 0x1f, 0x1e)
  | .dist31 => (.distSymbol, 0x1f, 0x1f)
  | .reset => (.portCmd, 0xff, 0x0)
  | .step => (.portCmd, 0xff, 0x1)
  | .status => (.portCmd, 0xff, 0x2)
  | .cmdReserved3 => (.portCmd, 0xff, 0x3)
  | .cmdReserved4 => (.portCmd, 0xff, 0x4)
  | .cmdReserved5 => (.portCmd, 0xff, 0x5)
  | .cmdReserved6 => (.portCmd, 0xff, 0x6)
  | .cmdReserved7 => (.portCmd, 0xff, 0x7)
  | .cmdReserved8 => (.portCmd, 0xff, 0x8)
  | .cmdReserved9 => (.portCmd, 0xff, 0x9)
  | .cmdReservedA => (.portCmd, 0xff, 0xa)
  | .cmdReservedB => (.portCmd, 0xff, 0xb)
  | .cmdReservedC => (.portCmd, 0xff, 0xc)
  | .cmdReservedD => (.portCmd, 0xff, 0xd)
  | .cmdReservedE => (.portCmd, 0xff, 0xe)
  | .cmdReservedF => (.portCmd, 0xff, 0xf)
  | .cmdBadhigh1 _ => (.portCmd, 0xf0, 0x10)
  | .cmdBadhigh2 _ => (.portCmd, 0xf0, 0x20)
  | .cmdBadhigh3 _ => (.portCmd, 0xf0, 0x30)
  | .cmdBadhigh4 _ => (.portCmd, 0xf0, 0x40)
  | .cmdBadhigh5 _ => (.portCmd, 0xf0, 0x50)
  | .cmdBadhigh6 _ => (.portCmd, 0xf0, 0x60)
  | .cmdBadhigh7 _ => (.portCmd, 0xf0, 0x70)
  | .cmdBadhigh8 _ => (.portCmd, 0xf0, 0x80)
  | .cmdBadhigh9 _ => (.portCmd, 0xf0, 0x90)
  | .cmdBadhighA _ => (.portCmd, 0xf0, 0xa0)
  | .cmdBadhighB _ => (.portCmd, 0xf0, 0xb0)
  | .cmdBadhighC _ => (.portCmd, 0xf0, 0xc0)
  | .cmdBadhighD _ => (.portCmd, 0xf0, 0xd0)
  | .cmdBadhighE _ => (.portCmd, 0xf0, 0xe0)
  | .cmdBadhighF _ => (.portCmd, 0xf0, 0xf0)
  | .peekBits => (.internalOp, 0xff, 0x0)
  | .consume _ => (.internalOp, 0xff, 0x1)
  | .readBits _ => (.internalOp, 0xff, 0x2)
  | .byteAlign => (.internalOp, 0xff, 0x3)
  | .hasDataLeft => (.internalOp, 0xff, 0x4)
  | .read _ => (.internalOp, 0xff, 0x5)
  | .readExact _ => (.internalOp, 0xff, 0x6)
  | .buildCodebook _ => (.internalOp, 0xff, 0x7)
  | .compileDecoder _ => (.internalOp, 0xff, 0x8)
  | .decode _ _ => (.internalOp, 0xff, 0x9)
  | .decodeSymbol _ => (.internalOp, 0xff, 0xa)
  | .writeBuffer => (.internalOp, 0xff, 0xb)
  | .slide _ => (.internalOp, 0xff, 0xc)
  | .windowReset => (.internalOp, 0xff, 0xd)
  | .lz77Decode => (.internalOp, 0xff, 0xe)
  | .parseDynamic => (.internalOp, 0xff, 0xf)
  | .headerStep => (.internalOp, 0xff, 0x10)
  | .blockStep => (.internalOp, 0xff, 0x11)
  | .storedBlock _ => (.internalOp, 0xff, 0x12)
  | .fixedBlock _ => (.internalOp, 0xff, 0x13)
  | .dynamicBlock _ => (.internalOp, 0xff, 0x14)
  | .inflateStep _ => (.internalOp, 0xff, 0x15)
  | .footerStep => (.internalOp, 0xff, 0x16)
  | .endStep => (.internalOp, 0xff, 0x17)
  | .dataEmission _ => (.internalOp, 0xff, 0x18)

/-- The encoding has its row's format, and its row's fixed bits. -/
def Statement (i : Instr) : Prop :=
  format (encode i) = (row i).1 ∧ value (encode i) &&& (row i).2.1 = (row i).2.2

theorem blockStored (final : Bool) : Statement (.blockStored final) := by cases final <;> exact ⟨rfl, rfl⟩

theorem blockFixed (final : Bool) : Statement (.blockFixed final) := by cases final <;> exact ⟨rfl, rfl⟩

theorem blockDynamic (final : Bool) : Statement (.blockDynamic final) := by cases final <;> exact ⟨rfl, rfl⟩

theorem blockReserved (final : Bool) : Statement (.blockReserved final) := by cases final <;> exact ⟨rfl, rfl⟩

theorem storedHeader (len : BitVec 16) (nlen : BitVec 16) : Statement (.storedHeader len nlen) := ⟨rfl, Nat.and_zero _⟩

theorem dynamicHeader (hlit : BitVec 5) (hdist : BitVec 5) (hclen : BitVec 4) : Statement (.dynamicHeader hlit hdist hclen) := ⟨rfl, Nat.and_zero _⟩

theorem clLen0 : Statement .clLen0 := ⟨rfl, rfl⟩

theorem clLen1 : Statement .clLen1 := ⟨rfl, rfl⟩

theorem clLen2 : Statement .clLen2 := ⟨rfl, rfl⟩

theorem clLen3 : Statement .clLen3 := ⟨rfl, rfl⟩

theorem clLen4 : Statement .clLen4 := ⟨rfl, rfl⟩

theorem clLen5 : Statement .clLen5 := ⟨rfl, rfl⟩

theorem clLen6 : Statement .clLen6 := ⟨rfl, rfl⟩

theorem clLen7 : Statement .clLen7 := ⟨rfl, rfl⟩

theorem clLen8 : Statement .clLen8 := ⟨rfl, rfl⟩

theorem clLen9 : Statement .clLen9 := ⟨rfl, rfl⟩

theorem clLen10 : Statement .clLen10 := ⟨rfl, rfl⟩

theorem clLen11 : Statement .clLen11 := ⟨rfl, rfl⟩

theorem clLen12 : Statement .clLen12 := ⟨rfl, rfl⟩

theorem clLen13 : Statement .clLen13 := ⟨rfl, rfl⟩

theorem clLen14 : Statement .clLen14 := ⟨rfl, rfl⟩

theorem clLen15 : Statement .clLen15 := ⟨rfl, rfl⟩

theorem clRepeat16 : Statement .clRepeat16 := ⟨rfl, rfl⟩

theorem clZero17 : Statement .clZero17 := ⟨rfl, rfl⟩

theorem clZero18 : Statement .clZero18 := ⟨rfl, rfl⟩

theorem lit (byte : Byte) : Statement (.lit byte) := by
  refine ⟨rfl, ?_⟩
  show byte.toNat &&& 0x100 = 0
  revert byte; decide

theorem eob : Statement .eob := ⟨rfl, rfl⟩

theorem len257 : Statement .len257 := ⟨rfl, rfl⟩

theorem len258 : Statement .len258 := ⟨rfl, rfl⟩

theorem len259 : Statement .len259 := ⟨rfl, rfl⟩

theorem len260 : Statement .len260 := ⟨rfl, rfl⟩

theorem len261 : Statement .len261 := ⟨rfl, rfl⟩

theorem len262 : Statement .len262 := ⟨rfl, rfl⟩

theorem len263 : Statement .len263 := ⟨rfl, rfl⟩

theorem len264 : Statement .len264 := ⟨rfl, rfl⟩

theorem len265 : Statement .len265 := ⟨rfl, rfl⟩

theorem len266 : Statement .len266 := ⟨rfl, rfl⟩

theorem len267 : Statement .len267 := ⟨rfl, rfl⟩

theorem len268 : Statement .len268 := ⟨rfl, rfl⟩

theorem len269 : Statement .len269 := ⟨rfl, rfl⟩

theorem len270 : Statement .len270 := ⟨rfl, rfl⟩

theorem len271 : Statement .len271 := ⟨rfl, rfl⟩

theorem len272 : Statement .len272 := ⟨rfl, rfl⟩

theorem len273 : Statement .len273 := ⟨rfl, rfl⟩

theorem len274 : Statement .len274 := ⟨rfl, rfl⟩

theorem len275 : Statement .len275 := ⟨rfl, rfl⟩

theorem len276 : Statement .len276 := ⟨rfl, rfl⟩

theorem len277 : Statement .len277 := ⟨rfl, rfl⟩

theorem len278 : Statement .len278 := ⟨rfl, rfl⟩

theorem len279 : Statement .len279 := ⟨rfl, rfl⟩

theorem len280 : Statement .len280 := ⟨rfl, rfl⟩

theorem len281 : Statement .len281 := ⟨rfl, rfl⟩

theorem len282 : Statement .len282 := ⟨rfl, rfl⟩

theorem len283 : Statement .len283 := ⟨rfl, rfl⟩

theorem len284 : Statement .len284 := ⟨rfl, rfl⟩

theorem len285 : Statement .len285 := ⟨rfl, rfl⟩

theorem ll286 : Statement .ll286 := ⟨rfl, rfl⟩

theorem ll287 : Statement .ll287 := ⟨rfl, rfl⟩

theorem dist0 : Statement .dist0 := ⟨rfl, rfl⟩

theorem dist1 : Statement .dist1 := ⟨rfl, rfl⟩

theorem dist2 : Statement .dist2 := ⟨rfl, rfl⟩

theorem dist3 : Statement .dist3 := ⟨rfl, rfl⟩

theorem dist4 : Statement .dist4 := ⟨rfl, rfl⟩

theorem dist5 : Statement .dist5 := ⟨rfl, rfl⟩

theorem dist6 : Statement .dist6 := ⟨rfl, rfl⟩

theorem dist7 : Statement .dist7 := ⟨rfl, rfl⟩

theorem dist8 : Statement .dist8 := ⟨rfl, rfl⟩

theorem dist9 : Statement .dist9 := ⟨rfl, rfl⟩

theorem dist10 : Statement .dist10 := ⟨rfl, rfl⟩

theorem dist11 : Statement .dist11 := ⟨rfl, rfl⟩

theorem dist12 : Statement .dist12 := ⟨rfl, rfl⟩

theorem dist13 : Statement .dist13 := ⟨rfl, rfl⟩

theorem dist14 : Statement .dist14 := ⟨rfl, rfl⟩

theorem dist15 : Statement .dist15 := ⟨rfl, rfl⟩

theorem dist16 : Statement .dist16 := ⟨rfl, rfl⟩

theorem dist17 : Statement .dist17 := ⟨rfl, rfl⟩

theorem dist18 : Statement .dist18 := ⟨rfl, rfl⟩

theorem dist19 : Statement .dist19 := ⟨rfl, rfl⟩

theorem dist20 : Statement .dist20 := ⟨rfl, rfl⟩

theorem dist21 : Statement .dist21 := ⟨rfl, rfl⟩

theorem dist22 : Statement .dist22 := ⟨rfl, rfl⟩

theorem dist23 : Statement .dist23 := ⟨rfl, rfl⟩

theorem dist24 : Statement .dist24 := ⟨rfl, rfl⟩

theorem dist25 : Statement .dist25 := ⟨rfl, rfl⟩

theorem dist26 : Statement .dist26 := ⟨rfl, rfl⟩

theorem dist27 : Statement .dist27 := ⟨rfl, rfl⟩

theorem dist28 : Statement .dist28 := ⟨rfl, rfl⟩

theorem dist29 : Statement .dist29 := ⟨rfl, rfl⟩

theorem dist30 : Statement .dist30 := ⟨rfl, rfl⟩

theorem dist31 : Statement .dist31 := ⟨rfl, rfl⟩

theorem reset : Statement .reset := ⟨rfl, rfl⟩

theorem step : Statement .step := ⟨rfl, rfl⟩

theorem status : Statement .status := ⟨rfl, rfl⟩

theorem cmdReserved3 : Statement .cmdReserved3 := ⟨rfl, rfl⟩

theorem cmdReserved4 : Statement .cmdReserved4 := ⟨rfl, rfl⟩

theorem cmdReserved5 : Statement .cmdReserved5 := ⟨rfl, rfl⟩

theorem cmdReserved6 : Statement .cmdReserved6 := ⟨rfl, rfl⟩

theorem cmdReserved7 : Statement .cmdReserved7 := ⟨rfl, rfl⟩

theorem cmdReserved8 : Statement .cmdReserved8 := ⟨rfl, rfl⟩

theorem cmdReserved9 : Statement .cmdReserved9 := ⟨rfl, rfl⟩

theorem cmdReservedA : Statement .cmdReservedA := ⟨rfl, rfl⟩

theorem cmdReservedB : Statement .cmdReservedB := ⟨rfl, rfl⟩

theorem cmdReservedC : Statement .cmdReservedC := ⟨rfl, rfl⟩

theorem cmdReservedD : Statement .cmdReservedD := ⟨rfl, rfl⟩

theorem cmdReservedE : Statement .cmdReservedE := ⟨rfl, rfl⟩

theorem cmdReservedF : Statement .cmdReservedF := ⟨rfl, rfl⟩

theorem cmdBadhigh1 (low : BitVec 4) : Statement (.cmdBadhigh1 low) := by
  refine ⟨rfl, ?_⟩
  revert low; decide

theorem cmdBadhigh2 (low : BitVec 4) : Statement (.cmdBadhigh2 low) := by
  refine ⟨rfl, ?_⟩
  revert low; decide

theorem cmdBadhigh3 (low : BitVec 4) : Statement (.cmdBadhigh3 low) := by
  refine ⟨rfl, ?_⟩
  revert low; decide

theorem cmdBadhigh4 (low : BitVec 4) : Statement (.cmdBadhigh4 low) := by
  refine ⟨rfl, ?_⟩
  revert low; decide

theorem cmdBadhigh5 (low : BitVec 4) : Statement (.cmdBadhigh5 low) := by
  refine ⟨rfl, ?_⟩
  revert low; decide

theorem cmdBadhigh6 (low : BitVec 4) : Statement (.cmdBadhigh6 low) := by
  refine ⟨rfl, ?_⟩
  revert low; decide

theorem cmdBadhigh7 (low : BitVec 4) : Statement (.cmdBadhigh7 low) := by
  refine ⟨rfl, ?_⟩
  revert low; decide

theorem cmdBadhigh8 (low : BitVec 4) : Statement (.cmdBadhigh8 low) := by
  refine ⟨rfl, ?_⟩
  revert low; decide

theorem cmdBadhigh9 (low : BitVec 4) : Statement (.cmdBadhigh9 low) := by
  refine ⟨rfl, ?_⟩
  revert low; decide

theorem cmdBadhighA (low : BitVec 4) : Statement (.cmdBadhighA low) := by
  refine ⟨rfl, ?_⟩
  revert low; decide

theorem cmdBadhighB (low : BitVec 4) : Statement (.cmdBadhighB low) := by
  refine ⟨rfl, ?_⟩
  revert low; decide

theorem cmdBadhighC (low : BitVec 4) : Statement (.cmdBadhighC low) := by
  refine ⟨rfl, ?_⟩
  revert low; decide

theorem cmdBadhighD (low : BitVec 4) : Statement (.cmdBadhighD low) := by
  refine ⟨rfl, ?_⟩
  revert low; decide

theorem cmdBadhighE (low : BitVec 4) : Statement (.cmdBadhighE low) := by
  refine ⟨rfl, ?_⟩
  revert low; decide

theorem cmdBadhighF (low : BitVec 4) : Statement (.cmdBadhighF low) := by
  refine ⟨rfl, ?_⟩
  revert low; decide

theorem peekBits : Statement .peekBits := ⟨rfl, rfl⟩

theorem consume (n : Nat) : Statement (.consume n) := ⟨rfl, show (0x1#8).toNat &&& 0xff = 0x1 from rfl⟩

theorem readBits (n : Nat) : Statement (.readBits n) := ⟨rfl, show (0x2#8).toNat &&& 0xff = 0x2 from rfl⟩

theorem byteAlign : Statement .byteAlign := ⟨rfl, rfl⟩

theorem hasDataLeft : Statement .hasDataLeft := ⟨rfl, rfl⟩

theorem read (n : Nat) : Statement (.read n) := ⟨rfl, show (0x5#8).toNat &&& 0xff = 0x5 from rfl⟩

theorem readExact (n : Nat) : Statement (.readExact n) := ⟨rfl, show (0x6#8).toNat &&& 0xff = 0x6 from rfl⟩

theorem buildCodebook (lens : List Nat) : Statement (.buildCodebook lens) := ⟨rfl, show (0x7#8).toNat &&& 0xff = 0x7 from rfl⟩

theorem compileDecoder (book : Codebook) : Statement (.compileDecoder book) := ⟨rfl, show (0x8#8).toNat &&& 0xff = 0x8 from rfl⟩

theorem decode (dec : Decoder) (bits : BitVec 32) : Statement (.decode dec bits) := ⟨rfl, show (0x9#8).toNat &&& 0xff = 0x9 from rfl⟩

theorem decodeSymbol (which : DecoderName) : Statement (.decodeSymbol which) := ⟨rfl, show (0xa#8).toNat &&& 0xff = 0xa from rfl⟩

theorem writeBuffer : Statement .writeBuffer := ⟨rfl, rfl⟩

theorem slide (n : Nat) : Statement (.slide n) := ⟨rfl, show (0xc#8).toNat &&& 0xff = 0xc from rfl⟩

theorem windowReset : Statement .windowReset := ⟨rfl, rfl⟩

theorem lz77Decode : Statement .lz77Decode := ⟨rfl, rfl⟩

theorem parseDynamic : Statement .parseDynamic := ⟨rfl, rfl⟩

theorem headerStep : Statement .headerStep := ⟨rfl, rfl⟩

theorem blockStep : Statement .blockStep := ⟨rfl, rfl⟩

theorem storedBlock (final : Bool) : Statement (.storedBlock final) := ⟨rfl, show (0x12#8).toNat &&& 0xff = 0x12 from rfl⟩

theorem fixedBlock (final : Bool) : Statement (.fixedBlock final) := ⟨rfl, show (0x13#8).toNat &&& 0xff = 0x13 from rfl⟩

theorem dynamicBlock (final : Bool) : Statement (.dynamicBlock final) := ⟨rfl, show (0x14#8).toNat &&& 0xff = 0x14 from rfl⟩

theorem inflateStep (final : Bool) : Statement (.inflateStep final) := ⟨rfl, show (0x15#8).toNat &&& 0xff = 0x15 from rfl⟩

theorem footerStep : Statement .footerStep := ⟨rfl, rfl⟩

theorem endStep : Statement .endStep := ⟨rfl, rfl⟩

theorem dataEmission (n : Nat) : Statement (.dataEmission n) := ⟨rfl, show (0x18#8).toNat &&& 0xff = 0x18 from rfl⟩

end Sys2Proof.Laws.TableRow
end

