-- ==== Sys2Proof/Laws/Producer.lean ====
section
/-! SUPPORT. The laws of the producer: what each of its steps can do to the state, with one response on return and
none, and `PR_STATE` kept, on a raise (47_port_commands.md R133, 60_exceptions.md R143). -/

namespace Sys2Proof.Machine

/-! ## The header collaborator -/

/-- The collaborator has moved the cursor alone, on to a byte boundary inside the input
(45_block_producer.md R113). -/
structure HeaderReads (s t : State) : Prop where
  fields : t = { s with brPos := t.brPos, brOff := t.brOff }
  forward : bitAddr s ≤ bitAddr t
  aligned : t.brOff = 0
  cursor : cursorInside s → cursorInside t

theorem HeaderReads.trans {s t u : State} (h : HeaderReads s t) (h' : HeaderReads t u) : HeaderReads s u :=
  ⟨by rw [h'.fields, h.fields], Nat.le_trans h.forward h'.forward, h'.aligned, fun c => h'.cursor (h.cursor c)⟩

/-- The errors of the collaborator (R113, item 4). -/
def headerError (e : Err) : Prop := e = .ioError ∨ e = .unexpectedEndOfInput ∨ e = .invalidGzHeader

theorem headerError_srcFail (s : State) : headerError (srcFail s) := by
  unfold srcFail headerError; cases s.inEnd <;> simp

theorem headerError_hdrErr (e : HdrErr) : headerError (hdrErr e) := by cases e <;> simp [hdrErr, headerError]

theorem readExact_header (n : Nat) (s : State) :
    (readExact n s).Meets (fun _ t => HeaderReads s t) (fun e t => HeaderReads s t ∧ headerError e) False := by
  refine (readExact_meets n s).mono ?_ ?_ id
  · rintro v t ⟨_, rfl, hle⟩
    have := readsOn_atByte (s := s) (p := alignedPos s + n) (by omega)
    exact ⟨this.fields, this.forward, rfl, fun c => cursorInside_atByte (by have := alignedPos_le c; omega)⟩
  · rintro e t ⟨rfl, rfl⟩
    have := readsOn_atByte (s := s) (p := alignedPos s) (Nat.le_refl _)
    exact ⟨⟨this.fields, this.forward, rfl, fun c => cursorInside_atByte (alignedPos_le c)⟩, headerError_srcFail _⟩

theorem Res.Meets.header {α β : Type} {s u : State} {r : Res α} {k : α → State → Res β} (hu : HeaderReads s u)
    (hr : r.Meets (fun _ t => HeaderReads u t) (fun e t => HeaderReads u t ∧ headerError e) False)
    (hk : ∀ a t, HeaderReads s t → (k a t).Meets (fun _ t => HeaderReads s t)
      (fun e t => HeaderReads s t ∧ headerError e) False) :
    (r.bind k).Meets (fun _ t => HeaderReads s t) (fun e t => HeaderReads s t ∧ headerError e) False := by
  refine Res.Meets.bind (P := fun _ t => HeaderReads s t) (hr.mono ?_ ?_ id) hk
  · intro _ t h; exact hu.trans h
  · rintro e t ⟨h, he⟩; exact ⟨hu.trans h, he⟩

theorem skipToNul_meets (bound : Nat) (s : State) (hs : s.brOff = 0) :
    (skipToNul bound s).Meets (fun _ t => HeaderReads s t) (fun e t => HeaderReads s t ∧ headerError e) False := by
  induction bound generalizing s with
  | zero => exact ⟨⟨rfl, Nat.le_refl _, hs, id⟩, headerError_srcFail _⟩
  | succ bound ih =>
    rw [skipToNul]
    refine (readExact_header 1 s).bind ?_
    intro b u hu
    split
    · exact hu
    · refine (ih u hu.aligned).mono ?_ ?_ id
      · intro _ t h; exact hu.trans h
      · rintro e t ⟨h, he⟩; exact ⟨hu.trans h, he⟩

theorem hdrParseReference_meets (s : State) :
    (hdrParseReference s).Meets (fun _ t => HeaderReads s t) (fun e t => HeaderReads s t ∧ headerError e) False := by
  have flag : ∀ (b : Bool) (r : State → Res Unit) (u : State), HeaderReads s u →
      (∀ u, HeaderReads s u → (r u).Meets (fun _ t => HeaderReads u t) (fun e t => HeaderReads u t ∧ headerError e) False) →
      (ifFlag b r u).Meets (fun _ t => HeaderReads u t) (fun e t => HeaderReads u t ∧ headerError e) False := by
    intro b r u hu hr
    unfold ifFlag
    cases b
    · exact ⟨rfl, Nat.le_refl _, hu.aligned, id⟩
    · exact hr u hu
  have extra : ∀ u, HeaderReads s u → (skipExtra u).Meets (fun _ t => HeaderReads u t)
      (fun e t => HeaderReads u t ∧ headerError e) False := by
    intro u _
    unfold skipExtra
    refine (readExact_header 2 u).bind fun x v hv => ?_
    exact Res.Meets.header hv (readExact_header _ v) fun _ _ h => h
  have crc : ∀ u, HeaderReads s u → (skipCrc u).Meets (fun _ t => HeaderReads u t)
      (fun e t => HeaderReads u t ∧ headerError e) False := by
    intro u _
    unfold skipCrc
    exact (readExact_header 2 u).bind fun _ _ h => h
  have string : ∀ u, HeaderReads s u → (skipString u).Meets (fun _ t => HeaderReads u t)
      (fun e t => HeaderReads u t ∧ headerError e) False := fun u hu => skipToNul_meets _ u hu.aligned
  unfold hdrParseReference
  refine (readExact_header 10 s).bind fun h u hu => ?_
  dsimp only
  split
  · exact ⟨hu, by simp [headerError]⟩
  · refine Res.Meets.header hu (flag _ _ u hu extra) fun _ v hv => ?_
    refine Res.Meets.header hv (flag _ _ v hv string) fun _ w hw => ?_
    refine Res.Meets.header hw (flag _ _ w hw string) fun _ x hx => ?_
    exact Res.Meets.header hx (flag _ _ x hx crc) fun _ _ h => h

theorem hdrAdvance_reads (n : Nat) (s : State) : HeaderReads s (hdrAdvance n s) := by
  have e : hdrAdvance n s = atByte (alignedPos s + min n (s.inp.length - alignedPos s)) s := by
    unfold hdrAdvance; rw [byteAlign_eq]; rfl
  have h := readsOn_atByte (s := s) (p := alignedPos s + min n (s.inp.length - alignedPos s)) (by omega)
  rw [e]
  exact ⟨h.fields, h.forward, rfl, fun c => cursorInside_atByte (by have := alignedPos_le c; omega)⟩

theorem hdrParseExternal_meets (s : State) :
    (hdrParseExternal s).Meets (fun _ t => HeaderReads s t) (fun e t => HeaderReads s t ∧ headerError e) False := by
  unfold hdrParseExternal
  dsimp only
  split
  · refine ⟨hdrAdvance_reads _ _, ?_⟩
    split
    · simp [headerError]
    · exact headerError_hdrErr _
  · split
    · exact ⟨hdrAdvance_reads _ _, headerError_srcFail s⟩
    · split
      · exact ⟨hdrAdvance_reads _ _, by simp [headerError]⟩
      · exact hdrAdvance_reads _ _

/-- Everything the collaborator can do, whichever is bound (45_block_producer.md R113). -/
theorem hdrParse_meets (s : State) :
    (hdrParse s).Meets (fun _ t => HeaderReads s t) (fun e t => HeaderReads s t ∧ headerError e) False := by
  unfold hdrParse
  split
  · exact hdrParseReference_meets s
  · exact hdrParseExternal_meets s

/-! ## What a producer step can do to the state -/

/-- The registers a producer step may write: not the input, its end, the collaborator's binding, the refill buffer,
`PR_ERR`, the pending commands or the model's own fields. -/
structure StepWrites (s t : State) : Prop where
  fields : t = { s with
    brPos := t.brPos, brOff := t.brOff, win := t.win, winBound := t.winBound, prState := t.prState,
    prFinal := t.prFinal, prSeen := t.prSeen, llDec := t.llDec, dDec := t.dDec, lzCur := t.lzCur,
    lzStart := t.lzStart, lzResult := t.lzResult, stLen := t.stLen, stNlen := t.stNlen, dyHlit := t.dyHlit,
    dyHdist := t.dyHdist, dyHclen := t.dyHclen, dyCl := t.dyCl, dyLens := t.dyLens, clDec := t.clDec,
    bh := t.bh, responses := t.responses }
  forward : bitAddr s ≤ bitAddr t

theorem StepWrites.trans {s t u : State} (h : StepWrites s t) (h' : StepWrites t u) : StepWrites s u :=
  ⟨by rw [h'.fields, h.fields], Nat.le_trans h.forward h'.forward⟩

theorem HeaderReads.stepWrites {s t : State} (h : HeaderReads s t) : StepWrites s t := by
  obtain ⟨f, fw, -, -⟩ := h; generalize t.brPos = p, t.brOff = o at f; subst f; exact ⟨rfl, fw⟩

theorem ReadsOn.stepWrites {s t : State} (h : ReadsOn s t) : StepWrites s t := by
  obtain ⟨f, fw⟩ := h; generalize t.brPos = p, t.brOff = o at f; subst f; exact ⟨rfl, fw⟩

theorem ParseWrites.stepWrites {s t : State} (h : ParseWrites s t) : StepWrites s t := by
  obtain ⟨f, fw, -⟩ := h
  generalize t.brPos = a, t.brOff = b, t.dyHlit = c, t.dyHdist = d, t.dyHclen = e, t.dyCl = g, t.dyLens = i,
    t.clDec = j at f
  subst f; exact ⟨rfl, fw⟩

theorem CallWrites.stepWrites {s t : State} (h : CallWrites s t) : StepWrites s t := by
  obtain ⟨-, -, -, fw, -, -, -, f⟩ := h
  generalize t.brPos = a, t.brOff = b, t.win = c, t.lzCur = d, t.lzStart = e, t.lzResult = g at f
  subst f; exact ⟨rfl, fw⟩

theorem Slid.stepWrites {n : Nat} {s t : State} (h : Slid n s t) : StepWrites s t := by
  obtain ⟨f, -, -, -, -, -⟩ := h
  generalize t.winBound = a, t.win = b at f
  subst f; exact ⟨rfl, Nat.le_refl _⟩

/-- A raise inside a step: nothing has been sent and `PR_STATE` stands (60_exceptions.md R143); the code is one that
is latched (R138). -/
structure StepRaises (s t : State) (e : Err) : Prop where
  writes : StepWrites s t
  silent : t.responses = s.responses
  state : t.prState = s.prState
  result : t.lzResult = s.lzResult
  legal : errLegal (errCode e) = true

/-- A return of a step: one response has been sent, and no LZ77 result of its own is kept (10_state.md R21). -/
structure StepReturns (s t : State) : Prop where
  writes : StepWrites s t
  sent : ∃ u, t.responses = u :: s.responses
  result : t.lzResult = s.lzResult ∨ t.lzResult = none

theorem HeaderReads.raises {s t : State} {e : Err} (h : HeaderReads s t) (he : headerError e) : StepRaises s t e := by
  refine ⟨h.stepWrites, by rw [h.fields], by rw [h.fields], by rw [h.fields], ?_⟩
  rcases he with rfl | rfl | rfl <;> rfl

theorem headerStep_meets (s : State) :
    (headerStep s).Meets (fun _ t => StepReturns s t) (fun e t => StepRaises s t e) False := by
  unfold headerStep
  refine (hasDataLeft_meets s).mono (fun _ _ h => h.1) (R' := fun e t => StepRaises s t e) ?_ id |>.bind ?_
  · rintro e t ⟨rfl, rfl, _⟩; exact ⟨⟨rfl, Nat.le_refl _⟩, rfl, rfl, rfl, rfl⟩
  rintro more u rfl
  split
  · refine (hdrParse_meets u).mono (fun _ _ h => h) (fun e t h => h.1.raises h.2) id |>.bind ?_
    intro record t ht
    refine ⟨ht.stepWrites.trans ⟨rfl, Nat.le_refl _⟩, ⟨.header record, ?_⟩, .inl ?_⟩
    · show _ :: t.responses = _
      rw [ht.fields]
    · show t.lzResult = _
      rw [ht.fields]
  · split
    · exact ⟨⟨rfl, Nat.le_refl _⟩, ⟨.endOfStream, rfl⟩, .inl rfl⟩
    · exact ⟨⟨rfl, Nat.le_refl _⟩, rfl, rfl, rfl, rfl⟩

/-- Everything Data emission can do (45_block_producer.md R119). -/
theorem emitData_meets (n : Nat) (s : State) :
    (emitData n s).Meets
      (fun _ t => ∃ u, u = respond (.data (Memory.readRange s.win s.lzStart.toNat n)) s ∧ Slid n u t)
      (fun _ _ => False) (98304 < s.lzStart.toNat + n ∨ 98304 < s.winBound.toNat + n) := by
  unfold emitData
  rw [winRead_eq]
  split
  · rw [Res.ok_bind]
    refine (slide_meets n _).mono ?_ (fun _ _ => id) .inr
    intro _ t ht
    exact ⟨_, rfl, ht⟩
  · left; omega

theorem streamError_legal {e : Err} (h : streamError e) : errLegal (errCode e) = true := by
  rcases h with rfl | rfl | rfl | rfl | rfl | rfl <;> rfl

theorem parseError_legal {e : Err} (h : parseError e) : errLegal (errCode e) = true := by
  rcases h with rfl | rfl | rfl | rfl | rfl <;> rfl

/-- What an inflate step that returns has done: a decode call wrote, from the boundary on, the bytes that are sent, the
window slid over them, and the call's result is dropped. -/
structure Inflated (final : Bool) (s t : State) : Prop where
  run : ∃ (u v w : State) (r : LzResult), CallWrites s u ∧ u.lzResult = some r ∧
    v = respond (.data (Memory.readRange u.win s.winBound.toNat (u.lzCur.toNat - s.winBound.toNat))) u ∧
    Slid (u.lzCur.toNat - s.winBound.toNat) v w ∧ t = goTo (afterInflate r final) (dropLzResult w)

theorem Inflated.stepReturns {final : Bool} {s t : State} (h : Inflated final s t) : StepReturns s t := by
  obtain ⟨u, v, w, r, hu, _, hv, hw, rfl⟩ := h.run
  have hv' : StepWrites u v := by subst hv; exact ⟨rfl, Nat.le_refl _⟩
  have h1 := (hu.stepWrites.trans hv').trans hw.stepWrites
  have h2 : w.responses = v.responses := by rw [hw.fields]
  refine ⟨h1.trans ⟨rfl, Nat.le_refl _⟩, ?_, .inr rfl⟩
  rw [goTo_responses, dropLzResult_responses, h2, hv]
  exact ⟨_, by show _ :: u.responses = _; rw [hu.fields]⟩

/-- Everything an inflate step can do (45_block_producer.md R118). -/
theorem inflate_meets (final : Bool) (s : State) (hs : s.winBound.toNat ≤ 98304) :
    (inflate final s).Meets (fun _ t => Inflated final s t)
      (fun e t => CallWrites s t ∧ streamError e ∧ t.lzResult = s.lzResult) False := by
  unfold inflate
  refine (lz77Decode_meets s hs).bind ?_
  rintro r u ⟨hu, hn, hr⟩
  have hb : u.winBound = s.winBound := by rw [hu.fields]
  have h1 := hu.grows
  have h2 := hu.inside
  refine (emitData_meets r.2 u).mono (fun _ _ h => h) (R' := fun e t => CallWrites s t ∧ streamError e ∧ t.lzResult = s.lzResult)
    (fun _ _ => False.elim) (F' := False) (by rw [hu.start, hb, hn]; omega) |>.bind ?_
  rintro _ t ⟨v, hv, ht⟩
  rw [hu.start, hn] at hv
  rw [hn] at ht
  exact ⟨u, v, t, r.1, hu, hr, hv, ht, rfl⟩

theorem CallWrites.raises {s t : State} {e : Err} (h : CallWrites s t) (he : streamError e)
    (hr : t.lzResult = s.lzResult) : StepRaises s t e :=
  ⟨h.stepWrites, by rw [h.fields], by rw [h.fields], hr, streamError_legal he⟩

/-- A step that writes some registers first and then does what another step does. -/
theorem StepRaises.after {s t u : State} {e : Err} (hw : StepWrites s t) (hr : t.responses = s.responses)
    (hp : t.prState = s.prState) (hl : t.lzResult = s.lzResult) (h : StepRaises t u e) : StepRaises s u e :=
  ⟨hw.trans h.writes, h.silent.trans hr, h.state.trans hp, h.result.trans hl, h.legal⟩

theorem StepReturns.after {s t u : State} (hw : StepWrites s t) (hr : t.responses = s.responses)
    (hl : t.lzResult = s.lzResult) (h : StepReturns t u) : StepReturns s u := by
  obtain ⟨v, hv⟩ := h.sent
  exact ⟨hw.trans h.writes, ⟨v, by rw [hv, hr]⟩, by rw [← hl]; exact h.result⟩

/-- Everything a stored block can do from its length fields on (45_block_producer.md R115). -/
theorem storedBody_meets (final : Bool) (len nlen : BitVec 16) (s : State) :
    (storedBody final len nlen s).Meets (fun _ t => StepReturns s t) (fun e t => StepRaises s t e)
      (98304 < s.winBound.toNat + len.toNat) := by
  unfold storedBody
  dsimp only
  have h0 : StepWrites s (latchLengths len nlen s) := ⟨rfl, Nat.le_refl _⟩
  split
  · exact ⟨h0, rfl, rfl, rfl, rfl⟩
  · refine (readExact_meets _ _).mono (fun _ _ h => h) (R' := fun e t => StepRaises s t e) ?_ False.elim |>.bind ?_
    · rintro e t ⟨rfl, rfl⟩
      refine ⟨h0.trans (readsOn_atByte (Nat.le_refl _)).stepWrites, rfl, rfl, rfl, ?_⟩
      unfold srcFail; split <;> rfl
    rintro v u ⟨hv, hu, hle⟩
    have hlen : v.length = len.toNat := by rw [hv]; exact length_inBytes _ _ _ hle
    have hsu : StepWrites s u := by
      rw [hu]; exact h0.trans (readsOn_atByte (Nat.le_add_right _ _)).stepWrites
    have hb : u.winBound = s.winBound := by rw [hu]; rfl
    have hr : u.responses = s.responses := by rw [hu]; rfl
    rw [winWrite_eq, hlen, hb]
    split
    · rw [Res.ok_bind]
      refine (slide_meets _ _).mono (fun _ _ h => h) (R' := fun e t => StepRaises s t e) (fun _ _ => False.elim)
        (F' := 98304 < s.winBound.toNat + len.toNat) (by rw [← hb]; exact id) |>.bind ?_
      intro _ t ht
      have hv' : StepWrites u (respond (.data v) { u with win := Memory.writeRange u.win u.winBound.toNat v }) :=
        ⟨rfl, Nat.le_refl _⟩
      refine ⟨((hsu.trans hv').trans (hb ▸ ht.stepWrites)).trans ⟨rfl, Nat.le_refl _⟩, ⟨.data v, ?_⟩, .inl ?_⟩
      · show t.responses = _
        rw [ht.fields, ← hr]; rfl
      · show t.lzResult = _
        rw [ht.fields, hu]; rfl
    · show 98304 < _; omega

theorem storedBlock_meets (final : Bool) (s : State) (hs : s.winBound.toNat ≤ 32768) :
    (storedBlock final s).Meets (fun _ t => StepReturns s t) (fun e t => StepRaises s t e) False := by
  unfold storedBlock
  have h0 : StepWrites s (byteAlign s) := by
    rw [byteAlign_eq]; exact (readsOn_atByte (Nat.le_refl _)).stepWrites
  have hr0 : (byteAlign s).responses = s.responses := by rw [byteAlign_eq]; rfl
  have hp0 : (byteAlign s).prState = s.prState := by rw [byteAlign_eq]; rfl
  have hb0 : (byteAlign s).winBound = s.winBound := by rw [byteAlign_eq]; rfl
  have hl0 : (byteAlign s).lzResult = s.lzResult := by rw [byteAlign_eq]; rfl
  refine (readExact_header 4 (byteAlign s)).mono (fun _ _ h => h)
    (fun e t h => StepRaises.after h0 hr0 hp0 hl0 (h.1.raises h.2)) id |>.bind ?_
  intro h u hu
  have hw : StepWrites s u := h0.trans hu.stepWrites
  have hr : u.responses = s.responses := by rw [hu.fields]; exact hr0
  have hp : u.prState = s.prState := by rw [hu.fields]; exact hp0
  have hb : u.winBound = s.winBound := by rw [hu.fields]; exact hb0
  have hf : u.lzResult = s.lzResult := by rw [hu.fields]; exact hl0
  have hl := (le16 (byteAt h 0) (byteAt h 1)).isLt
  refine (storedBody_meets final (le16 (byteAt h 0) (byteAt h 1)) _ u).mono (fun _ _ h => StepReturns.after hw hr hf h)
    (fun _ _ h => StepRaises.after hw hr hp hf h) ?_
  rw [hb]; omega

theorem fixedBlock_meets (final : Bool) (s : State) (hs : s.winBound.toNat ≤ 98304) :
    (fixedBlock final s).Meets (fun _ t => StepReturns s t) (fun e t => StepRaises s t e) False := by
  unfold fixedBlock
  have h0 : StepWrites s (installDecoders fixedLlDec fixedDDec s) := ⟨rfl, Nat.le_refl _⟩
  refine (inflate_meets final (installDecoders fixedLlDec fixedDDec s) hs).mono ?_ ?_ id
  · intro _ t h; exact StepReturns.after h0 rfl rfl h.stepReturns
  · rintro e t ⟨h, he, hr⟩; exact StepRaises.after h0 rfl rfl rfl (h.raises he hr)

theorem dynamicBlock_meets (final : Bool) (s : State) (hs : s.winBound.toNat ≤ 98304) :
    (dynamicBlock final s).Meets (fun _ t => StepReturns s t) (fun e t => StepRaises s t e) False := by
  unfold dynamicBlock
  refine (parseDynamic_meets s).mono (fun _ _ h => h.1) (R' := fun e t => StepRaises s t e) ?_ id |>.bind ?_
  · rintro e t ⟨h, he⟩
    exact ⟨h.stepWrites, by rw [h.fields], by rw [h.fields], by rw [h.fields], parseError_legal he⟩
  intro r u hu
  have hw : StepWrites s (installDecoders r.1 r.2 u) := hu.stepWrites.trans ⟨rfl, Nat.le_refl _⟩
  have hr : u.responses = s.responses := by rw [hu.fields]
  have hp : u.prState = s.prState := by rw [hu.fields]
  have hb : u.winBound = s.winBound := by rw [hu.fields]
  have hf : u.lzResult = s.lzResult := by rw [hu.fields]
  refine (inflate_meets final (installDecoders r.1 r.2 u) (by rw [← hb] at hs; exact hs)).mono ?_ ?_ id
  · intro _ t h; exact StepReturns.after hw hr hf h.stepReturns
  · rintro e t ⟨h, he, hl⟩; exact StepRaises.after hw hr hp hf (h.raises he hl)

theorem blockBody_meets (w : BitVec 3) (s : State) (hs : s.winBound.toNat ≤ 32768) :
    (blockBody w s).Meets (fun _ t => StepReturns s t) (fun e t => StepRaises s t e) False := by
  have h0 : StepWrites s (latchBlockHeader w s) := ⟨rfl, Nat.le_refl _⟩
  have lift : ∀ {r : Res Unit}, r.Meets (fun _ t => StepReturns (latchBlockHeader w s) t)
      (fun e t => StepRaises (latchBlockHeader w s) t e) False →
      r.Meets (fun _ t => StepReturns s t) (fun e t => StepRaises s t e) False := fun h =>
    h.mono (fun _ _ h => StepReturns.after h0 rfl rfl h) (fun _ _ h => StepRaises.after h0 rfl rfl rfl h) id
  unfold blockBody
  dsimp only
  split
  · exact lift (storedBlock_meets _ _ hs)
  · exact lift (fixedBlock_meets _ _ (Nat.le_trans hs (by decide)))
  · exact lift (dynamicBlock_meets _ _ (Nat.le_trans hs (by decide)))
  · exact ⟨h0, rfl, rfl, rfl, rfl⟩

theorem blockStep_meets (s : State) (hs : s.winBound.toNat ≤ 32768) :
    (blockStep s).Meets (fun _ t => StepReturns s t) (fun e t => StepRaises s t e) False := by
  unfold blockStep
  refine (readBits_meets 3 s).mono (fun _ _ h => h.1) (R' := fun e t => StepRaises s t e) ?_ id |>.bind ?_
  · rintro e t ⟨rfl, rfl⟩
    refine ⟨⟨rfl, Nat.le_refl _⟩, rfl, rfl, rfl, ?_⟩
    unfold srcFail; split <;> rfl
  rintro v u rfl
  exact (blockBody_meets _ (advance 3 s) hs).mono
    (fun _ _ h => StepReturns.after (readsOn_advance 3 s).stepWrites rfl rfl h)
    (fun _ _ h => StepRaises.after (readsOn_advance 3 s).stepWrites rfl rfl rfl h) id

theorem footerStep_meets (s : State) :
    (footerStep s).Meets (fun _ t => StepReturns s t) (fun e t => StepRaises s t e) False := by
  have h0 : StepWrites s (windowReset s) := ⟨rfl, Nat.le_refl _⟩
  unfold footerStep
  refine (readExact_header 8 (windowReset s)).mono (fun _ _ h => h)
    (fun e t h => StepRaises.after h0 rfl rfl rfl (h.1.raises h.2)) id |>.bind ?_
  intro f u hu
  have hr : u.responses = s.responses := by rw [hu.fields]; rfl
  rw [Res.meets_ok]
  refine ⟨(h0.trans hu.stepWrites).trans ⟨rfl, Nat.le_refl _⟩,
    ⟨.footer (le32 (byteAt f 0) (byteAt f 1) (byteAt f 2) (byteAt f 3))
      (le32 (byteAt f 4) (byteAt f 5) (byteAt f 6) (byteAt f 7)), ?_⟩, .inl ?_⟩
  · rw [respond_responses, goTo_responses, hr]
  · show u.lzResult = _
    rw [hu.fields]; rfl

/-- Everything a producer step can do (45_block_producer.md R111): it completes, in one response or one error. -/
theorem producerStep_meets (s : State) (hs : s.winBound.toNat ≤ 32768) :
    (producerStep s).Meets (fun _ t => StepReturns s t) (fun e t => StepRaises s t e) False := by
  have hb : s.winBound.toNat ≤ 98304 := Nat.le_trans hs (by decide)
  unfold producerStep
  split
  · exact headerStep_meets s
  · exact blockStep_meets s hs
  · exact (inflate_meets false s hb).mono (fun _ _ h => h.stepReturns) (fun _ _ h => h.1.raises h.2.1 h.2.2) id
  · exact (inflate_meets true s hb).mono (fun _ _ h => h.stepReturns) (fun _ _ h => h.1.raises h.2.1 h.2.2) id
  · exact footerStep_meets s
  · exact ⟨⟨rfl, Nat.le_refl _⟩, ⟨.endOfStream, rfl⟩, .inl rfl⟩

end Sys2Proof.Machine
end

