-- ==== Sys2Proof/Tests/Slice0.lean ====
section
/-! SUPPORT. Tests of the model, each of one step or one operation, with the results of the spec's own vectors
(95_test_vectors.md) and derived cases, and for each statement a witness that meets its hypotheses. -/

namespace Sys2Proof.Tests

open Sys2Proof Sys2Proof.Machine

set_option maxRecDepth 20000

/-! ## Helpers -/

/-- A part of the next state, if there is one. -/
def onNext {α : Type} (f : State → α) (r : Host.Outcome State Fault Refusal) : Option α :=
  match r with
  | .next s => some (f s)
  | .fault _ => none
  | .refused _ => none

/-- The step stops with the fault of a window address that does not exist. -/
def faults (r : Host.Outcome State Fault Refusal) : Bool :=
  match r with
  | .fault .windowAddress => true
  | _ => false

/-- The reset state over an input, with the cursor at a byte and a bit of it. -/
def withInput (inp : List Byte) (pos : Nat) (off : BitVec 3) : State :=
  { State.reset with inp := inp, brPos := pos, brOff := off }

/-- The input of 95_test_vectors.md 2.1. -/
def sample (pos : Nat) (off : BitVec 3) : State := withInput [0xA5, 0x3C, 0xFF, 0x00, 0x81] pos off

/-- What an instruction leaves in the model's result field, and the cursor. -/
def resultAt (i : Instr) (s : State) : Option (OpResult × Nat × BitVec 3) :=
  onNext (fun t => (t.opResult, t.brPos, t.brOff)) (exec i s)

/-- The newest response, the STATUS word and the cursor after a command. -/
def portView (r : Host.Outcome State Fault Refusal) : Option (Option Response × BitVec 32 × Nat × BitVec 3) :=
  onNext (fun t => (t.responses.head?, statusWord t, t.brPos, t.brOff)) r

/-- The member header of 95_test_vectors.md 0. -/
def hdr : List Byte := [0x1F, 0x8B, 8, 0, 0, 0, 0, 0, 0, 0xFF]

/-- A command sent to the block after reset, with error 9 latched. -/
def latchedNine (cmd : BitVec 8) : State := { State.reset with prErr := 9, commands := [cmd] }

/-- A command sent to a block that stands in `Block` after a header, at the start of an input. -/
def inBlock (inp : List Byte) (cmd : BitVec 8) : State :=
  { withInput inp 0 0 with prState := .block, prSeen := true, commands := [cmd] }

/-- A state inside a decode call whose distance decoder reads a 0 bit as the given symbol, with a byte behind the
write cursor. -/
def inCall (ds : Nat) : State :=
  { withInput [0, 0, 0, 0, 0, 0, 0, 0] 0 0 with dDec := some (oneCode ds), win := [(0, 0x41)], lzCur := 1 }

/-! ## Well-formedness: each check refuses an ill-formed term -/

theorem test_wf_consume : (Instr.consume 33).wellFormed = false ∧ (Instr.consume 32).wellFormed = true := by decide

theorem test_wf_readBits : (Instr.readBits 33).wellFormed = false ∧ (Instr.readBits 32).wellFormed = true := by decide

theorem test_wf_slide : (Instr.slide 98305).wellFormed = false ∧ (Instr.slide 98304).wellFormed = true := by decide

theorem test_wf_dataEmission :
    (Instr.dataEmission 98305).wellFormed = false ∧ (Instr.dataEmission 98304).wellFormed = true := by decide

theorem test_wf_book_empty : (Instr.compileDecoder { entries := [], maxLen := 0 }).wellFormed = false := by decide

theorem test_wf_book_long : (Instr.compileDecoder { entries := List.replicate 290 ⟨0, 0⟩, maxLen := 0 }).wellFormed = false := by
  decide

theorem test_wf_book_length : (Instr.compileDecoder { entries := [⟨0, 16⟩], maxLen := 16 }).wellFormed = false := by decide

theorem test_wf_book_code : (Instr.compileDecoder { entries := [⟨2, 1⟩], maxLen := 1 }).wellFormed = false := by decide

theorem test_wf_book_unused : (Instr.compileDecoder { entries := [⟨1, 0⟩], maxLen := 0 }).wellFormed = false := by decide

theorem test_wf_book_maxLen : (Instr.compileDecoder { entries := [⟨0, 1⟩], maxLen := 2 }).wellFormed = false := by decide

theorem test_wf_book_prefix :
    (Instr.compileDecoder { entries := [⟨0, 1⟩, ⟨1, 2⟩], maxLen := 2 }).wellFormed = false ∧
    (Instr.compileDecoder { entries := [⟨0, 1⟩, ⟨2, 2⟩], maxLen := 2 }).wellFormed = true := by decide

theorem test_wf_decoder_maxLen :
    (Instr.decode { Decoder.noCodes with maxLen := 16, primaryBits := 9 } 0).wellFormed = false := by decide

theorem test_wf_decoder_primary : (Instr.decode { Decoder.noCodes with primaryBits := 1 } 0).wellFormed = false := by decide

theorem test_wf_decoder_size : (Instr.decode { Decoder.noCodes with pri := [] } 0).wellFormed = false := by decide

theorem test_wf_decoder_mask : (Instr.decode { Decoder.noCodes with smask := 1 } 0).wellFormed = false := by decide

theorem test_wf_decoder_symbol :
    (Instr.decode { oneCode 288 with maxLen := 1 } 0).wellFormed = false ∧ (Instr.decode (oneCode 287) 0).wellFormed = true := by
  decide

theorem test_wf_decoder_slot_length :
    (Instr.decode { oneCode 0 with pri := [.direct 0 2, .empty] } 0).wellFormed = false ∧
    (Instr.decode { oneCode 0 with pri := [.direct 0 0, .empty] } 0).wellFormed = false := by decide

theorem test_wf_decoder_link : (Instr.decode { oneCode 0 with pri := [.link 0, .empty] } 0).wellFormed = false := by decide

/-- A decoder of the longest length 10, whose segments have two slots. -/
def decoderTen (sec : List Slot) : Decoder :=
  { maxLen := 10, primaryBits := 9, pri := List.replicate 512 .empty, sec := sec, smask := 1 }

theorem test_wf_decoder_second_link :
    (Instr.decode (decoderTen [.link 0, .empty]) 0).wellFormed = false ∧
    (Instr.decode (decoderTen [.direct 0 10, .empty]) 0).wellFormed = true := by decide

/-- R24: `SEC` is whole segments, at most 512 of them, and empty when M is at most 9. -/
theorem test_wf_decoder_segments :
    (Instr.decode (decoderTen [.empty, .empty, .empty]) 0).wellFormed = false ∧
    (Instr.decode { oneCode 0 with sec := [.empty] } 0).wellFormed = false := by decide

theorem test_wf_decoder_segment_count :
    wholeSegments 2 1024 = true ∧ wholeSegments 2 1026 = false ∧ wholeSegments 64 32768 = true := by decide

/-! ## Decoding: words written from the encodings of 30_encoding.md -/

/-- R50: BFINAL is bit 0, BTYPE bits 2:1. -/
theorem test_decode_blockHeaders :
    [0b000, 0b001, 0b010, 0b011, 0b100, 0b101, 0b110, 0b111].map (fun w => decode (.blockHeader w)) =
      [some (.blockStored false), some (.blockStored true), some (.blockFixed false), some (.blockFixed true),
       some (.blockDynamic false), some (.blockDynamic true), some (.blockReserved false),
       some (.blockReserved true)] := by decide

/-- R51: the bytes 02 00 FD FF are LEN 2 and NLEN FFFD. -/
theorem test_decode_storedHeader : decode (.storedHeader 0xFFFD0002) = some (.storedHeader 0x0002 0xFFFD) := by decide

/-- R53: HLIT in bits 4:0, HDIST in 9:5, HCLEN in 13:10. -/
theorem test_decode_dynamicHeader : decode (.dynamicHeader 0b1110_00001_11111) = some (.dynamicHeader 31 1 14) := by decide

/-- R54. -/
theorem test_decode_clSymbols_0 :
    [0, 1, 2, 3, 4, 5, 6, 7].map (fun v => decode (.clSymbol v)) =
      [some .clLen0, some .clLen1, some .clLen2, some .clLen3, some .clLen4, some .clLen5, some .clLen6, some .clLen7] := by decide

/-- R54. -/
theorem test_decode_clSymbols_1 :
    [8, 9, 10, 11, 12, 13, 14, 15].map (fun v => decode (.clSymbol v)) =
      [some .clLen8, some .clLen9, some .clLen10, some .clLen11, some .clLen12, some .clLen13, some .clLen14, some .clLen15] := by decide

/-- R54. -/
theorem test_decode_clSymbols_2 :
    [16, 17, 18].map (fun v => decode (.clSymbol v)) =
      [some .clRepeat16, some .clZero17, some .clZero18] := by decide

/-- R101: a value below 256 is the literal itself. -/
theorem test_decode_lit : decode (.litlenSymbol 0x61) = some (.lit 0x61) ∧ decode (.litlenSymbol 255) = some (.lit 0xFF) := by
  decide

/-- R55, R62. -/
theorem test_decode_litlenSymbols_0 :
    [256, 257, 258, 259, 260, 261, 262, 263].map (fun v => decode (.litlenSymbol v)) =
      [some .eob, some .len257, some .len258, some .len259, some .len260, some .len261, some .len262, some .len263] := by decide

/-- R55, R62. -/
theorem test_decode_litlenSymbols_1 :
    [264, 265, 266, 267, 268, 269, 270, 271].map (fun v => decode (.litlenSymbol v)) =
      [some .len264, some .len265, some .len266, some .len267, some .len268, some .len269, some .len270, some .len271] := by decide

/-- R55, R62. -/
theorem test_decode_litlenSymbols_2 :
    [272, 273, 274, 275, 276, 277, 278, 279].map (fun v => decode (.litlenSymbol v)) =
      [some .len272, some .len273, some .len274, some .len275, some .len276, some .len277, some .len278, some .len279] := by decide

/-- R55, R62. -/
theorem test_decode_litlenSymbols_3 :
    [280, 281, 282, 283, 284, 285, 286, 287].map (fun v => decode (.litlenSymbol v)) =
      [some .len280, some .len281, some .len282, some .len283, some .len284, some .len285, some .ll286, some .ll287] := by decide

/-- R56, R63. -/
theorem test_decode_distSymbols_0 :
    [0, 1, 2, 3, 4, 5, 6, 7].map (fun v => decode (.distSymbol v)) =
      [some .dist0, some .dist1, some .dist2, some .dist3, some .dist4, some .dist5, some .dist6, some .dist7] := by decide

/-- R56, R63. -/
theorem test_decode_distSymbols_1 :
    [8, 9, 10, 11, 12, 13, 14, 15].map (fun v => decode (.distSymbol v)) =
      [some .dist8, some .dist9, some .dist10, some .dist11, some .dist12, some .dist13, some .dist14, some .dist15] := by decide

/-- R56, R63. -/
theorem test_decode_distSymbols_2 :
    [16, 17, 18, 19, 20, 21, 22, 23].map (fun v => decode (.distSymbol v)) =
      [some .dist16, some .dist17, some .dist18, some .dist19, some .dist20, some .dist21, some .dist22, some .dist23] := by decide

/-- R56, R63. -/
theorem test_decode_distSymbols_3 :
    [24, 25, 26, 27, 28, 29, 30, 31].map (fun v => decode (.distSymbol v)) =
      [some .dist24, some .dist25, some .dist26, some .dist27, some .dist28, some .dist29, some .dist30, some .dist31] := by decide

/-- R67, R137. -/
theorem test_decode_commands_0 :
    [0x0, 0x1, 0x2, 0x3, 0x4, 0x5, 0x6, 0x7].map (fun v => decode (.portCmd v)) =
      [some .reset, some .step, some .status, some .cmdReserved3, some .cmdReserved4, some .cmdReserved5, some .cmdReserved6, some .cmdReserved7] := by decide

/-- R67, R137. -/
theorem test_decode_commands_1 :
    [0x8, 0x9, 0xa, 0xb, 0xc, 0xd, 0xe, 0xf].map (fun v => decode (.portCmd v)) =
      [some .cmdReserved8, some .cmdReserved9, some .cmdReservedA, some .cmdReservedB, some .cmdReservedC, some .cmdReservedD, some .cmdReservedE, some .cmdReservedF] := by decide

/-- R137: bits 7:4 not zero, whatever the low nibble. -/
theorem test_decode_badhigh_0 :
    [0x11, 0x22, 0x33, 0x44, 0x55, 0x66, 0x77, 0x88].map (fun v => decode (.portCmd v)) =
      [some (.cmdBadhigh1 1), some (.cmdBadhigh2 2), some (.cmdBadhigh3 3), some (.cmdBadhigh4 4), some (.cmdBadhigh5 5), some (.cmdBadhigh6 6), some (.cmdBadhigh7 7), some (.cmdBadhigh8 8)] := by decide

/-- R137: bits 7:4 not zero, whatever the low nibble. -/
theorem test_decode_badhigh_1 :
    [0x91, 0xa2, 0xb3, 0xc4, 0xd5, 0xe6, 0xf7].map (fun v => decode (.portCmd v)) =
      [some (.cmdBadhigh9 1), some (.cmdBadhighA 2), some (.cmdBadhighB 3), some (.cmdBadhighC 4), some (.cmdBadhighD 5), some (.cmdBadhighE 6), some (.cmdBadhighF 7)] := by decide

/-- Operands for the internal operations. -/
def someArgs : OpArgs :=
  { n := 5, final := true, lens := [1, 1], book := { entries := [⟨0, 1⟩, ⟨1, 1⟩], maxLen := 1 }, dec := oneCode 7,
    bits := 6, which := .dDec }

/-- R69. -/
theorem test_decode_internalOps_0 :
    [0x0, 0x1, 0x2, 0x3, 0x4].map (fun v => decode (.internalOp v someArgs)) =
      [some .peekBits,
       some (.consume 5),
       some (.readBits 5),
       some .byteAlign,
       some .hasDataLeft] := by decide

/-- R69. -/
theorem test_decode_internalOps_1 :
    [0x5, 0x6, 0x7, 0x8, 0x9].map (fun v => decode (.internalOp v someArgs)) =
      [some (.read 5),
       some (.readExact 5),
       some (.buildCodebook [1, 1]),
       some (.compileDecoder { entries := [⟨0, 1⟩, ⟨1, 1⟩], maxLen := 1 }),
       some (.decode (oneCode 7) 6)] := by decide

/-- R69. -/
theorem test_decode_internalOps_2 :
    [0xa, 0xb, 0xc, 0xd, 0xe].map (fun v => decode (.internalOp v someArgs)) =
      [some (.decodeSymbol .dDec),
       some .writeBuffer,
       some (.slide 5),
       some .windowReset,
       some .lz77Decode] := by decide

/-- R69. -/
theorem test_decode_internalOps_3 :
    [0xf, 0x10, 0x11, 0x12, 0x13].map (fun v => decode (.internalOp v someArgs)) =
      [some .parseDynamic,
       some .headerStep,
       some .blockStep,
       some (.storedBlock true),
       some (.fixedBlock true)] := by decide

/-- R69. -/
theorem test_decode_internalOps_4 :
    [0x14, 0x15, 0x16, 0x17, 0x18].map (fun v => decode (.internalOp v someArgs)) =
      [some (.dynamicBlock true),
       some (.inflateStep true),
       some .footerStep,
       some .endStep,
       some (.dataEmission 5)] := by decide

/-- R54, R62, R63, R69: values past each alphabet are refused. -/
theorem test_decode_reserved :
    decode (.clSymbol 19) = none ∧ decode (.litlenSymbol 288) = none ∧ decode (.distSymbol 32) = none ∧
    decode (.internalOp 0x19 someArgs) = none := by decide

/-- A word of the opcode table's numbering, by its size (notes/assumptions/14.md). -/
theorem test_decodeTableWord :
    decodeTableWord 8 0x01 = some .step ∧ decodeTableWord 16 0x100 = some .eob ∧
    decodeTableWord 32 0xFFFD0002 = some (.storedHeader 2 0xFFFD) ∧
    decodeTableWord 16 0x3800 = some (.dynamicHeader 0 0 14) ∧ decodeTableWord 24 0 = none := by decide

/-! ## The bit reader: 95_test_vectors.md 2.1 -/

theorem test_peekBits :
    resultAt .peekBits (sample 0 5) = some (.bits 0x0807F9E5, 0, 5) ∧
    resultAt .peekBits (sample 1 3) = some (.bits 0x10201FE7, 1, 3) := by decide

theorem test_peekBits_short : onNext State.prErr (exec .peekBits (sample 2 0)) = some 2 := by decide

theorem test_readBits :
    resultAt (.readBits 13) (sample 0 5) = some (.bits 0x19E5, 2, 2) ∧
    resultAt (.readBits 32) (sample 0 0) = some (.bits 0x00FF3CA5, 4, 0) := by decide

theorem test_readBits_zero : resultAt (.readBits 0) (sample 0 0) = some (.bits 0, 0, 0) := by decide

theorem test_consume :
    resultAt (.consume 7) (sample 0 3) = some (.none, 1, 2) ∧
    resultAt (.consume 32) (sample 0 7) = some (.none, 4, 7) := by decide

theorem test_byteAlign :
    resultAt .byteAlign (sample 1 7) = some (.none, 2, 0) ∧ resultAt .byteAlign (sample 0 0) = some (.none, 0, 0) := by decide

theorem test_hasDataLeft :
    resultAt .hasDataLeft (sample 4 7) = some (.bool true, 4, 7) ∧
    resultAt .hasDataLeft (sample 5 0) = some (.bool false, 5, 0) := by decide

theorem test_hasDataLeft_failed : onNext State.prErr (exec .hasDataLeft { sample 5 0 with inEnd := .ioerr }) = some 1 := by decide

theorem test_readExact :
    resultAt (.readExact 2) (sample 0 3) = some (.bytes [0x3C, 0xFF], 3, 0) ∧
    resultAt (.readExact 0) (sample 4 2) = some (.bytes [], 5, 0) := by decide

/-- R77: `readExact(0)` returns no bytes, at the end of `IN` and past it (notes/assumptions/37.md). -/
theorem test_readExact_zero :
    resultAt (.readExact 0) (sample 5 0) = some (.bytes [], 5, 0) ∧
    resultAt (.readExact 0) (sample 6 1) = some (.bytes [], 7, 0) := by decide

theorem test_readExact_short :
    onNext (fun t => (t.prErr, t.brPos)) (exec (.readExact 5) { sample 1 0 with inEnd := .ioerr }) = some (1, 1) := by decide

theorem test_read :
    resultAt (.read 10) (sample 2 1) = some (.bytes [0x00, 0x81], 5, 0) ∧
    resultAt (.read 3) (sample 5 0) = some (.bytes [], 5, 0) := by decide

theorem test_read_failed :
    onNext State.prErr (exec (.read 3) { sample 5 0 with inEnd := .ioerr }) = some 1 ∧
    onNext State.prErr (exec (.read 0) { sample 5 0 with inEnd := .ioerr }) = some 0 := by decide

/-! ## Codebooks and decoders: 41_codebook.md R88, 42_huffman_decoder.md R93, 95_test_vectors.md 2.2 -/

/-- The code-length code of program P3: 3 is 00, 18 is 01, 0 is 100, 1 is 101, 16 is 110, 17 is 111. -/
def p3Lens : List Nat := [3, 3, 0, 2, 0, 0, 0, 0, 0, 0, 0, 0, 0, 0, 0, 0, 3, 3, 2]

theorem test_buildCodebook :
    resultAt (.buildCodebook p3Lens) State.reset =
      some (.codebook
        { entries := [⟨4, 3⟩, ⟨5, 3⟩, ⟨0, 0⟩, ⟨0, 2⟩] ++ List.replicate 12 ⟨0, 0⟩ ++ [⟨6, 3⟩, ⟨7, 3⟩, ⟨1, 2⟩],
          maxLen := 3 }, 0, 0) := by decide

theorem test_buildCodebook_oversubscribed : onNext State.prErr (exec (.buildCodebook [1, 1, 1]) State.reset) = some 7 := by decide

/-- R93, row `[1, 0, 2]`. -/
theorem test_compileDecoder :
    resultAt (.compileDecoder { entries := [⟨0, 1⟩, ⟨0, 0⟩, ⟨2, 2⟩], maxLen := 2 }) State.reset =
      some (.decoder { maxLen := 2, primaryBits := 2, pri := [.direct 0 1, .direct 2 2, .direct 0 1, .empty], sec := [],
                       smask := 0 }, 0, 0) := by decide

/-- R93, row `[1,2,3,4,5,6,7,8,9,10,11,11]`: a secondary table. -/
theorem test_decode_secondary :
    (let d := decoderOfLens [1, 2, 3, 4, 5, 6, 7, 8, 9, 10, 11, 11]
     d.sec = [.direct 9 10, .direct 10 11, .direct 9 10, .direct 11 11] ∧
     [0x1FF, 0x3FF, 0x5FF, 0x7FF, 0x2FF, 0x000, 0x001].map (decodeBits d) =
       [some (9, 10), some (10, 11), some (9, 10), some (11, 11), some (8, 9), some (0, 1), some (1, 2)]) := by
  decide +kernel

theorem test_decode :
    resultAt (.decode (decoderOfLens [1, 0, 2]) 1) State.reset = some (.symbolLength 2 2, 0, 0) ∧
    onNext State.prErr (exec (.decode (decoderOfLens [1, 0, 2]) 3) State.reset) = some 8 := by decide

/-- The P3 code-length decoder on the bits 1 1 0: symbol 16, 3 bits. -/
theorem test_decodeSymbol :
    resultAt (.decodeSymbol .clDec) { withInput [0b011, 0, 0, 0] 0 0 with clDec := decoderOfLens p3Lens } =
      some (.symbol 16, 0, 3) := by decide +kernel

/-- R93, R104: the fixed decoders; 286 is 11000110. -/
theorem test_fixed_decoders :
    decodeBits fixedDDec 0x18 = some (3, 5) ∧ decodeBits fixedLlDec 0 = some (256, 7) ∧
    decodeBits fixedLlDec 0x63 = some (286, 8) := by decide +kernel

/-! ## The window: 43_window.md R98 -/

theorem test_slide_short : onNext State.winBound (exec (.slide 100) State.reset) = some 100 := by decide

/-- Row 5: nothing moves at `nb = D`. -/
theorem test_slide_exact :
    onNext (fun t => (t.winBound, t.win)) (exec (.slide 1) { State.reset with winBound := 32767, win := [(1, 7)] }) =
      some (32768, [(1, 7)]) := by decide

theorem test_windowReset :
    onNext (fun t => (t.winBound, t.win)) (exec .windowReset { State.reset with winBound := 9, win := [(0, 5)] }) =
      some (0, [(0, 5)]) := by decide

theorem test_writeBuffer :
    resultAt .writeBuffer { State.reset with winBound := 32768 } = some (.region 32768 65536, 0, 0) := by decide

theorem test_dataEmission :
    onNext (fun t => (t.responses, t.winBound)) (exec (.dataEmission 2) { State.reset with win := [(0, 1), (1, 2)] }) =
      some ([.data [1, 2]], 2) := by decide

/-! ## LZ77 symbols: 44_lz77.md R101 to R110 -/

theorem test_lit : onNext (fun t => (t.win, t.lzCur)) (exec (.lit 0x42) (inCall 0)) = some ([(0, 0x41), (1, 0x42)], 2) := by
  decide

theorem test_eob : resultAt .eob { State.reset with lzStart := 2, lzCur := 9 } = some (.lz77 .done 7, 0, 0) := by decide

/-- X1 of 95_test_vectors.md: distance 1, length 10 over a 1-byte window. -/
theorem test_len264 :
    onNext (fun t => (t.lzCur, (List.range 11).map (Memory.read t.win))) (exec .len264 (inCall 0)) =
      some (11, List.replicate 11 0x41) := by decide

/-- Symbol 284 and its 5 extra bits, all set: length 258, as R105 says. -/
theorem test_len284 :
    onNext State.lzCur (exec .len284 { inCall 0 with inp := [0x1F, 0, 0, 0, 0, 0, 0, 0] }) = some 259 := by decide

theorem test_len285 : onNext State.lzCur (exec .len285 (inCall 0)) = some 259 := by decide

/-- R110: distance 3 with 2 bytes of history. -/
theorem test_distanceTooMuch :
    onNext (fun t => (t.prErr, t.win)) (exec .len257 { inCall 2 with lzCur := 2 }) = some (9, [(0, 0x41)]) := by decide

theorem test_ll286_ll287 :
    onNext State.prErr (exec .ll286 State.reset) = some 14 ∧ onNext State.prErr (exec .ll287 State.reset) = some 14 := by decide

/-- Symbol 29 with 13 extra bits set is distance 32768. -/
theorem test_dist29 :
    resultAt .dist29 (withInput [0xFF, 0x1F, 0, 0] 0 0) = some (.distance 32768, 1, 5) := by decide

theorem test_dist30_dist31 :
    onNext State.prErr (exec .dist30 State.reset) = some 15 ∧ onNext State.prErr (exec .dist31 State.reset) = some 15 := by decide

/-! ## Dynamic codebooks: 46_dynamic_codebook.md R127, R129 -/

theorem test_dynamicHeader :
    onNext (fun t => (t.dyHlit, t.dyHdist, t.dyHclen)) (exec (.dynamicHeader 31 31 15) State.reset) = some (288, 32, 19) := by
  decide

theorem test_clLen9 : onNext State.dyLens (exec .clLen9 { State.reset with dyLens := [1] }) = some [1, 9] := by decide

theorem test_clRepeat16 :
    onNext (fun t => (t.dyLens, t.brOff)) (exec .clRepeat16 { withInput [3, 0, 0, 0] 0 0 with dyLens := [5] }) =
      some ([5, 5, 5, 5, 5, 5, 5], 2) ∧
    onNext State.prErr (exec .clRepeat16 (withInput [3, 0, 0, 0] 0 0)) = some 10 := by decide

theorem test_clZero17 : onNext (fun t => t.dyLens.length) (exec .clZero17 (withInput [7, 0, 0, 0] 0 0)) = some 10 := by decide

theorem test_clZero18 : onNext (fun t => t.dyLens.length) (exec .clZero18 (withInput [0x7F, 0, 0, 0] 0 0)) = some 138 := by decide

/-! ## The port: 95_test_vectors.md 2.6, 2.8 and the programs -/

/-- P1, step 1. -/
theorem test_step_header :
    portView (step { withInput (hdr ++ [0x4B]) 0 0 with commands := [0x01] }) =
      some (some (.header hdr), 0x00000011, 10, 0) := by decide

/-- S7: empty input. -/
theorem test_step_empty :
    portView (step (State.reset.withFetchWord 8 0x01)) = some (some (.error 3), 0x00000060, 0, 0) := by decide

/-- BT3: a reserved block type. -/
theorem test_step_reserved :
    portView (step (inBlock [0x07, 0, 0, 0] 0x01)) = some (some (.error 5), 0x180000B9, 0, 3) := by decide

/-- P2, step 2: a stored block that is not final. -/
theorem test_step_stored :
    portView (step (inBlock [0x00, 0x02, 0x00, 0xFD, 0xFF, 0x48, 0x69] 0x01)) =
      some (some (.data [0x48, 0x69]), 0x00000811, 7, 0) := by decide

/-- S2: the length and its complement do not match. -/
theorem test_step_mismatch :
    portView (step (inBlock [0x01, 0x02, 0x00, 0xFC, 0xFF, 0x48, 0x69] 0x01)) = some (some (.error 6), 0x000000D9, 5, 0) := by
  decide

/-- P3, step 2: a dynamic block. -/
theorem test_step_dynamic :
    portView (step (inBlock [0x15, 0xC2, 0x37, 0x0D, 0, 0, 0, 0x02, 0x30, 0xAD, 0x4C, 0xFF, 0xFF, 0x45, 0x48, 0x0A, 0xCA,
        0xB9, 0x01, 0x97, 0x51, 0x4A, 0xED] 0x01)) =
      some (some (.data [0x61, 0x62, 0x63, 0x64, 0x65, 0x63, 0x64, 0x65, 0x63]), 0x1000241C, 18, 2) := by decide +kernel

/-- R104, R110: a fixed block with a literal and symbol 286. -/
theorem test_step_fixed_raises :
    portView (step (inBlock [0x73, 0x1C, 0x03, 0, 0] 0x01)) = some (some (.error 14), 0x180001D9, 2, 3) := by decide +kernel

/-- P1, step 3: the footer. -/
theorem test_step_footer :
    portView (step { withInput [0x86, 0x20, 0x00, 0x18, 0x48, 0x2D, 0x46, 9, 0, 0, 0] 2 6 with
        prState := .footer, prSeen := true, winBound := 9, commands := [0x01] }) =
      some (some (.footer 0x462D4818 9), 0x00000010, 11, 0) := by decide

/-- R142: a latched error is sent again. -/
theorem test_latched_step : portView (step (latchedNine 0x01)) = some (some (.error 9), 0x00000120, 0, 0) := by decide

/-- R137: an illegal command leaves it. -/
theorem test_latched_illegal : portView (step (latchedNine 0x05)) = some (some (.error 16), 0x00000120, 0, 0) := by decide

/-- R136: STATUS shows it. -/
theorem test_latched_status :
    portView (step (latchedNine 0x02)) = some (some (.status 0x00000120), 0x00000120, 0, 0) := by decide

/-- R134: RESET clears it. -/
theorem test_latched_reset : portView (step (latchedNine 0x00)) = some (some .ok, 0, 0, 0) := by decide

/-- R137: bit 4 set. -/
theorem test_badhigh : portView (step (State.reset.withFetchWord 8 0x11)) = some (some (.error 16), 0, 0, 0) := by decide

/-- A word placed in each form of the table is what the next step runs. -/
theorem test_withFetchWord :
    onNext State.prErr (step (State.reset.withFetchWord 16 0x11E)) = some 14 ∧
    onNext State.lzCur (step (State.reset.withFetchWord 16 0x61)) = some 1 ∧
    onNext State.dyHclen (step (State.reset.withFetchWord 16 0x3800)) = some 18 ∧
    onNext State.prErr (step (State.reset.withFetchWord 32 1)) = some 6 := by decide

/-- R99, R106: a symbol past its alphabet takes the last arm of the rule that reads it. -/
theorem test_past_alphabet :
    onNext State.prErr (step (placeElement (.litlenSymbol 288) State.reset)) = some 14 ∧
    onNext State.prErr (step (placeElement (.distSymbol 32) State.reset)) = some 15 := by decide

/-- R21: the result of a decode call is not kept after its step, and a decode call alone leaves it. -/
theorem test_lzResult_dropped :
    onNext State.lzResult (exec .step { inBlock [0, 0, 0, 0] 0x01 with prState := .inflate, llDec := some (oneCode 256) }) =
      some none ∧
    onNext State.lzResult (exec .lz77Decode { inBlock [0, 0, 0, 0] 0x01 with llDec := some (oneCode 256) }) =
      some (some .done) := by decide

/-! ## Witnesses: for each statement, states and operands that meet its hypotheses, clause by clause -/

/-- Hypotheses of `StepRunsHeadCommand`. -/
theorem witness_StepRunsHeadCommand :
    (latchedNine 0xFF).fetchPoint = .port ∧ (latchedNine 0xFF).commands = 0xFF :: [] ∧
    State.reset.fetchPoint = .port ∧ State.reset.commands = [] := by decide

/-- Hypotheses of `StepRunsFetchedElement`, clause by clause: a stream element, an internal operation, a value past each
alphabet, and an index past the operations. -/
theorem witness_StepRunsFetchedElement :
    (∃ (s u : State) (i : Instr), fetchElement s = .ok (some (.litlenSymbol 287)) u ∧
      decode (.litlenSymbol 287) = some i) ∧
    (∃ (s u : State) (i : Instr), fetchElement s = .ok (some (.internalOp 0x18 someArgs)) u ∧
      decode (.internalOp 0x18 someArgs) = some i) ∧
    (∃ s u, fetchElement s = .ok (some (.clSymbol 19)) u) ∧ (∃ s u, fetchElement s = .ok (some (.litlenSymbol 288)) u) ∧
    (∃ s u, fetchElement s = .ok (some (.distSymbol 32)) u) ∧
    (∃ s u, fetchElement s = .ok (some (.internalOp 0x19 someArgs)) u ∧ 0x19 ≤ (0x19#8).toNat) :=
  ⟨⟨State.reset.withFetchWord 16 287, _, .ll287, rfl, rfl⟩,
   ⟨{ State.reset with fetchPoint := .internalOp 0x18 someArgs }, _, .dataEmission 5, rfl, by decide⟩,
   ⟨placeElement (.clSymbol 19) State.reset, _, rfl⟩, ⟨placeElement (.litlenSymbol 288) State.reset, _, rfl⟩,
   ⟨placeElement (.distSymbol 32) State.reset, _, rfl⟩,
   ⟨{ State.reset with fetchPoint := .internalOp 0x19 someArgs }, _, rfl, by decide⟩⟩

/-- Hypothesis of `DecodeEncode`, at operands on the edge of their ranges. -/
theorem witness_DecodeEncode :
    (Instr.consume 32).wellFormed = true ∧ (Instr.slide 98304).wellFormed = true ∧
    (Instr.decode (oneCode 287) 0xFFFFFFFF).wellFormed = true ∧
    (Instr.compileDecoder { entries := [⟨0, 1⟩, ⟨1, 1⟩], maxLen := 1 }).wellFormed = true := by decide

/-- Hypotheses of `EncodeDecode`. -/
theorem witness_EncodeDecode :
    (∀ w args, (Element.dynamicHeader 0x3FFF) ≠ .internalOp w args) ∧
    decode (.dynamicHeader 0x3FFF) = some (.dynamicHeader 31 31 15) :=
  ⟨fun _ _ h => (nomatch h), by decide⟩

/-- Hypotheses of `PeekReturnsStreamBits` and of `ReadBitsReturnsField`, on both sides of 4 bytes. -/
theorem witness_peek : avail (sample 1 0) = 4 ∧ avail (sample 2 0) = 3 ∧ (32 : Nat) ≤ 32 := by decide

/-- Hypotheses of `ReadExactReturnsBytes`: the last byte is the input's last, and one past it; the same past the end. -/
theorem witness_ReadExactReturnsBytes :
    4 ≤ (sample 0 3).inp.length - alignedPos (sample 0 3) ∧ (sample 0 3).inp.length - alignedPos (sample 0 3) < 5 ∧
    0 ≤ (sample 6 1).inp.length - alignedPos (sample 6 1) ∧ (sample 6 1).inp.length - alignedPos (sample 6 1) < 1 := by
  decide

/-- Hypotheses of `ReadReturnsWhatIsLeft`. -/
theorem witness_ReadReturnsWhatIsLeft :
    ((sample 5 0).inp.length - alignedPos (sample 5 0) = 0 ∧ 0 < 1 ∧ { sample 5 0 with inEnd := .ioerr }.inEnd = .ioerr) ∧
    ¬ ((sample 4 1).inp.length - alignedPos (sample 4 1) = 0 ∧ 0 < 1 ∧ (sample 4 1).inEnd = .ioerr) := by decide

/-- Hypotheses of `HasDataLeftAnswers`. -/
theorem witness_HasDataLeftAnswers :
    (sample 4 7).brPos < (sample 4 7).inp.length ∧ (sample 5 0).inp.length ≤ (sample 5 0).brPos ∧
    (sample 5 0).inEnd = .eof ∧ { sample 5 0 with inEnd := .ioerr }.inEnd = .ioerr := by decide

/-- Both sides of `BuildAcceptsExactlyKraft`: a sum of exactly 1, and one above it; 289 lengths, and 290. -/
theorem witness_BuildAcceptsExactlyKraft :
    kraftUnits [1, 2, 2] = 2 ^ 15 ∧ 2 ^ 15 < kraftUnits [1, 2, 2, 15] ∧ kraftUnits (List.replicate 289 15) ≤ 2 ^ 15 ∧
    (List.replicate 290 15).length = 290 := by decide

/-- Hypotheses of `BuiltCodesAreCanonical`, with entries of one length and of two. -/
theorem witness_BuiltCodesAreCanonical :
    ∃ b, buildCodebook [2, 1, 2] = some b ∧ b.entries[0]? = some ⟨2, 2⟩ ∧ b.entries[1]? = some ⟨0, 1⟩ ∧
      b.entries[2]? = some ⟨3, 2⟩ := ⟨⟨[⟨2, 2⟩, ⟨0, 1⟩, ⟨3, 2⟩], 2⟩, by decide⟩

/-- Hypotheses of `DecodeIsPrefixMatch`: bits with a code in front, and bits with none. -/
theorem witness_DecodeIsPrefixMatch :
    ∃ b, buildCodebook [1, 0, 2] = some b ∧ b.entries[2]? = some ⟨2, 2⟩ ∧ CodeMatches ⟨2, 2⟩ 1 ∧
      ∀ e ∈ b.entries, ¬ CodeMatches e 3 := by
  refine ⟨⟨[⟨0, 1⟩, ⟨0, 0⟩, ⟨2, 2⟩], 2⟩, by decide, by decide, ?_, ?_⟩ <;> unfold CodeMatches <;> decide

/-- Hypotheses of `CompiledDecoderHasShape`: 288 lengths. -/
theorem witness_CompiledDecoderHasShape :
    (List.replicate 288 0).length = 288 ∧ (buildCodebook (List.replicate 288 0)).isSome = true := by decide

/-- Hypotheses of `FixedCodesDecode`, at the last symbols: 287 is 11000111, 31 is 11111. -/
theorem witness_FixedCodesDecode :
    CodeMatches ⟨fixedLlCode 287, fixedLlLen 287⟩ 0b11100011 ∧ CodeMatches ⟨31, 5⟩ 0b11111 := by
  unfold CodeMatches; decide

/-- A state that reads 0 bits, with a code-length decoder under which they are symbol 18. -/
def zeros (inp : List Byte) : State := { withInput inp 0 0 with clDec := oneCode 18 }

/-- Hypotheses of `DecodeSymbolConsumesCode`, clause by clause. -/
theorem witness_DecodeSymbolConsumesCode :
    avail (zeros [0, 0, 0]) < 4 ∧
    (4 ≤ avail (zeros [1, 0, 0, 0]) ∧
      decodeBits (namedDecoder .clDec (zeros [1, 0, 0, 0])) (peekWord (zeros [1, 0, 0, 0])) = none) ∧
    (4 ≤ avail (zeros [0, 0, 0, 0]) ∧
      decodeBits (namedDecoder .clDec (zeros [0, 0, 0, 0])) (peekWord (zeros [0, 0, 0, 0])) = some (18, 1)) := by decide

/-- Hypotheses of `SlideKeepsHistory` at the window's last byte, of `WindowAddressesPastEndFault` past it, and of
`SlideIsAscendingCopy`. -/
theorem witness_slide :
    Memory.wf [(0, 1), (98303, 2)] = true ∧ (32768#17).toNat + 65536 ≤ 98304 ∧ 98304 < (32768#17).toNat + 65537 ∧
    32768 < (32768#17).toNat + 1 := by decide

/-- Hypotheses of `DataEmissionSendsThenSlides`, and past the end of `WindowAddressesPastEndFault`. -/
theorem witness_DataEmissionSendsThenSlides :
    Memory.wf State.reset.win = true ∧ State.reset.lzStart.toNat + 98304 ≤ 98304 ∧
    State.reset.winBound.toNat + 98304 ≤ 98304 ∧ 98304 < State.reset.lzStart.toNat + 98305 := by decide

/-- Hypotheses of `LiteralWritesOneByte` at the window's last byte, and of `WindowAddressesPastEndFault` past it. -/
theorem witness_LiteralWritesOneByte :
    Memory.wf State.reset.win = true ∧ (98303#17).toNat < 98304 ∧ 98304 ≤ (98304#17).toNat := by decide

/-- Reading a back-reference of 3 bytes at the distance of a symbol below 4. -/
theorem inCall_reads (ds : Nat) (hds : ds < 4) : ReadsReference 257 (inCall ds) 3 (ds + 1) (advance 1 (inCall ds)) := by
  refine ⟨by show 4 ≤ 8; decide, rfl, ds, 1, inCall ds, advance 1 (inCall ds), ?_, (by show 4 ≤ 8; decide), ?_, by omega, rfl, ?_, ?_, ?_⟩
  · interval_cases ds <;> decide
  · interval_cases ds <;> decide
  · interval_cases ds <;> decide
  · interval_cases ds <;> decide
  · interval_cases ds <;> decide

/-- Hypotheses of `BackReferenceCopies`: distance 1, all of the history, up to the window's end. -/
theorem witness_BackReferenceCopies :
    Memory.wf (inCall 0).win = true ∧ decode (.litlenSymbol 257) = some .len257 ∧
    ReadsReference 257 (inCall 0) 3 1 (advance 1 (inCall 0)) ∧ 1 ≤ (inCall 0).lzCur.toNat ∧
    (inCall 0).lzCur.toNat + 3 ≤ 98304 :=
  ⟨by decide, by decide, inCall_reads 0 (by decide), by decide, by decide⟩

/-- Hypotheses of the last clause of `WindowAddressesPastEndFault`: one byte too many. -/
theorem witness_WindowAddressesPastEndFault :
    ∃ (s u : State) (dist : Nat), ReadsReference 257 s 3 dist u ∧ dist ≤ s.lzCur.toNat ∧ 98304 < s.lzCur.toNat + 3 := by
  refine ⟨{ inCall 0 with lzCur := 98302 }, advance 1 { inCall 0 with lzCur := 98302 }, 1, ?_, by decide, by decide⟩
  refine ⟨by decide, rfl, 0, 1, { inCall 0 with lzCur := 98302 }, advance 1 { inCall 0 with lzCur := 98302 }, ?_, ?_, ?_,
    ?_, ?_, ?_, ?_, ?_⟩ <;> decide

/-- Hypotheses of `BackReferenceErrorOrder`, clause by clause: too few bytes for the length's extra bits, for the
distance's code, no code, an illegal symbol, too few bytes for the distance's extra bits, too far. -/
theorem witness_BackReferenceErrorOrder :
    avail (sample 2 0) < 4 ∧
    (4 ≤ avail (sample 1 3) ∧ avail (advance (lenExtra.getD (284 - 257) 0) (sample 1 3)) < 4) ∧
    (4 ≤ avail (sample 0 0) ∧ decodeBits (installed (sample 0 0).dDec) (peekWord (sample 0 0)) = none) ∧
    (4 ≤ avail (inCall 30) ∧ decodeBits (installed (inCall 30).dDec) (peekWord (inCall 30)) = some (30, 1)) ∧
    (4 ≤ avail { inCall 29 with brPos := 4, brOff := 7 } ∧
      decodeBits (installed (inCall 29).dDec) (peekWord { inCall 29 with brPos := 4, brOff := 7 }) = some (29, 1) ∧
      avail (advance 1 { inCall 29 with brPos := 4, brOff := 7 }) < 4) ∧
    (ReadsReference 257 (inCall 1) 3 2 (advance 1 (inCall 1)) ∧ (inCall 1).lzCur.toNat < 2) := by
  refine ⟨by decide, by decide, by decide, by decide, by decide, inCall_reads 1 (by decide), by decide⟩

/-- Hypotheses of `DistanceSymbolGivesDistance`. -/
theorem witness_DistanceSymbolGivesDistance :
    decode (.distSymbol 29) = some .dist29 ∧ decode (.distSymbol 30) = some .dist30 ∧ 4 ≤ avail (sample 1 0) ∧
    avail (sample 2 0) < 4 := by decide

/-- The state in which a decode call starts over a literal/length decoder that reads a 0 bit as end-of-block. -/
def endsAtOnce (bound : BitVec 17) : State :=
  { withInput [0, 0, 0, 0] 0 0 with llDec := some (oneCode 256), winBound := bound, lzStart := bound, lzCur := bound }

/-- Runs of both kinds, for `Lz77DecodeRunsItsSymbols` and `CodedBlocksEmitTheirRun`. -/
theorem witness_Lz77DecodeRunsItsSymbols :
    RunsSymbols (endsAtOnce 0) .done (advance 1 (endsAtOnce 0)) ∧
    RunsSymbols (endsAtOnce 98047) .windowFull (endsAtOnce 98047) :=
  ⟨.endOfBlock (by decide) rfl, .windowFull (by decide)⟩

/-- A literal, and then a symbol whose code is one bit. -/
def literalThen (sym : Nat) : Decoder :=
  { maxLen := 1, primaryBits := 1, pri := [.direct 0x41 1, .direct sym 1], sec := [], smask := 0 }

/-- The state after the literal of `literalThen`, at address 0. -/
def afterLiteral (s : State) : State := { advance 1 s with win := [(0, 0x41)], lzCur := 1 }

/-- A call over a decoder that reads a 0 bit as a literal. -/
def raisingCall (inp : List Byte) (d : Decoder) : State := { withInput inp 0 0 with llDec := some d }

/-- One literal, run as a symbol of the call, in front of the rest of it. -/
theorem raisesSymbols_literal {inp : List Byte} {d : Decoder} {x : State}
    (hd : decodeSymbol d (raisingCall inp d) = .ok 0x41 (advance 1 (raisingCall inp d)))
    (h : RaisesSymbols (afterLiteral (raisingCall inp d)) x) : RaisesSymbols (raisingCall inp d) x :=
  .symbol (i := .lit 0x41) (show windowNearlyFull State.reset = false by decide) hd (by decide) (by decide) rfl rfl h

/-- A call that raises, for `Lz77DecodeRunsItsSymbols` and `CodedBlocksEmitTheirRun`: `SRC_FAIL` on the first symbol, and
after a literal; no code after it; an illegal symbol after it; symbol 288; a length symbol whose distance has no code. -/
theorem witness_Lz77DecodeRunsItsSymbols_raises :
    RaisesSymbols (sample 2 0) (latched 2 (sample 2 0)) ∧
    RaisesSymbols { raisingCall [0, 0, 0, 0] (literalThen 256) with brOff := 7 }
      (latched 2 (afterLiteral { raisingCall [0, 0, 0, 0] (literalThen 256) with brOff := 7 })) ∧
    RaisesSymbols (raisingCall [2, 0, 0, 0] (oneCode 0x41)) (latched 8 (afterLiteral (raisingCall [2, 0, 0, 0] (oneCode 0x41)))) ∧
    (∃ x, RaisesSymbols (raisingCall [2, 0, 0, 0] (literalThen 286)) x ∧ x.prErr = 14) ∧
    (∃ x, RaisesSymbols (raisingCall [2, 0, 0, 0] (literalThen 288)) x ∧ x.prErr = 14) ∧
    (∃ x, RaisesSymbols (raisingCall [2, 0, 0, 0] (literalThen 257)) x ∧ x.prErr = 8) := by
  refine ⟨.source (by decide) (by decide), ?_, raisesSymbols_literal rfl (.noCode (by decide) (by decide) (by decide)),
    ⟨_, raisesSymbols_literal rfl (.raised (i := .ll286) (by decide) rfl (by decide) rfl (by decide)), rfl⟩,
    ⟨_, raisesSymbols_literal rfl (.raised (i := .ll287) (by decide) rfl (by decide) rfl (by decide)), rfl⟩,
    ⟨_, raisesSymbols_literal rfl (.raised (i := .len257) (by decide) rfl (by decide) rfl (by decide)), rfl⟩⟩
  exact .symbol (i := .lit 0x41) (by decide) rfl (by decide) (by decide) rfl rfl (.source (by decide) (by decide))

/-- Hypotheses of `WindowFullBoundary`. -/
theorem witness_WindowFullBoundary :
    98046 < (endsAtOnce 98047).winBound.toNat ∧ (endsAtOnce 98046).winBound.toNat ≤ 98046 ∧ avail (sample 2 0) < 4 := by
  decide

/-- Hypotheses of `CodeLengthSymbolsAppend`. -/
theorem witness_CodeLengthSymbolsAppend :
    decode (.clSymbol 15) = some .clLen15 ∧ ({ sample 1 0 with dyLens := [3, 5] } : State).dyLens.getLast? = some 5 ∧
    4 ≤ avail (sample 1 0) ∧ (sample 1 0).dyLens = [] ∧ avail (sample 2 0) < 4 := by decide

/-! Dynamic headers whose code-length code has two symbols of one bit each. -/

/-- The loop of 46_dynamic_codebook.md R129 as a run, computed. -/
def lensRun : Nat → State → Option State
  | 0, s => if lensTotal s ≤ s.dyLens.length then some s else none
  | n + 1, s =>
    if lensTotal s ≤ s.dyLens.length then some s
    else
      match decodeSymbol s.clDec s with
      | .ok v s₁ =>
        if v ≤ 18 then
          match clSymbol v s₁ with
          | .ok () s₂ => if s₂.responses = s₁.responses then lensRun n s₂ else none
          | _ => none
        else none
      | _ => none

/-- What it computes is a run. -/
theorem runsLengths_of_lensRun {n : Nat} {s t : State} (h : lensRun n s = some t) : RunsLengths s t := by
  induction n generalizing s with
  | zero =>
    rw [lensRun] at h
    split at h
    next hl => cases h; exact .reached hl
    next => cases h
  | succ n ih =>
    rw [lensRun] at h
    split at h
    next hl => cases h; exact .reached hl
    next hl =>
      split at h
      next v s₁ hd =>
        split at h
        next hv =>
          split at h
          next s₂ hc =>
            split at h
            next hr =>
              obtain ⟨i, hi, he⟩ : ∃ i, decode (.clSymbol v) = some i ∧ exec i s₁ = deliverUnit (clSymbol v s₁) := by
                interval_cases v <;> exact ⟨_, rfl, rfl⟩
              exact .symbol (by omega) hd hi (by rw [he, hc]; rfl) hr (ih h)
            next => cases h
          next => cases h
        next => cases h
      next => cases h

/-- The state after `n` bits from `s`, with the given lengths read. -/
def dynAt (cl : List (BitVec 3)) (b : Codebook) (n : Nat) (lens : List (BitVec 4)) (s : State) : State :=
  { lengthsStart cl b s with brPos := (advance n s).brPos, brOff := (advance n s).brOff, dyLens := lens }

/-- Code-length symbols 1 and 18: the lengths and the codebook. -/
def clA : List (BitVec 3) := [0, 1, 0, 0, 0, 0, 0, 0, 0, 0, 0, 0, 0, 0, 0, 0, 0, 0, 1]

/-- See `clA`. -/
def bookA : Codebook := ⟨⟨0, 0⟩ :: ⟨0, 1⟩ :: (List.replicate 16 ⟨0, 0⟩ ++ [⟨1, 1⟩]), 1⟩

/-- Code-length symbols 17 and 18: the lengths and the codebook. -/
def clB : List (BitVec 3) := [0, 0, 0, 0, 0, 0, 0, 0, 0, 0, 0, 0, 0, 0, 0, 0, 0, 1, 1]

/-- See `clB`. -/
def bookB : Codebook := ⟨List.replicate 17 ⟨0, 0⟩ ++ [⟨0, 1⟩, ⟨1, 1⟩], 1⟩

/-- 257 and 1 lengths: 256 zeros, a length of 1 for end-of-block and one for distance 0; then the bit of
end-of-block. -/
def dynStart : State :=
  withInput [0x00, 0x38, 0x10, 0, 0, 0, 0, 0, 0xF2, 0x7F, 0x0D, 0, 0, 0, 0, 0] 0 0

/-- The same header, and then a bit that is no code. -/
def dynNoCode : State :=
  withInput [0x00, 0x38, 0x10, 0, 0, 0, 0, 0, 0xF2, 0x7F, 0x4D, 0, 0, 0, 0, 0] 0 0

/-- Those headers, each on its own and after its block header. -/
def dynHeaders : List State :=
  [dynStart, withBlockHeader 0b100 true dynStart, dynNoCode, withBlockHeader 0b100 true dynNoCode]

/-- The lengths of that header. -/
def dynLens : List (BitVec 4) := List.replicate 256 0 ++ [1, 1]

/-- Two repeats of 138 zeros: past the count of 258. -/
def dynLong : State := withInput [0x00, 0x00, 0x12, 0xFC, 0xFF, 0x03, 0, 0, 0, 0] 0 0

/-- 254 zeros and four lengths of 1, three of them literal/length lengths. -/
def dynOver : State :=
  withInput [0x00, 0x38, 0x10, 0, 0, 0, 0, 0, 0xF2, 0x3F, 0x0D, 0, 0, 0, 0, 0] 0 0

/-- 256 zeros, a length of 1 for end-of-block, and three distance lengths of 1. -/
def dynOverDist : State :=
  withInput [0x40, 0x38, 0x10, 0, 0, 0, 0, 0, 0xF2, 0x7F, 0x0D, 0, 0, 0, 0, 0] 0 0

/-- The headers are read up to their lengths. -/
theorem dyn_parsesLengths : ∀ s ∈ dynHeaders, ParsesLengths s (dynAt clA bookA 86 dynLens s) := by
  have h : ∀ s ∈ dynHeaders, CountsThere s ∧ ValuesThere (clCount s) s ∧
      (∀ i < 19, clA.getD (clPerm.getD i 0) 0 =
        if i < clCount s then BitVec.ofNat 3 (fieldValue 3 (advance (14 + 3 * i) s)) else 0) ∧
      lensRun 9 (lengthsStart clA bookA s) = some (dynAt clA bookA 86 dynLens s) := by decide +kernel
  intro s hs
  obtain ⟨h1, h2, h3, h4⟩ := h s hs
  exact ⟨h1, h2, clA, bookA, ⟨rfl, h3⟩, by decide +kernel, runsLengths_of_lensRun h4⟩

/-- The two codebooks: end-of-block alone, and distance 0 alone. -/
def dynLl : Codebook := ⟨List.replicate 256 ⟨0, 0⟩ ++ [⟨0, 1⟩], 1⟩

/-- See `dynLl`. -/
def dynD : Codebook := ⟨[⟨0, 1⟩], 1⟩

/-- The headers parse to those codebooks. -/
theorem dyn_parsesDynamic (s : State) (hs : s ∈ dynHeaders) :
    ParsesDynamic s (dynAt clA bookA 86 dynLens s) dynLl dynD := by
  have h : ∀ s ∈ dynHeaders, (dynAt clA bookA 86 dynLens s).dyLens.length = lensTotal (dynAt clA bookA 86 dynLens s) ∧
      (dynAt clA bookA 86 dynLens s).dyHlit = 257 := by decide +kernel
  have hl : buildCodebook ((dynLens.take 257).map BitVec.toNat) = some dynLl ∧
      buildCodebook ((dynLens.drop 257).map BitVec.toNat) = some dynD := by decide +kernel
  refine ⟨dyn_parsesLengths s hs, (h s hs).1, ?_, ?_⟩ <;> rw [(h s hs).2]
  exacts [hl.1, hl.2]

/-- Hypotheses of `ParseDynamicBuildsDecoders`. -/
theorem witness_ParseDynamicBuildsDecoders :
    ParsesDynamic dynStart (dynAt clA bookA 86 dynLens dynStart) dynLl dynD := dyn_parsesDynamic _ (.head _)

/-- The state in which the decode call starts after such a header, `n` bits on. -/
def dynCall (n : Nat) (s : State) : State :=
  { callStart (dynAt clA bookA n dynLens s) with
    llDec := some (compileDecoder dynLl), dDec := some (compileDecoder dynD) }

/-- The calls that follow those headers: the first two end, and the others have no code to read. -/
theorem dyn_runsSymbols :
    (∀ s ∈ dynHeaders.take 2, RunsSymbols (dynCall 86 s) .done (dynCall 87 s)) ∧
    (∀ s ∈ dynHeaders.drop 2, RaisesSymbols (dynCall 86 s) (latched 8 (dynCall 86 s))) := by
  have h1 : ∀ s ∈ dynHeaders.take 2, windowNearlyFull (dynCall 86 s) = false ∧
      decodeSymbol (compileDecoder dynLl) (dynCall 86 s) = .ok 256 (dynCall 87 s) := by decide +kernel
  have h2 : ∀ s ∈ dynHeaders.drop 2, windowNearlyFull (dynCall 86 s) = false ∧ 4 ≤ avail (dynCall 86 s) ∧
      decodeBits (compileDecoder dynLl) (peekWord (dynCall 86 s)) = none := by decide +kernel
  exact ⟨fun s hs => .endOfBlock (h1 s hs).1 (h1 s hs).2, fun s hs => .noCode (h2 s hs).1 (h2 s hs).2.1 (h2 s hs).2.2⟩

/-- Hypotheses of `ParseDynamicRejectsLengths`: lengths past the count, literal/length lengths that build nothing, and
distance lengths that build nothing. -/
theorem witness_ParseDynamicRejectsLengths :
    (∃ t, ParsesLengths dynLong t ∧ t.dyLens.length ≠ lensTotal t) ∧
    (∃ t, ParsesLengths dynOver t ∧ t.dyLens.length = lensTotal t ∧
      buildCodebook ((t.dyLens.take t.dyHlit.toNat).map BitVec.toNat) = none) ∧
    (∃ t, ParsesLengths dynOverDist t ∧ t.dyLens.length = lensTotal t ∧
      buildCodebook ((t.dyLens.drop t.dyHlit.toNat).map BitVec.toNat) = none) := by
  refine ⟨⟨dynAt clB bookB 42 (List.replicate 276 0) dynLong, ⟨?_, ?_, clB, bookB, ⟨rfl, ?_⟩, ?_,
      runsLengths_of_lensRun (n := 9) ?_⟩, ?_⟩,
    ⟨dynAt clA bookA 88 (List.replicate 254 0 ++ [1, 1, 1, 1]) dynOver, ⟨?_, ?_, clA, bookA, ⟨rfl, ?_⟩, ?_,
      runsLengths_of_lensRun (n := 9) ?_⟩, ?_, ?_⟩,
    ⟨dynAt clA bookA 88 (List.replicate 256 0 ++ [1, 1, 1, 1]) dynOverDist, ⟨?_, ?_, clA, bookA, ⟨rfl, ?_⟩, ?_,
      runsLengths_of_lensRun (n := 9) ?_⟩, ?_, ?_⟩⟩ <;> decide +kernel

/-- Code-length symbols 16, 17 and 18 of one bit each, which over-subscribe. -/
def clOver : List (BitVec 3) := List.replicate 16 0 ++ [1, 1, 1]

/-- The header of 46_dynamic_codebook.md R132 with those lengths. -/
def dynClOver : State := withInput [0x05, 0x00, 0x92, 0x00, 0, 0, 0, 0] 0 3

/-- Code-length symbol 16 alone: the lengths and the codebook. -/
def cl16 : List (BitVec 3) := List.replicate 16 0 ++ [1, 0, 0]

/-- See `cl16`. -/
def book16 : Codebook := ⟨List.replicate 16 ⟨0, 0⟩ ++ [⟨0, 1⟩, ⟨0, 0⟩, ⟨0, 0⟩], 1⟩

/-- A header with that code, followed by `n` bytes and, in its last byte, a 0 bit: symbol 16. -/
def dyn16 (n : Nat) : State := withInput ([0x00, 0x40, 0x00, 0x00] ++ List.replicate n 0) 0 0

/-- No code-length code at all. -/
def bookNone : Codebook := ⟨List.replicate 19 ⟨0, 0⟩, 0⟩

/-- Hypotheses of `ParseDynamicErrorOrder`, clause by clause; the last three where the loop starts. -/
theorem witness_ParseDynamicErrorOrder :
    avail (sample 2 0) < 4 ∧
    (4 ≤ avail (sample 1 3) ∧ avail (advance 5 (sample 1 3)) < 4) ∧
    (4 ≤ avail (sample 1 0) ∧ 4 ≤ avail (advance 5 (sample 1 0)) ∧ avail (advance 10 (sample 1 0)) < 4) ∧
    (1 < clCount (sample 0 0) ∧ CountsThere (sample 0 0) ∧ ValuesThere 1 (sample 0 0) ∧
      avail (advance 17 (sample 0 0)) < 4) ∧
    (CountsThere dynClOver ∧ ValuesThere (clCount dynClOver) dynClOver ∧ GivesClLengths clOver dynClOver ∧
      buildCodebook (clOver.map BitVec.toNat) = none) ∧
    (∀ n, n = 2 ∨ n = 4 → CountsThere (dyn16 n) ∧ ValuesThere (clCount (dyn16 n)) (dyn16 n) ∧
      GivesClLengths cl16 (dyn16 n) ∧ buildCodebook (cl16.map BitVec.toNat) = some book16 ∧
      RunsSomeLengths (lengthsStart cl16 book16 (dyn16 n)) (lengthsStart cl16 book16 (dyn16 n)) ∧
      (lengthsStart cl16 book16 (dyn16 n)).dyLens.length < lensTotal (lengthsStart cl16 book16 (dyn16 n))) ∧
    avail (lengthsStart cl16 book16 (dyn16 2)) < 4 ∧
    (∃ u x, decodeSymbol (compileDecoder book16) (lengthsStart cl16 book16 (dyn16 4)) = .ok 16 u ∧
      decode (.clSymbol 16) = some .clRepeat16 ∧ exec .clRepeat16 u = .next x ∧ x.responses ≠ u.responses) ∧
    (let s := withInput [0, 0, 0, 0, 0, 0, 0, 0] 0 0
     let t := lengthsStart (List.replicate 19 0) bookNone s
     CountsThere s ∧ ValuesThere (clCount s) s ∧ GivesClLengths (List.replicate 19 0) s ∧
      buildCodebook ((List.replicate 19 (0 : BitVec 3)).map BitVec.toNat) = some bookNone ∧ RunsSomeLengths t t ∧
      t.dyLens.length < lensTotal t ∧ 4 ≤ avail t ∧ decodeBits t.clDec (peekWord t) = none) := by
  refine ⟨by decide, by decide, by decide, ?_, ⟨?_, ?_, ⟨rfl, ?_⟩, ?_⟩, ?_, by decide +kernel,
    ⟨_, _, rfl, by decide, rfl, by decide +kernel⟩, ?_, ?_, ⟨rfl, ?_⟩, ?_, .start, ?_, ?_, ?_⟩
  case refine_6 =>
    rintro n (rfl | rfl) <;> refine ⟨?_, ?_, ⟨rfl, ?_⟩, ?_, .start, ?_⟩ <;> decide +kernel
  all_goals decide +kernel

/-- Hypotheses of `HeaderStepCases`, clause by clause; the last with 9 bytes. -/
theorem witness_HeaderStepCases :
    (State.reset.inp.length ≤ State.reset.brPos ∧ ({ State.reset with inEnd := .ioerr } : State).inEnd = .ioerr) ∧
    (State.reset.inEnd = .eof ∧ State.reset.prSeen = false) ∧
    ({ State.reset with prSeen := true } : State).prSeen = true ∧
    ((withInput hdr 0 0).brPos < (withInput hdr 0 0).inp.length ∧
      hdrParse (withInput hdr 0 0) = .ok hdr (withInput hdr 10 0)) ∧
    ((withInput (hdr.take 9) 0 0).brOff = 0 ∧ 0 < (withInput (hdr.take 9) 0 0).inp.length ∧
      (withInput (hdr.take 9) 0 0).inp.length < 0 + 10) := by decide

/-- Hypotheses of `IllegalFlagByteRaises`. -/
theorem witness_IllegalFlagByteRaises :
    (withInput [0x1F, 0x8B, 8, 0x20, 0, 0, 0, 0, 0, 0xFF] 0 0).brOff = 0 ∧
    0 + 10 ≤ (withInput [0x1F, 0x8B, 8, 0x20, 0, 0, 0, 0, 0, 0xFF] 0 0).inp.length ∧
    (withInput [0x1F, 0x8B, 8, 0x20, 0, 0, 0, 0, 0, 0xFF] 0 0).inp.getD 3 0 &&& 0xE0 ≠ 0 := by decide

/-- Hypotheses of `ReferenceHeaderRead`. -/
theorem witness_ReferenceHeaderRead :
    (withInput hdr 0 0).hdrParse = .reference ∧ (withInput hdr 0 0).brOff = 0 ∧ 0 + 10 ≤ (withInput hdr 0 0).inp.length ∧
    inBytes 0 10 (withInput hdr 0 0) = [0x1F, 0x8B, 8, 0] ++ [0, 0, 0, 0, 0, 0xFF] := by decide

/-- Hypotheses of `BlockStepRunsItsHeader`. -/
theorem witness_BlockStepRunsItsHeader :
    avail (sample 2 0) < 4 ∧ 4 ≤ avail (sample 1 0) ∧
    decode (.blockHeader (BitVec.ofNat 3 (fieldValue 3 (sample 1 0)))) = some (.blockDynamic false) := by decide

/-- A stored block of two bytes, from its header on, ending with the input. -/
def stored : State := withInput [0x01, 0x02, 0x00, 0xFD, 0xFF, 0x48, 0x69] 0 0

/-- Hypotheses of `StoredBlockSendsAllBytes`, clause by clause; each block ends at the input's last byte. -/
theorem witness_StoredBlockSendsAllBytes :
    (Memory.wf stored.win = true ∧ stored.winBound.toNat + (2#16).toNat ≤ 98304) ∧
    (2#16).toNat ≤ stored.inp.length - alignedPos { stored with brPos := 5 } ∧
    HoldsStored (alignedPos { stored with brPos := 1 }) 2 { stored with brPos := 1 } ∧
    (4 ≤ avail stored ∧ streamBit 0 stored = true ∧ streamBit 1 stored = false ∧ streamBit 2 stored = false ∧
      HoldsStored (alignedPos (advance 3 stored)) 2 stored) :=
  ⟨by decide, by decide, ⟨by decide, by decide⟩, by decide, by decide, by decide, by decide, ⟨by decide, by decide⟩⟩

/-- A stored block cut to its first bytes, from its header on. -/
def storedCut (n : Nat) : State := { stored with inp := stored.inp.take n }

/-- Hypotheses of `StoredHeaderErrors`, clause by clause: one byte of data too few; then, with the length fields read,
one byte of the fields too few, one bit of the complement wrong, one byte of data too few; the same as a Block step. -/
theorem witness_StoredHeaderErrors :
    ((0xFFFC#16 ≠ ~~~(2#16)) ∧ (0xFFFD#16 = ~~~(2#16)) ∧
      stored.inp.length - alignedPos { stored with brPos := 6 } < (2#16).toNat) ∧
    (let s := storedCut 4; s.inp.length < alignedPos (advance 3 s) + 4 ∧ 4 ≤ avail s) ∧
    (let s := { stored with inp := [0x01, 0x02, 0x00, 0xFC, 0xFF, 0x48, 0x69] }
     HoldsLengths (alignedPos (advance 3 s)) 2 0xFFFC s ∧ 4 ≤ avail s) ∧
    (let s := storedCut 6
     HoldsLengths (alignedPos (advance 3 s)) 2 (~~~2) s ∧ s.inp.length < alignedPos (advance 3 s) + 4 + (2#16).toNat ∧
      4 ≤ avail s ∧ streamBit 0 s = true ∧ streamBit 1 s = false ∧ streamBit 2 s = false) := by
  decide

/-- S2 of 95_test_vectors.md and the cuts of its property X5, on those inputs: the cursor and the length registers after the raise. -/
theorem test_stored_raises :
    [storedCut 4, { stored with inp := [0x01, 0x02, 0x00, 0xFC, 0xFF, 0x48, 0x69] }, storedCut 6].map
        (fun s => onNext (fun t => (t.prErr, t.brPos, t.stLen, t.stNlen, t.prFinal)) (exec .blockStep s)) =
      [some (2, 1, 0, 0, true), some (6, 5, 2, 0xFFFC, true), some (2, 5, 2, 0xFFFD, true)] := by decide

/-- A call from the boundary 32768 on over decoders that read a 0 bit as the longest length and as distance 1, after
`k` back-references. The window holds zeros, so copying them leaves it as it is. -/
def filling (k : Nat) : State :=
  { withInput (List.replicate 68 0) (2 * k / 8) (BitVec.ofNat 3 (2 * k)) with
    llDec := some (oneCode 285), dDec := some (oneCode 0), winBound := 32768, lzStart := 32768,
    lzCur := BitVec.ofNat 17 (32768 + 258 * k) }

theorem copyBytes_zeros (dist length pos : Nat) : copyBytes dist length pos [] = [] := by
  induction length generalizing pos with
  | zero => rfl
  | succ length ih => rw [copyBytes]; exact ih (pos + 1)

theorem filling_reads : ∀ k < 254, windowNearlyFull (filling k) = false ∧
    decodeSymbol (oneCode 285) (filling k) = .ok 285 (advance 1 (filling k)) ∧
    readBits 0 (advance 1 (filling k)) = .ok 0 (advance 1 (filling k)) ∧
    readDistance (advance 1 (filling k)) = .ok 1 (advance 2 (filling k)) ∧
    (filling k).lzCur.toNat + 258 ≤ 98304 ∧ 1 ≤ (filling k).lzCur.toNat ∧
    { advance 2 (filling k) with lzCur := BitVec.ofNat 17 ((filling k).lzCur.toNat + 258) } = filling (k + 1) := by
  decide +kernel

theorem filling_step {k : Nat} (hk : k < 254) : windowNearlyFull (filling k) = false ∧
    decodeSymbol (installed (filling k).llDec) (filling k) = .ok 285 (advance 1 (filling k)) ∧
    backReference 285 (advance 1 (filling k)) = .ok () (filling (k + 1)) := by
  obtain ⟨h1, h2, h3, h4, h5, h6, h7⟩ := filling_reads k hk
  refine ⟨h1, h2, ?_⟩
  show (readBits 0 _).bind _ = _
  rw [h3, Res.ok_bind, h4, Res.ok_bind, advance_lzCur, if_neg (by omega), copyBack]
  show (if (filling k).lzCur.toNat + 258 ≤ 98304 then
    Res.ok () { advance 2 (filling k) with
      win := copyBytes 1 258 _ [], lzCur := BitVec.ofNat 17 ((filling k).lzCur.toNat + 258) } else _) = _
  rw [if_pos h5, copyBytes_zeros, ← h7]; rfl

theorem filling_runs {k : Nat} (hk : k ≤ 254) : RunsSymbols (filling (254 - k)) .windowFull (filling 254) := by
  induction k with
  | zero => exact .windowFull (by decide +kernel)
  | succ k ih =>
    obtain ⟨h1, h2, h3⟩ := filling_step (k := 254 - (k + 1)) (by omega)
    rw [show 254 - (k + 1) + 1 = 254 - k by omega] at h3
    refine .symbol (s₂ := filling (254 - k)) (i := .len285) h1 h2 (by decide) (by decide) ?_ rfl (ih (by omega))
    show deliverUnit (backReference 285 _) = _
    rw [h3]; rfl

/-- A call that fills the window from the boundary D on, for `CodedBlocksEmitTheirRun`. -/
theorem witness_CodedBlocksEmitTheirRun_windowFull :
    Memory.wf (filling 0).win = true ∧ (filling 0).winBound.toNat ≤ 32768 ∧
    RunsSymbols (callStart (filling 0)) .windowFull (filling 254) :=
  ⟨by decide, by decide, filling_runs (Nat.le_refl 254)⟩

/-- What the fixed decoder reads from a state, by the bits it finds there. -/
theorem fixed_decodeSymbol {s : State} {bits : BitVec 32} {sym len : Nat} (ha : 4 ≤ avail s) (hp : peekWord s = bits)
    (hd : decodeBits fixedLlDec bits = some (sym, len)) :
    decodeSymbol (installed (withFixedDecoders s).llDec) (withFixedDecoders s) =
      .ok sym (advance len (withFixedDecoders s)) := by
  show decodeSymbol fixedLlDec (withFixedDecoders s) = _
  rw [decodeSymbol_eq, if_neg (show ¬ avail (withFixedDecoders s) < 4 from Nat.not_lt.2 ha),
    show peekWord (withFixedDecoders s) = bits from hp, hd]

/-- Calls that return, for `CodedBlocksEmitTheirRun`, clause by clause. -/
theorem witness_CodedBlocksEmitTheirRun :
    (Memory.wf (endsAtOnce 32768).win = true ∧ (endsAtOnce 32768).winBound.toNat ≤ 32768) ∧
    RunsSymbols (callStart (endsAtOnce 32768)) .done (advance 1 (endsAtOnce 32768)) ∧
    RunsSymbols (withFixedDecoders (callStart (endsAtOnce 0))) .done (advance 7 (withFixedDecoders (endsAtOnce 0))) ∧
    RunsSymbols (withFixedDecoders (withBlockHeader 0b010 true (callStart (endsAtOnce 0)))) .done
      (advance 7 (withFixedDecoders (withBlockHeader 0b010 true (endsAtOnce 0)))) ∧
    (∃ p ll d u, ParsesDynamic dynStart p ll d ∧
      RunsSymbols { callStart p with llDec := some (compileDecoder ll), dDec := some (compileDecoder d) } .done u) ∧
    (∃ p ll d u, ParsesDynamic (withBlockHeader 0b100 true dynStart) p ll d ∧
      RunsSymbols { callStart p with llDec := some (compileDecoder ll), dDec := some (compileDecoder d) } .done u) := by
  have h : decodeBits fixedLlDec 0 = some (256, 7) := test_fixed_decoders.2.1
  exact ⟨by decide, .endOfBlock (by decide) rfl,
    .endOfBlock (by decide) (fixed_decodeSymbol (s := callStart (endsAtOnce 0)) (by decide) (by decide) h),
    .endOfBlock (by decide)
      (fixed_decodeSymbol (s := withBlockHeader 0b010 true (callStart (endsAtOnce 0))) (by decide) (by decide) h),
    ⟨_, _, _, _, dyn_parsesDynamic _ (by simp [dynHeaders]), dyn_runsSymbols.1 _ (by simp [dynHeaders])⟩,
    ⟨_, _, _, _, dyn_parsesDynamic _ (by simp [dynHeaders]), dyn_runsSymbols.1 _ (by simp [dynHeaders])⟩⟩

/-- An instruction that sends a response. -/
def responds (i : Instr) (s : State) : Bool :=
  match exec i s with
  | .next x => x.responses != s.responses
  | .fault _ => false
  | .refused _ => false

theorem exec_of_responds {i : Instr} {s : State} (h : responds i s = true) :
    ∃ x, exec i s = .next x ∧ x.responses ≠ s.responses := by
  unfold responds at h
  cases he : exec i s with
  | next x => rw [he] at h; exact ⟨x, rfl, by simpa using h⟩
  | fault f => rw [he] at h; cases h
  | refused r => rw [he] at h; cases h

/-- Calls and dynamic headers that raise, for `CodedBlocksEmitTheirRun`, clause by clause: the bits after a literal are
no code; symbol 286 under the fixed decoders; a bit that is no code after a dynamic header; a first symbol 16 in one. -/
theorem witness_CodedBlocksEmitTheirRun_raises :
    (∃ x, RaisesSymbols (callStart (raisingCall [2, 0, 0, 0] (oneCode 0x41))) x) ∧
    (∃ x, RaisesSymbols (withFixedDecoders (callStart (withInput [0x63, 0, 0, 0] 0 0))) x) ∧
    (∃ x, RaisesSymbols (withFixedDecoders (withBlockHeader 0b010 true (callStart (withInput [0x63, 0, 0, 0] 0 0)))) x) ∧
    (∃ p ll d x, ParsesDynamic dynNoCode p ll d ∧
      RaisesSymbols { callStart p with llDec := some (compileDecoder ll), dDec := some (compileDecoder d) } x) ∧
    (∃ p ll d x, ParsesDynamic (withBlockHeader 0b100 true dynNoCode) p ll d ∧
      RaisesSymbols { callStart p with llDec := some (compileDecoder ll), dDec := some (compileDecoder d) } x) ∧
    (∃ x, exec .parseDynamic (dyn16 4) = .next x ∧ x.responses ≠ (dyn16 4).responses) ∧
    (∃ x, exec .parseDynamic (withBlockHeader 0b100 true (dyn16 4)) = .next x ∧
      x.responses ≠ (withBlockHeader 0b100 true (dyn16 4)).responses) := by
  have h : decodeBits fixedLlDec 0x63 = some (286, 8) := test_fixed_decoders.2.2
  exact ⟨⟨_, witness_Lz77DecodeRunsItsSymbols_raises.2.2.1⟩,
    ⟨_, .raised (i := .ll286) (by decide)
      (fixed_decodeSymbol (s := callStart (withInput [0x63, 0, 0, 0] 0 0)) (by decide) (by decide) h) (by decide) rfl
      (List.cons_ne_self _ _)⟩,
    ⟨_, .raised (i := .ll286) (by decide)
      (fixed_decodeSymbol (s := withBlockHeader 0b010 true (callStart (withInput [0x63, 0, 0, 0] 0 0))) (by decide)
        (by decide) h) (by decide) rfl (List.cons_ne_self _ _)⟩,
    ⟨_, _, _, _, dyn_parsesDynamic _ (by simp [dynHeaders]), dyn_runsSymbols.2 _ (by simp [dynHeaders])⟩,
    ⟨_, _, _, _, dyn_parsesDynamic _ (by simp [dynHeaders]), dyn_runsSymbols.2 _ (by simp [dynHeaders])⟩,
    exec_of_responds (by decide +kernel), exec_of_responds (by decide +kernel)⟩

/-- Hypotheses of `FooterAndEndSteps`: the footer's last byte is the input's last, and one byte too few. -/
theorem witness_FooterAndEndSteps :
    (let s := withInput [0x18, 0x48, 0x2D, 0x46, 9, 0, 0, 0] 0 0
     alignedPos s + 8 ≤ s.inp.length ∧
     (∀ k < 4, s.inp.getD (alignedPos s + k) 0 = (0x462D4818#32).extractLsb' (8 * k) 8) ∧
     (∀ k < 4, s.inp.getD (alignedPos s + 4 + k) 0 = (9#32).extractLsb' (8 * k) 8)) ∧
    (let s := { withInput [0, 0, 0, 0, 0, 0, 0] 0 0 with prState := .footer }
     s.prErr = 0 ∧ s.prState = .footer ∧ s.inp.length < alignedPos s + 8) := by decide

/-- A STEP at the end of the stream. -/
def atEnd : State := { State.reset with prState := .endOfStream, prSeen := true, commands := [0x01] }

/-- Hypotheses of `StepUnitsAndTransitions` and of `StepCommandDispatch`. -/
theorem witness_StepUnitsAndTransitions :
    ∃ t, atEnd.prErr = 0 ∧ atEnd.prState = .endOfStream ∧ exec .step atEnd = .next t ∧ t.prErr = 0 :=
  ⟨_, rfl, rfl, rfl, rfl⟩

/-- The same from the other states: a header, a stored block, an inflate step, a footer. -/
theorem witness_StepUnitsAndTransitions_others :
    [withInput hdr 0 0, inBlock [0, 0, 0, 0xFF, 0xFF] 0x01,
      { endsAtOnce 0 with prState := .inflate, dDec := some (oneCode 0) },
      { endsAtOnce 0 with prState := .inflateFinalBlock, prFinal := true, dDec := some (oneCode 0) },
      { withInput [0, 0, 0, 0, 0, 0, 0, 0] 0 0 with prState := .footer }].map
        (fun s => onNext (fun t => (s.prErr, t.prErr)) (exec .step s)) = List.replicate 5 (some (0, 0)) := by decide

/-- Hypotheses of `ErrorEntryIsSticky`, clause by clause. -/
theorem witness_ErrorEntryIsSticky :
    (∃ t, State.reset.prErr = 0 ∧ exec .step State.reset = .next t ∧ t.prErr ≠ 0) ∧ (latchedNine 0x01).prErr ≠ 0 ∧
    ∃ t, Instr.status ≠ .reset ∧ (latchedNine 0x02).prErr ≠ 0 ∧ exec .status (latchedNine 0x02) = .next t :=
  ⟨⟨_, rfl, rfl, by decide⟩, by decide, _, by decide, by decide, rfl⟩

/-- Hypotheses of `OneResponsePerCommand`. -/
theorem witness_OneResponsePerCommand :
    ∃ t, atEnd.fetchPoint = .port ∧ atEnd.commands = 0x01 :: [] ∧ step atEnd = .next t := ⟨_, rfl, rfl, rfl⟩

/-- Hypotheses of `InputStandsAndCursorNeverRewinds`. -/
theorem witness_InputStandsAndCursorNeverRewinds :
    ∃ t, Instr.consume 32 ≠ .reset ∧ exec (.consume 32) (sample 0 7) = .next t := ⟨_, by decide, rfl⟩

/-- Hypotheses of `IllegalCommandsChangeNothing`, at the first and the last word. -/
theorem witness_IllegalCommandsChangeNothing :
    3 ≤ (0x03#8).toNat ∧ decode (.portCmd 0x03) = some .cmdReserved3 ∧ 3 ≤ (0xFF#8).toNat ∧
    decode (.portCmd 0xFF) = some (.cmdBadhighF 0xF) := by decide

/-- The state after reset with a command to take meets the invariant: hypotheses of `StepKeepsInvariant`,
`InvariantStepsAlwaysComplete`, `StepKeepsHistory` and `FiniteInputEnds`. -/
theorem witness_invariant :
    ({ State.reset with commands := [0x01] } : State).Inv ∧ HistoryHeld { State.reset with commands := [0x01] } ∧
    ({ State.reset with commands := [0x01] } : State).prErr = 0 ∧
    ∃ t, step { State.reset with commands := [0x01] } = .next t := by
  refine ⟨⟨rfl, rfl, rfl, by decide, ⟨by decide, fun _ => rfl⟩, rfl, rfl, rfl, ?_, ?_, ?_, ?_, ?_, rfl⟩, ?_, rfl, _, rfl⟩
  · intro h; cases h
  · intro h; cases h
  · intro h; exact absurd rfl h
  · intro _; exact ⟨rfl, rfl⟩
  · intro h; cases h
  · intro _; exact ⟨rfl, rfl⟩

/-- A state in the middle of a member, with one byte of history. -/
def midMember : State := { inBlock [0, 0, 0, 0xFF, 0xFF] 0x01 with winBound := 1, win := [(0, 0x41)] }

/-- Hypotheses of `StaleWindowIsUnobservable` and of `RefillBufferIsUnobservable`: another byte above the boundary. -/
theorem witness_StaleWindowIsUnobservable :
    midMember.Inv ∧ Memory.wf [(0, 0x41), (98303, 1)] = true ∧ Memory.below 98304 [(0, 0x41), (98303, 1)] = true ∧
    (∀ a < midMember.winBound.toNat, Memory.read [(0, 0x41), (98303, 1)] a = Memory.read midMember.win a) ∧
    ∃ t, step midMember = .next t := by
  refine ⟨⟨rfl, rfl, rfl, by decide, ⟨by decide, fun _ => rfl⟩, rfl, rfl, rfl, ?_, ?_, ?_, ?_, ?_, rfl⟩, by decide, by decide,
    by decide, _, rfl⟩
  · intro h; cases h
  · intro h; cases h
  · intro _; rfl
  · intro h; cases h
  · intro h; cases h

end Sys2Proof.Tests
end

section
/-! The shape of a compiled decoder (10_state.md R24), and what a step at the command port runs
(47_port_commands.md R133 to R137). -/

namespace Sys2Proof.Machine

/-! ## A compiled decoder (10_state.md R24, 42_huffman_decoder.md R89) -/

/-- Settles O17: the decoder is `compileDecoder`'s, and its shape is that of every built codebook's tables. -/
theorem compiledDecoderHasShape : Obligations.CompiledDecoderHasShape := by
  intro b s
  exact ⟨compileDecoder b, rfl, rfl, rfl, fun _ hn hb => build_compile_wellFormed hb hn⟩

/-! ## What a step at the port runs -/

/-- What a command word does: the three commands, and every other word alike (30_encoding.md R67, R137). -/
def commandMeaning (w : BitVec 8) : State → Host.Outcome State Fault Refusal :=
  match w.toNat with
  | 0 => execReset
  | 1 => execStep
  | 2 => execStatus
  | _ => illegalCommand

theorem commandMeaning_cases (w : BitVec 8) :
    commandMeaning w = execReset ∨ commandMeaning w = execStep ∨ commandMeaning w = execStatus ∨
      commandMeaning w = illegalCommand := by
  unfold commandMeaning
  split
  · exact .inl rfl
  · exact .inr (.inl rfl)
  · exact .inr (.inr (.inl rfl))
  · exact .inr (.inr (.inr rfl))

/-- The command words 0x03 to 0x0F are illegal commands. -/
theorem exec_cmdReserved {i : Instr} (hi : i ∈ cmdInstrs.drop 3) (s : State) : exec i s = illegalCommand s := by
  simp only [cmdInstrs, List.drop_succ_cons, List.drop_zero, List.mem_cons, List.not_mem_nil, or_false] at hi
  rcases hi with rfl | rfl | rfl | rfl | rfl | rfl | rfl | rfl | rfl | rfl | rfl | rfl | rfl <;> rfl

/-- The command words whose high nibble is not 0 are illegal commands, whatever their low nibble. -/
theorem exec_cmdBadhigh {f : BitVec 4 → Instr} (hf : f ∈ badhighInstrs) (low : BitVec 4) (s : State) :
    exec (f low) s = illegalCommand s := by
  simp only [badhighInstrs, List.mem_cons, List.not_mem_nil, or_false] at hf
  rcases hf with rfl | rfl | rfl | rfl | rfl | rfl | rfl | rfl | rfl | rfl | rfl | rfl | rfl | rfl | rfl <;> rfl

/-- A command word above 0x02 is decoded to an illegal command. -/
theorem decodePortCmd_illegal {w : BitVec 8} (hw : 3 ≤ w.toNat) :
    ∃ i, decodePortCmd w = some i ∧ ∀ s, exec i s = illegalCommand s := by
  have hlt := w.isLt
  have hhigh : (w.extractLsb' 4 4).toNat = w.toNat / 16 := by
    rw [BitVec.extractLsb'_toNat, Nat.shiftRight_eq_div_pow]; omega
  have hlow : (w.extractLsb' 0 4).toNat = w.toNat % 16 := by
    rw [BitVec.extractLsb'_toNat, Nat.shiftRight_zero]
  unfold decodePortCmd
  dsimp only
  rw [hhigh, hlow]
  split
  next h0 =>
    have hn : w.toNat % 16 - 3 < (cmdInstrs.drop 3).length := by simp [cmdInstrs]; omega
    refine ⟨(cmdInstrs.drop 3)[w.toNat % 16 - 3], ?_, exec_cmdReserved (List.getElem_mem hn)⟩
    rw [← List.getElem?_eq_getElem hn, List.getElem?_drop]
    congr 1; omega
  next h0 =>
    have hn : w.toNat / 16 - 1 < badhighInstrs.length := by simp [badhighInstrs]; omega
    exact ⟨_, by rw [List.getElem?_eq_getElem hn]; rfl, exec_cmdBadhigh (List.getElem_mem hn) _⟩

theorem runElement_portCmd (w : BitVec 8) (s : State) : runElement (some (.portCmd w)) s = commandMeaning w s := by
  by_cases hw : 3 ≤ w.toNat
  · obtain ⟨i, hi, he⟩ := decodePortCmd_illegal hw
    obtain ⟨n, hn⟩ := Nat.exists_eq_add_of_le' hw
    simp only [runElement, ruleArm, decode, hi, he, commandMeaning, hn]
  · obtain ⟨n, hn, rfl⟩ : ∃ n < 3, w = BitVec.ofNat 8 n := ⟨w.toNat, by omega, by simp⟩
    interval_cases n <;> rfl

/-- With no command waiting a step at the port changes nothing (60_exceptions.md R151). -/
theorem step_idle {s : State} (hp : s.fetchPoint = .port) (hc : s.commands = []) : step s = .next s := by
  have ht : toPort s = s := by unfold toPort; rw [← hp]
  have hf : fetchElement s = .ok none s := by simp only [fetchElement, hp, hc]
  simp only [step, fetch, hf, Res.ok_bind, ht]; rfl

/-- A step at the port takes the next command and does what its word means (47_port_commands.md R133). -/
theorem step_command {s : State} {w : BitVec 8} {rest : List (BitVec 8)} (hp : s.fetchPoint = .port)
    (hc : s.commands = w :: rest) : step s = commandMeaning w { s with commands := rest } := by
  have ht : toPort { s with commands := rest } = { s with commands := rest } := by simp only [toPort, ← hp]
  have hf : fetchElement s = .ok (some (.portCmd w)) { s with commands := rest } := by
    simp only [fetchElement, hp, hc]
  simp only [step, fetch, hf, Res.ok_bind, ht, runElement_portCmd]

end Sys2Proof.Machine
end

section
/-! That every step keeps the machine's invariant (10_state.md R18, R21, R24; 40_bitreader.md R79; 43_window.md R97;
70_reset_and_hazards.md R153). -/

namespace Sys2Proof.Machine

/-! ## The invariant, operation by operation

Inside a step the invariant holds between any two operations, but for the LZ77 result, which the inflate that read it
drops (10_state.md R21): such a state is given by `dropLzResult`. -/

/-- The states in which a member's blocks are decoded, or its footer is due (45_block_producer.md R111). -/
def State.InMember (s : State) : Prop := s.prState ≠ .header ∧ s.prState ≠ .endOfStream

theorem State.Inv.bound_le {s : State} (hs : s.Inv) : s.winBound.toNat ≤ 98304 :=
  Nat.le_trans hs.boundLegal (by decide)

theorem State.Inv.respond {s : State} (hs : s.Inv) (r : Response) : (respond r s).Inv := { hs with }

theorem State.Inv.enterError {s : State} (hs : s.Inv) {e : Err} (he : errLegal (errCode e) = true) :
    (enterError e s).Inv := { hs with errCodeLegal := he }

theorem State.Inv.dropLzResult {s : State} (hs : s.Inv) : (dropLzResult s).Inv := { hs with noResult := rfl }

theorem State.Inv.of_dropLzResult {s : State} (hs : (Machine.dropLzResult s).Inv) (h : s.lzResult = none) : s.Inv :=
  { hs with noResult := h }

theorem State.Inv.resetState {s : State} (hs : s.Inv) : (resetState s).Inv :=
  { hs with
    boundLegal := Nat.zero_le _
    cursor := ⟨Nat.zero_le _, fun _ => rfl⟩
    errCodeLegal := rfl
    llLegal := rfl
    dLegal := rfl
    inflating := nofun
    inflatingFinal := nofun
    seen := fun h => absurd rfl h
    headerAligned := fun _ => ⟨rfl, rfl⟩
    endEmpty := nofun
    noResult := rfl }

/-- Going to a state of a member that has been begun. -/
theorem State.Inv.goTo {s : State} (hs : s.Inv) {p : PrState} (hseen : s.prSeen = true)
    (hp : p ≠ .header ∧ p ≠ .endOfStream)
    (hi : p = .inflate → s.prFinal = false ∧ s.llDec.isSome = true ∧ s.dDec.isSome = true)
    (hf : p = .inflateFinalBlock → s.prFinal = true ∧ s.llDec.isSome = true ∧ s.dDec.isSome = true) :
    (goTo p s).Inv :=
  { hs with
    inflating := hi
    inflatingFinal := hf
    seen := fun _ => hseen
    headerAligned := fun h => absurd h hp.1
    endEmpty := fun h => absurd h hp.2 }

/-- A block's end leaves the continuation states. -/
theorem State.Inv.goTo_afterBlock {s : State} (hs : s.Inv) (hseen : s.prSeen = true) (final : Bool) :
    (Machine.goTo (afterBlock final) s).Inv := by
  refine hs.goTo hseen ?_ ?_ ?_ <;> cases final <;> simp [afterBlock]

/-- Where an inflate step goes: to a continuation state with the final flag and the decoders it was called with. -/
theorem State.Inv.goTo_afterInflate {s : State} (hs : s.Inv) (hseen : s.prSeen = true) (hl : s.llDec.isSome = true)
    (hd : s.dDec.isSome = true) (r : LzResult) : (Machine.goTo (afterInflate r s.prFinal) s).Inv := by
  cases r with
  | done => exact hs.goTo_afterBlock hseen _
  | windowFull =>
    refine hs.goTo hseen ?_ ?_ ?_ <;> cases hf : s.prFinal <;> simp [afterInflate, afterWindowFull, hl, hd]

theorem HeaderReads.inv {s t : State} (h : HeaderReads s t) (hs : s.Inv) : t.Inv := by
  obtain ⟨hf, -, ha, hc⟩ := h
  have hc := hc hs.cursor
  generalize t.brPos = p, t.brOff = o at hf
  subst hf
  exact { hs with cursor := hc, headerAligned := fun h => ⟨ha, (hs.headerAligned h).2⟩ }

theorem ParseWrites.inv {s t : State} (h : ParseWrites s t) (hs : s.Inv) (hm : s.InMember) : t.Inv := by
  have hc := h.cursor hs.cursor
  rw [h.fields] at hc ⊢
  exact { hs with cursor := hc, headerAligned := fun h => absurd h hm.1 }

theorem CallWrites.inv {s t : State} (h : CallWrites s t) (hs : s.Inv) (hm : s.InMember) (hc : cursorInside t) :
    (dropLzResult t).Inv := by
  have hw := h.wf hs.winCanonical
  have hb := h.below hs.winInside
  rw [h.fields] at hc hw hb ⊢
  exact { hs with
    winCanonical := hw, winInside := hb, cursor := hc, headerAligned := fun h => absurd h hm.1, noResult := rfl }

theorem Slid.inv {n : Nat} {s t : State} (h : Slid n s t) (hs : (dropLzResult s).Inv) (hm : s.InMember) :
    (dropLzResult t).Inv := by
  have hw := h.wf hs.winCanonical
  have hb := h.below hs.winInside
  have hn : t.winBound.toNat ≤ 32768 := by rw [h.bound]; exact Nat.min_le_right _ _
  rw [h.fields] at hn hw hb ⊢
  exact { hs with
    winCanonical := hw, winInside := hb, boundLegal := hn, headerAligned := fun h => absurd h hm.1
    endEmpty := fun h => absurd h hm.2 }

theorem State.InMember.of_eq {s t : State} (hm : s.InMember) (h : t.prState = s.prState) : t.InMember := by
  unfold State.InMember; rw [h]; exact hm

/-- A byte read keeps the invariant, whether it returns or raises. -/
theorem readExact_inv (n : Nat) {s : State} (hs : s.Inv) :
    (readExact n s).Meets (fun _ t => t.Inv ∧ t.prState = s.prState) (fun _ t => t.Inv) False := by
  refine (readExact_header n s).mono ?_ (fun _ _ h => h.1.inv hs) id
  intro _ t h; exact ⟨h.inv hs, by rw [h.fields]⟩

theorem winWrite_inv (addr : Nat) (v : List Byte) {s : State} (hs : s.Inv) :
    (winWrite addr v s).Meets (fun _ t => t.Inv ∧ t.prState = s.prState) (fun _ _ => False) True := by
  rw [winWrite_eq]
  split
  next h =>
    exact ⟨{ hs with
      winCanonical := Memory.wf_writeRange hs.winCanonical _ _
      winInside := Memory.below_writeRange hs.winInside h }, rfl⟩
  next => trivial

/-! ## The invariant, step by step -/

theorem headerStep_inv {s : State} (hs : s.Inv) (hp : s.prState = .header) :
    (headerStep s).Meets (fun _ t => t.Inv) (fun _ t => t.Inv) True := by
  unfold headerStep
  refine (hasDataLeft_meets s).mono (fun _ _ h => h.1) (R' := fun _ t => t.Inv) ?_ False.elim |>.bind ?_
  · rintro e t ⟨-, rfl, -⟩; exact hs
  rintro more u rfl
  split
  · refine (hdrParse_meets u).mono (fun _ _ h => h.inv hs) (fun _ _ h => h.1.inv hs) False.elim |>.bind ?_
    intro record t ht
    have hseen : (markSeen t).Inv := { ht with seen := fun _ => rfl }
    exact (hseen.goTo (p := .block) rfl ⟨nofun, nofun⟩ nofun nofun).respond _
  · split
    next hseen =>
      exact { hs with
        inflating := nofun, inflatingFinal := nofun, seen := fun _ => hseen, headerAligned := nofun
        endEmpty := fun _ => (hs.headerAligned hp).2 }
    next => exact hs

theorem inflate_inv {s : State} (hs : s.Inv) (hm : s.InMember) (hl : s.llDec.isSome = true)
    (hd : s.dDec.isSome = true) : (inflate s.prFinal s).Meets (fun _ t => t.Inv) (fun _ t => t.Inv) True := by
  unfold inflate
  refine ((lz77Decode_meets s hs.bound_le).and (lz77Decode_cursor hs.llLegal hs.dLegal hs.cursor)).mono
    (fun _ _ h => h) (R' := fun _ t => t.Inv) ?_ (fun h => h.1.elim) |>.bind ?_
  · rintro e t ⟨⟨hc, -, hr⟩, hcur⟩
    exact (hc.inv hs hm hcur).of_dropLzResult (hr.trans hs.noResult)
  rintro r u ⟨⟨hc, -, -⟩, hcur⟩
  refine (emitData_meets r.2 u).mono (fun _ _ h => h) (fun _ _ => False.elim) (fun _ => trivial) |>.bind ?_
  rintro _ t ⟨v, rfl, ht⟩
  have hinv := ht.inv ((hc.inv hs hm hcur).respond _) (hm.of_eq (by rw [respond_prState, hc.fields]))
  have hst : dropLzResult t = { s with
      brPos := t.brPos, brOff := t.brOff, win := t.win, winBound := t.winBound, lzCur := t.lzCur,
      lzStart := t.lzStart, lzResult := none, responses := t.responses } := by
    rw [ht.fields, hc.fields]; rfl
  have hgo := hinv.goTo_afterInflate (by rw [hst]; exact hs.seen hm.1) (by rw [hst]; exact hl)
    (by rw [hst]; exact hd) r.1
  rwa [show (dropLzResult t).prFinal = s.prFinal by rw [hst]] at hgo

theorem storedBody_inv (final : Bool) (len nlen : BitVec 16) {s : State} (hs : s.Inv) (hm : s.InMember) :
    (storedBody final len nlen s).Meets (fun _ t => t.Inv) (fun _ t => t.Inv) True := by
  have h0 : (latchLengths len nlen s).Inv := { hs with }
  unfold storedBody
  dsimp only
  split
  · exact h0
  refine (readExact_inv len.toNat h0).mono (fun _ _ h => h) (fun _ _ h => h) False.elim |>.bind ?_
  rintro v u ⟨hu, hup⟩
  refine (winWrite_inv u.winBound.toNat v hu).mono (fun _ _ h => h) (fun _ _ => False.elim) id |>.bind ?_
  rintro _ w ⟨hw, hwp⟩
  refine (slide_meets len.toNat (respond (.data v) w)).mono (fun _ _ h => h) (fun _ _ => False.elim)
    (fun _ => trivial) |>.bind ?_
  intro _ t ht
  have hwm : w.InMember := hm.of_eq (hwp.trans hup)
  have hinv := ht.inv (hw.respond _).dropLzResult hwm
  have hr : t.lzResult = none := by rw [ht.fields]; exact hw.noResult
  have hseen : t.prSeen = true := by rw [ht.fields]; exact hw.seen hwm.1
  exact (hinv.of_dropLzResult hr).goTo_afterBlock hseen final

theorem storedBlock_inv (final : Bool) {s : State} (hs : s.Inv) (hm : s.InMember) :
    (storedBlock final s).Meets (fun _ t => t.Inv) (fun _ t => t.Inv) True := by
  have h0 : HeaderReads s (byteAlign s) := by
    rw [byteAlign_eq]
    have := readsOn_atByte (s := s) (Nat.le_refl _)
    exact ⟨this.fields, this.forward, rfl, fun c => cursorInside_atByte (alignedPos_le c)⟩
  have hp : (byteAlign s).prState = s.prState := by rw [h0.fields]
  unfold storedBlock
  refine (readExact_inv 4 (h0.inv hs)).mono (fun _ _ h => h) (fun _ _ h => h) False.elim |>.bind ?_
  rintro h u ⟨hu, hup⟩
  exact storedBody_inv final _ _ hu (hm.of_eq (hup.trans hp))

theorem installDecoders_inv {s : State} (hs : s.Inv) {ll d : Decoder} (hl : ll.wellFormed = true)
    (hd : d.wellFormed = true) : (installDecoders ll d s).Inv :=
  { hs with
    llLegal := hl
    dLegal := hd
    inflating := fun h => ⟨(hs.inflating h).1, rfl, rfl⟩
    inflatingFinal := fun h => ⟨(hs.inflatingFinal h).1, rfl, rfl⟩ }

theorem fixedBlock_inv {s : State} (hs : s.Inv) (hm : s.InMember) :
    (fixedBlock s.prFinal s).Meets (fun _ t => t.Inv) (fun _ t => t.Inv) True :=
  inflate_inv (installDecoders_inv hs fixedLlDec_wellFormed fixedDDec_wellFormed) hm rfl rfl

theorem dynamicBlock_inv {s : State} (hs : s.Inv) (hm : s.InMember) :
    (dynamicBlock s.prFinal s).Meets (fun _ t => t.Inv) (fun _ t => t.Inv) True := by
  unfold dynamicBlock
  refine (parseDynamic_meets s).mono (fun _ _ h => h) (fun _ _ h => h.1.inv hs hm) False.elim |>.bind ?_
  rintro r u ⟨hu, hl, hd⟩
  have hf : u.prFinal = s.prFinal := by rw [hu.fields]
  rw [← hf]
  exact inflate_inv (installDecoders_inv (hu.inv hs hm) hl hd) (hm.of_eq (by rw [hu.fields]; rfl)) rfl rfl

theorem blockStep_inv {s : State} (hs : s.Inv) (hp : s.prState = .block) :
    (blockStep s).Meets (fun _ t => t.Inv) (fun _ t => t.Inv) True := by
  have hm : s.InMember := by rw [State.InMember, hp]; exact ⟨nofun, nofun⟩
  unfold blockStep
  refine (readBits_parse (by decide) s).mono (fun _ _ h => h.1) (fun _ _ h => h.1.inv hs hm) False.elim |>.bind ?_
  intro v u hu
  have hup : u.prState = .block := by rw [hu.fields]; exact hp
  have hum : u.InMember := hm.of_eq (hup.trans hp.symm)
  have hlatch : (latchBlockHeader (v.setWidth 3) u).Inv :=
    { hu.inv hs hm with
      inflating := fun h => by rw [latchBlockHeader_prState, hup] at h; cases h
      inflatingFinal := fun h => by rw [latchBlockHeader_prState, hup] at h; cases h }
  unfold blockBody
  dsimp only
  split
  · exact storedBlock_inv _ hlatch hum
  · exact fixedBlock_inv hlatch hum
  · exact dynamicBlock_inv hlatch hum
  · exact hlatch

theorem footerStep_inv {s : State} (hs : s.Inv) (hp : s.prState = .footer) :
    (footerStep s).Meets (fun _ t => t.Inv) (fun _ t => t.Inv) True := by
  have h0 : (windowReset s).Inv :=
    { hs with
      boundLegal := Nat.zero_le _
      headerAligned := fun h => by rw [windowReset_prState, hp] at h; cases h
      endEmpty := fun _ => rfl }
  unfold footerStep
  refine (readExact_header 8 (windowReset s)).mono (fun _ _ h => h) (fun _ _ h => h.1.inv h0) False.elim |>.bind ?_
  intro f u hu
  have hb : u.winBound = 0 := by rw [hu.fields]; rfl
  have hgo : (goTo .header u).Inv :=
    { hu.inv h0 with
      inflating := nofun
      inflatingFinal := nofun
      seen := fun h => absurd rfl h
      headerAligned := fun _ => ⟨hu.aligned, hb⟩
      endEmpty := nofun }
  exact hgo.respond _

/-- A producer step keeps the invariant, whether it returns or raises. -/
theorem producerStep_inv {s : State} (hs : s.Inv) :
    (producerStep s).Meets (fun _ t => t.Inv) (fun _ t => t.Inv) True := by
  unfold producerStep
  split
  next hp => exact headerStep_inv hs hp
  next hp => exact blockStep_inv hs hp
  next hp =>
    obtain ⟨hf, hl, hd⟩ := hs.inflating hp
    rw [← hf]
    exact inflate_inv hs (by rw [State.InMember, hp]; exact ⟨nofun, nofun⟩) hl hd
  next hp =>
    obtain ⟨hf, hl, hd⟩ := hs.inflatingFinal hp
    rw [← hf]
    exact inflate_inv hs (by rw [State.InMember, hp]; exact ⟨nofun, nofun⟩) hl hd
  next hp => exact footerStep_inv hs hp
  next => exact hs.respond _

/-- The STEP command keeps the invariant. -/
theorem execStep_inv {s t : State} (hs : s.Inv) (h : execStep s = .next t) : t.Inv := by
  unfold execStep at h
  split at h
  · cases h; exact hs.respond _
  · rcases deliver_eq_next.1 h with ⟨_, u, hr, rfl⟩ | ⟨e, u, hr, rfl⟩
    · exact (producerStep_inv hs).of_ok hr
    · exact ((producerStep_inv hs).of_raise hr).enterError ((producerStep_meets s hs.boundLegal).of_raise hr).legal

/-- Every host command keeps the invariant. -/
theorem commandMeaning_inv {w : BitVec 8} {s t : State} (hs : s.Inv) (h : commandMeaning w s = .next t) : t.Inv := by
  rcases commandMeaning_cases w with hw | hw | hw | hw <;> rw [hw] at h
  · cases h; exact hs.resetState.respond _
  · exact execStep_inv hs h
  · cases h; exact hs.respond _
  · cases h; exact hs.respond _

/-- Settles O54: a step at the port idles or does what one command word means, and every command keeps the invariant. -/
theorem stepKeepsInvariant : Obligations.StepKeepsInvariant := by
  intro s t hs h
  cases hc : s.commands with
  | nil => rw [step_idle hs.atPort hc] at h; cases h; exact hs
  | cons w rest =>
    rw [step_command hs.atPort hc] at h
    have hs' : State.Inv { s with commands := rest } := { hs with }
    exact commandMeaning_inv hs' h

end Sys2Proof.Machine
end

section
/-! That window bytes at and above the boundary cannot be seen (10_state.md R29, 93_implementation_defined.md I19). -/

namespace Sys2Proof.Machine

/-! ## Windows that agree below an address -/

/-- Two canonical windows that read alike below an address. -/
structure SameBelow (n : Nat) (m m' : Memory) : Prop where
  wf : Memory.wf m = true
  wf' : Memory.wf m' = true
  read : ∀ a < n, Memory.read m' a = Memory.read m a

theorem SameBelow.mono {n k : Nat} {m m' : Memory} (h : SameBelow n m m') (hk : k ≤ n) : SameBelow k m m' :=
  ⟨h.wf, h.wf', fun a ha => h.read a (Nat.lt_of_lt_of_le ha hk)⟩

/-- The same bytes written from an address where the windows still agree extend the agreement over them. -/
theorem SameBelow.writeRange {n addr : Nat} {m m' : Memory} (h : SameBelow n m m') (ha : addr ≤ n) (v : List Byte) :
    SameBelow (max n (addr + v.length)) (m.writeRange addr v) (m'.writeRange addr v) := by
  refine ⟨Memory.wf_writeRange h.wf _ _, Memory.wf_writeRange h.wf' _ _, fun a hlt => ?_⟩
  rw [Memory.read_writeRange, Memory.read_writeRange]
  split
  · rfl
  · exact h.read a (by omega)

theorem SameBelow.readRange {n addr k : Nat} {m m' : Memory} (h : SameBelow n m m') (hk : addr + k ≤ n) :
    Memory.readRange m' addr k = Memory.readRange m addr k := by
  rw [Memory.readRange_eq_map h.wf, Memory.readRange_eq_map h.wf']
  refine List.map_congr_left fun i hi => h.read _ ?_
  have := List.mem_range.1 hi
  omega

/-- A copy from below the write position reads only bytes that agree (44_lz77.md R108). -/
theorem SameBelow.copyBytes {dist length pos : Nat} {m m' : Memory} (h : SameBelow pos m m') (hd : 0 < dist)
    (hp : dist ≤ pos) :
    SameBelow (pos + length) (Machine.copyBytes dist length pos m) (Machine.copyBytes dist length pos m') := by
  induction length generalizing pos m m' with
  | zero => exact h
  | succ length ih =>
    have hw := h.writeRange (Nat.le_refl pos) [Memory.read m (pos - dist)]
    rw [Machine.copyBytes, Machine.copyBytes, h.read _ (by omega), show pos + (length + 1) = pos + 1 + length by omega]
    exact ih (hw.mono (Nat.le_max_right _ _)) (by omega)

/-! ## Operations that end alike on two windows -/

/-- The state with another window. -/
def State.withWin (m : Memory) (s : State) : State := { s with win := m }

/-- Two results that differ in the window alone, and there agree below the bound that the state gives. -/
inductive Res.Alike {α : Type} (b : State → Nat) : Res α → Res α → Prop where
  | ok {a : α} {t : State} {m : Memory} : SameBelow (b t) t.win m → Res.Alike b (.ok a t) (.ok a (t.withWin m))
  | raise {e : Err} {t : State} {m : Memory} : SameBelow (b t) t.win m →
      Res.Alike b (.raise e t) (.raise e (t.withWin m))
  | fault {f : Fault} : Res.Alike b (.fault f) (.fault f)

/-- Operations that end alike, followed by operations that end alike from every return of the first. The bound may
change over to another, where the first raises to one that is no higher. -/
theorem Res.Alike.bind {α β : Type} {b c : State → Nat} {r r' : Res α} {k k' : α → State → Res β}
    {P : α → State → Prop} {F : Prop} (h : r.Alike b r') (hr : r.Meets P (fun _ t => c t ≤ b t) F)
    (hk : ∀ a t m, P a t → SameBelow (b t) t.win m → (k a t).Alike c (k' a (t.withWin m))) :
    (r.bind k).Alike c (r'.bind k') := by
  cases h with
  | ok hm => exact hk _ _ _ hr hm
  | raise hm => exact .raise (hm.mono hr)
  | fault => exact .fault

/-- Binding under one bound. -/
theorem Res.Alike.andThen {α β : Type} {b : State → Nat} {r r' : Res α} {k k' : α → State → Res β}
    (h : r.Alike b r') (hk : ∀ a t m, SameBelow (b t) t.win m → (k a t).Alike b (k' a (t.withWin m))) :
    (r.bind k).Alike b (r'.bind k') := by
  cases h with
  | ok hm => exact hk _ _ _ hm
  | raise hm => exact .raise hm
  | fault => exact .fault

/-- The bound may change over to another that is no higher. -/
theorem Res.Alike.mono {α : Type} {b c : State → Nat} {r r' : Res α} {F : Prop} (h : r.Alike b r')
    (hr : r.Meets (fun _ t => c t ≤ b t) (fun _ t => c t ≤ b t) F) : r.Alike c r' := by
  cases h with
  | ok hm => exact .ok (hm.mono hr)
  | raise hm => exact .raise (hm.mono hr)
  | fault => exact .fault

/-! ## Reading the input -/

theorem byteAlign_withWin (m : Memory) (s : State) : byteAlign (s.withWin m) = (byteAlign s).withWin m := by
  rw [byteAlign_eq, byteAlign_eq]; rfl

theorem hdrAdvance_withWin (n : Nat) (m : Memory) (s : State) :
    hdrAdvance n (s.withWin m) = (hdrAdvance n s).withWin m := by
  unfold hdrAdvance; rw [byteAlign_withWin]; rfl

section Reading

variable {n : Nat} {s : State} {m : Memory}

theorem readBits_alike (h : SameBelow n s.win m) (k : Nat) :
    (readBits k s).Alike (fun _ => n) (readBits k (s.withWin m)) := by
  rw [readBits_eq, readBits_eq]
  show Res.Alike _ _ (if avail s < 4 then _ else _)
  split
  · exact .raise h
  · exact .ok h

theorem readExact_alike (h : SameBelow n s.win m) (k : Nat) :
    (readExact k s).Alike (fun _ => n) (readExact k (s.withWin m)) := by
  rw [readExact_eq, readExact_eq]
  show Res.Alike _ _ (if s.inp.length - alignedPos s < k then _ else _)
  split
  · exact .raise h
  · exact .ok h

theorem hasDataLeft_alike (h : SameBelow n s.win m) :
    (hasDataLeft s).Alike (fun _ => n) (hasDataLeft (s.withWin m)) := by
  unfold hasDataLeft
  show Res.Alike _ _ (if s.brPos < s.inp.length then _ else match s.inEnd with
    | .ioerr => _
    | .eof => _)
  split
  · exact .ok h
  · cases s.inEnd
    · exact .ok h
    · exact .raise h

theorem decodeSymbol_alike (h : SameBelow n s.win m) (d : Decoder) :
    (decodeSymbol d s).Alike (fun _ => n) (decodeSymbol d (s.withWin m)) := by
  rw [decodeSymbol_eq, decodeSymbol_eq]
  show Res.Alike _ _ (if avail s < 4 then _ else match decodeBits d (peekWord s) with
    | some (sym, len) => _
    | none => _)
  split
  · exact .raise h
  · cases decodeBits d (peekWord s)
    · exact .raise h
    · exact .ok h

/-! ## The header collaborator -/

theorem skipToNul_alike (h : SameBelow n s.win m) (bound : Nat) :
    (skipToNul bound s).Alike (fun _ => n) (skipToNul bound (s.withWin m)) := by
  induction bound generalizing s m with
  | zero => exact .raise h
  | succ bound ih =>
    refine (readExact_alike h 1).andThen fun b t m' ht => ?_
    split
    · exact .ok ht
    · exact ih ht

theorem ifFlag_alike {r : State → Res Unit} (h : SameBelow n s.win m)
    (hr : (r s).Alike (fun _ => n) (r (s.withWin m))) (b : Bool) :
    (ifFlag b r s).Alike (fun _ => n) (ifFlag b r (s.withWin m)) := by
  cases b
  · exact .ok h
  · exact hr

theorem skipExtra_alike (h : SameBelow n s.win m) :
    (skipExtra s).Alike (fun _ => n) (skipExtra (s.withWin m)) :=
  (readExact_alike h 2).andThen fun _ _ _ h => (readExact_alike h _).andThen fun _ _ _ h => .ok h

theorem skipString_alike (h : SameBelow n s.win m) :
    (skipString s).Alike (fun _ => n) (skipString (s.withWin m)) := skipToNul_alike h _

theorem skipCrc_alike (h : SameBelow n s.win m) : (skipCrc s).Alike (fun _ => n) (skipCrc (s.withWin m)) :=
  (readExact_alike h 2).andThen fun _ _ _ h => .ok h

theorem hdrParseReference_alike (h : SameBelow n s.win m) :
    (hdrParseReference s).Alike (fun _ => n) (hdrParseReference (s.withWin m)) := by
  refine (readExact_alike h _).andThen fun hdr t m' h => ?_
  dsimp only
  split
  · exact .raise h
  · exact (ifFlag_alike h (skipExtra_alike h) _).andThen fun _ _ _ h =>
      (ifFlag_alike h (skipString_alike h) _).andThen fun _ _ _ h =>
      (ifFlag_alike h (skipString_alike h) _).andThen fun _ _ _ h =>
      (ifFlag_alike h (skipCrc_alike h) _).andThen fun _ _ _ h => .ok h

theorem hdrParseExternal_alike (h : SameBelow n s.win m) :
    (hdrParseExternal s).Alike (fun _ => n) (hdrParseExternal (s.withWin m)) := by
  have hadv : ∀ k, SameBelow n (hdrAdvance k s).win m := fun k => by rw [(hdrAdvance_reads k s).fields]; exact h
  unfold hdrParseExternal
  simp only [hdrAdvance_withWin, byteAlign_withWin]
  show Res.Alike _ _ (match Config.hdrParse (s.inp.drop (byteAlign s).brPos) s.inEnd with
    | .error k e => _
    | .record k v => _)
  cases Config.hdrParse (s.inp.drop (byteAlign s).brPos) s.inEnd with
  | error k e => exact .raise (hadv k)
  | record k v =>
    show Res.Alike _ _ (if (s.inp.drop (byteAlign s).brPos).length < Config.headerBytes then _
      else if illegalHeader (s.inp.drop (byteAlign s).brPos) then _ else _)
    dsimp only
    split
    · exact .raise (hadv k)
    · split
      · exact .raise (hadv k)
      · exact .ok (hadv _)

theorem hdrParse_alike (h : SameBelow n s.win m) : (hdrParse s).Alike (fun _ => n) (hdrParse (s.withWin m)) := by
  unfold hdrParse
  show Res.Alike _ _ (match s.hdrParse with
    | .reference => _
    | .external => _)
  cases s.hdrParse
  · exact hdrParseReference_alike h
  · exact hdrParseExternal_alike h

/-! ## Dynamic codebook parsing -/

theorem buildOrRaise_alike (h : SameBelow n s.win m) (lens : List Nat) :
    (buildOrRaise lens s).Alike (fun _ => n) (buildOrRaise lens (s.withWin m)) := by
  unfold buildOrRaise
  cases buildCodebook lens
  · exact .raise h
  · exact .ok h

theorem readCounts_alike (h : SameBelow n s.win m) :
    (readCounts s).Alike (fun _ => n) (readCounts (s.withWin m)) := by
  refine (readBits_alike h 5).andThen fun hlit t _ h => ?_
  refine (readBits_alike (s := { t with dyHlit := BitVec.ofNat 9 (hlit.toNat + 257) }) h 5).andThen
    fun hdist u _ h => ?_
  exact (readBits_alike (s := { u with dyHdist := BitVec.ofNat 6 (hdist.toNat + 1) }) h 4).andThen
    fun _ _ _ h => .ok h

theorem readClLens_alike (h : SameBelow n s.win m) (syms : List Nat) :
    (readClLens syms s).Alike (fun _ => n) (readClLens syms (s.withWin m)) := by
  induction syms generalizing s m with
  | nil => exact .ok h
  | cons sym syms ih => exact (readBits_alike h 3).andThen fun _ _ _ h => ih h

theorem readCodeLengthCode_alike (h : SameBelow n s.win m) :
    (readCodeLengthCode s).Alike (fun _ => n) (readCodeLengthCode (s.withWin m)) := by
  have h0 : SameBelow n { s with dyCl := List.replicate Config.clAlphabet 0 }.win m := h
  unfold readCodeLengthCode
  exact (readClLens_alike h0 _).andThen fun _ _ _ h => (buildOrRaise_alike h _).andThen fun _ _ _ h => .ok h

theorem clSymbol_alike (h : SameBelow n s.win m) (sym : Nat) :
    (clSymbol sym s).Alike (fun _ => n) (clSymbol sym (s.withWin m)) := by
  unfold clSymbol
  split
  · exact .ok h
  · split
    · unfold clRepeat
      show Res.Alike _ _ (match s.dyLens.getLast? with
        | none => _
        | some l => _)
      cases s.dyLens.getLast?
      · exact .raise h
      · exact (readBits_alike h 2).andThen fun _ _ _ h => .ok h
    · split
      · exact (readBits_alike h 3).andThen fun _ _ _ h => .ok h
      · exact (readBits_alike h 7).andThen fun _ _ _ h => .ok h

theorem lensLoop_alike (h : SameBelow n s.win m) (bound : Nat) :
    (lensLoop bound s).Alike (fun _ => n) (lensLoop bound (s.withWin m)) := by
  induction bound generalizing s m with
  | zero => exact .ok h
  | succ bound ih =>
    rw [lensLoop, lensLoop]
    show Res.Alike _ _ (if s.dyLens.length < lensTotal s then _ else _)
    split
    · exact (decodeSymbol_alike h _).andThen fun _ _ _ h => (clSymbol_alike h _).andThen fun _ _ _ h => ih h
    · exact .ok h

theorem checkCount_alike (h : SameBelow n s.win m) :
    (checkCount s).Alike (fun _ => n) (checkCount (s.withWin m)) := by
  unfold checkCount
  show Res.Alike _ _ (if s.dyLens.length ≠ lensTotal s then _ else _)
  split
  · exact .raise h
  · exact .ok h

theorem readLengths_alike (h : SameBelow n s.win m) :
    (readLengths s).Alike (fun _ => n) (readLengths (s.withWin m)) := by
  have h0 : SameBelow n { s with dyLens := [] }.win m := h
  unfold readLengths
  exact (lensLoop_alike h0 _).andThen fun _ _ _ h => checkCount_alike h

theorem splitAndBuild_alike (h : SameBelow n s.win m) :
    (splitAndBuild s).Alike (fun _ => n) (splitAndBuild (s.withWin m)) := by
  unfold splitAndBuild
  exact (buildOrRaise_alike h _).andThen fun _ _ _ h => (buildOrRaise_alike h _).andThen fun _ _ _ h => .ok h

theorem parseDynamic_alike (h : SameBelow n s.win m) :
    (parseDynamic s).Alike (fun _ => n) (parseDynamic (s.withWin m)) :=
  (readCounts_alike h).andThen fun _ _ _ h => (readCodeLengthCode_alike h).andThen fun _ _ _ h =>
    (readLengths_alike h).andThen fun _ _ _ h => splitAndBuild_alike h

end Reading

end Sys2Proof.Machine
end

section
/-! That a step ends alike on two windows which agree below the boundary (10_state.md R29,
93_implementation_defined.md I19). -/

namespace Sys2Proof.Machine

/-! ## The LZ77 decoder: agreement below the write cursor -/

section Lz77

variable {s : State} {m : Memory}

theorem literal_alike (h : SameBelow s.lzCur.toNat s.win m) (b : Byte) :
    (literal b s).Alike (fun t => t.lzCur.toNat) (literal b (s.withWin m)) := by
  rw [literal_eq, literal_eq]
  show Res.Alike _ _ (if s.lzCur.toNat + 1 ≤ 98304 then _ else _)
  split
  next hc =>
    refine .ok ((h.writeRange (Nat.le_refl _) [b]).mono ?_)
    show (BitVec.ofNat 17 _).toNat ≤ max _ (_ + 1)
    rw [BitVec.toNat_ofNat]; omega
  next => exact .fault

theorem copyBack_alike (h : SameBelow s.lzCur.toNat s.win m) {dist : Nat} (hd : 0 < dist) (hc : dist ≤ s.lzCur.toNat)
    (length : Nat) : (copyBack dist length s).Alike (fun t => t.lzCur.toNat) (copyBack dist length (s.withWin m)) := by
  unfold copyBack
  show Res.Alike _ _ (if s.lzCur.toNat + length ≤ Config.winSize then _ else _)
  dsimp only
  split
  next hl =>
    refine .ok ((h.copyBytes hd hc).mono ?_)
    show (BitVec.ofNat 17 _).toNat ≤ _
    rw [BitVec.toNat_ofNat]; exact Nat.mod_le _ _
  next => exact .fault

theorem distanceFrom_alike {n : Nat} (h : SameBelow n s.win m) (ds : Nat) :
    (distanceFrom ds s).Alike (fun _ => n) (distanceFrom ds (s.withWin m)) := by
  unfold distanceFrom
  split
  · exact .raise h
  · exact (readBits_alike h _).andThen fun _ _ _ h => .ok h

theorem readDistance_alike {n : Nat} (h : SameBelow n s.win m) :
    (readDistance s).Alike (fun _ => n) (readDistance (s.withWin m)) :=
  (decodeSymbol_alike h _).andThen fun ds _ _ h => distanceFrom_alike h ds

theorem ReadsOn.lzCur_eq {t : State} (h : ReadsOn s t) : t.lzCur = s.lzCur := by rw [h.fields]

/-- A back-reference reads only below the write cursor: its distance is at least 1 and has been checked. -/
theorem backReference_alike (h : SameBelow s.lzCur.toNat s.win m) (sym : Nat) :
    (backReference sym s).Alike (fun t => t.lzCur.toNat) (backReference sym (s.withWin m)) := by
  refine (readBits_alike h _).bind (P := fun _ t => t.lzCur = s.lzCur) (F := False)
    ((readBits_meets _ s).mono (fun _ _ h => by rw [h.1]; rfl) (fun _ _ h => by rw [h.2]) id) fun x t m h ht => ?_
  refine (readDistance_alike ht).bind (P := fun dist u => u.lzCur = s.lzCur ∧ 1 ≤ dist) (F := False)
    ((readDistance_meets t).mono (fun _ _ h' => ⟨h'.1.lzCur_eq.trans h, h'.2.1⟩)
      (fun _ _ h' => by rw [h'.1.lzCur_eq, h]) id) fun dist u m' hu hm => ?_
  obtain ⟨hu, hd⟩ := hu
  rw [← hu] at hm
  show Res.Alike _ _ (if u.lzCur.toNat < dist then _ else _)
  split
  · exact .raise hm
  · exact copyBack_alike hm hd (by omega) _

theorem lz77Loop_alike (h : SameBelow s.lzCur.toNat s.win m) (bound : Nat) :
    (lz77Loop bound s).Alike (fun t => t.lzCur.toNat) (lz77Loop bound (s.withWin m)) := by
  induction bound generalizing s m with
  | zero => exact .ok h
  | succ bound ih =>
    rw [lz77Loop, lz77Loop]
    show Res.Alike _ _ (if windowNearlyFull s then _ else _)
    split
    · exact .ok h
    · refine (decodeSymbol_alike h _).bind (P := fun _ t => t.lzCur = s.lzCur) (F := False)
        ((decodeSymbol_meets _ s).mono ?_ (fun _ _ h => by rw [h.1]) id) fun sym t m' ht hm => ?_
      · rintro sym t ⟨-, len, -, rfl⟩; rfl
      rw [← ht] at hm
      split
      · exact (literal_alike hm _).andThen fun _ _ _ h => ih h
      · split
        · exact .ok hm
        · split
          · exact (backReference_alike hm _).andThen fun _ _ _ h => ih h
          · exact .raise hm

theorem lz77Decode_alike (h : SameBelow s.winBound.toNat s.win m) :
    (lz77Decode s).Alike (fun t => t.lzCur.toNat) (lz77Decode (s.withWin m)) :=
  (lz77Loop_alike (s := startLz77 s) h _).andThen fun _ _ _ h => .ok h

end Lz77

/-! ## The producer: agreement below the boundary -/

/-- The address below which the window can be seen between commands. -/
def boundary (s : State) : Nat := s.winBound.toNat

section Producer

variable {s : State} {m : Memory}

/-- A slide over bytes that agree moves down bytes that agree (43_window.md R95). -/
theorem slide_alike {n k : Nat} (h : SameBelow k s.win m) (hk : s.winBound.toNat + n ≤ k) :
    (slide n s).Alike boundary (slide n (s.withWin m)) := by
  rw [slide_eq, slide_eq]
  show Res.Alike _ _ (if s.winBound.toNat + n ≤ 32768 then _ else if s.winBound.toNat + n ≤ 98304 then _ else _)
  split
  next =>
    refine .ok (h.mono ?_)
    show (BitVec.ofNat 17 _).toNat ≤ _
    rw [BitVec.toNat_ofNat]; exact Nat.le_trans (Nat.mod_le _ _) hk
  next =>
    split
    next =>
      have hr := h.readRange (addr := s.winBound.toNat + n - 32768) (k := 32768) (by omega)
      have hw := h.writeRange (Nat.zero_le _) (Memory.readRange s.win (s.winBound.toNat + n - 32768) 32768)
      rw [Memory.length_readRange] at hw
      rw [show (s.withWin m).win = m from rfl, show (s.withWin m).winBound = s.winBound from rfl, hr]
      exact .ok (hw.mono (Nat.le_max_right _ _))
    next => exact .fault

theorem emitData_alike {n k : Nat} (h : SameBelow k s.win m) (hl : s.lzStart.toNat + n ≤ k)
    (hk : s.winBound.toNat + n ≤ k) : (emitData n s).Alike boundary (emitData n (s.withWin m)) := by
  unfold emitData
  rw [winRead_eq, winRead_eq]
  show Res.Alike _ _ ((if s.lzStart.toNat + n ≤ 98304 then _ else _ : Res (List Byte)).bind _)
  split
  · rw [Res.ok_bind, Res.ok_bind, show (s.withWin m).win = m from rfl,
      show (s.withWin m).lzStart = s.lzStart from rfl, h.readRange hl]
    exact slide_alike (s := respond _ s) h hk
  · exact .fault

/-- An inflate step decodes from the boundary on, and sends and slides over only what it has written. -/
theorem inflate_alike (h : SameBelow (boundary s) s.win m) (hs : s.winBound.toNat ≤ 98304) (final : Bool) :
    (inflate final s).Alike boundary (inflate final (s.withWin m)) := by
  have bound_eq : ∀ {t}, CallWrites s t → t.winBound = s.winBound := fun h => by rw [h.fields]
  refine (lz77Decode_alike h).bind (P := fun r t => CallWrites s t ∧ r.2 = t.lzCur.toNat - s.winBound.toNat)
    (F := False) ((lz77Decode_meets s hs).mono (fun _ _ h => ⟨h.1, h.2.1⟩) ?_ id) fun r t m' ht hm => ?_
  · rintro e t ⟨ht, -⟩
    unfold boundary; rw [bound_eq ht]; exact ht.grows
  obtain ⟨ht, hr⟩ := ht
  have hg := ht.grows
  exact (emitData_alike hm (by rw [ht.start]; omega) (by rw [bound_eq ht]; omega)).andThen fun _ _ _ h => .ok h

theorem storedBody_alike (h : SameBelow (boundary s) s.win m) (final : Bool) (len nlen : BitVec 16) :
    (storedBody final len nlen s).Alike boundary (storedBody final len nlen (s.withWin m)) := by
  unfold storedBody
  dsimp only
  split
  · exact .raise h
  refine (readExact_alike (s := latchLengths len nlen s) h len.toNat).bind
    (P := fun v t => t.winBound = s.winBound ∧ v.length = len.toNat) (F := False)
    ((readExact_meets _ _).mono ?_ ?_ id) fun v t m' ht hm => ?_
  · rintro v t ⟨rfl, rfl, hle⟩; exact ⟨rfl, length_inBytes _ _ _ hle⟩
  · rintro e t ⟨-, rfl⟩; exact Nat.le_refl _
  obtain ⟨hb, hv⟩ := ht
  rw [boundary, ← hb] at hm
  rw [winWrite_eq, winWrite_eq]
  show Res.Alike _ _ ((if t.winBound.toNat + v.length ≤ 98304 then _ else _ : Res Unit).bind _)
  split
  · have hw := (hm.writeRange (Nat.le_refl _) v).mono (Nat.le_max_right _ _)
    rw [Res.ok_bind, Res.ok_bind]
    exact (slide_alike (s := respond (.data v) { t with win := Memory.writeRange t.win t.winBound.toNat v }) hw
      (by rw [← hv]; exact Nat.le_refl _)).andThen fun _ _ _ h => .ok h
  · exact .fault

/-- The cursor alone has moved, so the bound stands. -/
theorem HeaderReads.boundary_eq {t : State} (h : HeaderReads s t) : boundary t = boundary s := by
  unfold boundary; rw [h.fields]

theorem readExact_alike_boundary (h : SameBelow (boundary s) s.win m) (n : Nat) :
    (readExact n s).Alike boundary (readExact n (s.withWin m)) :=
  (readExact_alike h n).mono (F := False) ((readExact_header n s).mono (fun _ _ h => Nat.le_of_eq h.boundary_eq)
    (fun _ _ h => Nat.le_of_eq h.1.boundary_eq) id)

theorem storedBlock_alike (h : SameBelow (boundary s) s.win m) (final : Bool) :
    (storedBlock final s).Alike boundary (storedBlock final (s.withWin m)) := by
  have h0 : SameBelow (boundary (byteAlign s)) (byteAlign s).win m := by rw [byteAlign_eq]; exact h
  unfold storedBlock
  rw [byteAlign_withWin]
  exact (readExact_alike_boundary h0 4).andThen fun _ _ _ h => storedBody_alike h _ _ _

theorem fixedBlock_alike (h : SameBelow (boundary s) s.win m) (hs : s.winBound.toNat ≤ 98304) (final : Bool) :
    (fixedBlock final s).Alike boundary (fixedBlock final (s.withWin m)) :=
  inflate_alike (s := installDecoders fixedLlDec fixedDDec s) h hs final

theorem dynamicBlock_alike (h : SameBelow (boundary s) s.win m) (hs : s.winBound.toNat ≤ 98304) (final : Bool) :
    (dynamicBlock final s).Alike boundary (dynamicBlock final (s.withWin m)) := by
  have bound_eq : ∀ {t}, ParseWrites s t → t.winBound = s.winBound := fun h => by rw [h.fields]
  refine (parseDynamic_alike h).bind (P := fun _ t => t.winBound = s.winBound) (F := False)
    ((parseDynamic_meets s).mono (fun _ _ h => bound_eq h.1) (fun _ t h => ?_) id) fun r t m' ht hm => ?_
  · rw [boundary, bound_eq h.1]; exact Nat.le_refl _
  rw [boundary, ← ht] at hm
  exact inflate_alike (s := installDecoders r.1 r.2 t) hm (by rw [← ht] at hs; exact hs) final

theorem blockStep_alike (h : SameBelow (boundary s) s.win m) (hs : s.winBound.toNat ≤ 98304) :
    (blockStep s).Alike boundary (blockStep (s.withWin m)) := by
  refine (readBits_alike h 3).bind (P := fun _ t => t.winBound = s.winBound) (F := False)
    ((readBits_meets 3 s).mono (fun _ _ h => by rw [h.1]; rfl) (fun _ _ h => by rw [h.2]) id) fun v t m' ht hm => ?_
  rw [boundary, ← ht] at hm
  rw [← ht] at hs
  unfold blockBody
  dsimp only
  split
  · exact storedBlock_alike (s := latchBlockHeader (v.setWidth 3) t) hm _
  · exact fixedBlock_alike (s := latchBlockHeader (v.setWidth 3) t) hm hs _
  · exact dynamicBlock_alike (s := latchBlockHeader (v.setWidth 3) t) hm hs _
  · exact .raise hm

theorem headerStep_alike (h : SameBelow (boundary s) s.win m) :
    (headerStep s).Alike boundary (headerStep (s.withWin m)) := by
  refine (hasDataLeft_alike h).bind (P := fun _ t => t = s) (F := False)
    ((hasDataLeft_meets s).mono (fun _ _ h => h.1) (fun _ _ h => by rw [h.2.1]) id) fun more t m' ht hm => ?_
  subst ht
  split
  · refine (hdrParse_alike hm).bind (P := fun _ u => boundary u = boundary t) (F := False)
      ((hdrParse_meets t).mono (fun _ _ h => h.boundary_eq) (fun _ _ h => Nat.le_of_eq h.1.boundary_eq) id)
      fun record u m'' hu hm => ?_
    rw [← hu] at hm
    exact .ok hm
  · show Res.Alike _ _ (if t.prSeen = true then _ else _)
    split
    · exact .ok hm
    · exact .raise hm

theorem footerStep_alike (h : SameBelow (boundary s) s.win m) :
    (footerStep s).Alike boundary (footerStep (s.withWin m)) :=
  (readExact_alike_boundary (s := windowReset s) (h.mono (Nat.zero_le _)) _).andThen fun _ _ _ h => .ok h

/-- A producer step cannot see the window at and above the boundary. -/
theorem producerStep_alike (h : SameBelow (boundary s) s.win m) (hs : s.winBound.toNat ≤ 98304) :
    (producerStep s).Alike boundary (producerStep (s.withWin m)) := by
  unfold producerStep
  show Res.Alike _ _ (match s.prState with
    | .header => _
    | .block => _
    | .inflate => _
    | .inflateFinalBlock => _
    | .footer => _
    | .endOfStream => _)
  cases s.prState with
  | header => exact headerStep_alike h
  | block => exact blockStep_alike h hs
  | inflate => exact inflate_alike h hs false
  | inflateFinalBlock => exact inflate_alike h hs true
  | footer => exact footerStep_alike h
  | endOfStream => exact .ok h

/-! ## The commands -/

/-- What a step delivers on the other window: the same state but for a window that agrees below its boundary. -/
theorem Res.Alike.deliverUnit {r r' : Res Unit} (h : r.Alike boundary r') {t : State}
    (ht : Machine.deliverUnit r = .next t) :
    ∃ m', Machine.deliverUnit r' = .next (t.withWin m') ∧ SameBelow (boundary t) t.win m' := by
  cases h with
  | ok hm => cases ht; exact ⟨_, rfl, hm⟩
  | raise hm => cases ht; exact ⟨_, rfl, hm⟩
  | fault => cases ht

theorem execStep_withWin (h : SameBelow (boundary s) s.win m) (hs : s.winBound.toNat ≤ 98304) {t : State}
    (ht : execStep s = .next t) :
    ∃ m', execStep (s.withWin m) = .next (t.withWin m') ∧ SameBelow (boundary t) t.win m' := by
  have hstep : execStep (s.withWin m) = if s.prErr ≠ 0 then
      deliverUnit (.ok () (respond (.error s.prErr) (s.withWin m))) else deliverUnit (producerStep (s.withWin m)) := rfl
  rw [hstep]
  unfold execStep at ht
  split at ht
  next he => cases ht; exact ⟨m, by rw [if_pos he]; rfl, h⟩
  next he => rw [if_neg he]; exact (producerStep_alike h hs).deliverUnit ht

/-- No host command can see the window at and above the boundary. -/
theorem commandMeaning_withWin (h : SameBelow (boundary s) s.win m) (hs : s.winBound.toNat ≤ 98304) {w : BitVec 8}
    {t : State} (ht : commandMeaning w s = .next t) :
    ∃ m', commandMeaning w (s.withWin m) = .next (t.withWin m') ∧ SameBelow (boundary t) t.win m' := by
  rcases commandMeaning_cases w with hw | hw | hw | hw <;> rw [hw] at ht ⊢
  · cases ht; exact ⟨m, rfl, h.mono (Nat.zero_le _)⟩
  · exact execStep_withWin h hs ht
  · cases ht; exact ⟨m, rfl, h⟩
  · cases ht; exact ⟨m, rfl, h⟩

end Producer

/-- Settles O59: the step idles or runs one command, and every command ends alike on two windows that agree below the
boundary. -/
theorem staleWindowIsUnobservable : Obligations.StaleWindowIsUnobservable := by
  intro s t m hs hwf _ hread ht
  have h : SameBelow (boundary s) s.win m := ⟨hs.winCanonical, hwf, hread⟩
  have hp : (s.withWin m).fetchPoint = .port := hs.atPort
  show ∃ m', step (s.withWin m) = .next (t.withWin m') ∧ ∀ a < boundary t, Memory.read m' a = Memory.read t.win a
  cases hc : s.commands with
  | nil =>
    rw [step_idle hs.atPort hc] at ht
    cases ht
    exact ⟨m, step_idle hp hc, hread⟩
  | cons w rest =>
    rw [step_command hs.atPort hc] at ht
    obtain ⟨m', he, hm⟩ := commandMeaning_withWin (s := { s with commands := rest }) h hs.bound_le ht
    exact ⟨m', (step_command hp hc).trans he, hm.read⟩

end Sys2Proof.Machine
end

section
/-! That the history below the boundary is the last 32 KiB the current member has put out (20_memory.md R41,
43_window.md R95, R96). -/

namespace Sys2Proof.Machine

/-! ## Ranges of the window, and the last bytes of a sequence -/

theorem Memory.readRange_append {m : Memory} (h : Memory.wf m = true) (addr k n : Nat) :
    Memory.readRange m addr (k + n) = Memory.readRange m addr k ++ Memory.readRange m (addr + k) n := by
  simp only [Memory.readRange_eq_map h, List.range_add, List.map_append, List.map_map]
  congr 1
  exact List.map_congr_left fun i _ => by rw [Function.comp_apply, Nat.add_assoc]

/-- The bytes written are the bytes read back. -/
theorem Memory.readRange_writeRange {m : Memory} (h : Memory.wf m = true) (addr : Nat) (v : List Byte) :
    Memory.readRange (m.writeRange addr v) addr v.length = v := by
  rw [Memory.readRange_eq_map (Memory.wf_writeRange h _ _)]
  refine List.ext_getElem (by simp) fun k _ hk => ?_
  rw [List.getElem_map, List.getElem_range, Memory.read_writeRange, if_pos (by omega), Nat.add_sub_cancel_left,
    List.getD_eq_getElem _ _ hk]

theorem lastBytes_of_length_le {n : Nat} {v : List Byte} (h : v.length ≤ n) : lastBytes n v = v := by
  rw [lastBytes, Nat.sub_eq_zero_of_le h, List.drop_zero]

theorem lastBytes_append_of_length_eq {n : Nat} (v : List Byte) {w : List Byte} (h : w.length = n) :
    lastBytes n (v ++ w) = w := by
  rw [lastBytes, List.length_append, h, Nat.add_sub_cancel, List.drop_left]

/-- Bytes that come before the last `n` do not matter once more bytes follow. -/
theorem lastBytes_lastBytes_append (n : Nat) (v w : List Byte) :
    lastBytes n (lastBytes n v ++ w) = lastBytes n (v ++ w) := by
  simp only [lastBytes, List.drop_append, List.drop_drop, List.length_append, List.length_drop]
  congr 2 <;> omega

/-- After a slide the bytes below the new boundary are the last D of those below the old one (43_window.md R95). -/
theorem SlidFrom.readRange {nb : Nat} {m m' : Memory} (h : SlidFrom nb m m') (hm : Memory.wf m = true)
    (hm' : Memory.wf m' = true) :
    Memory.readRange m' 0 (min nb 32768) = lastBytes 32768 (Memory.readRange m 0 nb) := by
  rcases Nat.le_total nb 32768 with hnb | hnb
  · rw [Nat.min_eq_left hnb, lastBytes_of_length_le (by simpa using hnb), Memory.readRange_eq_map hm,
      Memory.readRange_eq_map hm']
    exact List.map_congr_left fun a _ => by rw [h, if_neg fun hc => Nat.not_lt.2 hnb hc.1]
  · have hsplit := Memory.readRange_append hm 0 (nb - 32768) 32768
    rw [Nat.sub_add_cancel hnb, Nat.zero_add] at hsplit
    rw [hsplit, lastBytes_append_of_length_eq _ (by simp), Nat.min_eq_right hnb, Memory.readRange_eq_map hm,
      Memory.readRange_eq_map hm']
    refine List.map_congr_left fun a ha => ?_
    have ha := List.mem_range.1 ha
    rw [h, Nat.zero_add]
    split
    · rfl
    next hc =>
      have : nb = 32768 := by simp only [Config.distLimit] at hc; omega
      rw [this, Nat.sub_self, Nat.zero_add]

/-! ## The history, operation by operation -/

/-- The window below the boundary holds the last D bytes of `out` (20_memory.md R41). -/
structure State.Holds (out : List Byte) (s : State) : Prop where
  wf : Memory.wf s.win = true
  bound : s.winBound.toNat = min out.length 32768
  bytes : Memory.readRange s.win 0 s.winBound.toNat = lastBytes 32768 out

/-- The window holds the history of the member that the responses tell of. -/
abbrev State.HoldsHistory (s : State) : Prop := s.Holds (memberOutput s.responses)

theorem historyHeld_iff {s : State} (hwf : Memory.wf s.win = true) :
    HistoryHeld s ↔ (s.prErr = 0 → s.HoldsHistory) :=
  ⟨fun h he => ⟨hwf, (h he).1, (h he).2⟩, fun h he => ⟨(h he).bound, (h he).bytes⟩⟩

/-- At boundary 0 the window holds the history of a member that has put out nothing. -/
theorem State.Holds.of_empty {s : State} (hwf : Memory.wf s.win = true) (hb : s.winBound = 0) : s.Holds [] :=
  ⟨hwf, by rw [hb]; rfl, by rw [hb, show (0 : BitVec 17).toNat = 0 from rfl, Memory.readRange]; rfl⟩

/-- The registers and bytes that are not the window's do not matter. -/
theorem State.Holds.of_eq {out : List Byte} {s t : State} (hs : s.Holds out) (hw : t.win = s.win)
    (hb : t.winBound = s.winBound) : t.Holds out :=
  ⟨by rw [hw]; exact hs.wf, by rw [hb]; exact hs.bound, by rw [hw, hb]; exact hs.bytes⟩

/-- Bytes written from the boundary on and slid over are the history's newest (43_window.md R95;
45_block_producer.md R115, R119). -/
theorem Slid.holds {out v : List Byte} {n : Nat} {s u t : State} (ht : Slid n u t) (hs : s.Holds out)
    (hb : u.winBound = s.winBound) (hm : SameBelow s.winBound.toNat s.win u.win)
    (hv : Memory.readRange u.win s.winBound.toNat n = v) : t.Holds (out ++ v) := by
  have hlen : v.length = n := by rw [← hv, Memory.length_readRange]
  have hbound : t.winBound.toNat = min (s.winBound.toNat + n) 32768 := by rw [ht.bound, hb]
  have hbytes : Memory.readRange u.win 0 (s.winBound.toNat + n) = lastBytes 32768 out ++ v := by
    rw [Memory.readRange_append hm.wf', hm.readRange (by omega), hs.bytes, Nat.zero_add, hv]
  refine ⟨ht.wf hm.wf', ?_, ?_⟩
  · rw [hbound, hs.bound, List.length_append]; omega
  · rw [hbound, ← hb, (ht.slid hm.wf').readRange hm.wf' (ht.wf hm.wf'), hb, hbytes, lastBytes_lastBytes_append]

/-! ## The history, step by step -/

/-- An operation that, if it returns, leaves a window that holds the history. -/
abbrev Res.LeavesHistory {α : Type} (r : Res α) : Prop :=
  r.Meets (fun _ t => t.HoldsHistory) (fun _ _ => True) True

/-- An operation that writes neither the window nor the responses, followed by one that leaves the history. -/
theorem Res.LeavesHistory.bind {α β : Type} {s : State} {r : Res α} {k : α → State → Res β}
    {R : Err → State → Prop} {F : Prop} (hs : s.HoldsHistory)
    (hr : r.Meets (fun _ t => t.win = s.win ∧ t.winBound = s.winBound ∧ t.responses = s.responses) R F)
    (hk : ∀ a t, t.HoldsHistory → (k a t).LeavesHistory) : (r.bind k).LeavesHistory := by
  refine (hr.mono (fun _ _ h => h) (fun _ _ _ => trivial) fun _ => trivial).bind ?_
  rintro a t ⟨hw, hb, hr⟩
  exact hk a t (by rw [State.HoldsHistory, hr]; exact hs.of_eq hw hb)

theorem readExact_frame (n : Nat) (s : State) :
    (readExact n s).Meets (fun _ t => t.win = s.win ∧ t.winBound = s.winBound ∧ t.responses = s.responses)
      (fun _ _ => True) False := by
  refine (readExact_meets n s).mono ?_ (fun _ _ _ => trivial) id
  rintro v t ⟨-, rfl, -⟩; exact ⟨rfl, rfl, rfl⟩

/-- A new member begins with the window empty (43_window.md R96). -/
theorem headerStep_history {s : State} (hs : s.HoldsHistory) (hb : s.winBound = 0) : (headerStep s).LeavesHistory := by
  unfold headerStep
  refine (hasDataLeft_meets s).mono (fun _ _ h => h.1) (fun _ _ _ => trivial) (fun _ => trivial) |>.bind ?_
  rintro more u rfl
  split
  · refine (hdrParse_meets u).mono (fun _ _ h => h) (fun _ _ _ => trivial) (fun _ => trivial) |>.bind ?_
    intro record t ht
    have hw : t.win = u.win := by rw [ht.fields]
    have hb' : t.winBound = u.winBound := by rw [ht.fields]
    have hempty : t.Holds [] := .of_empty (by rw [hw]; exact hs.wf) (hb'.trans hb)
    exact hempty.of_eq rfl rfl
  · split
    · exact hs.of_eq rfl rfl
    · trivial

/-- An inflate step that returns has sent the bytes it wrote and slid over them (45_block_producer.md R118, R119). -/
theorem Inflated.holdsHistory {final : Bool} {s t : State} (h : Inflated final s t) (hs : s.HoldsHistory) :
    t.HoldsHistory := by
  obtain ⟨u, v, w, r, hu, -, rfl, hw, rfl⟩ := h.run
  have hb : u.winBound = s.winBound := by rw [hu.fields]
  have hr : u.responses = s.responses := by rw [hu.fields]
  have hsame : SameBelow s.winBound.toNat s.win u.win := ⟨hs.wf, hu.wf hs.wf, fun a ha => hu.outside a (.inl ha)⟩
  have hout : w.responses =
      .data (Memory.readRange u.win s.winBound.toNat (u.lzCur.toNat - s.winBound.toNat)) :: s.responses := by
    rw [← hr, hw.fields]; rfl
  have hholds : w.HoldsHistory := by rw [State.HoldsHistory, hout]; exact hw.holds hs hb hsame rfl
  exact hholds.of_eq rfl rfl

theorem inflate_history (final : Bool) {s : State} (hs : s.HoldsHistory) : (inflate final s).LeavesHistory :=
  (inflate_meets final s (by have := hs.bound; omega)).mono (fun _ _ h => h.holdsHistory hs) (fun _ _ _ => trivial)
    fun _ => trivial

theorem storedBody_history (final : Bool) (len nlen : BitVec 16) {s : State} (hs : s.HoldsHistory) :
    (storedBody final len nlen s).LeavesHistory := by
  unfold storedBody
  dsimp only
  split
  · trivial
  refine (readExact_meets len.toNat (latchLengths len nlen s)).mono (fun _ _ h => h) (fun _ _ _ => trivial)
    (fun _ => trivial) |>.bind ?_
  rintro v u ⟨hv, rfl, hle⟩
  have hlen : v.length = len.toNat := by rw [hv]; exact length_inBytes _ _ _ hle
  rw [winWrite_eq]
  split
  · rw [Res.ok_bind]
    refine (slide_meets _ _).mono (fun _ _ h => h) (fun _ _ _ => trivial) (fun _ => trivial) |>.bind ?_
    intro _ t ht
    have hsame : SameBelow s.winBound.toNat s.win (Memory.writeRange s.win s.winBound.toNat v) :=
      ⟨hs.wf, Memory.wf_writeRange hs.wf _ _, fun a ha => by rw [Memory.read_writeRange, if_neg (by omega)]⟩
    have hout : t.responses = .data v :: s.responses := by rw [ht.fields]; rfl
    have hholds : t.HoldsHistory := by
      rw [State.HoldsHistory, hout]
      exact ht.holds hs rfl hsame (by rw [← hlen]; exact Memory.readRange_writeRange hs.wf _ _)
    exact hholds.of_eq rfl rfl
  · trivial

theorem storedBlock_history (final : Bool) {s : State} (hs : s.HoldsHistory) :
    (storedBlock final s).LeavesHistory := by
  have h0 : (byteAlign s).HoldsHistory := by rw [byteAlign_eq]; exact hs.of_eq rfl rfl
  exact .bind h0 (readExact_frame 4 _) fun _ _ hu => storedBody_history final _ _ hu

theorem fixedBlock_history (final : Bool) {s : State} (hs : s.HoldsHistory) : (fixedBlock final s).LeavesHistory :=
  inflate_history final (s := installDecoders fixedLlDec fixedDDec s) (hs.of_eq rfl rfl)

theorem dynamicBlock_history (final : Bool) {s : State} (hs : s.HoldsHistory) :
    (dynamicBlock final s).LeavesHistory := by
  refine .bind hs ((parseDynamic_meets s).mono (fun r t h => ?_) (fun _ _ h => h) id) fun r t ht =>
    inflate_history final (s := installDecoders r.1 r.2 t) (ht.of_eq rfl rfl)
  rw [h.1.fields]; exact ⟨rfl, rfl, rfl⟩

theorem blockStep_history {s : State} (hs : s.HoldsHistory) : (blockStep s).LeavesHistory := by
  refine .bind hs ((readBits_meets 3 s).mono (fun _ _ h => by rw [h.1]; exact ⟨rfl, rfl, rfl⟩) (fun _ _ h => h) id)
    fun v t ht => ?_
  have hlatch : (latchBlockHeader (v.setWidth 3) t).HoldsHistory := (ht.of_eq rfl rfl)
  unfold blockBody
  dsimp only
  split
  · exact storedBlock_history _ hlatch
  · exact fixedBlock_history _ hlatch
  · exact dynamicBlock_history _ hlatch
  · trivial

/-- A footer ends the member and empties the window (43_window.md R96). -/
theorem footerStep_history {s : State} (hwf : Memory.wf s.win = true) : (footerStep s).LeavesHistory := by
  unfold footerStep
  refine (readExact_frame Config.footerBytes (windowReset s)).mono (fun _ _ h => h) (fun _ _ _ => trivial)
    (fun _ => trivial) |>.bind ?_
  rintro f u ⟨hw, hb, -⟩
  have hempty : u.Holds [] := .of_empty (by rw [hw]; exact hwf) hb
  exact hempty.of_eq rfl rfl

/-- A producer step that returns leaves the history in the window. -/
theorem producerStep_history {s : State} (hi : s.Inv) (hs : s.HoldsHistory) : (producerStep s).LeavesHistory := by
  unfold producerStep
  split
  next hp => exact headerStep_history hs (hi.headerAligned hp).2
  next => exact blockStep_history hs
  next => exact inflate_history false hs
  next => exact inflate_history true hs
  next => exact footerStep_history hs.wf
  next => exact hs.of_eq rfl rfl

/-! ## The commands -/

/-- STEP sends the latched error, or runs a producer step that leaves the history or latches an error
(47_port_commands.md R135, 60_exceptions.md R142). -/
theorem execStep_history {s t : State} (hi : s.Inv) (hs : HistoryHeld s) (h : execStep s = .next t) :
    HistoryHeld t := by
  unfold execStep at h
  split at h
  next he => cases h; exact fun hz => absurd hz he
  next he =>
    have hh := (historyHeld_iff hi.winCanonical).1 hs (Decidable.not_not.1 he)
    rcases deliver_eq_next.1 h with ⟨_, u, hr, rfl⟩ | ⟨e, u, -, rfl⟩
    · have hu := (producerStep_history hi hh).of_ok hr
      exact (historyHeld_iff hu.wf).2 fun _ => hu
    · exact fun hz => absurd hz (errCode_ne_zero e)

/-- Every host command keeps the history; RESET begins a new one. -/
theorem commandMeaning_history {w : BitVec 8} {s t : State} (hi : s.Inv) (hs : HistoryHeld s)
    (h : commandMeaning w s = .next t) : HistoryHeld t := by
  rcases commandMeaning_cases w with hw | hw | hw | hw <;> rw [hw] at h
  · cases h
    have hempty : (resetState s).Holds [] := .of_empty hi.winCanonical rfl
    exact (historyHeld_iff (s := respond .ok (resetState s)) hi.winCanonical).2 fun _ => hempty.of_eq rfl rfl
  · exact execStep_history hi hs h
  · cases h; exact hs
  · cases h; exact hs

/-- Settles O56: a step at the port idles or does what one command word means, and every command keeps the history. -/
theorem stepKeepsHistory : Obligations.StepKeepsHistory := by
  intro s t hi hs h
  cases hc : s.commands with
  | nil => rw [step_idle hi.atPort hc] at h; cases h; exact hs
  | cons w rest =>
    rw [step_command hi.atPort hc] at h
    exact commandMeaning_history (s := { s with commands := rest }) { hi with } hs h

end Sys2Proof.Machine
end

section
/-! That an access past the window's last byte stops the machine (20_memory.md R30, R42; notes/assumptions/18.md). -/

namespace Sys2Proof.Machine

theorem slide_fault {n : Nat} {s : State} (h : 98304 < s.winBound.toNat + n) : slide n s = .fault .windowAddress := by
  rw [slide_eq, if_neg (by omega), if_neg (by omega)]

/-- The bytes are read before the slide, and both are held to the window's end (45_block_producer.md R119). -/
theorem emitData_fault {n : Nat} {s : State} (h : 98304 < s.lzStart.toNat + n ∨ 98304 < s.winBound.toNat + n) :
    emitData n s = .fault .windowAddress := by
  unfold emitData
  rw [winRead_eq]
  split
  · rw [Res.ok_bind]
    exact slide_fault (s := respond _ s) (by show 98304 < s.winBound.toNat + n; omega)
  · rfl

theorem literal_fault {s : State} (h : 98304 ≤ s.lzCur.toNat) (b : Byte) : literal b s = .fault .windowAddress := by
  rw [literal_eq, if_neg (by omega)]

theorem copyBack_fault {dist length : Nat} {s : State} (h : 98304 < s.lzCur.toNat + length) :
    copyBack dist length s = .fault .windowAddress := if_neg (Nat.not_le.2 h)

/-- The symbols 257 to 285 are the length symbols' instructions (30_encoding.md R55). -/
theorem exec_lengthSymbol {sym : Nat} {i : Instr} (h1 : 257 ≤ sym) (h2 : sym ≤ 285)
    (hi : decode (.litlenSymbol sym) = some i) (s : State) : exec i s = lengthSymbol sym s := by
  interval_cases sym <;> cases hi <;> rfl

theorem readBits_of_avail {n : Nat} {s : State} (hn : n ≤ 32) (h : 4 ≤ avail s) :
    ∃ x, readBits n s = .ok x (advance n s) ∧ x.toNat = fieldValue n s :=
  ⟨_, by rw [readBits_eq, if_neg (by omega)], toNat_maskedPeek n s hn⟩

theorem readDistance_of_avail {ds len : Nat} {s : State} (ha : 4 ≤ avail s)
    (hdec : decodeBits (installed s.dDec) (peekWord s) = some (ds, len)) (hds : ds ≤ 29)
    (hx : 4 ≤ avail (advance len s)) :
    readDistance s = .ok (distBase.getD ds 0 + fieldValue (distExtra.getD ds 0) (advance len s))
      (advance (distExtra.getD ds 0) (advance len s)) := by
  have hn := distExtraBits_le ds
  obtain ⟨x, hr, hv⟩ := readBits_of_avail (n := distExtraBits ds) (by omega) hx
  rw [readDistance, decodeSymbol_eq, if_neg (by omega), hdec, Res.ok_bind, distanceFrom, if_neg (by omega), hr,
    Res.ok_bind, distanceOf, hv, distExtraBits]

/-- A back-reference whose length and distance are there to be read is its distance check and its copy
(44_lz77.md R103). -/
theorem ReadsReference.backReference_eq {sym len dist : Nat} {s u : State} (h : ReadsReference sym s len dist u) :
    backReference sym s = if u.lzCur.toNat < dist then .raise .distanceTooMuch u else copyBack dist len u := by
  obtain ⟨hl, hlen, ds, l, s₁, s₂, rfl, ha₁, hdec, hds, rfl, ha₂, hdist, rfl⟩ := h
  have hn := lengthExtraBits_le sym
  obtain ⟨x, hr, hv⟩ := readBits_of_avail (n := lengthExtraBits sym) (by omega) hl
  rw [lengthExtraBits] at hr hv
  rw [backReference, lengthExtraBits, hr, Res.ok_bind, readDistance_of_avail ha₁ hdec hds ha₂, ← hdist, Res.ok_bind,
    lengthOf, hv, ← hlen]

/-- Reading a back-reference moves the cursor alone. -/
theorem ReadsReference.lzCur_eq {sym len dist : Nat} {s u : State} (h : ReadsReference sym s len dist u) :
    u.lzCur = s.lzCur := by
  obtain ⟨-, -, ds, l, s₁, s₂, rfl, -, -, -, rfl, -, -, rfl⟩ := h
  rfl

/-- Settles O24: each of the accesses is held to the window's end, and the copy comes after everything that a
back-reference could raise. -/
theorem windowAddressesPastEndFault : Obligations.WindowAddressesPastEndFault := by
  intro s
  refine ⟨fun n h => ?_, fun n h => ?_, fun b h => ?_, fun sym i len dist u h1 h2 hi hr hd hlen => ?_⟩
  · show deliverUnit (slide n s) = _
    rw [slide_fault h, deliverUnit_fault]
  · show deliverUnit (emitData n s) = _
    rw [emitData_fault h, deliverUnit_fault]
  · show deliverUnit (literal b s) = _
    rw [literal_fault h, deliverUnit_fault]
  · have hcur := hr.lzCur_eq
    rw [exec_lengthSymbol h1 h2 hi, lengthSymbol, hr.backReference_eq, hcur, if_neg (by omega),
      copyBack_fault (by rw [hcur]; exact hlen), deliverUnit_fault]

end Sys2Proof.Machine
end

section
/-! That no instruction writes the input, its end or the collaborator's binding, and that none but RESET moves the
cursor backwards (20_memory.md R46, 70_reset_and_hazards.md R154, R157, 10_state.md R20). -/

namespace Sys2Proof.Machine

/-! ## Operations that write what a step may write

In every state, also where the window's addresses run out and the operation stops: there nothing is claimed. -/

/-- However the operation ends, it has written only registers that a producer step may write, and moved the cursor on. -/
abbrev Res.WritesFrom {α : Type} (s : State) (r : Res α) : Prop :=
  r.Meets (fun _ t => StepWrites s t) (fun _ t => StepWrites s t) True

theorem StepWrites.refl (s : State) : StepWrites s s := ⟨rfl, Nat.le_refl _⟩

theorem SymbolsWrite.stepWrites {s t : State} (h : SymbolsWrite s t) : StepWrites s t := by
  obtain ⟨f, fw, -, -, -, -⟩ := h
  generalize t.brPos = a, t.brOff = b, t.win = c, t.lzCur = d at f
  subst f; exact ⟨rfl, fw⟩

theorem Res.WritesFrom.after {α : Type} {s t : State} {r : Res α} (h : r.WritesFrom t) (hw : StepWrites s t) :
    r.WritesFrom s :=
  h.mono (fun _ _ => hw.trans) (fun _ _ => hw.trans) id

theorem Res.WritesFrom.bind {α β : Type} {s : State} {r : Res α} {k : α → State → Res β} (hr : r.WritesFrom s)
    (hk : ∀ a t, (k a t).WritesFrom t) : (r.bind k).WritesFrom s :=
  Res.Meets.bind hr fun a t hw => (hk a t).after hw

/-! ## Reading -/

theorem readBits_writes (n : Nat) (s : State) : (readBits n s).WritesFrom s :=
  (readBits_meets n s).mono (fun _ _ h => h.1 ▸ (readsOn_advance n s).stepWrites) (fun _ _ h => h.2 ▸ .refl s)
    False.elim

theorem consume_writes (n : Nat) (s : State) : StepWrites s (consume n s) := by
  rw [consume_eq]; exact (readsOn_advance n s).stepWrites

theorem byteAlign_writes (s : State) : StepWrites s (byteAlign s) := by
  rw [byteAlign_eq]; exact (readsOn_atByte (Nat.le_refl _)).stepWrites

theorem readExact_writes (n : Nat) (s : State) : (readExact n s).WritesFrom s :=
  (readExact_header n s).mono (fun _ _ h => h.stepWrites) (fun _ _ h => h.1.stepWrites) False.elim

theorem readSome_writes (n : Nat) (s : State) : (readSome n s).WritesFrom s := by
  rw [readSome_eq]
  split
  · exact (readsOn_atByte (Nat.le_refl _)).stepWrites
  · exact (readsOn_atByte (Nat.le_add_right _ _)).stepWrites

theorem hasDataLeft_writes (s : State) : (hasDataLeft s).WritesFrom s :=
  (hasDataLeft_meets s).mono (fun _ _ h => h.1 ▸ .refl s) (fun _ _ h => h.2.1 ▸ .refl s) False.elim

theorem peekBits_writes (s : State) : (peekBits s).WritesFrom s := by
  rw [peekBits_eq]
  split
  · exact .refl s
  · exact .refl s

theorem decodeSymbol_writes (d : Decoder) (s : State) : (decodeSymbol d s).WritesFrom s := by
  refine (decodeSymbol_meets d s).mono ?_ (fun _ _ h => h.1 ▸ .refl s) False.elim
  rintro sym t ⟨-, len, -, rfl⟩; exact (readsOn_advance len s).stepWrites

theorem decodeOrRaise_writes (d : Decoder) (bits : BitVec 32) (s : State) : (decodeOrRaise d bits s).WritesFrom s := by
  unfold decodeOrRaise
  split
  · exact .refl s
  · exact .refl s

theorem buildOrRaise_writes (lens : List Nat) (s : State) : (buildOrRaise lens s).WritesFrom s :=
  (buildOrRaise_meets lens s).mono (fun _ _ h => h.2 ▸ .refl s) (fun _ _ h => h.2.1 ▸ .refl s) False.elim

theorem clSymbol_writes (sym : Nat) (s : State) : (clSymbol sym s).WritesFrom s :=
  (clSymbol_meets sym s).mono (fun _ _ h => h.1.stepWrites) (fun _ _ h => h.1.stepWrites) False.elim

theorem parseDynamic_writes (s : State) : (parseDynamic s).WritesFrom s :=
  (parseDynamic_meets s).mono (fun _ _ h => h.1.stepWrites) (fun _ _ h => h.1.stepWrites) False.elim

/-! ## The LZ77 decoder -/

theorem literal_writes (b : Byte) (s : State) : (literal b s).WritesFrom s :=
  (literal_meets b s).mono (fun _ _ h => h.1.stepWrites) (fun _ _ => False.elim) fun _ => trivial

theorem copyBack_writes (dist length : Nat) (s : State) : (copyBack dist length s).WritesFrom s :=
  (copyBack_meets dist length s).mono (fun _ _ h => h.1.stepWrites) (fun _ _ => False.elim) fun _ => trivial

theorem distanceFrom_writes (ds : Nat) (s : State) : (distanceFrom ds s).WritesFrom s := by
  unfold distanceFrom
  split
  · exact .refl s
  · exact (readBits_writes _ s).bind fun _ t => .refl t

theorem readDistance_writes (s : State) : (readDistance s).WritesFrom s :=
  (decodeSymbol_writes _ s).bind distanceFrom_writes

theorem backReference_writes (sym : Nat) (s : State) : (backReference sym s).WritesFrom s := by
  refine (readBits_writes _ s).bind fun x t => (readDistance_writes t).bind fun dist u => ?_
  split
  · exact .refl u
  · exact copyBack_writes _ _ u

theorem lz77Loop_writes (bound : Nat) (s : State) : (lz77Loop bound s).WritesFrom s := by
  induction bound generalizing s with
  | zero => exact .refl s
  | succ bound ih =>
    rw [lz77Loop]
    split
    · exact .refl s
    refine (decodeSymbol_writes _ s).bind fun sym t => ?_
    split
    · exact (literal_writes _ t).bind fun _ => ih
    · split
      · exact .refl t
      · split
        · exact (backReference_writes sym t).bind fun _ => ih
        · exact .refl t

theorem lz77Decode_writes (s : State) : (lz77Decode s).WritesFrom s :=
  ((lz77Loop_writes _ (startLz77 s)).after ⟨rfl, Nat.le_refl _⟩).bind fun _ _ => ⟨rfl, Nat.le_refl _⟩

/-! ## The producer -/

theorem slide_writes (n : Nat) (s : State) : (slide n s).WritesFrom s :=
  (slide_meets n s).mono (fun _ _ h => h.stepWrites) (fun _ _ => False.elim) fun _ => trivial

theorem emitData_writes (n : Nat) (s : State) : (emitData n s).WritesFrom s := by
  refine (emitData_meets n s).mono ?_ (fun _ _ => False.elim) fun _ => trivial
  rintro _ t ⟨u, rfl, ht⟩
  have hsent : StepWrites s (respond (.data (Memory.readRange s.win s.lzStart.toNat n)) s) := ⟨rfl, Nat.le_refl _⟩
  exact hsent.trans ht.stepWrites

theorem inflate_writes (final : Bool) (s : State) : (inflate final s).WritesFrom s :=
  (lz77Decode_writes s).bind fun r t => (emitData_writes r.2 t).bind fun _ _ => ⟨rfl, Nat.le_refl _⟩

theorem storedBody_writes (final : Bool) (len nlen : BitVec 16) (s : State) :
    (storedBody final len nlen s).WritesFrom s :=
  (storedBody_meets final len nlen s).mono (fun _ _ h => h.writes) (fun _ _ h => h.writes) fun _ => trivial

theorem storedBlock_writes (final : Bool) (s : State) : (storedBlock final s).WritesFrom s :=
  ((readExact_writes 4 (byteAlign s)).after (byteAlign_writes s)).bind fun _ => storedBody_writes final _ _

theorem fixedBlock_writes (final : Bool) (s : State) : (fixedBlock final s).WritesFrom s :=
  (inflate_writes final (installDecoders fixedLlDec fixedDDec s)).after ⟨rfl, Nat.le_refl _⟩

theorem dynamicBlock_writes (final : Bool) (s : State) : (dynamicBlock final s).WritesFrom s :=
  (parseDynamic_writes s).bind fun r t =>
    (inflate_writes final (installDecoders r.1 r.2 t)).after ⟨rfl, Nat.le_refl _⟩

theorem blockBody_writes (w : BitVec 3) (s : State) : (blockBody w s).WritesFrom s := by
  have hlatch : StepWrites s (latchBlockHeader w s) := ⟨rfl, Nat.le_refl _⟩
  unfold blockBody
  dsimp only
  split
  · exact (storedBlock_writes _ _).after hlatch
  · exact (fixedBlock_writes _ _).after hlatch
  · exact (dynamicBlock_writes _ _).after hlatch
  · exact hlatch

theorem blockStep_writes (s : State) : (blockStep s).WritesFrom s :=
  (readBits_writes 3 s).bind fun _ => blockBody_writes _

theorem headerStep_writes (s : State) : (headerStep s).WritesFrom s :=
  (headerStep_meets s).mono (fun _ _ h => h.writes) (fun _ _ h => h.writes) False.elim

theorem footerStep_writes (s : State) : (footerStep s).WritesFrom s :=
  (footerStep_meets s).mono (fun _ _ h => h.writes) (fun _ _ h => h.writes) False.elim

theorem endStep_writes (s : State) : (endStep s).WritesFrom s := ⟨rfl, Nat.le_refl _⟩

theorem producerStep_writes (s : State) : (producerStep s).WritesFrom s := by
  unfold producerStep
  split
  · exact headerStep_writes s
  · exact blockStep_writes s
  · exact inflate_writes false s
  · exact inflate_writes true s
  · exact footerStep_writes s
  · exact endStep_writes s

/-! ## Instructions -/

/-- The input, its end and the collaborator's binding stand (20_memory.md R46, 70_reset_and_hazards.md R154). -/
structure InputStands (s t : State) : Prop where
  inp : t.inp = s.inp
  inEnd : t.inEnd = s.inEnd
  binding : t.hdrParse = s.hdrParse

theorem InputStands.trans {s t u : State} (h : InputStands s t) (h' : InputStands t u) : InputStands s u :=
  ⟨h'.inp.trans h.inp, h'.inEnd.trans h.inEnd, h'.binding.trans h.binding⟩

/-- A meaning under which the input stands and the cursor does not move backwards. -/
def KeepsInput (m : State → Host.Outcome State Fault Refusal) : Prop :=
  ∀ s t, m s = .next t → InputStands s t ∧ bitAddr s ≤ bitAddr t

theorem StepWrites.inputStands {s t : State} (h : StepWrites s t) : InputStands s t :=
  ⟨by rw [h.fields], by rw [h.fields], by rw [h.fields]⟩

/-- What an instruction does with the value of its operation, or with its error, is not about the input. -/
theorem keepsInput_deliver {α : Type} {r : State → Res α} {k : α → State → State} (h : ∀ s, (r s).WritesFrom s)
    (hk : ∀ a s, InputStands s (k a s) ∧ bitAddr s ≤ bitAddr (k a s)) : KeepsInput fun s => deliver (r s) k := by
  intro s t ht
  rcases deliver_eq_next.1 ht with ⟨a, u, hr, rfl⟩ | ⟨e, u, hr, rfl⟩
  · have hw := (h s).of_ok hr
    exact ⟨hw.inputStands.trans (hk a u).1, Nat.le_trans hw.forward (hk a u).2⟩
  · have hw := (h s).of_raise hr
    exact ⟨hw.inputStands.trans ⟨rfl, rfl, rfl⟩, hw.forward⟩

theorem keepsInput_deliverUnit {r : State → Res Unit} (h : ∀ s, (r s).WritesFrom s) :
    KeepsInput fun s => deliverUnit (r s) :=
  keepsInput_deliver h fun _ _ => ⟨⟨rfl, rfl, rfl⟩, Nat.le_refl _⟩

theorem keepsInput_deliverResult {α : Type} {r : State → Res α} (h : ∀ s, (r s).WritesFrom s) (f : α → OpResult) :
    KeepsInput fun s => deliverResult (r s) f :=
  keepsInput_deliver h fun _ _ => ⟨⟨rfl, rfl, rfl⟩, Nat.le_refl _⟩

/-- An instruction that does nothing but write registers. -/
theorem keepsInput_write {f : State → State} (h : ∀ s, StepWrites s (f s)) :
    KeepsInput fun s => deliverUnit (.ok () (f s)) := keepsInput_deliverUnit h

theorem clLength_keepsInput (l : Nat) : KeepsInput fun s => deliverUnit (clLength l s) :=
  keepsInput_write fun _ => ⟨rfl, Nat.le_refl _⟩

/-- The repeats among the code-length symbols are `clSymbol` at their values. -/
theorem clSymbol_keepsInput (sym : Nat) : KeepsInput fun s => deliverUnit (clSymbol sym s) :=
  keepsInput_deliverUnit (clSymbol_writes sym)

theorem lengthSymbol_keepsInput (sym : Nat) : KeepsInput (lengthSymbol sym) :=
  keepsInput_deliverUnit (backReference_writes sym)

theorem illegalLengthSymbol_keepsInput : KeepsInput illegalLengthSymbol := keepsInput_deliverUnit StepWrites.refl

theorem distanceSymbol_keepsInput (ds : Nat) : KeepsInput (distanceSymbol ds) :=
  keepsInput_deliverResult (distanceFrom_writes ds) _

theorem illegalCommand_keepsInput : KeepsInput illegalCommand :=
  keepsInput_deliverUnit fun _ => ⟨rfl, Nat.le_refl _⟩

/-- STEP sends the latched error, or runs a producer step (47_port_commands.md R135). -/
theorem execStep_keepsInput : KeepsInput execStep := by
  intro s t ht
  unfold execStep at ht
  split at ht
  · cases ht; exact ⟨⟨rfl, rfl, rfl⟩, Nat.le_refl _⟩
  · exact keepsInput_deliverUnit producerStep_writes s t ht

/-- RESET moves the cursor back to the start, and the input stands (70_reset_and_hazards.md R152). -/
theorem execReset_inputStands {s t : State} (h : execReset s = .next t) : InputStands s t := by
  cases h; exact ⟨rfl, rfl, rfl⟩

/-- Every instruction but RESET, by the family whose meaning it has. -/
theorem exec_keepsInput {i : Instr} (hi : i ≠ .reset) : KeepsInput (exec i) := by
  cases i with
  | reset => exact absurd rfl hi
  | step => exact execStep_keepsInput
  | status => exact keepsInput_write (f := fun s => respond (.status (statusWord s)) s) fun _ => ⟨rfl, Nat.le_refl _⟩
  | blockStored final | blockFixed final | blockDynamic final | blockReserved final =>
    exact keepsInput_deliverUnit (blockBody_writes _)
  | storedHeader len nlen => exact keepsInput_deliverUnit fun s => storedBody_writes s.prFinal len nlen s
  | dynamicHeader hlit hdist hclen =>
    exact keepsInput_write (f := setCounts hlit.toNat hdist.toNat hclen.toNat) fun _ => ⟨rfl, Nat.le_refl _⟩
  | clLen0 | clLen1 | clLen2 | clLen3 | clLen4 | clLen5 | clLen6 | clLen7 | clLen8 | clLen9 | clLen10 | clLen11
  | clLen12 | clLen13 | clLen14 | clLen15 => exact clLength_keepsInput _
  | clRepeat16 => exact clSymbol_keepsInput 16
  | clZero17 => exact clSymbol_keepsInput 17
  | clZero18 => exact clSymbol_keepsInput 18
  | lit byte => exact keepsInput_deliverUnit (literal_writes byte)
  | eob =>
    exact keepsInput_deliverResult (r := fun s => endLz77 (.done, lzCount s) s) (fun _ => ⟨rfl, Nat.le_refl _⟩)
      fun r => .lz77 r.1 r.2
  | len257 | len258 | len259 | len260 | len261 | len262 | len263 | len264 | len265 | len266 | len267 | len268
  | len269 | len270 | len271 | len272 | len273 | len274 | len275 | len276 | len277 | len278 | len279 | len280
  | len281 | len282 | len283 | len284 | len285 => exact lengthSymbol_keepsInput _
  | ll286 | ll287 => exact illegalLengthSymbol_keepsInput
  | dist0 | dist1 | dist2 | dist3 | dist4 | dist5 | dist6 | dist7 | dist8 | dist9 | dist10 | dist11 | dist12 | dist13
  | dist14 | dist15 | dist16 | dist17 | dist18 | dist19 | dist20 | dist21 | dist22 | dist23 | dist24 | dist25 | dist26
  | dist27 | dist28 | dist29 => exact distanceSymbol_keepsInput _
  | dist30 => exact distanceSymbol_keepsInput 30
  | dist31 => exact distanceSymbol_keepsInput 31
  | cmdReserved3 | cmdReserved4 | cmdReserved5 | cmdReserved6 | cmdReserved7 | cmdReserved8 | cmdReserved9
  | cmdReservedA | cmdReservedB | cmdReservedC | cmdReservedD | cmdReservedE | cmdReservedF | cmdBadhigh1 | cmdBadhigh2
  | cmdBadhigh3 | cmdBadhigh4 | cmdBadhigh5 | cmdBadhigh6 | cmdBadhigh7 | cmdBadhigh8 | cmdBadhigh9 | cmdBadhighA
  | cmdBadhighB | cmdBadhighC | cmdBadhighD | cmdBadhighE | cmdBadhighF => exact illegalCommand_keepsInput
  | peekBits => exact keepsInput_deliverResult peekBits_writes _
  | consume n => exact keepsInput_write (consume_writes n)
  | readBits n => exact keepsInput_deliverResult (readBits_writes n) _
  | byteAlign => exact keepsInput_write byteAlign_writes
  | hasDataLeft => exact keepsInput_deliverResult hasDataLeft_writes _
  | read n => exact keepsInput_deliverResult (readSome_writes n) _
  | readExact n => exact keepsInput_deliverResult (readExact_writes n) _
  | buildCodebook lens => exact keepsInput_deliverResult (buildOrRaise_writes lens) _
  | compileDecoder book =>
    exact keepsInput_deliverResult (r := fun s => .ok (compileDecoder book) s) StepWrites.refl .decoder
  | decode dec bits => exact keepsInput_deliverResult (decodeOrRaise_writes dec bits) _
  | decodeSymbol which => exact keepsInput_deliverResult (fun s => decodeSymbol_writes (namedDecoder which s) s) _
  | writeBuffer =>
    exact keepsInput_deliverResult (r := fun s => .ok (writeBuffer s) s) StepWrites.refl fun r => .region r.1 r.2
  | slide n => exact keepsInput_deliverUnit (slide_writes n)
  | windowReset => exact keepsInput_write (f := windowReset) fun _ => ⟨rfl, Nat.le_refl _⟩
  | lz77Decode => exact keepsInput_deliverResult lz77Decode_writes _
  | parseDynamic => exact keepsInput_deliverResult parseDynamic_writes _
  | headerStep => exact keepsInput_deliverUnit headerStep_writes
  | blockStep => exact keepsInput_deliverUnit blockStep_writes
  | storedBlock final => exact keepsInput_deliverUnit (storedBlock_writes final)
  | fixedBlock final => exact keepsInput_deliverUnit (fixedBlock_writes final)
  | dynamicBlock final => exact keepsInput_deliverUnit (dynamicBlock_writes final)
  | inflateStep final => exact keepsInput_deliverUnit (inflate_writes final)
  | footerStep => exact keepsInput_deliverUnit footerStep_writes
  | endStep => exact keepsInput_deliverUnit endStep_writes
  | dataEmission n => exact keepsInput_deliverUnit (emitData_writes n)

/-- Settles O49: RESET apart, every instruction is one of the families whose operations write only what a step may
write. -/
theorem inputStandsAndCursorNeverRewinds : Obligations.InputStandsAndCursorNeverRewinds := by
  intro i s t ht
  by_cases hi : i = .reset
  · subst hi
    have h := execReset_inputStands ht
    exact ⟨h.inp, h.inEnd, h.binding, fun hne => absurd rfl hne⟩
  · obtain ⟨h, hforward⟩ := exec_keepsInput hi s t ht
    exact ⟨h.inp, h.inEnd, h.binding, fun _ => hforward⟩

end Sys2Proof.Machine
end

section
/-! The decoder's refusals (30_encoding.md R54, R62, R63, R69), words of its encodings, and the length and distance
tables of R55 and R56. -/

namespace Sys2Proof.Machine

/-! ## Values that no row has -/

theorem decode_clSymbol_eq_none {v : Nat} : decode (.clSymbol v) = none ↔ 19 ≤ v := List.getElem?_eq_none_iff

theorem decode_distSymbol_eq_none {v : Nat} : decode (.distSymbol v) = none ↔ 32 ≤ v := List.getElem?_eq_none_iff

/-- The literals are the values below 256, and 32 symbols follow them. -/
theorem decode_litlenSymbol_eq_none {v : Nat} : decode (.litlenSymbol v) = none ↔ 288 ≤ v := by
  show (if v < 256 then some (.lit (BitVec.ofNat 8 v)) else lengthInstrs[v - 256]?) = none ↔ _
  split
  next h => exact iff_of_false (Option.some_ne_none _) (by omega)
  next h =>
    rw [List.getElem?_eq_none_iff]
    show 32 ≤ v - 256 ↔ _
    omega

theorem decode_internalOp_eq_none {w : BitVec 8} {args : OpArgs} :
    decode (.internalOp w args) = none ↔ 0x19 ≤ w.toNat :=
  Option.map_eq_none_iff.trans List.getElem?_eq_none_iff

/-- Every command word is a command or an illegal command (30_encoding.md R67). -/
theorem decode_portCmd_isSome (w : BitVec 8) : (decode (.portCmd w)).isSome = true := by
  by_cases hw : 3 ≤ w.toNat
  · obtain ⟨i, hi, -⟩ := decodePortCmd_illegal hw
    exact Option.isSome_iff_exists.2 ⟨i, hi⟩
  · obtain ⟨n, hn, rfl⟩ : ∃ n < 3, w = BitVec.ofNat 8 n := ⟨w.toNat, by omega, by simp⟩
    interval_cases n <;> rfl

/-- Settles O6: each alphabet is a list, and a value past its end is refused. -/
theorem reservedValuesRefused : Obligations.ReservedValuesRefused :=
  ⟨fun _ => decode_clSymbol_eq_none, fun _ => decode_litlenSymbol_eq_none, fun _ => decode_distSymbol_eq_none,
    decode_portCmd_isSome, fun _ _ => decode_internalOp_eq_none.2⟩

/-- Settles O7: each word is decoded as it stands. -/
theorem sampleWordsDecode : Obligations.SampleWordsDecode := by
  unfold Obligations.SampleWordsDecode
  decide

/-! ## Tables whose ranges follow one another (30_encoding.md R60) -/

/-- The ranges `base[i] .. base[i] + 2^extra[i] - 1` of the entries 0 to `n` of a table leave no gap and do not
overlap: each starts where the one before it ends. -/
def Consecutive (base extra : List Nat) (n : Nat) : Prop :=
  ∀ i < n, base.getD (i + 1) 0 = base.getD i 0 + 2 ^ extra.getD i 0

section
variable {base extra : List Nat} {n : Nat}

/-- The ranges cover what lies between the start of the first and the end of the last, and nothing else. -/
theorem Consecutive.covers (h : Consecutive base extra n) (v : Nat) :
    (base.getD 0 0 ≤ v ∧ v < base.getD n 0 + 2 ^ extra.getD n 0) ↔
      ∃ i x, i ≤ n ∧ x < 2 ^ extra.getD i 0 ∧ v = base.getD i 0 + x := by
  induction n generalizing v with
  | zero =>
    constructor
    · rintro ⟨hl, hu⟩
      exact ⟨0, v - base.getD 0 0, Nat.le_refl 0, by omega, by omega⟩
    · rintro ⟨i, x, hi, hx, rfl⟩
      obtain rfl := Nat.le_zero.1 hi
      exact ⟨Nat.le_add_right _ _, Nat.add_lt_add_left hx _⟩
  | succ n ih =>
    have hnext := h n (Nat.lt_succ_self n)
    have ih := ih fun i hi => h i (Nat.lt_succ_of_lt hi)
    have hfirst : base.getD 0 0 ≤ base.getD (n + 1) 0 := by
      obtain ⟨hl, -⟩ := (ih (base.getD n 0)).2 ⟨n, 0, Nat.le_refl n, Nat.two_pow_pos _, rfl⟩
      exact Nat.le_trans hl (hnext ▸ Nat.le_add_right _ _)
    rw [← hnext] at ih
    constructor
    · rintro ⟨hl, hu⟩
      rcases Nat.lt_or_ge v (base.getD (n + 1) 0) with hv | hv
      · obtain ⟨i, x, hi, hx, rfl⟩ := (ih v).1 ⟨hl, hv⟩
        exact ⟨i, x, Nat.le_succ_of_le hi, hx, rfl⟩
      · exact ⟨n + 1, v - base.getD (n + 1) 0, Nat.le_refl _, by omega, by omega⟩
    · rintro ⟨i, x, hi, hx, rfl⟩
      rcases Nat.lt_or_eq_of_le hi with hi | rfl
      · obtain ⟨hl, hu⟩ := (ih _).2 ⟨i, x, Nat.le_of_lt_succ hi, hx, rfl⟩
        exact ⟨hl, Nat.lt_of_lt_of_le hu (Nat.le_add_right _ _)⟩
      · exact ⟨Nat.le_add_right_of_le hfirst, Nat.add_lt_add_left hx _⟩

/-- An entry's range ends before a later one's starts. -/
theorem Consecutive.end_le (h : Consecutive base extra n) {i j : Nat} (hij : i < j) (hj : j ≤ n) :
    base.getD i 0 + 2 ^ extra.getD i 0 ≤ base.getD j 0 := by
  induction j, hij using Nat.le_induction with
  | base => exact Nat.le_of_eq (h i (by omega)).symm
  | succ j hij ih =>
    rw [h j (by omega)]
    exact Nat.le_add_right_of_le (ih (by omega))

/-- A value lies in one range only. -/
theorem Consecutive.unique (h : Consecutive base extra n) {i x j y : Nat} (hi : i ≤ n) (hx : x < 2 ^ extra.getD i 0)
    (hj : j ≤ n) (hy : y < 2 ^ extra.getD j 0) (he : base.getD i 0 + x = base.getD j 0 + y) : i = j ∧ x = y := by
  rcases Nat.lt_trichotomy i j with hij | rfl | hij
  · have := h.end_le hij hj; omega
  · exact ⟨rfl, by omega⟩
  · have := h.end_le hij hi; omega

end

theorem distTable_consecutive : Consecutive distBase distExtra 29 := by unfold Consecutive; decide

/-- Up to symbol 284, whose range ends at 258. -/
theorem lenTable_consecutive : Consecutive lenBase lenExtra 27 := by unfold Consecutive; decide

/-- Symbol 285 is the length 258 alone. -/
theorem length_of_285 {x : Nat} (hx : x < 2 ^ lenExtra.getD 28 0) : lenBase.getD 28 0 + x = 258 := by
  obtain rfl : x = 0 := by simpa [lenExtra] using hx
  rfl

/-- Settles O30: both tables' ranges follow one another, but for the length symbol 285. -/
theorem lengthsAndDistancesTile : Obligations.LengthsAndDistancesTile := by
  refine ⟨fun d => ?_, fun _ _ _ _ hi hx hj hy => distTable_consecutive.unique hi hx hj hy, fun l => ?_,
    fun i x j y hi hx hj hy he hne => ?_⟩
  · rw [← distTable_consecutive.covers]
    show _ ↔ 1 ≤ d ∧ d < 24577 + 2 ^ 13
    omega
  · have hcov := lenTable_consecutive.covers l
    constructor
    · rintro ⟨hl, hu⟩
      obtain ⟨i, x, hi, hx, he⟩ := hcov.1 ⟨hl, by show l < 227 + 2 ^ 5; omega⟩
      exact ⟨i, x, by omega, hx, he⟩
    · rintro ⟨i, x, hi, hx, he⟩
      rcases Nat.lt_or_eq_of_le hi with hi | rfl
      · obtain ⟨hl, hu⟩ := hcov.2 ⟨i, x, by omega, hx, he⟩
        have hu : l < 227 + 2 ^ 5 := hu
        exact ⟨hl, by omega⟩
      · rw [he, length_of_285 hx]
        decide
  · have hi28 : i ≠ 28 := by rintro rfl; exact hne (length_of_285 hx)
    have hj28 : j ≠ 28 := by rintro rfl; exact hne (he.trans (length_of_285 hy))
    exact lenTable_consecutive.unique (by omega) hx (by omega) hy he

end Sys2Proof.Machine
end

section
/-! What a step does with the element it fetches (30_encoding.md R48), and that an element placed for the fetch is the
one it reads (20_memory.md R33; notes/assumptions/24.md). -/

namespace Sys2Proof.Machine

/-! ## The element a step runs -/

theorem step_of_fetchElement {s u : State} {e : Element} (h : fetchElement s = .ok (some e) u) :
    step s = runElement (some e) (toPort u) := by
  simp only [step, fetch, h, Res.ok_bind]

theorem runElement_of_decode {e : Element} {i : Instr} (h : decode (ruleArm e) = some i) (s : State) :
    runElement (some e) s = exec i s := by
  simp only [runElement, h]

/-- An element that decodes is inside its alphabet, and runs its own row. -/
theorem ruleArm_of_decode {e : Element} {i : Instr} (h : decode e = some i) : ruleArm e = e := by
  have hne : decode e ≠ none := by rw [h]; exact Option.some_ne_none i
  cases e with
  | blockHeader w | storedHeader w | dynamicHeader w | portCmd w | internalOp w args => rfl
  | clSymbol v =>
    have hv := mt decode_clSymbol_eq_none.2 hne
    exact congrArg Element.clSymbol (Nat.min_eq_left (by omega))
  | litlenSymbol v =>
    have hv := mt decode_litlenSymbol_eq_none.2 hne
    exact congrArg Element.litlenSymbol (Nat.min_eq_left (by omega))
  | distSymbol v =>
    have hv := mt decode_distSymbol_eq_none.2 hne
    exact congrArg Element.distSymbol (Nat.min_eq_left (by omega))

/-- Settles O2: a fetched element runs its own row where it has one, and its rule's last arm past the alphabet. -/
theorem stepRunsFetchedElement : Obligations.StepRunsFetchedElement := by
  intro s u e he
  rw [step_of_fetchElement he]
  refine ⟨fun i hi => runElement_of_decode (by rw [ruleArm_of_decode hi, hi]) _, ?_, ?_, ?_, ?_⟩
  · rintro v hv rfl
    exact runElement_of_decode (by rw [ruleArm, Nat.min_eq_right (by omega)]; rfl) _
  · rintro v hv rfl
    exact runElement_of_decode (by rw [ruleArm, Nat.min_eq_right (by omega)]; rfl) _
  · rintro v hv rfl
    exact runElement_of_decode (by rw [ruleArm, Nat.min_eq_right (by omega)]; rfl) _
  · rintro w args hw rfl
    simp only [runElement, ruleArm, decode_internalOp_eq_none.2 hw]
    rfl

/-! ## Bytes placed at the cursor -/

theorem getD_overlay {inp v : List Byte} {k : Nat} (pos : Nat) (hk : k < v.length) :
    (overlay inp pos v).getD (pos + k) 0 = v.getD k 0 := by
  have hlen : ((inp ++ List.replicate pos 0).take pos).length = pos := by simp
  rw [overlay, List.append_assoc, List.getD_append_right _ _ _ _ (by omega), hlen, Nat.add_sub_cancel_left,
    List.getD_append _ _ _ _ hk]

theorem le_length_overlay (inp v : List Byte) (pos : Nat) : pos + v.length ≤ (overlay inp pos v).length := by
  simp only [overlay, List.length_append, List.length_take, List.length_replicate]
  omega

/-- The state whose stream holds a word at its cursor. -/
abbrev withWord (w : Nat) (s : State) : State := placeBytes (bytesOfWord w) s

@[simp] theorem bitAddr_placeBytes (v : List Byte) (s : State) : bitAddr (placeBytes v s) = 8 * s.brPos := by
  simp [bitAddr, placeBytes]

theorem avail_withWord (w : Nat) (s : State) : 8 ≤ avail (withWord w s) := by
  have h : s.brPos + 8 ≤ (withWord w s).inp.length := le_length_overlay s.inp (bytesOfWord w) s.brPos
  show 8 ≤ (withWord w s).inp.length - s.brPos
  omega

theorem getD_withWord (w : Nat) (s : State) {k : Nat} (hk : k < 8) :
    (withWord w s).inp.getD (s.brPos + k) 0 = BitVec.ofNat 8 (w >>> (8 * k)) := by
  refine (getD_overlay (v := bytesOfWord w) s.brPos hk).trans ?_
  simp [bytesOfWord, List.getD_eq_getElem?_getD, hk]

/-- Bit `k` of the stream at the cursor is bit `k` of the word. -/
theorem streamBit_withWord (w : Nat) (s : State) {k : Nat} (hk : k < 64) :
    streamBit k (withWord w s) = w.testBit k := by
  rw [streamBit, bitAddr_placeBytes, show (8 * s.brPos + k) / 8 = s.brPos + k / 8 by omega,
    show (8 * s.brPos + k) % 8 = k % 8 by omega, getD_withWord w s (by omega), BitVec.getLsbD_ofNat,
    Nat.testBit_shiftRight, Nat.div_add_mod]
  simp [Nat.mod_lt]

theorem streamBit_advance (n k : Nat) (s : State) : streamBit k (advance n s) = streamBit (n + k) s := by
  rw [streamBit, bitAddr_advance, Nat.add_assoc]
  rfl

/-! ## What the units read there -/

/-- A field of `n` bits, `m` bits into the word. -/
theorem readBits_withWord (w : Nat) (s : State) (m n : Nat) (h : m + n ≤ 32) :
    ∃ x, readBits n (advance m (withWord w s)) = .ok x (advance (m + n) (withWord w s)) ∧
      x.setWidth n = BitVec.ofNat n (w >>> m) := by
  have hav := avail_withWord w s
  rw [avail_eq] at hav
  refine ⟨_, by rw [readBits_eq, if_neg (by rw [avail_eq, bitAddr_advance, advance_inp]; omega), advance_advance], ?_⟩
  apply BitVec.eq_of_getLsbD_eq
  intro k hk
  have hmask : (BitVec.ofNat 32 (mask n)).getLsbD k = true := by
    simp only [mask, BitVec.getLsbD_ofNat, Nat.testBit_two_pow_sub_one, Bool.and_eq_true, decide_eq_true_eq]
    omega
  rw [BitVec.getLsbD_setWidth, BitVec.getLsbD_and, hmask, getLsbD_peekWord _ _ (by omega), streamBit_advance,
    streamBit_withWord _ _ (by omega), BitVec.getLsbD_ofNat, Nat.testBit_shiftRight, Bool.and_true]

theorem decodeBits_oneCode (sym : Nat) {bits : BitVec 32} (h : bits.getLsbD 0 = false) :
    decodeBits (oneCode sym) bits = some (sym, 1) := by
  have h0 : bits.toNat &&& mask 1 = 0 := by
    rw [mask, Nat.and_two_pow_sub_one_eq_mod]
    simpa [BitVec.getLsbD] using h
  simp [decodeBits, lookupSlot, oneCode, h0, slotAt]

/-- A symbol whose code is a 0 bit, as an element of the format `f`. -/
theorem fetchSymbol_withWord_zero (f : Nat → Element) (sym : Nat) (s : State) :
    ((decodeSymbol (oneCode sym) (withWord 0 s)).bind fun v t => .ok (some (f v)) t) =
      .ok (some (f sym)) (advance 1 (withWord 0 s)) := by
  have hav := avail_withWord 0 s
  have hbit : (peekWord (withWord 0 s)).getLsbD 0 = false := by
    rw [getLsbD_peekWord _ _ (by decide), streamBit_withWord _ _ (by decide), Nat.zero_testBit]
  rw [decodeSymbol_eq, if_neg (by omega), decodeBits_oneCode sym hbit, Res.ok_bind]

/-- Neighbouring fields of a word make up the field they cover together. -/
theorem ofNat_shiftRight_append (m n k w : Nat) :
    BitVec.ofNat m (w >>> (k + n)) ++ BitVec.ofNat n (w >>> k) = BitVec.ofNat (m + n) (w >>> k) := by
  apply BitVec.eq_of_getLsbD_eq
  intro j hj
  simp only [BitVec.getLsbD_append, BitVec.getLsbD_ofNat, Nat.testBit_shiftRight]
  split
  next h => simp [h, hj]
  next h =>
    rw [show k + n + (j - n) = k + j by omega, decide_eq_true hj, decide_eq_true (show j - n < m by omega)]

/-- The four bytes of a stored header, the lowest first. -/
theorem readExact_withWord (w : BitVec 32) (s : State) :
    ∃ v, readExact 4 (withWord w.toNat s) = .ok v (atByte (s.brPos + 4) (withWord w.toNat s)) ∧
      le32 (byteAt v 0) (byteAt v 1) (byteAt v 2) (byteAt v 3) = w := by
  have hav : 8 ≤ (withWord w.toNat s).inp.length - s.brPos := avail_withWord w.toNat s
  have hpos : alignedPos (withWord w.toNat s) = s.brPos := by rw [alignedPos, bitAddr_placeBytes]; omega
  have hbyte : ∀ k < 4, byteAt (inBytes s.brPos 4 (withWord w.toNat s)) k = BitVec.ofNat 8 (w.toNat >>> (8 * k)) :=
    fun k hk => (getD_inBytes _ _ _ _ hk).trans (getD_withWord _ _ (by omega))
  refine ⟨_, by rw [readExact_eq, hpos, if_neg (by omega)], ?_⟩
  rw [hbyte 0 (by decide), hbyte 1 (by decide), hbyte 2 (by decide), hbyte 3 (by decide), le32,
    ofNat_shiftRight_append 8 8 16, ofNat_shiftRight_append 16 8 8, ofNat_shiftRight_append 24 8 0,
    Nat.shiftRight_zero, BitVec.ofNat_toNat, BitVec.setWidth_eq]

/-- The three fields of a dynamic header, in stream order. -/
theorem readFields_withWord (w : BitVec 14) (s : State) :
    ∃ x y z, readBits 5 (withWord w.toNat s) = .ok x (advance 5 (withWord w.toNat s)) ∧
      readBits 5 (advance 5 (withWord w.toNat s)) = .ok y (advance 10 (withWord w.toNat s)) ∧
      readBits 4 (advance 10 (withWord w.toNat s)) = .ok z (advance 14 (withWord w.toNat s)) ∧
      (z.setWidth 4 ++ y.setWidth 5 ++ x.setWidth 5 : BitVec 14) = w := by
  obtain ⟨x, hx, hxw⟩ := readBits_withWord w.toNat s 0 5 (by decide)
  obtain ⟨y, hy, hyw⟩ := readBits_withWord w.toNat s 5 5 (by decide)
  obtain ⟨z, hz, hzw⟩ := readBits_withWord w.toNat s 10 4 (by decide)
  rw [advance_zero] at hx
  refine ⟨x, y, z, hx, hy, hz, ?_⟩
  rw [hxw, hyw, hzw, ofNat_shiftRight_append 4 5 5, ofNat_shiftRight_append 9 5 0, Nat.shiftRight_zero,
    BitVec.ofNat_toNat, BitVec.setWidth_eq]

/-- Settles O3: what each unit reads at the cursor is what was placed there. -/
theorem placedElementIsFetched : Obligations.PlacedElementIsFetched := by
  intro s e
  cases e with
  | portCmd w | internalOp w args => exact ⟨_, rfl, rfl⟩
  | blockHeader w =>
    obtain ⟨x, hx, hw⟩ := readBits_withWord w.toNat { s with fetchPoint := .blockHeader } 0 3 (by decide)
    rw [advance_zero] at hx
    refine ⟨advance 3 (placeElement (.blockHeader w) s), ?_, rfl⟩
    show (readBits 3 (withWord w.toNat _)).bind _ = _
    rw [hx, Res.ok_bind, hw, Nat.shiftRight_zero, BitVec.ofNat_toNat, BitVec.setWidth_eq]
    rfl
  | storedHeader w =>
    obtain ⟨v, hv, hw⟩ := readExact_withWord w { s with fetchPoint := .storedHeader }
    refine ⟨atByte (s.brPos + 4) (placeElement (.storedHeader w) s), ?_, rfl⟩
    show (readExact 4 (withWord w.toNat _)).bind _ = _
    rw [hv, Res.ok_bind, hw]
    rfl
  | dynamicHeader w =>
    obtain ⟨x, y, z, hx, hy, hz, hw⟩ := readFields_withWord w { s with fetchPoint := .dynamicHeader }
    refine ⟨advance 14 (placeElement (.dynamicHeader w) s), ?_, rfl⟩
    show (readBits 5 (withWord w.toNat _)).bind _ = _
    rw [hx, Res.ok_bind, hy, Res.ok_bind, hz, Res.ok_bind, hw]
    rfl
  | clSymbol v => exact ⟨_, fetchSymbol_withWord_zero .clSymbol v _, rfl⟩
  | litlenSymbol v => exact ⟨_, fetchSymbol_withWord_zero .litlenSymbol v _, rfl⟩
  | distSymbol v => exact ⟨_, fetchSymbol_withWord_zero .distSymbol v _, rfl⟩

end Sys2Proof.Machine
end

section
/-! That decoding through compiled tables is matching codes against the front of the stream (42_huffman_decoder.md R89,
R90, R92): the tables that hold a list of codes, and that placing one more code makes them hold that one too. -/

namespace Sys2Proof.Machine

/-! ## A code at the front of the stream, as a number (20_memory.md R34) -/

theorem revBits_lt (len code : Nat) : revBits len code < 2 ^ len := by
  induction len generalizing code with
  | zero => exact Nat.one_pos
  | succ len ih =>
    have hrest := ih (code / 2)
    rw [revBits, Nat.pow_succ]
    rcases Nat.mod_two_eq_zero_or_one code with h | h <;> rw [h] <;> omega

/-- Bit `k` of a reversal of `len` bits is bit `len - 1 - k`. -/
theorem testBit_revBits (len code k : Nat) :
    (revBits len code).testBit k = (decide (k < len) && code.testBit (len - 1 - k)) := by
  induction len generalizing code with
  | zero => simp [revBits]
  | succ len ih =>
    rw [revBits, Nat.mul_comm, Nat.testBit_two_pow_mul_add _ (revBits_lt len _), ih, Nat.testBit_div_two]
    rcases Nat.lt_trichotomy k len with hk | rfl | hk
    · rw [if_pos hk, show len - 1 - k + 1 = len + 1 - 1 - k by omega]
      simp [hk, Nat.lt_succ_of_lt hk]
    · simp
    · have hone : code % 2 < 2 ^ (k - len) :=
        Nat.lt_of_lt_of_le (Nat.mod_lt _ (by decide)) (Nat.le_self_pow (by omega) 2)
      rw [if_neg (by omega), Nat.testBit_lt_two_pow hone, decide_eq_false (by omega), Bool.false_and]

/-- The code of an entry is the first bits of a number, lowest bit first. -/
def CodeInFront (e : CodeEntry) (x : Nat) : Prop := 0 < e.len ∧ x % 2 ^ e.len = revBits e.len e.code

theorem codeMatches_iff_codeInFront {e : CodeEntry} {bits : BitVec 32} :
    CodeMatches e bits ↔ CodeInFront e bits.toNat := by
  refine and_congr_right fun _ => ⟨fun h => Nat.eq_of_testBit_eq fun k => ?_, fun h k hk => ?_⟩
  · rw [Nat.testBit_mod_two_pow, testBit_revBits]
    by_cases hk : k < e.len
    · rw [← h k hk]; rfl
    · simp [hk]
  · have := congrArg (Nat.testBit · k) h
    simpa [Nat.testBit_mod_two_pow, testBit_revBits, hk, BitVec.testBit_toNat] using this

/-! ## Filling slots -/

/-- The slots filled are those named by the count. -/
theorem getElem?_fillSlots (t : List Slot) (base start shift count : Nat) (slot : Slot) (j : Nat) :
    (fillSlots t base start shift count slot)[j]? =
      if ∃ h < count, base + (start ||| (h <<< shift)) = j then t[j]?.map (Function.const Slot slot) else t[j]? := by
  unfold fillSlots
  induction count with
  | zero => simp
  | succ count ih =>
    rw [List.range_succ, List.foldl_append, List.foldl_cons, List.foldl_nil, List.getElem?_set', ih]
    simp only [Nat.lt_succ_iff_lt_or_eq, or_and_right, exists_or, exists_eq_left]
    by_cases hlast : base + (start ||| count <<< shift) = j
    · rw [if_pos hlast, if_pos (Or.inr hlast)]
      split <;> simp
    · simp only [hlast, or_false, if_false]

section
variable {t : List Slot} {base start shift count y : Nat} {slot : Slot}

/-- From the base on, a slot is filled when its lowest bits are the start. -/
theorem exists_filled_iff (hs : start < 2 ^ shift) (hy : y < 2 ^ shift * count) :
    (∃ h < count, base + (start ||| (h <<< shift)) = base + y) ↔ y % 2 ^ shift = start := by
  simp only [Nat.shiftLeft_eq, Nat.mul_comm _ (2 ^ shift), Nat.lor_comm start, ← Nat.two_pow_add_eq_or_of_lt hs,
    Nat.add_left_cancel_iff]
  constructor
  · rintro ⟨h, -, rfl⟩
    rw [Nat.mul_add_mod, Nat.mod_eq_of_lt hs]
  · rintro rfl
    exact ⟨y / 2 ^ shift, Nat.div_lt_of_lt_mul hy, Nat.div_add_mod y _⟩

theorem getElem?_fillSlots_same (hs : start < 2 ^ shift) (hy : y < 2 ^ shift * count) (hm : y % 2 ^ shift = start)
    (ht : base + y < t.length) : (fillSlots t base start shift count slot)[base + y]? = some slot := by
  rw [getElem?_fillSlots, if_pos ((exists_filled_iff hs hy).2 hm), List.getElem?_eq_getElem ht]
  rfl

theorem getElem?_fillSlots_other (hs : start < 2 ^ shift) (hy : y < 2 ^ shift * count) (hm : y % 2 ^ shift ≠ start) :
    (fillSlots t base start shift count slot)[base + y]? = t[base + y]? := by
  rw [getElem?_fillSlots, if_neg (mt (exists_filled_iff hs hy).1 hm)]

theorem getElem?_fillSlots_outside {j : Nat} (hs : start < 2 ^ shift) (hj : j < base ∨ base + 2 ^ shift * count ≤ j) :
    (fillSlots t base start shift count slot)[j]? = t[j]? := by
  rw [getElem?_fillSlots, if_neg]
  rintro ⟨h, hh, he⟩
  rw [Nat.shiftLeft_eq, Nat.mul_comm, Nat.lor_comm, ← Nat.two_pow_add_eq_or_of_lt hs] at he
  have := Nat.mul_le_mul_left (2 ^ shift) hh
  rw [Nat.mul_succ] at this
  omega

end

/-! ## The slot a number selects -/

/-- The slot that the low bits of `x` select in tables `(PRI, SEC)` (42_huffman_decoder.md R90). -/
def slotFor (m p : Nat) (t : List Slot × List Slot) (x : Nat) : Slot :=
  lookupSlot { maxLen := m, primaryBits := p, pri := t.1, sec := t.2, smask := mask (m - p) } x

section
variable {m p x : Nat} {t t' : List Slot × List Slot}

theorem slotAt_of_getElem? {table : List Slot} {i : Nat} {slot : Slot} (h : table[i]? = some slot) :
    slotAt table i = slot := by
  rw [slotAt, h, Option.getD_some]

theorem slotFor_primary {slot : Slot} (h : t.1[x % 2 ^ p]? = some slot) (hl : ∀ base, slot ≠ .link base) :
    slotFor m p t x = slot := by
  cases slot with
  | link base => exact absurd rfl (hl base)
  | empty | direct sym len =>
    simp only [slotFor, lookupSlot, mask, Nat.and_two_pow_sub_one_eq_mod, slotAt_of_getElem? h]

theorem slotFor_link {base : Nat} (h : t.1[x % 2 ^ p]? = some (.link base)) :
    slotFor m p t x = slotAt t.2 (base + x / 2 ^ p % 2 ^ (m - p)) := by
  simp only [slotFor, lookupSlot, mask, Nat.and_two_pow_sub_one_eq_mod, slotAt_of_getElem? h,
    Nat.shiftRight_eq_div_pow]

/-- Tables that agree on the slots a number selects select the same slot for it. -/
theorem slotFor_congr (hsize : t.1.length = 2 ^ p) (hpri : t'.1[x % 2 ^ p]? = t.1[x % 2 ^ p]?)
    (hsec : ∀ base, t.1[x % 2 ^ p]? = some (.link base) →
      t'.2[base + x / 2 ^ p % 2 ^ (m - p)]? = t.2[base + x / 2 ^ p % 2 ^ (m - p)]?) :
    slotFor m p t' x = slotFor m p t x := by
  obtain ⟨slot, hslot⟩ : ∃ slot, t.1[x % 2 ^ p]? = some slot :=
    ⟨_, List.getElem?_eq_getElem (by rw [hsize]; exact Nat.mod_lt _ (Nat.two_pow_pos p))⟩
  cases slot with
  | link base => rw [slotFor_link hslot, slotFor_link (hpri.trans hslot), slotAt, slotAt, hsec base hslot]
  | empty | direct sym len => rw [slotFor_primary hslot nofun, slotFor_primary (hpri.trans hslot) nofun]

end

/-! ## Tables that hold a list of codes -/

/-- Tables in which every number selects the symbol whose code it has in front, and an empty slot when it has none.
Their segments are aligned, and each is linked from one slot. -/
structure TablesHold (m p : Nat) (es : List CodeEntry) (t : List Slot × List Slot) : Prop where
  size : t.1.length = 2 ^ p
  whole : 2 ^ (m - p) ∣ t.2.length
  inside : ∀ (k base : Nat), t.1[k]? = some (.link base) → 2 ^ (m - p) ∣ base ∧ base + 2 ^ (m - p) ≤ t.2.length
  distinct : ∀ (k k' base : Nat), t.1[k]? = some (.link base) → t.1[k']? = some (.link base) → k = k'
  found : ∀ sym e x, es[sym]? = some e → CodeInFront e x → slotFor m p t x = .direct sym e.len
  missed : ∀ x, (∀ e ∈ es, ¬ CodeInFront e x) → slotFor m p t x = .empty

/-- No number has the codes of both in front. -/
def CodesApart (e f : CodeEntry) : Prop := ∀ x, CodeInFront e x → ¬ CodeInFront f x

section
variable {m p : Nat} {es : List CodeEntry} {e : CodeEntry} {t t' : List Slot × List Slot}

theorem tablesHold_nil (m p : Nat) : TablesHold m p [] (List.replicate (2 ^ p) .empty, []) := by
  have hempty : ∀ (k : Nat) slot, (List.replicate (2 ^ p) Slot.empty)[k]? = some slot → slot = .empty := fun k slot h =>
    List.eq_of_mem_replicate (List.mem_of_getElem? h)
  exact
    { size := List.length_replicate
      whole := Nat.dvd_zero _
      inside := fun k _ h => absurd (hempty k _ h) nofun
      distinct := fun k _ _ h => absurd (hempty k _ h) nofun
      found := fun _ _ _ h => by simp at h
      missed := fun x _ => slotFor_primary
        (by rw [List.getElem?_replicate, if_pos (Nat.mod_lt x (Nat.two_pow_pos p))]) nofun }

/-- The tables with a new empty segment, linked from the slot `key`. -/
def addSegment (m p key : Nat) (t : List Slot × List Slot) : List Slot × List Slot :=
  (t.1.set key (.link t.2.length), t.2 ++ List.replicate (2 ^ (m - p)) .empty)

/-- The links of the tables with a new segment: the one to it, and the ones there were. -/
theorem link_addSegment {key k base : Nat} (h : (addSegment m p key t).1[k]? = some (.link base)) :
    k = key ∧ base = t.2.length ∨ t.1[k]? = some (.link base) := by
  rw [addSegment, List.getElem?_set] at h
  split at h
  next hk =>
    split at h
    · cases h
      exact .inl ⟨hk.symm, rfl⟩
    · cases h
  next => exact .inr h

/-- A new segment changes the slot of no number: its slots are empty, as the one that links it was. -/
theorem TablesHold.slotFor_addSegment (h : TablesHold m p es t) {key : Nat} (hkey : t.1[key]? = some .empty) (x : Nat) :
    slotFor m p (addSegment m p key t) x = slotFor m p t x := by
  have hy := Nat.mod_lt (x / 2 ^ p) (Nat.two_pow_pos (m - p))
  by_cases hx : x % 2 ^ p = key
  · have hlink : (addSegment m p key t).1[x % 2 ^ p]? = some (.link t.2.length) := by
      rw [hx]
      exact List.getElem?_set_self (List.getElem?_eq_some_iff.1 hkey).1
    rw [slotFor_link hlink, slotFor_primary (slot := .empty) (hx ▸ hkey) nofun]
    refine slotAt_of_getElem? ?_
    rw [addSegment, List.getElem?_append_right (Nat.le_add_right _ _), Nat.add_sub_cancel_left, List.getElem?_replicate,
      if_pos hy]
  · refine slotFor_congr h.size (List.getElem?_set_ne (Ne.symm hx)) fun base hb => ?_
    obtain ⟨-, hin⟩ := h.inside _ _ hb
    exact List.getElem?_append_left (by omega)

theorem TablesHold.addSegment_holds (h : TablesHold m p es t) {key : Nat} (hkey : t.1[key]? = some .empty) :
    TablesHold m p es (addSegment m p key t) := by
  have hlen : (addSegment m p key t).2.length = t.2.length + 2 ^ (m - p) := by simp [addSegment]
  have hpos := Nat.two_pow_pos (m - p)
  refine
    { size := List.length_set.trans h.size
      whole := hlen ▸ Nat.dvd_add h.whole (Nat.dvd_refl _)
      inside := fun k base hb => ?_
      distinct := fun k k' base hb hb' => ?_
      found := fun sym e x he hx => (h.slotFor_addSegment hkey x).trans (h.found sym e x he hx)
      missed := fun x hx => (h.slotFor_addSegment hkey x).trans (h.missed x hx) }
  · rw [hlen]
    rcases link_addSegment hb with ⟨-, rfl⟩ | hold
    · exact ⟨h.whole, Nat.le_refl _⟩
    · obtain ⟨hd, hin⟩ := h.inside k base hold
      exact ⟨hd, by omega⟩
  · rcases link_addSegment hb with ⟨rfl, hn⟩ | hold <;> rcases link_addSegment hb' with ⟨rfl, hn'⟩ | hold'
    · rfl
    · have := (h.inside k' base hold').2
      omega
    · have := (h.inside k base hold).2
      omega
    · exact h.distinct k k' base hold hold'

/-- Reserving a segment leaves the key's slot a link to it, and every number its slot. -/
theorem TablesHold.reserve (h : TablesHold m p es t) {key : Nat} (hk : key < 2 ^ p)
    (hfree : ∀ sym len, t.1[key]? ≠ some (.direct sym len)) :
    TablesHold m p es (reserveSegment m p key t).2 ∧
      (reserveSegment m p key t).2.1[key]? = some (.link (reserveSegment m p key t).1) := by
  have hkey : key < t.1.length := h.size ▸ hk
  obtain ⟨slot, hslot⟩ : ∃ slot, t.1[key]? = some slot := ⟨_, List.getElem?_eq_getElem hkey⟩
  rw [reserveSegment, List.getD_eq_getElem?_getD, hslot, Option.getD_some]
  cases slot with
  | link base => exact ⟨h, hslot⟩
  | direct sym len => exact absurd hslot (hfree sym len)
  | empty => exact ⟨h.addSegment_holds hslot, List.getElem?_set_self hkey⟩

/-- Tables in which one more code's numbers select its symbol, and all others what they did. -/
theorem TablesHold.snoc (h : TablesHold m p es t) (hsize : t'.1.length = t.1.length) (hsec : t'.2.length = t.2.length)
    (hlinks : ∀ (k base : Nat), t'.1[k]? = some (.link base) → t.1[k]? = some (.link base))
    (hnew : ∀ x, CodeInFront e x → slotFor m p t' x = .direct es.length e.len)
    (hold : ∀ x, ¬ CodeInFront e x → slotFor m p t' x = slotFor m p t x) (hapart : ∀ f ∈ es, CodesApart f e) :
    TablesHold m p (es ++ [e]) t' := by
  refine ⟨hsize.trans h.size, hsec ▸ h.whole, fun k base hb => hsec ▸ h.inside k base (hlinks k base hb),
    fun k k' base hb hb' => h.distinct k k' base (hlinks k base hb) (hlinks k' base hb'), fun sym f x hf hx => ?_,
    fun x hx => ?_⟩
  · rcases Nat.lt_or_ge sym es.length with hs | hs
    · rw [List.getElem?_append_left hs] at hf
      rw [hold x (hapart f (List.mem_of_getElem? hf) x hx), h.found sym f x hf hx]
    · rw [List.getElem?_append_right hs, List.getElem?_singleton] at hf
      split at hf
      next h0 =>
        cases hf
        rw [hnew x hx, show sym = es.length by omega]
      next => cases hf
  · rw [hold x (hx e (by simp)), h.missed x fun f hf => hx f (by simp [hf])]

/-- Placing a code of at most `p` bits fills slots of `PRI`. -/
theorem TablesHold.place_short (h : TablesHold m p es t) (hp : e.len ≤ p) (hapart : ∀ f ∈ es, CodesApart f e) :
    TablesHold m p (es ++ [e]) (placeSymbol m p es.length e t) := by
  by_cases h0 : e.len = 0
  · rw [placeSymbol, if_pos h0]
    exact h.snoc rfl rfl (fun _ _ hb => hb) (fun x hx => absurd h0 (Nat.ne_of_gt hx.1)) (fun _ _ => rfl) hapart
  · rw [placeSymbol, if_neg h0, if_pos hp]
    have hpow : 2 ^ e.len * 2 ^ (p - e.len) = 2 ^ p := by rw [← Nat.pow_add, Nat.add_sub_cancel' hp]
    have hlow : ∀ x, x % 2 ^ p < 2 ^ e.len * 2 ^ (p - e.len) := fun x => by
      rw [hpow]; exact Nat.mod_lt _ (Nat.two_pow_pos p)
    have hmod : ∀ x, x % 2 ^ p % 2 ^ e.len = x % 2 ^ e.len := fun x => Nat.mod_mod_of_dvd x (Nat.pow_dvd_pow 2 hp)
    refine h.snoc (length_fillSlots ..) rfl (fun k base hb => ?_) (fun x hx => ?_) (fun x hx => ?_) hapart
    · rw [getElem?_fillSlots] at hb
      split at hb
      · simp at hb
      · exact hb
    · refine slotFor_primary ?_ nofun
      rw [← Nat.zero_add (x % 2 ^ p)]
      refine getElem?_fillSlots_same (revBits_lt _ _) (hlow x) ((hmod x).trans hx.2) ?_
      rw [h.size, Nat.zero_add]
      exact Nat.mod_lt _ (Nat.two_pow_pos p)
    · refine slotFor_congr h.size ?_ fun _ _ => rfl
      rw [← Nat.zero_add (x % 2 ^ p)]
      exact getElem?_fillSlots_other (revBits_lt _ _) (hlow x) fun hr =>
        hx ⟨Nat.pos_of_ne_zero h0, (hmod x).symm.trans hr⟩

/-- A code longer than `p` is in front when its first `p` bits are and the rest of it follows. -/
theorem codeInFront_iff_of_lt (hp : p < e.len) (x : Nat) :
    CodeInFront e x ↔ x % 2 ^ p = revBits e.len e.code % 2 ^ p ∧
      x / 2 ^ p % 2 ^ (e.len - p) = revBits e.len e.code / 2 ^ p := by
  have hpow : 2 ^ e.len = 2 ^ p * 2 ^ (e.len - p) := by rw [← Nat.pow_add, Nat.add_sub_cancel' (Nat.le_of_lt hp)]
  have hr := revBits_lt e.len e.code
  rw [CodeInFront, hpow, Nat.mod_mul]
  generalize revBits e.len e.code = r at *
  constructor
  · rintro ⟨-, rfl⟩
    rw [Nat.add_mul_mod_self_left, Nat.mod_mod, Nat.add_mul_div_left _ _ (Nat.two_pow_pos p),
      Nat.div_eq_of_lt (Nat.mod_lt _ (Nat.two_pow_pos p)), Nat.zero_add]
    exact ⟨rfl, rfl⟩
  · rintro ⟨h1, h2⟩
    exact ⟨by omega, by rw [h1, h2, Nat.mod_add_div]⟩

/-- The segments of different keys do not overlap. -/
theorem TablesHold.segments_apart (h : TablesHold m p es t) {k k' base base' : Nat} (hb : t.1[k]? = some (.link base))
    (hb' : t.1[k']? = some (.link base')) (hk : k ≠ k') : base' + 2 ^ (m - p) ≤ base ∨ base + 2 ^ (m - p) ≤ base' := by
  obtain ⟨⟨a, rfl⟩, -⟩ := h.inside k base hb
  obtain ⟨⟨a', rfl⟩, -⟩ := h.inside k' base' hb'
  rcases Nat.lt_trichotomy a a' with ha | rfl | ha
  · exact .inr (Nat.mul_le_mul_left (2 ^ (m - p)) ha)
  · exact absurd (h.distinct k k' _ hb hb') hk
  · exact .inl (Nat.mul_le_mul_left (2 ^ (m - p)) ha)

/-- Placing a longer code fills slots of the segment of its first `p` bits. -/
theorem TablesHold.place_long (h : TablesHold m p es t) (hp : p < e.len) (hm : e.len ≤ m)
    (hapart : ∀ f ∈ es, CodesApart f e) : TablesHold m p (es ++ [e]) (placeSymbol m p es.length e t) := by
  have hr := revBits_lt e.len e.code
  have hself : CodeInFront e (revBits e.len e.code) := ⟨by omega, Nat.mod_eq_of_lt hr⟩
  have hfree : ∀ sym len, t.1[revBits e.len e.code % 2 ^ p]? ≠ some (.direct sym len) := by
    intro sym len hd
    have hmiss := h.missed _ fun f hf hx => hapart f hf _ hx hself
    rw [slotFor_primary hd nofun] at hmiss
    cases hmiss
  obtain ⟨hres, hkey⟩ := h.reserve (Nat.mod_lt _ (Nat.two_pow_pos p)) hfree
  rw [placeSymbol, if_neg (by omega), if_neg (by omega), mask, Nat.and_two_pow_sub_one_eq_mod, slotsOf, if_pos hm,
    Nat.shiftRight_eq_div_pow]
  generalize reserveSegment m p (revBits e.len e.code % 2 ^ p) t = seg at *
  have hpow : 2 ^ (e.len - p) * 2 ^ (m - e.len) = 2 ^ (m - p) := by rw [← Nat.pow_add]; congr 1; omega
  have hstart : revBits e.len e.code / 2 ^ p < 2 ^ (e.len - p) := by
    refine Nat.div_lt_of_lt_mul ?_
    rwa [← Nat.pow_add, Nat.add_sub_cancel' (Nat.le_of_lt hp)]
  have hlow : ∀ x, x / 2 ^ p % 2 ^ (m - p) < 2 ^ (e.len - p) * 2 ^ (m - e.len) := fun x => by
    rw [hpow]; exact Nat.mod_lt _ (Nat.two_pow_pos _)
  have hmod : ∀ x, x / 2 ^ p % 2 ^ (m - p) % 2 ^ (e.len - p) = x / 2 ^ p % 2 ^ (e.len - p) := fun x =>
    Nat.mod_mod_of_dvd _ (Nat.pow_dvd_pow 2 (by omega))
  refine hres.snoc rfl (length_fillSlots ..) (fun _ _ hb => hb) (fun x hx => ?_) (fun x hx => ?_) hapart
  · obtain ⟨hx1, hx2⟩ := (codeInFront_iff_of_lt hp x).1 hx
    rw [slotFor_link (hx1 ▸ hkey)]
    refine slotAt_of_getElem? (getElem?_fillSlots_same hstart (hlow x) ((hmod x).trans hx2) ?_)
    have := (hres.inside _ _ hkey).2
    have := hlow x
    omega
  · refine slotFor_congr hres.size rfl fun base hb => ?_
    by_cases hx1 : x % 2 ^ p = revBits e.len e.code % 2 ^ p
    · rw [hx1, hkey] at hb
      cases hb
      exact getElem?_fillSlots_other hstart (hlow x) fun hx2 =>
        hx ((codeInFront_iff_of_lt hp x).2 ⟨hx1, (hmod x).symm.trans hx2⟩)
    · have := hres.segments_apart hkey hb (Ne.symm hx1)
      have := hlow x
      exact getElem?_fillSlots_outside hstart (by rw [hpow] at *; omega)

/-- Placing the codes of a list one after another. -/
theorem TablesHold.placeAll {rest : List CodeEntry} (h : TablesHold m p es t) (hm : ∀ e ∈ rest, e.len ≤ m)
    (hapart : (es ++ rest).Pairwise CodesApart) :
    TablesHold m p (es ++ rest) (placeSymbols m p es.length rest t) := by
  induction rest generalizing es t with
  | nil => rwa [List.append_nil]
  | cons e rest ih =>
    have hes : ∀ f ∈ es, CodesApart f e := fun f hf => (List.pairwise_append.1 hapart).2.2 f hf e (by simp)
    have hplace : TablesHold m p (es ++ [e]) (placeSymbol m p es.length e t) := by
      rcases Nat.lt_or_ge p e.len with hp | hp
      · exact h.place_long hp (hm e (by simp)) hes
      · exact h.place_short hp hes
    rw [List.append_cons] at hapart ⊢
    have := ih hplace (fun f hf => hm f (by simp [hf])) hapart
    rwa [List.length_append] at this

end

/-- R92: a compiled decoder decodes bits to the symbol whose code they have in front, and bits with none to nothing. -/
theorem decodeBits_compileDecoder {b : Codebook} (hm : ∀ e ∈ b.entries, e.len ≤ b.maxLen)
    (hapart : b.entries.Pairwise CodesApart) (bits : BitVec 32) :
    (∀ sym e, b.entries[sym]? = some e → CodeMatches e bits → decodeBits (compileDecoder b) bits = some (sym, e.len)) ∧
    ((∀ e ∈ b.entries, ¬ CodeMatches e bits) → decodeBits (compileDecoder b) bits = none) := by
  have h := (tablesHold_nil b.maxLen (min b.maxLen 9)).placeAll hm hapart
  simp only [codeMatches_iff_codeInFront]
  constructor
  · intro sym e he hx
    have hslot : lookupSlot (compileDecoder b) bits.toNat = _ := h.found sym e _ he hx
    rw [decodeBits, hslot]
  · intro hx
    have hslot : lookupSlot (compileDecoder b) bits.toNat = _ := h.missed _ hx
    rw [decodeBits, hslot]

end Sys2Proof.Machine
end

section
/-! The fixed decoders (30_encoding.md R58, R59; 10_state.md R26). -/

namespace Sys2Proof.Machine

/-! ## The codebooks of the fixed lengths -/

/-- The literal/length codes of 30_encoding.md R59. -/
def fixedLlBook : Codebook :=
  { entries := (List.range 288).map fun sym => ⟨fixedLlCode sym, fixedLlLen sym⟩, maxLen := 9 }

/-- The distance codes of 30_encoding.md R59: the symbol in five bits. -/
def fixedDBook : Codebook := { entries := (List.range 32).map fun sym => ⟨sym, 5⟩, maxLen := 5 }

theorem buildCodebook_fixedLlLens : buildCodebook fixedLlLens = some fixedLlBook := by decide +kernel

theorem buildCodebook_fixedDLens : buildCodebook fixedDLens = some fixedDBook := by decide +kernel

/-! ## No two fixed codes are in front of the same bits -/

/-- A code in front of a number is the highest bits of the number's first `n` bits, read first bit highest. -/
theorem CodeInFront.div_revBits {e : CodeEntry} {x n : Nat} (h : CodeInFront e x) (hn : e.len ≤ n)
    (hc : e.code < 2 ^ e.len) : revBits n x / 2 ^ (n - e.len) = e.code := by
  apply Nat.eq_of_testBit_eq
  intro k
  rw [Nat.testBit_div_two_pow, testBit_revBits]
  by_cases hk : k < e.len
  · have hbit := congrArg (Nat.testBit · (e.len - 1 - k)) h.2
    simp only [Nat.testBit_mod_two_pow, testBit_revBits, show e.len - 1 - k < e.len by omega, decide_true,
      Bool.true_and, show e.len - 1 - (e.len - 1 - k) = k by omega] at hbit
    rw [show n - 1 - (k + (n - e.len)) = e.len - 1 - k by omega, hbit, decide_eq_true (by omega), Bool.true_and]
  · rw [decide_eq_false (by omega), Bool.false_and, Nat.testBit_lt_two_pow]
    exact Nat.lt_of_lt_of_le hc (Nat.pow_le_pow_right (by decide) (Nat.le_of_not_lt hk))

theorem fixedLlLen_le (sym : Nat) : fixedLlLen sym ≤ 9 := by
  unfold fixedLlLen
  split_ifs <;> decide

theorem fixedLlCode_lt {sym : Nat} (h : sym < 288) : fixedLlCode sym < 2 ^ fixedLlLen sym := by
  unfold fixedLlCode fixedLlLen
  split_ifs <;> omega

/-- The 9-bit numbers that begin with the codes of different symbols differ. -/
theorem fixedLlCodes_apart {sym sym' : Nat} (hlt : sym < sym') (h : sym' < 288) :
    CodesApart ⟨fixedLlCode sym, fixedLlLen sym⟩ ⟨fixedLlCode sym', fixedLlLen sym'⟩ := by
  intro x hx hx'
  have hc := hx.div_revBits (fixedLlLen_le sym) (fixedLlCode_lt (by omega))
  have hc' := hx'.div_revBits (fixedLlLen_le sym') (fixedLlCode_lt h)
  simp only [fixedLlCode, fixedLlLen] at hc hc'
  split_ifs at hc hc' <;> omega

theorem fixedLlBook_apart : fixedLlBook.entries.Pairwise CodesApart := by
  rw [fixedLlBook, List.pairwise_map]
  exact (List.pairwise_lt_range).imp_of_mem fun _ h hlt => fixedLlCodes_apart hlt (List.mem_range.1 h)

theorem fixedDBook_apart : fixedDBook.entries.Pairwise CodesApart := by
  rw [fixedDBook, List.pairwise_map]
  refine (List.pairwise_lt_range).imp_of_mem fun {a b} ha hb hlt x hx hx' => ?_
  have hc := hx.div_revBits (n := 5) (Nat.le_refl _) (List.mem_range.1 ha)
  have hc' := hx'.div_revBits (n := 5) (Nat.le_refl _) (List.mem_range.1 hb)
  exact absurd (hc.symm.trans hc') (Nat.ne_of_lt hlt)

/-! ## Decoding under them -/

/-- No length of a built codebook is above its longest (41_codebook.md R83). -/
theorem len_le_maxLen_of_build {lens : List Nat} {b : Codebook} (h : buildCodebook lens = some b) {e : CodeEntry}
    (he : e ∈ b.entries) : e.len ≤ b.maxLen := by
  obtain ⟨hlens, hmax, -⟩ := buildCodebook_some h
  rw [hmax, ← hlens]
  exact maxLenOf_ge (List.mem_map_of_mem he)

theorem decodeBits_decoderOfLens {lens : List Nat} {b : Codebook} {sym : Nat} {e : CodeEntry} {bits : BitVec 32}
    (h : buildCodebook lens = some b) (hapart : b.entries.Pairwise CodesApart) (he : b.entries[sym]? = some e)
    (hm : CodeMatches e bits) : decodeBits (decoderOfLens lens) bits = some (sym, e.len) := by
  rw [decoderOfLens, h]
  exact (decodeBits_compileDecoder (fun _ => len_le_maxLen_of_build h) hapart bits).1 sym e he hm

theorem exec_decode_of_decodeBits {d : Decoder} {bits : BitVec 32} {sym len : Nat}
    (h : decodeBits d bits = some (sym, len)) (s : State) :
    exec (.decode d bits) s = .next { s with opResult := .symbolLength sym len } := by
  show deliverResult (decodeOrRaise d bits s) _ = _
  rw [decodeOrRaise, h, deliverResult_ok]

/-- Settles O18: the codes of R59 are what the builder makes of the fixed lengths, and decoding is matching codes. -/
theorem fixedCodesDecode : Obligations.FixedCodesDecode := by
  intro sym bits s
  constructor
  · intro hsym hm
    have he : fixedLlBook.entries[sym]? = some ⟨fixedLlCode sym, fixedLlLen sym⟩ := by simp [fixedLlBook, hsym]
    exact exec_decode_of_decodeBits (decodeBits_decoderOfLens buildCodebook_fixedLlLens fixedLlBook_apart he hm) s
  · intro hsym hm
    have he : fixedDBook.entries[sym]? = some ⟨sym, 5⟩ := by simp [fixedDBook, hsym]
    exact exec_decode_of_decodeBits (decodeBits_decoderOfLens buildCodebook_fixedDLens fixedDBook_apart he hm) s

end Sys2Proof.Machine
end

section
/-! What each operation of the bit reader answers when it is run as an instruction (40_bitreader.md R72 to R78). -/

namespace Sys2Proof.Machine

/-- A read that runs out is latched and responded, where the read left the cursor (notes/assumptions/17.md). -/
theorem deliverResult_srcFail {α : Type} (s u : State) (f : α → OpResult) :
    deliverResult (.raise (srcFail s) u) f = .next (latched (srcFailCode s) u) := by
  rw [deliverResult_raise, enterError_srcFail]

/-- Settles O8: a peek is the word at the cursor, whose bits are the stream's. -/
theorem peekReturnsStreamBits : Obligations.PeekReturnsStreamBits := by
  intro s
  show (_ → ∃ v, deliverResult (peekBits s) .bits = _ ∧ _) ∧ (_ → deliverResult (peekBits s) .bits = _)
  rw [peekBits_eq]
  constructor
  · intro h
    exact ⟨peekWord s, by rw [if_neg (by omega), deliverResult_ok], getLsbD_peekWord s⟩
  · intro h
    rw [if_pos h, deliverResult_srcFail]

/-- Settles O9: both operations are moves of the bit address. -/
theorem consumeAndByteAlignMoveCursor : Obligations.ConsumeAndByteAlignMoveCursor := by
  intro s
  have haligns (u : State) : exec .byteAlign u = .next (atByte (alignedPos u) u) := congrArg _ (byteAlign_eq u)
  refine ⟨fun n => congrArg _ (consume_eq n s), haligns s, ?_⟩
  rw [haligns, alignedPos_atByte, atByte_atByte]

/-- Settles O10: the masked peek is the field, and the peek comes before the cursor moves. -/
theorem readBitsReturnsField : Obligations.ReadBitsReturnsField := by
  intro s n hn
  show (_ → ∃ v, _ ∧ deliverResult (readBits n s) .bits = _) ∧ (_ → deliverResult (readBits n s) .bits = _)
  constructor
  · intro h
    obtain ⟨v, hr, hv⟩ := readBits_of_avail hn h
    exact ⟨v, hv, by rw [hr, deliverResult_ok]⟩
  · intro h
    rw [readBits_eq, if_pos h, deliverResult_srcFail]

/-- Settles O11: the alignment comes first, and the test of what is left before the read. -/
theorem readExactReturnsBytes : Obligations.ReadExactReturnsBytes := by
  intro s n
  show (_ → deliverResult (readExact n s) .bytes = _) ∧ (_ → deliverResult (readExact n s) .bytes = _)
  rw [readExact_eq]
  constructor
  · intro h
    rw [if_neg (by omega), deliverResult_ok]
  · intro h
    rw [if_pos h, deliverResult_srcFail]

/-- Settles O12: the alignment comes first, and a failed source counts only when nothing is left. -/
theorem readReturnsWhatIsLeft : Obligations.ReadReturnsWhatIsLeft := by
  intro s n left
  show (_ → deliverResult (readSome n s) .bytes = _) ∧ (_ → deliverResult (readSome n s) .bytes = _)
  rw [readSome_eq]
  constructor
  · intro h
    rw [if_pos h, deliverResult_raise]; rfl
  · intro h
    rw [if_neg h, deliverResult_ok]

/-- Settles O13: what the source does at its end matters only when no byte is left. -/
theorem hasDataLeftAnswers : Obligations.HasDataLeftAnswers := by
  intro s
  show (_ → deliverResult (hasDataLeft s) .bool = _) ∧ (_ → _ → deliverResult (hasDataLeft s) .bool = _) ∧
    (_ → _ → deliverResult (hasDataLeft s) .bool = _)
  unfold hasDataLeft
  refine ⟨fun h => ?_, fun h hend => ?_, fun h hend => ?_⟩
  · rw [if_pos h, deliverResult_ok]
  · rw [if_neg (by omega)]
    split
    next hio => cases hend.symm.trans hio
    next => rfl
  · rw [if_neg (by omega)]
    split
    next => rfl
    next heof => cases hend.symm.trans heof

end Sys2Proof.Machine
end

section
/-! That the contents of the refill buffer cannot be seen (40_bitreader.md R70): no operation reads them. -/

namespace Sys2Proof.Machine

/-- The state with another refill buffer. -/
def State.withBuf (v : List Byte) (s : State) : State := { s with brBuf := v }

/-- The result with another refill buffer in the state it leaves. -/
def Res.withBuf {α : Type} (v : List Byte) : Res α → Res α
  | .ok a s => .ok a (s.withBuf v)
  | .raise e s => .raise e (s.withBuf v)
  | .fault f => .fault f

/-- The operation neither reads nor writes the refill buffer. -/
def BufferFree {α : Type} (f : State → Res α) : Prop :=
  ∀ (v : List Byte) (s : State), f (s.withBuf v) = (f s).withBuf v

theorem BufferFree.bind {α β : Type} {f : State → Res α} {k : α → State → Res β} (hf : BufferFree f)
    (hk : ∀ a, BufferFree (k a)) : BufferFree fun s => (f s).bind k := by
  intro v s
  show (f (s.withBuf v)).bind k = _
  rw [hf v s]
  show _ = ((f s).bind k).withBuf v
  cases f s with
  | ok a t => exact hk a v t
  | raise e t => rfl
  | fault x => rfl

/-- A test that the buffer has no part in. -/
theorem BufferFree.ite {α : Type} {c : State → Prop} [∀ s, Decidable (c s)] {f g : State → Res α}
    (hc : ∀ (v : List Byte) (s : State), c (s.withBuf v) ↔ c s) (hf : BufferFree f) (hg : BufferFree g) :
    BufferFree fun s => if c s then f s else g s := by
  intro v s
  by_cases h : c s
  · simp only [if_pos h, if_pos ((hc v s).2 h)]; exact hf v s
  · simp only [if_neg h, if_neg (mt (hc v s).1 h)]; exact hg v s

/-- The operation from a state in which registers other than the buffer have been written. -/
theorem BufferFree.after {α : Type} {f : State → Res α} {g : State → State} (hf : BufferFree f)
    (hg : ∀ (v : List Byte) (s : State), g (s.withBuf v) = (g s).withBuf v) : BufferFree fun s => f (g s) := by
  intro v s
  show f (g (s.withBuf v)) = _
  rw [hg v s]; exact hf v (g s)

/-! ## Reading -/

theorem peekBits_bufferFree : BufferFree peekBits := .ite (fun _ _ => .rfl) (fun _ _ => rfl) fun _ _ => rfl

theorem readBits_bufferFree (n : Nat) : BufferFree (readBits n) := peekBits_bufferFree.bind fun _ _ _ => rfl

theorem byteAlign_withBuf (v : List Byte) (s : State) : byteAlign (s.withBuf v) = (byteAlign s).withBuf v := by
  rw [byteAlign_eq, byteAlign_eq]; rfl

theorem hasDataLeft_bufferFree : BufferFree hasDataLeft := by
  refine .ite (fun _ _ => .rfl) (fun _ _ => rfl) fun v s => ?_
  rw [show (s.withBuf v).inEnd = s.inEnd from rfl]
  cases s.inEnd
  · rfl
  · rfl

theorem readExact_bufferFree (n : Nat) : BufferFree (readExact n) := by
  intro v s
  rw [readExact_eq, readExact_eq]
  show (if s.inp.length - alignedPos s < n then _ else _) = _
  split
  · rfl
  · rfl

theorem readSome_bufferFree (n : Nat) : BufferFree (readSome n) := by
  intro v s
  rw [readSome_eq, readSome_eq]
  show (if s.inp.length - alignedPos s = 0 ∧ 0 < n ∧ s.inEnd = .ioerr then _ else _) = _
  split
  · rfl
  · rfl

theorem decodeOrRaise_bufferFree (d : Decoder) (bits : BitVec 32) : BufferFree (decodeOrRaise d bits) := by
  intro v s
  unfold decodeOrRaise
  cases decodeBits d bits
  · rfl
  · rfl

theorem decodeSymbol_bufferFree (d : Decoder) : BufferFree (decodeSymbol d) :=
  peekBits_bufferFree.bind fun bits => (decodeOrRaise_bufferFree d bits).bind fun _ _ _ => rfl

theorem buildOrRaise_bufferFree (lens : List Nat) : BufferFree (buildOrRaise lens) := by
  intro v s
  unfold buildOrRaise
  cases buildCodebook lens
  · rfl
  · rfl

/-! ## The header collaborator -/

theorem skipToNul_bufferFree (bound : Nat) : BufferFree (skipToNul bound) := by
  induction bound with
  | zero => exact fun _ _ => rfl
  | succ bound ih => exact (readExact_bufferFree 1).bind fun b => .ite (fun _ _ => .rfl) (fun _ _ => rfl) ih

theorem ifFlag_bufferFree {r : State → Res Unit} (hr : BufferFree r) (b : Bool) : BufferFree (ifFlag b r) :=
  .ite (fun _ _ => .rfl) hr fun _ _ => rfl

theorem skipExtra_bufferFree : BufferFree skipExtra :=
  (readExact_bufferFree 2).bind fun _ => (readExact_bufferFree _).bind fun _ _ _ => rfl

theorem skipString_bufferFree : BufferFree skipString := fun v s => skipToNul_bufferFree (avail s + 1) v s

theorem skipCrc_bufferFree : BufferFree skipCrc := (readExact_bufferFree 2).bind fun _ _ _ => rfl

theorem hdrParseReference_bufferFree : BufferFree hdrParseReference :=
  (readExact_bufferFree _).bind fun _ => .ite (fun _ _ => .rfl) (fun _ _ => rfl) <|
    (ifFlag_bufferFree skipExtra_bufferFree _).bind fun _ =>
    (ifFlag_bufferFree skipString_bufferFree _).bind fun _ =>
    (ifFlag_bufferFree skipString_bufferFree _).bind fun _ =>
    (ifFlag_bufferFree skipCrc_bufferFree _).bind fun _ _ _ => rfl

theorem hdrAdvance_withBuf (n : Nat) (v : List Byte) (s : State) :
    hdrAdvance n (s.withBuf v) = (hdrAdvance n s).withBuf v := by
  unfold hdrAdvance; rw [byteAlign_withBuf]; rfl

theorem hdrParseExternal_bufferFree : BufferFree hdrParseExternal := by
  intro v s
  have hpos : (byteAlign (s.withBuf v)).brPos = (byteAlign s).brPos := by rw [byteAlign_withBuf]; rfl
  unfold hdrParseExternal
  simp only [hdrAdvance_withBuf, hpos, show (s.withBuf v).inp = s.inp from rfl,
    show (s.withBuf v).inEnd = s.inEnd from rfl]
  cases Config.hdrParse (s.inp.drop (byteAlign s).brPos) s.inEnd with
  | error n e => rfl
  | record n w =>
    dsimp only
    split
    · rfl
    · split
      · rfl
      · rfl

theorem hdrParse_bufferFree : BufferFree hdrParse := by
  intro v s
  unfold hdrParse
  rw [show (s.withBuf v).hdrParse = s.hdrParse from rfl]
  cases s.hdrParse
  · exact hdrParseReference_bufferFree v s
  · exact hdrParseExternal_bufferFree v s

/-! ## Dynamic codebook parsing -/

theorem readCounts_bufferFree : BufferFree readCounts :=
  (readBits_bufferFree 5).bind fun _ => ((readBits_bufferFree 5).after fun _ _ => rfl).bind fun _ =>
    ((readBits_bufferFree 4).after fun _ _ => rfl).bind fun _ _ _ => rfl

theorem readClLens_bufferFree (syms : List Nat) : BufferFree (readClLens syms) := by
  induction syms with
  | nil => exact fun _ _ => rfl
  | cons sym syms ih => exact (readBits_bufferFree 3).bind fun _ => ih.after fun _ _ => rfl

theorem readCodeLengthCode_bufferFree : BufferFree readCodeLengthCode :=
  .bind (fun v s => readClLens_bufferFree (clPerm.take s.dyHclen.toNat) v
      { s with dyCl := List.replicate Config.clAlphabet 0 }) fun _ =>
    .bind (fun v s => buildOrRaise_bufferFree (s.dyCl.map BitVec.toNat) v s) fun _ _ _ => rfl

theorem clRepeat_bufferFree : BufferFree clRepeat := by
  intro v s
  unfold clRepeat
  rw [show (s.withBuf v).dyLens = s.dyLens from rfl]
  cases s.dyLens.getLast? with
  | none => rfl
  | some l => exact (readBits_bufferFree 2).bind (fun _ _ _ => rfl) v s

theorem clSymbol_bufferFree (sym : Nat) : BufferFree (clSymbol sym) :=
  .ite (fun _ _ => .rfl) (fun _ _ => rfl) <| .ite (fun _ _ => .rfl) clRepeat_bufferFree <|
    .ite (fun _ _ => .rfl) ((readBits_bufferFree 3).bind fun _ _ _ => rfl) <|
      (readBits_bufferFree 7).bind fun _ _ _ => rfl

theorem lensLoop_bufferFree (bound : Nat) : BufferFree (lensLoop bound) := by
  induction bound with
  | zero => exact fun _ _ => rfl
  | succ bound ih =>
    exact .ite (fun _ _ => .rfl)
      (.bind (fun v s => decodeSymbol_bufferFree s.clDec v s) fun sym => (clSymbol_bufferFree sym).bind fun _ => ih)
      fun _ _ => rfl

theorem checkCount_bufferFree : BufferFree checkCount := .ite (fun _ _ => .rfl) (fun _ _ => rfl) fun _ _ => rfl

theorem readLengths_bufferFree : BufferFree readLengths :=
  .bind (fun v s => lensLoop_bufferFree (lensTotal s) v { s with dyLens := [] }) fun _ => checkCount_bufferFree

theorem splitAndBuild_bufferFree : BufferFree splitAndBuild := fun v s =>
  (buildOrRaise_bufferFree ((s.dyLens.map BitVec.toNat).take s.dyHlit.toNat)).bind
    (fun _ => .bind (fun v u => buildOrRaise_bufferFree
      (((s.dyLens.map BitVec.toNat).drop u.dyHlit.toNat).take u.dyHdist.toNat) v u) fun _ _ _ => rfl) v s

theorem parseDynamic_bufferFree : BufferFree parseDynamic :=
  readCounts_bufferFree.bind fun _ => readCodeLengthCode_bufferFree.bind fun _ =>
    readLengths_bufferFree.bind fun _ => splitAndBuild_bufferFree

/-! ## The window and the LZ77 decoder -/

theorem winRead_bufferFree (addr n : Nat) : BufferFree (winRead addr n) :=
  .ite (fun _ _ => .rfl) (fun _ _ => rfl) fun _ _ => rfl

theorem winWrite_bufferFree (addr : Nat) (w : List Byte) : BufferFree (winWrite addr w) :=
  .ite (fun _ _ => .rfl) (fun _ _ => rfl) fun _ _ => rfl

theorem slide_bufferFree (n : Nat) : BufferFree (slide n) :=
  .ite (fun _ _ => .rfl)
    (.bind (fun v s => winRead_bufferFree (s.winBound.toNat + n - Config.distLimit) Config.distLimit v s) fun w =>
      (winWrite_bufferFree 0 w).bind fun _ _ _ => rfl)
    fun _ _ => rfl

theorem literal_bufferFree (b : Byte) : BufferFree (literal b) :=
  .bind (fun v s => winWrite_bufferFree s.lzCur.toNat [b] v s) fun _ _ _ => rfl

theorem copyBack_bufferFree (dist length : Nat) : BufferFree (copyBack dist length) :=
  .ite (fun _ _ => .rfl) (fun _ _ => rfl) fun _ _ => rfl

theorem distanceFrom_bufferFree (ds : Nat) : BufferFree (distanceFrom ds) :=
  .ite (fun _ _ => .rfl) (fun _ _ => rfl) <| (readBits_bufferFree _).bind fun _ _ _ => rfl

theorem readDistance_bufferFree : BufferFree readDistance :=
  .bind (fun v s => decodeSymbol_bufferFree (installed s.dDec) v s) distanceFrom_bufferFree

theorem backReference_bufferFree (sym : Nat) : BufferFree (backReference sym) :=
  (readBits_bufferFree _).bind fun _ => readDistance_bufferFree.bind fun dist =>
    .ite (fun _ _ => .rfl) (fun _ _ => rfl) (copyBack_bufferFree dist _)

theorem lz77Loop_bufferFree (bound : Nat) : BufferFree (lz77Loop bound) := by
  induction bound with
  | zero => exact fun _ _ => rfl
  | succ bound ih =>
    refine .ite (fun _ _ => .rfl) (fun _ _ => rfl) <|
      .bind (fun v s => decodeSymbol_bufferFree (installed s.llDec) v s) fun sym => ?_
    exact .ite (fun _ _ => .rfl) ((literal_bufferFree _).bind fun _ => ih) <|
      .ite (fun _ _ => .rfl) (fun _ _ => rfl) <|
      .ite (fun _ _ => .rfl) ((backReference_bufferFree sym).bind fun _ => ih) fun _ _ => rfl

theorem lz77Decode_bufferFree : BufferFree lz77Decode :=
  ((lz77Loop_bufferFree _).after fun _ _ => rfl).bind fun _ _ _ => rfl

/-! ## The producer -/

theorem emitData_bufferFree (n : Nat) : BufferFree (emitData n) :=
  .bind (fun v s => winRead_bufferFree s.lzStart.toNat n v s) fun _ => (slide_bufferFree n).after fun _ _ => rfl

theorem inflate_bufferFree (final : Bool) : BufferFree (inflate final) :=
  lz77Decode_bufferFree.bind fun r => (emitData_bufferFree r.2).bind fun _ _ _ => rfl

theorem storedBody_bufferFree (final : Bool) (len nlen : BitVec 16) : BufferFree (storedBody final len nlen) :=
  .ite (fun _ _ => .rfl) (fun _ _ => rfl) <|
    ((readExact_bufferFree len.toNat).after (g := latchLengths len nlen) fun _ _ => rfl).bind fun w =>
      .bind (fun v s => winWrite_bufferFree s.winBound.toNat w v s) fun _ =>
        ((slide_bufferFree len.toNat).after fun _ _ => rfl).bind fun _ _ _ => rfl

theorem storedBlock_bufferFree (final : Bool) : BufferFree (storedBlock final) :=
  ((readExact_bufferFree 4).after byteAlign_withBuf).bind fun _ => storedBody_bufferFree final _ _

theorem fixedBlock_bufferFree (final : Bool) : BufferFree (fixedBlock final) :=
  (inflate_bufferFree final).after fun _ _ => rfl

theorem dynamicBlock_bufferFree (final : Bool) : BufferFree (dynamicBlock final) :=
  parseDynamic_bufferFree.bind fun _ => (inflate_bufferFree final).after fun _ _ => rfl

theorem blockBody_bufferFree (w : BitVec 3) : BufferFree (blockBody w) := by
  have hlatch (v : List Byte) (s : State) :
    latchBlockHeader w (s.withBuf v) = (latchBlockHeader w s).withBuf v := rfl
  intro v s
  unfold blockBody
  dsimp only
  split
  · exact (storedBlock_bufferFree _).after hlatch v s
  · exact (fixedBlock_bufferFree _).after hlatch v s
  · exact (dynamicBlock_bufferFree _).after hlatch v s
  · rfl

theorem blockStep_bufferFree : BufferFree blockStep := (readBits_bufferFree 3).bind fun _ => blockBody_bufferFree _

theorem headerStep_bufferFree : BufferFree headerStep :=
  hasDataLeft_bufferFree.bind fun _ => .ite (fun _ _ => .rfl) (hdrParse_bufferFree.bind fun _ _ _ => rfl) <|
    .ite (fun _ _ => .rfl) (fun _ _ => rfl) fun _ _ => rfl

theorem footerStep_bufferFree : BufferFree footerStep :=
  ((readExact_bufferFree _).after fun _ _ => rfl).bind fun _ _ _ => rfl

theorem producerStep_bufferFree : BufferFree producerStep := by
  intro v s
  unfold producerStep
  rw [show (s.withBuf v).prState = s.prState from rfl]
  cases s.prState with
  | header => exact headerStep_bufferFree v s
  | block => exact blockStep_bufferFree v s
  | inflate => exact inflate_bufferFree false v s
  | inflateFinalBlock => exact inflate_bufferFree true v s
  | footer => exact footerStep_bufferFree v s
  | endOfStream => rfl

/-! ## Instructions -/

/-- A meaning from states that differ in the refill buffer alone leads to states that differ in it alone. -/
def HidesBuffer (m : State → Host.Outcome State Fault Refusal) : Prop :=
  ∀ (s t : State) (v : List Byte), m s = .next t → ∃ v', m (s.withBuf v) = .next (t.withBuf v')

theorem hidesBuffer_deliver {α : Type} {r : State → Res α} {k : α → State → State} (h : BufferFree r)
    (hk : ∀ (a : α) (v : List Byte) (s : State), k a (s.withBuf v) = (k a s).withBuf v) :
    HidesBuffer fun s => deliver (r s) k := by
  intro s t v ht
  refine ⟨v, ?_⟩
  show deliver (r (s.withBuf v)) k = _
  rw [h v s]
  rcases deliver_eq_next.1 ht with ⟨a, u, hr, rfl⟩ | ⟨e, u, hr, rfl⟩
  · rw [hr]; exact congrArg _ (hk a v u)
  · rw [hr]; rfl

theorem hidesBuffer_deliverUnit {r : State → Res Unit} (h : BufferFree r) : HidesBuffer fun s => deliverUnit (r s) :=
  hidesBuffer_deliver h fun _ _ _ => rfl

theorem hidesBuffer_deliverResult {α : Type} {r : State → Res α} (h : BufferFree r) (f : α → OpResult) :
    HidesBuffer fun s => deliverResult (r s) f :=
  hidesBuffer_deliver h fun _ _ _ => rfl

/-- An instruction that does nothing but write registers other than the buffer. -/
theorem hidesBuffer_write {f : State → State}
    (h : ∀ (v : List Byte) (s : State), f (s.withBuf v) = (f s).withBuf v) :
    HidesBuffer fun s => deliverUnit (.ok () (f s)) :=
  hidesBuffer_deliverUnit fun v s => congrArg (Res.ok ()) (h v s)

theorem clLength_hidesBuffer (l : Nat) : HidesBuffer fun s => deliverUnit (clLength l s) :=
  hidesBuffer_write fun _ _ => rfl

theorem clSymbol_hidesBuffer (sym : Nat) : HidesBuffer fun s => deliverUnit (clSymbol sym s) :=
  hidesBuffer_deliverUnit (clSymbol_bufferFree sym)

theorem lengthSymbol_hidesBuffer (sym : Nat) : HidesBuffer (lengthSymbol sym) :=
  hidesBuffer_deliverUnit (backReference_bufferFree sym)

theorem illegalLengthSymbol_hidesBuffer : HidesBuffer illegalLengthSymbol := hidesBuffer_deliverUnit fun _ _ => rfl

theorem distanceSymbol_hidesBuffer (ds : Nat) : HidesBuffer (distanceSymbol ds) :=
  hidesBuffer_deliverResult (distanceFrom_bufferFree ds) _

theorem illegalCommand_hidesBuffer : HidesBuffer illegalCommand := hidesBuffer_write fun _ _ => rfl

/-- RESET empties the buffer, whatever it held (70_reset_and_hazards.md R152). -/
theorem execReset_hidesBuffer : HidesBuffer execReset := by
  intro s t v ht
  cases ht
  exact ⟨[], rfl⟩

/-- STEP sends the latched error, or runs a producer step (47_port_commands.md R135). -/
theorem execStep_hidesBuffer : HidesBuffer execStep := by
  intro s t v ht
  unfold execStep at ht ⊢
  rw [show (s.withBuf v).prErr = s.prErr from rfl]
  split at ht
  next h => cases ht; exact ⟨v, if_pos h⟩
  next h => rw [if_neg h]; exact hidesBuffer_deliverUnit producerStep_bufferFree s t v ht

/-- Every instruction, by the family whose meaning it has. -/
theorem exec_hidesBuffer (i : Instr) : HidesBuffer (exec i) := by
  cases i with
  | reset => exact execReset_hidesBuffer
  | step => exact execStep_hidesBuffer
  | status => exact hidesBuffer_write (f := fun s => respond (.status (statusWord s)) s) fun _ _ => rfl
  | blockStored final | blockFixed final | blockDynamic final | blockReserved final =>
    exact hidesBuffer_deliverUnit (blockBody_bufferFree _)
  | storedHeader len nlen => exact hidesBuffer_deliverUnit fun v s => storedBody_bufferFree s.prFinal len nlen v s
  | dynamicHeader hlit hdist hclen =>
    exact hidesBuffer_write (f := setCounts hlit.toNat hdist.toNat hclen.toNat) fun _ _ => rfl
  | clLen0 | clLen1 | clLen2 | clLen3 | clLen4 | clLen5 | clLen6 | clLen7 | clLen8 | clLen9 | clLen10 | clLen11
  | clLen12 | clLen13 | clLen14 | clLen15 => exact clLength_hidesBuffer _
  | clRepeat16 => exact clSymbol_hidesBuffer 16
  | clZero17 => exact clSymbol_hidesBuffer 17
  | clZero18 => exact clSymbol_hidesBuffer 18
  | lit byte => exact hidesBuffer_deliverUnit (literal_bufferFree byte)
  | eob =>
    exact hidesBuffer_deliverResult (r := fun s => endLz77 (.done, lzCount s) s) (fun _ _ => rfl)
      fun r => .lz77 r.1 r.2
  | len257 | len258 | len259 | len260 | len261 | len262 | len263 | len264 | len265 | len266 | len267 | len268
  | len269 | len270 | len271 | len272 | len273 | len274 | len275 | len276 | len277 | len278 | len279 | len280
  | len281 | len282 | len283 | len284 | len285 => exact lengthSymbol_hidesBuffer _
  | ll286 | ll287 => exact illegalLengthSymbol_hidesBuffer
  | dist0 | dist1 | dist2 | dist3 | dist4 | dist5 | dist6 | dist7 | dist8 | dist9 | dist10 | dist11 | dist12 | dist13
  | dist14 | dist15 | dist16 | dist17 | dist18 | dist19 | dist20 | dist21 | dist22 | dist23 | dist24 | dist25 | dist26
  | dist27 | dist28 | dist29 => exact distanceSymbol_hidesBuffer _
  | dist30 => exact distanceSymbol_hidesBuffer 30
  | dist31 => exact distanceSymbol_hidesBuffer 31
  | cmdReserved3 | cmdReserved4 | cmdReserved5 | cmdReserved6 | cmdReserved7 | cmdReserved8 | cmdReserved9
  | cmdReservedA | cmdReservedB | cmdReservedC | cmdReservedD | cmdReservedE | cmdReservedF | cmdBadhigh1 | cmdBadhigh2
  | cmdBadhigh3 | cmdBadhigh4 | cmdBadhigh5 | cmdBadhigh6 | cmdBadhigh7 | cmdBadhigh8 | cmdBadhigh9 | cmdBadhighA
  | cmdBadhighB | cmdBadhighC | cmdBadhighD | cmdBadhighE | cmdBadhighF => exact illegalCommand_hidesBuffer
  | peekBits => exact hidesBuffer_deliverResult peekBits_bufferFree _
  | consume n => exact hidesBuffer_write (f := Machine.consume n) fun _ _ => rfl
  | readBits n => exact hidesBuffer_deliverResult (readBits_bufferFree n) _
  | byteAlign => exact hidesBuffer_write byteAlign_withBuf
  | hasDataLeft => exact hidesBuffer_deliverResult hasDataLeft_bufferFree _
  | read n => exact hidesBuffer_deliverResult (readSome_bufferFree n) _
  | readExact n => exact hidesBuffer_deliverResult (readExact_bufferFree n) _
  | buildCodebook lens => exact hidesBuffer_deliverResult (buildOrRaise_bufferFree lens) _
  | compileDecoder book =>
    exact hidesBuffer_deliverResult (r := fun s => .ok (compileDecoder book) s) (fun _ _ => rfl) .decoder
  | decode dec bits => exact hidesBuffer_deliverResult (decodeOrRaise_bufferFree dec bits) _
  | decodeSymbol which =>
    exact hidesBuffer_deliverResult (r := fun s => Machine.decodeSymbol (namedDecoder which s) s)
      (fun v s => decodeSymbol_bufferFree (namedDecoder which s) v s) _
  | writeBuffer =>
    exact hidesBuffer_deliverResult (r := fun s => .ok (writeBuffer s) s) (fun _ _ => rfl) fun r => .region r.1 r.2
  | slide n => exact hidesBuffer_deliverUnit (slide_bufferFree n)
  | windowReset => exact hidesBuffer_write (f := windowReset) fun _ _ => rfl
  | lz77Decode => exact hidesBuffer_deliverResult lz77Decode_bufferFree _
  | parseDynamic => exact hidesBuffer_deliverResult parseDynamic_bufferFree _
  | headerStep => exact hidesBuffer_deliverUnit headerStep_bufferFree
  | blockStep => exact hidesBuffer_deliverUnit blockStep_bufferFree
  | storedBlock final => exact hidesBuffer_deliverUnit (storedBlock_bufferFree final)
  | fixedBlock final => exact hidesBuffer_deliverUnit (fixedBlock_bufferFree final)
  | dynamicBlock final => exact hidesBuffer_deliverUnit (dynamicBlock_bufferFree final)
  | inflateStep final => exact hidesBuffer_deliverUnit (inflate_bufferFree final)
  | footerStep => exact hidesBuffer_deliverUnit footerStep_bufferFree
  | endStep => exact hidesBuffer_deliverUnit (r := endStep) fun _ _ => rfl
  | dataEmission n => exact hidesBuffer_deliverUnit (emitData_bufferFree n)

/-! ## The step -/

theorem fetchElement_bufferFree : BufferFree fetchElement := by
  intro v s
  unfold fetchElement
  rw [show (s.withBuf v).fetchPoint = s.fetchPoint from rfl, show (s.withBuf v).commands = s.commands from rfl]
  cases s.fetchPoint with
  | port =>
    cases s.commands with
    | nil => rfl
    | cons w rest => rfl
  | blockHeader => exact (readBits_bufferFree 3).bind (fun _ _ _ => rfl) v s
  | storedHeader => exact (readExact_bufferFree 4).bind (fun _ _ _ => rfl) v s
  | dynamicHeader =>
    exact (readBits_bufferFree 5).bind (fun _ => (readBits_bufferFree 5).bind fun _ =>
      (readBits_bufferFree 4).bind fun _ _ _ => rfl) v s
  | clSymbol => exact (decodeSymbol_bufferFree s.clDec).bind (fun _ _ _ => rfl) v s
  | litlenSymbol => exact (decodeSymbol_bufferFree (installed s.llDec)).bind (fun _ _ _ => rfl) v s
  | distSymbol => exact (decodeSymbol_bufferFree (installed s.dDec)).bind (fun _ _ _ => rfl) v s
  | internalOp w args => rfl

theorem fetch_bufferFree : BufferFree fetch := fetchElement_bufferFree.bind fun _ _ _ => rfl

theorem runElement_hidesBuffer (e : Option Element) : HidesBuffer (runElement e) := by
  have hidle : HidesBuffer .next := by
    intro s t v ht
    cases ht
    exact ⟨v, rfl⟩
  cases e with
  | none => exact hidle
  | some e =>
    unfold runElement
    dsimp only
    cases decode (ruleArm e) with
    | none => exact hidle
    | some i => exact exec_hidesBuffer i

/-- Settles O58: neither the fetch nor the instruction it brings reads the buffer. -/
theorem refillBufferIsUnobservable : Obligations.RefillBufferIsUnobservable := by
  intro s t v ht
  show ∃ v', step (s.withBuf v) = .next (t.withBuf v')
  unfold step at ht ⊢
  rw [fetch_bufferFree v s]
  cases hf : fetch s with
  | ok e u => rw [hf] at ht; exact runElement_hidesBuffer e u t v ht
  | raise e u => rw [hf] at ht; cases ht; exact ⟨v, rfl⟩
  | fault f => rw [hf] at ht; cases ht

end Sys2Proof.Machine
end

section
/-! Canonical codes (41_codebook.md): what the builder assigns, when it refuses, and how its codes are ordered.

The idea: `next_code[l]` plus the symbols of length `l` still to come is the same number `codesEnd lens l` at every
point of the assignment, the value one past the last code of length `l`. -/

namespace Sys2Proof.Machine

/-! ## The ends of the codes of each length -/

/-- One past the last code of length `l` (41_codebook.md R83). -/
def codesEnd (lens : List Nat) (l : Nat) : Nat := firstCode lens l + blCount lens l

theorem firstCode_succ (lens : List Nat) (l : Nat) : firstCode lens (l + 1) = 2 * codesEnd lens l := by
  rw [firstCode, Nat.shiftLeft_eq, Nat.pow_one, Nat.mul_comm, codesEnd]

theorem codesEnd_of_pos {lens : List Nat} {l : Nat} (h : 0 < l) :
    codesEnd lens l = firstCode lens l + lens.count l := by
  rw [codesEnd, blCount, if_neg (Nat.ne_of_gt h)]

/-- The codes of one length, brought to a longer one, end before that one's codes start. -/
theorem codesEnd_mul_le_firstCode (lens : List Nat) (l d : Nat) :
    codesEnd lens l * 2 ^ (d + 1) ≤ firstCode lens (l + d + 1) := by
  induction d with
  | zero => rw [firstCode_succ, Nat.mul_comm]; exact Nat.le_refl _
  | succ d ih =>
    have hstep : firstCode lens (l + d + 1) ≤ codesEnd lens (l + d + 1) := Nat.le_add_right _ _
    rw [← Nat.add_assoc, firstCode_succ, Nat.pow_succ, ← Nat.mul_assoc]
    omega

/-! ## The Kraft sum (41_codebook.md R84) -/

@[simp] theorem kraftUnits_cons (l : Nat) (lens : List Nat) :
    kraftUnits (l :: lens) = (if l = 0 then 0 else 2 ^ (15 - l)) + kraftUnits lens := by
  rw [kraftUnits, List.map_cons, List.sum_cons, ← kraftUnits]

theorem kraftUnits_filter_zero (lens : List Nat) : kraftUnits (lens.filter (· ≤ 0)) = 0 := by
  simp +contextual [kraftUnits, List.sum_eq_zero_iff]

/-- The lengths of at most `l + 1` add to the sum of those of at most `l` what the lengths of `l + 1` weigh. -/
theorem kraftUnits_filter_succ (lens : List Nat) (l : Nat) :
    kraftUnits (lens.filter (· ≤ l + 1)) =
      kraftUnits (lens.filter (· ≤ l)) + lens.count (l + 1) * 2 ^ (15 - (l + 1)) := by
  induction lens with
  | nil => rw [List.filter_nil, List.filter_nil, List.count_nil, Nat.zero_mul, Nat.add_zero]
  | cons a lens ih =>
    rw [List.filter_cons, List.filter_cons, List.count_cons]
    rcases Nat.lt_trichotomy a (l + 1) with ha | rfl | ha
    · simp [Nat.le_of_lt ha, Nat.le_of_lt_succ ha, Nat.ne_of_lt ha, ih, Nat.add_assoc]
    · simp [ih, Nat.add_mul, Nat.add_comm, Nat.add_assoc]
    · simp [Nat.not_le.2 ha, show ¬ a ≤ l by omega, Nat.ne_of_gt ha, ih]

/-- The end of the codes of length `l` is the Kraft sum of the lengths of at most `l`, in units of `2^(-l)`. -/
theorem codesEnd_mul_eq_kraftUnits (lens : List Nat) {l : Nat} (hl : l ≤ 15) :
    codesEnd lens l * 2 ^ (15 - l) = kraftUnits (lens.filter (· ≤ l)) := by
  induction l with
  | zero => rw [kraftUnits_filter_zero, codesEnd, firstCode, blCount, if_pos rfl, Nat.zero_add, Nat.zero_mul]
  | succ l ih =>
    have hpow : 2 ^ (15 - l) = 2 * 2 ^ (15 - (l + 1)) := by
      rw [← Nat.pow_succ', show 15 - l = 15 - (l + 1) + 1 by omega]
    rw [kraftUnits_filter_succ, ← ih (by omega), codesEnd_of_pos (Nat.succ_pos l), firstCode_succ, hpow]
    ring

theorem kraftUnits_filter_le (lens : List Nat) (l : Nat) : kraftUnits (lens.filter (· ≤ l)) ≤ kraftUnits lens :=
  (List.filter_sublist.map _).sum_le_sum fun _ _ => Nat.zero_le _

/-- The Kraft sum is at most 1 when and only when the codes of every used length end inside their length. -/
theorem codesEnd_le_iff_kraftUnits_le {lens : List Nat} (h15 : ∀ l ∈ lens, l ≤ 15) :
    (∀ l ∈ lens, 0 < l → codesEnd lens l ≤ 2 ^ l) ↔ kraftUnits lens ≤ 2 ^ 15 := by
  constructor
  · intro h
    have hall : ∀ l, codesEnd lens l ≤ 2 ^ l := by
      intro l
      induction l with
      | zero => exact Nat.zero_le 1
      | succ l ih =>
        by_cases hl : l + 1 ∈ lens
        · exact h _ hl (Nat.succ_pos l)
        · rw [codesEnd_of_pos (Nat.succ_pos l), List.count_eq_zero_of_not_mem hl, firstCode_succ, Nat.pow_succ]
          omega
    have hfilter : lens.filter (· ≤ 15) = lens := List.filter_eq_self.2 fun l hl => decide_eq_true (h15 l hl)
    have hsum := codesEnd_mul_eq_kraftUnits lens (Nat.le_refl 15)
    rw [hfilter, Nat.sub_self, Nat.pow_zero, Nat.mul_one] at hsum
    exact hsum ▸ hall 15
  · intro h l hl _
    refine Nat.le_of_mul_le_mul_right (c := 2 ^ (15 - l)) ?_ (Nat.two_pow_pos _)
    rw [codesEnd_mul_eq_kraftUnits lens (h15 l hl), ← Nat.pow_add, Nat.add_sub_cancel' (h15 l hl)]
    exact Nat.le_trans (kraftUnits_filter_le lens l) h

/-! ## Assignment (41_codebook.md R83) -/

/-- Giving out a code of length `l` moves one symbol from those to come to the next code: the sum stays. -/
theorem getD_set_add_count {next : List Nat} {l : Nat} (hl : l < next.length) (lens : List Nat) (k : Nat) :
    (next.set l (next.getD l 0 + 1)).getD k 0 + lens.count k = next.getD k 0 + (l :: lens).count k := by
  by_cases hk : k = l
  · subst hk
    simp [List.getD_eq_getElem?_getD, hl, Nat.add_assoc, Nat.add_comm 1]
  · simp [List.getD_eq_getElem?_getD, List.getElem?_set_ne (Ne.symm hk), List.count_cons_of_ne (Ne.symm hk)]

theorem assignCodes_cons_of_pos {l : Nat} (hl : 0 < l) (lens next : List Nat) :
    assignCodes (l :: lens) next =
      if 2 ^ l ≤ next.getD l 0 then none
      else (assignCodes lens (next.set l (next.getD l 0 + 1))).map (⟨next.getD l 0, l⟩ :: ·) := by
  cases l with
  | zero => exact absurd hl (Nat.lt_irrefl 0)
  | succ l => rfl

/-- Assignment succeeds when and only when the codes of every used length end inside their length. -/
theorem assignCodes_isSome_iff {lens next : List Nat} (hnext : ∀ l ∈ lens, l < next.length) :
    (assignCodes lens next).isSome ↔ ∀ l ∈ lens, 0 < l → next.getD l 0 + lens.count l ≤ 2 ^ l := by
  induction lens generalizing next with
  | nil => simp [assignCodes]
  | cons a lens ih =>
    have ha := hnext a (by simp)
    have htail : ∀ l ∈ lens, l < next.length := fun l hl => hnext l (by simp [hl])
    rcases Nat.eq_zero_or_pos a with rfl | hpos
    · rw [assignCodes, Option.isSome_map, ih htail, List.forall_mem_cons]
      have hcount : ∀ l, 0 < l → (0 :: lens).count l = lens.count l := fun l hl => List.count_cons_of_ne (by omega)
      simp +contextual [hcount]
    · rw [assignCodes_cons_of_pos hpos, List.forall_mem_cons]
      split
      next hfull =>
        have hself : 0 < (a :: lens).count a := by simp
        simp only [Option.isSome_none, Bool.false_eq_true, false_iff, not_and]
        intro hfits
        have := hfits hpos
        omega
      next hroom =>
        rw [Option.isSome_map, ih (by simpa using htail)]
        simp only [getD_set_add_count ha]
        refine ⟨fun h => ⟨fun _ => ?_, h⟩, fun h => h.2⟩
        by_cases hmem : a ∈ lens
        · exact h a hmem hpos
        · rw [List.count_cons_self, List.count_eq_zero_of_not_mem hmem]
          omega

/-- Each symbol is given the next code of its length, past those given to the symbols before it, and it fits. -/
theorem assignCodes_code {lens next : List Nat} {es : List CodeEntry} (h : assignCodes lens next = some es)
    (hnext : ∀ l ∈ lens, l < next.length) {i : Nat} {e : CodeEntry} (he : es[i]? = some e) :
    e.code < 2 ^ e.len ∧ (0 < e.len → e.code = next.getD e.len 0 + (lens.take i).count e.len) := by
  induction lens generalizing next es i with
  | nil => cases h; simp at he
  | cons a lens ih =>
    have ha := hnext a (by simp)
    have htail : ∀ l ∈ lens, l < next.length := fun l hl => hnext l (by simp [hl])
    rcases Nat.eq_zero_or_pos a with rfl | hpos
    · rw [assignCodes, Option.map_eq_some_iff] at h
      obtain ⟨es, hes, rfl⟩ := h
      cases i with
      | zero => cases he; simp
      | succ i =>
        obtain ⟨hlt, hcode⟩ := ih hes htail he
        refine ⟨hlt, fun hlen => ?_⟩
        rw [hcode hlen, List.take_succ_cons, List.count_cons_of_ne (by omega)]
    · rw [assignCodes_cons_of_pos hpos] at h
      split at h
      · cases h
      next hroom =>
        rw [Option.map_eq_some_iff] at h
        obtain ⟨es, hes, rfl⟩ := h
        cases i with
        | zero => cases he; exact ⟨Nat.not_le.1 hroom, fun _ => by simp⟩
        | succ i =>
          obtain ⟨hlt, hcode⟩ := ih hes (by simpa using htail) he
          refine ⟨hlt, fun hlen => ?_⟩
          rw [hcode hlen, List.take_succ_cons, getD_set_add_count ha]

/-! ## The builder -/

theorem getD_firstCodes (lens : List Nat) {l : Nat} (hl : l ≤ 15) :
    (firstCodes lens).getD l 0 = firstCode lens l := by
  simp [firstCodes, List.getD_eq_getElem?_getD, Config.maxCodeLen, List.getElem?_range (Nat.lt_succ_of_le hl)]

theorem lt_length_firstCodes {lens : List Nat} (h15 : ∀ l ∈ lens, l ≤ 15) :
    ∀ l ∈ lens, l < (firstCodes lens).length := by
  intro l hl
  rw [firstCodes, List.length_map, List.length_range]
  exact Nat.lt_succ_of_le (h15 l hl)

/-- R84: from the first codes, assignment succeeds when and only when the Kraft sum is at most 1. -/
theorem assignCodes_firstCodes_isSome_iff {lens : List Nat} (h15 : ∀ l ∈ lens, l ≤ 15) :
    (assignCodes lens (firstCodes lens)).isSome ↔ kraftUnits lens ≤ 2 ^ 15 := by
  rw [assignCodes_isSome_iff (lt_length_firstCodes h15), ← codesEnd_le_iff_kraftUnits_le h15]
  refine forall₃_congr fun l hl hpos => ?_
  rw [getD_firstCodes lens (h15 l hl), codesEnd_of_pos hpos]

/-- R83, R84: when the builder answers with a codebook. -/
theorem buildCodebook_isSome_iff (lens : List Nat) :
    (buildCodebook lens).isSome ↔
      lens ≠ [] ∧ lens.length ≤ 289 ∧ (∀ l ∈ lens, l ≤ 15) ∧ kraftUnits lens ≤ 2 ^ 15 := by
  constructor
  · intro h
    obtain ⟨b, hb⟩ := Option.isSome_iff_exists.1 h
    obtain ⟨-, -, hne, hlen, h15, hes⟩ := buildCodebook_some hb
    exact ⟨hne, hlen, h15, (assignCodes_firstCodes_isSome_iff h15).1 (by rw [hes]; rfl)⟩
  · rintro ⟨hne, hlen, h15, hkraft⟩
    rw [buildCodebook, if_neg (by simp [hne, Config.maxCodebookEntries, hlen]),
      if_neg (by simpa [Config.maxCodeLen] using h15), Option.isSome_map]
    exact (assignCodes_firstCodes_isSome_iff h15).2 hkraft

/-- Settles O14: the builder answers exactly on the arrays whose codes fit, and its answer is what is delivered. -/
theorem buildAcceptsExactlyKraft : Obligations.BuildAcceptsExactlyKraft := by
  intro lens s
  have hexec : exec (.buildCodebook lens) s = deliverResult (buildOrRaise lens s) .codebook := rfl
  split
  next h =>
    obtain ⟨b, hb⟩ := Option.isSome_iff_exists.1 ((buildCodebook_isSome_iff lens).2 h)
    exact ⟨b, (buildCodebook_some hb).1, by rw [hexec, buildOrRaise, hb, deliverResult_ok]⟩
  next h =>
    have hb : buildCodebook lens = none :=
      Option.not_isSome_iff_eq_none.1 (mt (buildCodebook_isSome_iff lens).1 h)
    rw [hexec, buildOrRaise, hb, deliverResult_raise]
    rfl

/-! ## The order of the codes (41_codebook.md R82) -/

section
variable {lens : List Nat} {b : Codebook} {i j : Nat} {e f : CodeEntry}

/-- The code of a built symbol: past the first code of its length by the symbols of that length before it. -/
theorem code_of_build (h : buildCodebook lens = some b) (he : b.entries[i]? = some e) :
    lens[i]? = some e.len ∧ e.len ≤ 15 ∧ e.code < 2 ^ e.len ∧
      (0 < e.len → e.code = firstCode lens e.len + (lens.take i).count e.len) := by
  obtain ⟨hlens, -, -, -, h15, hes⟩ := buildCodebook_some h
  have hi : lens[i]? = some e.len := by rw [← hlens, List.getElem?_map, he, Option.map_some]
  have hle := h15 _ (List.mem_of_getElem? hi)
  have hcode := assignCodes_code hes (lt_length_firstCodes h15) he
  rw [getD_firstCodes lens hle] at hcode
  exact ⟨hi, hle, hcode⟩

/-- Codes of one length are consecutive in symbol order. -/
theorem code_eq_add_count_of_build (h : buildCodebook lens = some b) (he : b.entries[i]? = some e)
    (hf : b.entries[j]? = some f) (hpos : 0 < e.len) (hlen : e.len = f.len) (hij : i ≤ j) :
    f.code = e.code + ((lens.drop i).take (j - i)).count e.len := by
  obtain ⟨-, -, -, hcode⟩ := code_of_build h he
  obtain ⟨-, -, -, hcode'⟩ := code_of_build h hf
  have htake : lens.take j = lens.take i ++ (lens.drop i).take (j - i) := by
    rw [← List.take_add, Nat.add_sub_cancel' hij]
  rw [hcode' (hlen ▸ hpos), hcode hpos, ← hlen, htake, List.count_append, Nat.add_assoc]

/-- A later prefix of the lengths counts the length at an index once more. -/
theorem count_take_lt {l : Nat} (hi : lens[i]? = some l) (hij : i < j) :
    (lens.take i).count l < (lens.take j).count l := by
  have hnext : (lens.take (i + 1)).count l = (lens.take i).count l + 1 := by
    rw [List.take_add_one, hi, Option.toList_some, List.count_append, List.count_singleton_self]
  have hmono : (lens.take (i + 1)).count l ≤ (lens.take j).count l :=
    (List.take_sublist_take_left hij).count_le l
  omega

/-- A code is below the end of the codes of its length. -/
theorem code_lt_codesEnd_of_build (h : buildCodebook lens = some b) (he : b.entries[i]? = some e) (hpos : 0 < e.len) :
    e.code < codesEnd lens e.len := by
  obtain ⟨hi, -, -, hcode⟩ := code_of_build h he
  have hcount := count_take_lt hi (List.getElem?_eq_some_iff.1 hi).1
  rw [List.take_length] at hcount
  rw [codesEnd_of_pos hpos, hcode hpos]
  exact Nat.add_lt_add_left hcount _

/-- The code of a later symbol of the same length is greater. -/
theorem code_lt_code_of_build (h : buildCodebook lens = some b) (he : b.entries[i]? = some e)
    (hf : b.entries[j]? = some f) (hpos : 0 < e.len) (hlen : e.len = f.len) (hij : i < j) : e.code < f.code := by
  obtain ⟨hi, -, -, hcode⟩ := code_of_build h he
  obtain ⟨-, -, -, hcode'⟩ := code_of_build h hf
  rw [hcode hpos, hcode' (hlen ▸ hpos), ← hlen]
  exact Nat.add_lt_add_left (count_take_lt hi hij) _

/-- Shorter codes, shifted to a longer length, lie below the codes of that length. -/
theorem code_succ_mul_le_of_build (h : buildCodebook lens = some b) (he : b.entries[i]? = some e)
    (hf : b.entries[j]? = some f) (hpos : 0 < e.len) (hlt : e.len < f.len) :
    (e.code + 1) * 2 ^ (f.len - e.len) ≤ f.code := by
  obtain ⟨-, -, -, hcode⟩ := code_of_build h hf
  obtain ⟨d, hd⟩ : ∃ d, f.len = e.len + d + 1 := ⟨f.len - e.len - 1, by omega⟩
  calc (e.code + 1) * 2 ^ (f.len - e.len)
      ≤ codesEnd lens e.len * 2 ^ (f.len - e.len) :=
        Nat.mul_le_mul_right _ (code_lt_codesEnd_of_build h he hpos)
    _ ≤ firstCode lens f.len := by
        rw [hd, show e.len + d + 1 - e.len = d + 1 by omega]
        exact codesEnd_mul_le_firstCode lens e.len d
    _ ≤ f.code := by rw [hcode (by omega)]; exact Nat.le_add_right _ _

/-! ## Prefix codes (41_codebook.md R85) -/

/-- The first bits of a longer code, as many as a shorter code has, are above that code. -/
theorem lt_code_shiftRight_of_build (h : buildCodebook lens = some b) (he : b.entries[i]? = some e)
    (hf : b.entries[j]? = some f) (hpos : 0 < e.len) (hlt : e.len < f.len) :
    e.code < f.code >>> (f.len - e.len) := by
  rw [Nat.shiftRight_eq_div_pow]
  exact (Nat.le_div_iff_mul_le (Nat.two_pow_pos _)).2 (code_succ_mul_le_of_build h he hf hpos hlt)

/-- No code of an earlier symbol is a prefix of a later symbol's or the other way round. -/
theorem prefixFreeWith_of_build (h : buildCodebook lens = some b) (he : b.entries[i]? = some e)
    (hf : b.entries[j]? = some f) (hij : i < j) : e.prefixFreeWith f = true := by
  rw [CodeEntry.prefixFreeWith, Bool.or_eq_true, Bool.or_eq_true, beq_iff_eq, beq_iff_eq]
  by_cases hpos : 0 < e.len ∧ 0 < f.len
  · refine .inr ?_
    rcases Nat.lt_trichotomy e.len f.len with hlt | heq | hlt
    · rw [if_pos (Nat.le_of_lt hlt), bne_iff_ne]
      exact Nat.ne_of_gt (lt_code_shiftRight_of_build h he hf hpos.1 hlt)
    · rw [if_pos (Nat.le_of_eq heq), bne_iff_ne, heq, Nat.sub_self, Nat.shiftRight_zero]
      exact Nat.ne_of_gt (code_lt_code_of_build h he hf hpos.1 heq hij)
    · rw [if_neg (Nat.not_le.2 hlt), bne_iff_ne]
      exact Nat.ne_of_gt (lt_code_shiftRight_of_build h hf he hpos.2 hlt)
  · exact .inl (by omega)

theorem allPrefixFree_iff_pairwise (es : List CodeEntry) :
    CodeEntry.allPrefixFree es = true ↔ es.Pairwise fun e f => e.prefixFreeWith f = true := by
  induction es with
  | nil => simp [CodeEntry.allPrefixFree]
  | cons e es ih => rw [CodeEntry.allPrefixFree, Bool.and_eq_true, ih, List.all_eq_true, List.pairwise_cons]

theorem allPrefixFree_of_build (h : buildCodebook lens = some b) : CodeEntry.allPrefixFree b.entries = true := by
  rw [allPrefixFree_iff_pairwise, List.pairwise_iff_getElem]
  intro i j hi hj hij
  exact prefixFreeWith_of_build h (List.getElem?_eq_getElem hi) (List.getElem?_eq_getElem hj) hij

/-- R82, R85: every codebook the builder returns is in its ranges and prefix-free. -/
theorem wellFormed_of_build (h : buildCodebook lens = some b) : b.wellFormed = true := by
  obtain ⟨hlens, hmax, hne, hlen, -⟩ := buildCodebook_some h
  have hsize := buildCodebook_length h
  have hranges : ∀ e ∈ b.entries, e.wellFormed = true := by
    intro e he
    obtain ⟨i, hi⟩ := List.mem_iff_getElem?.1 he
    obtain ⟨-, h15, hcode, -⟩ := code_of_build h hi
    rw [CodeEntry.wellFormed, Bool.and_eq_true]
    exact ⟨decide_eq_true h15, decide_eq_true hcode⟩
  have hlongest : b.maxLen = b.entries.foldl (fun m e => max m e.len) 0 := by
    rw [hmax, maxLenOf, ← hlens, List.foldl_map]
  simp only [Codebook.wellFormed, Bool.and_eq_true, beq_iff_eq, decide_eq_true_eq, List.all_eq_true]
  refine ⟨⟨⟨⟨?_, ?_⟩, hranges⟩, hlongest⟩, allPrefixFree_of_build h⟩
  · rw [hsize]; exact List.length_pos_iff.2 hne
  · rw [hsize]; exact hlen

end

/-- Settles O15: ranges, prefix-freeness and the two orders of R82, from the code each symbol is given. -/
theorem builtCodesAreCanonical : Obligations.BuiltCodesAreCanonical := fun _ _ h =>
  ⟨wellFormed_of_build h, fun _ _ _ _ he hf hpos _ =>
    ⟨code_eq_add_count_of_build h he hf hpos, code_succ_mul_le_of_build h he hf hpos⟩⟩

end Sys2Proof.Machine
end

section
/-! Decoding through the compiled tables as prefix matching (42_huffman_decoder.md R92), and decodeSymbol as an
instruction of its own (R91). -/

namespace Sys2Proof.Machine

/-! ## Prefix-free codes are apart (41_codebook.md R85) -/

section
variable {e f : CodeEntry}

/-- Of two codes in front of one number, the shorter is the first bits of the longer. -/
theorem CodeInFront.shiftRight_code_eq {x : Nat} (he : CodeInFront e x) (hf : CodeInFront f x) (hle : e.len ≤ f.len)
    (hce : e.code < 2 ^ e.len) (hcf : f.code < 2 ^ f.len) : f.code >>> (f.len - e.len) = e.code := by
  have hfull : revBits f.len x = f.code := by simpa using hf.div_revBits (Nat.le_refl _) hcf
  rw [Nat.shiftRight_eq_div_pow, ← hfull]
  exact he.div_revBits hle hce

theorem codesApart_of_prefixFreeWith (hce : e.code < 2 ^ e.len) (hcf : f.code < 2 ^ f.len)
    (h : e.prefixFreeWith f = true) : CodesApart e f := by
  intro x he hf
  simp only [CodeEntry.prefixFreeWith, Bool.or_eq_true, beq_iff_eq, Nat.ne_of_gt he.1, Nat.ne_of_gt hf.1,
    false_or] at h
  split at h
  next hle => exact bne_iff_ne.1 h (he.shiftRight_code_eq hf hle hce hcf)
  next hlt => exact bne_iff_ne.1 h (hf.shiftRight_code_eq he (Nat.le_of_not_le hlt) hcf hce)

theorem codesApart_of_build {lens : List Nat} {b : Codebook} (h : buildCodebook lens = some b) :
    b.entries.Pairwise CodesApart := by
  have hcode : ∀ e ∈ b.entries, e.code < 2 ^ e.len := by
    intro e he
    obtain ⟨i, hi⟩ := List.mem_iff_getElem?.1 he
    obtain ⟨-, -, hlt, -⟩ := code_of_build h hi
    exact hlt
  exact ((allPrefixFree_iff_pairwise _).1 (allPrefixFree_of_build h)).imp_of_mem fun he hf =>
    codesApart_of_prefixFreeWith (hcode _ he) (hcode _ hf)

end

/-! ## The instructions -/

theorem exec_decode_of_decodeBits_eq_none {d : Decoder} {bits : BitVec 32} (h : decodeBits d bits = none) (s : State) :
    exec (.decode d bits) s = .next (latched 8 s) := by
  show deliverResult (decodeOrRaise d bits s) _ = _
  rw [decodeOrRaise, h, deliverResult_raise]
  rfl

/-- Settles O16: the builder's codes are apart, so the tables compiled from them select what prefix matching does. -/
theorem decodeIsPrefixMatch : Obligations.DecodeIsPrefixMatch := by
  intro lens b bits s h
  obtain ⟨hfound, hmissed⟩ := decodeBits_compileDecoder (fun _ => len_le_maxLen_of_build h) (codesApart_of_build h) bits
  exact ⟨fun sym e he hm => exec_decode_of_decodeBits (hfound sym e he hm) s,
    fun hnone => exec_decode_of_decodeBits_eq_none (hmissed hnone) s⟩

/-- decodeSymbol as an instruction delivers what the operation does (42_huffman_decoder.md R91). -/
theorem exec_decodeSymbol (which : DecoderName) (s : State) :
    exec (.decodeSymbol which) s = deliverResult (decodeSymbol (namedDecoder which s) s) .symbol := rfl

/-- Settles O19: the peek's raise, the lookup's raise and the return are the three branches of `decodeSymbol_eq`. -/
theorem decodeSymbolConsumesCode : Obligations.DecodeSymbolConsumesCode := by
  intro s which
  rw [exec_decodeSymbol, decodeSymbol_eq]
  refine ⟨fun hshort => ?_, fun hwhole hnone => ?_, fun sym len hwhole hsome => ?_⟩
  · rw [if_pos hshort, deliverResult_raise, enterError_srcFail]
  · rw [if_neg (Nat.not_lt.2 hwhole), hnone, deliverResult_raise]
    rfl
  · rw [if_neg (Nat.not_lt.2 hwhole), hsome, deliverResult_ok]

end Sys2Proof.Machine
end

section
/-! The window's operations run as instructions (43_window.md R94 to R96): what they leave, and that the slide's copy is
the ascending one. -/

namespace Sys2Proof.Machine

/-! ## The ascending copy of 43_window.md R95 -/

/-- No byte is overwritten before it is read: the source of each address is at or above that address. -/
theorem Memory.read_ascendingMove (src count i : Nat) (m : Memory) (a : Nat) :
    Memory.read (ascendingMove src count i m) a =
      if i ≤ a ∧ a < i + count then Memory.read m (src + a) else Memory.read m a := by
  induction count generalizing i m with
  | zero => rw [ascendingMove, if_neg (by omega)]
  | succ count ih =>
    rw [ascendingMove, ih, Memory.read_write, Memory.read_write]
    rcases Nat.lt_trichotomy a i with hlt | rfl | hgt
    · rw [if_neg (by omega), if_neg (by omega), if_neg (by omega)]
    · rw [if_neg (by omega), if_pos rfl, if_pos (by omega)]
    · rw [if_neg (by omega : src + a ≠ i), if_neg (by omega : a ≠ i)]
      exact if_congr (by omega) rfl rfl

theorem Memory.wf_ascendingMove {m : Memory} (h : Memory.wf m = true) (src count i : Nat) :
    Memory.wf (ascendingMove src count i m) = true := by
  induction count generalizing i m with
  | zero => exact h
  | succ count ih => exact ih (Memory.wf_write h _ _) (i + 1)

/-- Past D, the ascending copy of the last D bytes is a slide's window. -/
theorem slidFrom_ascendingMove {nb : Nat} (h : 32768 < nb) (m : Memory) :
    SlidFrom nb m (ascendingMove (nb - 32768) 32768 0 m) := by
  intro a
  rw [Memory.read_ascendingMove]
  exact if_congr (by simp only [Config.distLimit]; omega) rfl rfl

/-- A slide leaves one window only. -/
theorem SlidFrom.unique {nb : Nat} {m m₁ m₂ : Memory} (h₁ : SlidFrom nb m m₁) (h₂ : SlidFrom nb m m₂)
    (hw₁ : Memory.wf m₁ = true) (hw₂ : Memory.wf m₂ = true) : m₁ = m₂ :=
  Memory.ext hw₁ hw₂ fun a => (h₁ a).trans (h₂ a).symm

/-! ## The instructions -/

/-- Inside the window a slide completes, run as an instruction too. -/
theorem exec_slide_slid {n : Nat} {s : State} (h : s.winBound.toNat + n ≤ 98304) :
    ∃ t, exec (.slide n) s = .next t ∧ Slid n s t := by
  show ∃ t, deliverUnit (slide n s) = _ ∧ _
  have hmeets := slide_meets n s
  cases hr : slide n s with
  | ok u t => rw [hr] at hmeets; exact ⟨t, rfl, hmeets⟩
  | raise e t => rw [hr] at hmeets; exact hmeets.elim
  | fault f => rw [hr] at hmeets; exact absurd h (Nat.not_le.2 hmeets)

/-- Settles O20: a slide inside the window completes, and its law says what it leaves. -/
theorem slideKeepsHistory : Obligations.SlideKeepsHistory := by
  intro s n hwf hn
  obtain ⟨t, hexec, ht⟩ := exec_slide_slid hn
  exact ⟨t, hexec, ht.bound, ht.slid hwf, ht.wf hwf, ht.fields⟩

/-- Settles O21: the slide's window and the ascending copy's read alike, and both are canonical. -/
theorem slideIsAscendingCopy : Obligations.SlideIsAscendingCopy := by
  intro s n hwf hpast hn
  obtain ⟨t, hexec, ht⟩ := exec_slide_slid hn
  have hwin : t.win = ascendingMove (s.winBound.toNat + n - 32768) 32768 0 s.win :=
    (ht.slid hwf).unique (slidFrom_ascendingMove hpast s.win) (ht.wf hwf) (Memory.wf_ascendingMove hwf _ _ _)
  have hbound : t.winBound = 32768 :=
    BitVec.eq_of_toNat_eq (ht.bound.trans (Nat.min_eq_right (Nat.le_of_lt hpast)))
  rw [hexec, ht.fields, hwin, hbound]

/-- Settles O22: each of the two is one record update. -/
theorem windowResetAndWriteBuffer : Obligations.WindowResetAndWriteBuffer := by
  intro s
  have hreset : exec .windowReset s = .next (windowReset s) := rfl
  have hbuffer : exec .writeBuffer s = .next { s with opResult := .region (writeBuffer s).1 (writeBuffer s).2 } := rfl
  exact ⟨hreset, hbuffer⟩

end Sys2Proof.Machine
end

section
/-! That no step is refused, and that from the invariant every step and every STEP completes (44_lz77.md R99,
45_block_producer.md R124). -/

namespace Sys2Proof.Machine

/-! ## No step is refused -/

/-- STEP sends the latched error or delivers a producer step; of the others, some always answer a next state and the
rest deliver an operation that may raise or stop. -/
theorem exec_ne_refused (i : Instr) (s : State) (r : Refusal) : exec i s ≠ .refused r := by
  cases i with
  | step =>
    show execStep s ≠ _
    unfold execStep
    split
    · exact deliver_ne_refused _ _ _
    · exact deliver_ne_refused _ _ _
  | dynamicHeader | clLen0 | clLen1 | clLen2 | clLen3 | clLen4 | clLen5 | clLen6 | clLen7 | clLen8 | clLen9 | clLen10
  | clLen11 | clLen12 | clLen13 | clLen14 | clLen15 | eob | ll286 | ll287 | dist30 | dist31 | reset | status
  | cmdReserved3 | cmdReserved4 | cmdReserved5 | cmdReserved6 | cmdReserved7 | cmdReserved8 | cmdReserved9
  | cmdReservedA | cmdReservedB | cmdReservedC | cmdReservedD | cmdReservedE | cmdReservedF | cmdBadhigh1 | cmdBadhigh2
  | cmdBadhigh3 | cmdBadhigh4 | cmdBadhigh5 | cmdBadhigh6 | cmdBadhigh7 | cmdBadhigh8 | cmdBadhigh9 | cmdBadhighA
  | cmdBadhighB | cmdBadhighC | cmdBadhighD | cmdBadhighE | cmdBadhighF | consume | byteAlign | compileDecoder
  | writeBuffer | windowReset | endStep => nofun
  | _ => exact deliver_ne_refused _ _ _

theorem runElement_ne_refused (e : Option Element) (s : State) (r : Refusal) : runElement e s ≠ .refused r := by
  unfold runElement
  split
  · nofun
  · split
    · exact exec_ne_refused _ _ _
    · nofun

theorem step_ne_refused (s : State) (r : Refusal) : step s ≠ .refused r := by
  unfold step
  split
  · exact runElement_ne_refused _ _ _
  · nofun
  · nofun

/-! ## What a command completes with -/

/-- An outcome that is a next state with one response more than `s` has. -/
def CompletesFrom (s : State) (o : Host.Outcome State Fault Refusal) : Prop :=
  ∃ t u, o = .next t ∧ t.responses = u :: s.responses

theorem completesFrom_respond (u : Response) {s t : State} (h : t.responses = s.responses) :
    CompletesFrom s (deliverUnit (.ok () (respond u t))) :=
  ⟨respond u t, u, rfl, by rw [respond_responses, h]⟩

/-- A producer step that returns has sent its response, and one that raises sends its error. -/
theorem completesFrom_producerStep {s : State} (hs : s.Inv) : CompletesFrom s (deliverUnit (producerStep s)) := by
  have hmeets := producerStep_meets s hs.boundLegal
  cases hr : producerStep s with
  | ok a t =>
    obtain ⟨u, hu⟩ := (hmeets.of_ok hr).sent
    exact ⟨t, u, rfl, hu⟩
  | raise e t =>
    have hsilent := (hmeets.of_raise hr).silent
    exact ⟨enterError e t, .error (errCode e), rfl, by rw [enterError_responses, hsilent]⟩
  | fault f => rw [hr] at hmeets; exact hmeets.elim

/-- STEP sends the latched error, or runs a producer step (47_port_commands.md R135). -/
theorem completesFrom_execStep {s : State} (hs : s.Inv) : CompletesFrom s (execStep s) := by
  unfold execStep
  split
  · exact completesFrom_respond _ rfl
  · exact completesFrom_producerStep hs

/-- Every command word completes with its response (47_port_commands.md R133). -/
theorem completesFrom_commandMeaning (w : BitVec 8) {s : State} (hs : s.Inv) :
    CompletesFrom s (commandMeaning w s) := by
  rcases commandMeaning_cases w with hw | hw | hw | hw <;> rw [hw]
  · exact completesFrom_respond .ok rfl
  · exact completesFrom_execStep hs
  · exact completesFrom_respond _ rfl
  · exact completesFrom_respond _ rfl

/-- A step from the invariant idles, or takes one command and completes it. -/
theorem exists_step_eq_next {s : State} (hs : s.Inv) : ∃ t, step s = .next t := by
  cases hc : s.commands with
  | nil => exact ⟨s, step_idle hs.atPort hc⟩
  | cons w rest =>
    obtain ⟨t, -, ht, -⟩ := completesFrom_commandMeaning w (s := { s with commands := rest }) { hs with }
    exact ⟨t, by rw [step_command hs.atPort hc, ht]⟩

/-- Settles O55: every instruction delivers an operation's result, and from the invariant no operation that a command
runs leaves the window. -/
theorem invariantStepsAlwaysComplete : Obligations.InvariantStepsAlwaysComplete :=
  ⟨step_ne_refused, fun _ hs => ⟨exists_step_eq_next hs, completesFrom_execStep hs⟩⟩

end Sys2Proof.Machine
end

section
/-! The literal/length and distance symbols run as instructions (44_lz77.md R101 to R108): what each writes, and the
order of its errors (60_exceptions.md R141). -/

namespace Sys2Proof.Machine

/-! ## Literals, end-of-block and the illegal symbols -/

/-- Settles O25: a literal below the window's end is one write and one move of the write cursor. -/
theorem literalWritesOneByte : Obligations.LiteralWritesOneByte := by
  intro s b hwf hcur
  have hexec : exec (.lit b) s = .next { s with
      win := Memory.write s.win s.lzCur.toNat b, lzCur := BitVec.ofNat 17 (s.lzCur.toNat + 1) } := by
    show deliverUnit (literal b s) = _
    rw [literal_eq, if_pos (by omega), deliverUnit_ok]
  have hmoved : (BitVec.ofNat 17 (s.lzCur.toNat + 1)).toNat = s.lzCur.toNat + 1 :=
    Nat.mod_eq_of_lt (Nat.lt_of_le_of_lt hcur (by decide))
  refine ⟨_, hexec, hmoved, ?_, fun a ha => ?_, Memory.wf_write hwf _ _, rfl⟩
  · rw [Memory.read_write, if_pos rfl]
  · rw [Memory.read_write, if_neg (by omega)]

/-- Settles O26: none of the three reads anything, and each is one record update. -/
theorem endOfBlockAndIllegalSymbols : Obligations.EndOfBlockAndIllegalSymbols := by
  intro s
  have hend : execEob s =
      .next { s with lzResult := some .done, opResult := .lz77 .done (s.lzCur.toNat - s.lzStart.toNat) } := rfl
  have hillegal : illegalLengthSymbol s = .next (latched 14 s) := rfl
  exact ⟨hend, hillegal, hillegal⟩

/-! ## Distance symbols -/

/-- The symbols 0 to 31 are the distance symbols' instructions (30_encoding.md R56). -/
theorem exec_distanceSymbol {ds : Nat} {i : Instr} (hi : decode (.distSymbol ds) = some i) (s : State) :
    exec i s = distanceSymbol ds s := by
  have hds : ds < 32 := by
    have hsome := mt decode_distSymbol_eq_none.2 (hi ▸ Option.some_ne_none i)
    omega
  interval_cases ds <;> cases hi <;> rfl

section
variable {ds : Nat} {s : State}

theorem distanceFrom_illegal (h : 29 < ds) : distanceFrom ds s = .raise .invalidDistanceSymbol s := if_pos h

theorem distanceFrom_srcFail (h : ds ≤ 29) (ha : avail s < 4) : distanceFrom ds s = .raise (srcFail s) s := by
  rw [distanceFrom, if_neg (Nat.not_lt.2 h), readBits_eq, if_pos ha, Res.raise_bind]

theorem distanceFrom_of_avail (h : ds ≤ 29) (ha : 4 ≤ avail s) :
    distanceFrom ds s =
      .ok (distBase.getD ds 0 + fieldValue (distExtra.getD ds 0) s) (advance (distExtra.getD ds 0) s) := by
  have hn := distExtraBits_le ds
  obtain ⟨x, hr, hx⟩ := readBits_of_avail (n := distExtraBits ds) (by omega) ha
  rw [distanceFrom, if_neg (Nat.not_lt.2 h), hr, Res.ok_bind, distanceOf, hx, distExtraBits]

end

/-- Settles O29: the symbol is tested, and then its extra bits are read. -/
theorem distanceSymbolGivesDistance : Obligations.DistanceSymbolGivesDistance := by
  intro s ds i hi
  rw [exec_distanceSymbol hi, distanceSymbol]
  refine ⟨fun hds ha => ?_, fun hds ha => ?_, fun hds => ?_⟩
  · rw [distanceFrom_of_avail hds ha, deliverResult_ok]
  · rw [distanceFrom_srcFail hds ha, deliverResult_srcFail]
  · rw [distanceFrom_illegal hds, deliverResult_raise]; rfl

/-! ## Back-references -/

/-- Reading a back-reference leaves the window alone. -/
theorem ReadsReference.win_eq {sym len dist : Nat} {s u : State} (h : ReadsReference sym s len dist u) :
    u.win = s.win := by
  obtain ⟨-, -, ds, l, s₁, s₂, rfl, -, -, -, rfl, -, -, rfl⟩ := h
  rfl

/-- No distance is 0 (30_encoding.md R56). -/
theorem ReadsReference.dist_pos {sym len dist : Nat} {s u : State} (h : ReadsReference sym s len dist u) :
    0 < dist := by
  obtain ⟨-, -, ds, l, s₁, s₂, -, -, -, hds, -, -, rfl, -⟩ := h
  have hbase : ∀ ds ≤ 29, 0 < distBase.getD ds 0 := by decide
  exact Nat.add_pos_left (hbase ds hds) _

theorem copyBack_of_le {dist length : Nat} {s : State} (h : s.lzCur.toNat + length ≤ 98304) :
    copyBack dist length s = .ok () { s with
      win := copyBytes dist length s.lzCur.toNat s.win, lzCur := BitVec.ofNat 17 (s.lzCur.toNat + length) } :=
  if_pos h

/-- Settles O27: what is read is not written, and the copy is the ascending one, whose bytes repeat with period
`dist`. -/
theorem backReferenceCopies : Obligations.BackReferenceCopies := by
  intro s u sym len dist i hwf h1 h2 hi hr hd hlen
  have hcur := hr.lzCur_eq
  have hwin := hr.win_eq
  have hexec : exec i s = .next { u with
      win := copyBytes dist len s.lzCur.toNat s.win, lzCur := BitVec.ofNat 17 (s.lzCur.toNat + len) } := by
    rw [exec_lengthSymbol h1 h2 hi, lengthSymbol, hr.backReference_eq, hcur, if_neg (Nat.not_lt.2 hd),
      copyBack_of_le (by rw [hcur]; exact hlen), deliverUnit_ok, hcur, hwin]
  have hmoved : (BitVec.ofNat 17 (s.lzCur.toNat + len)).toNat = s.lzCur.toNat + len :=
    Nat.mod_eq_of_lt (Nat.lt_of_le_of_lt hlen (by decide))
  exact ⟨_, hexec, hmoved, fun k hk => Memory.read_copyBytes _ _ _ _ _ hr.dist_pos hd hk,
    fun a ha => Memory.read_copyBytes_outside _ _ _ _ _ ha, Memory.wf_copyBytes hwf _ _ _, rfl⟩

/-- With its extra bits there, a back-reference raises whatever the distance raises after them (44_lz77.md R103). -/
theorem backReference_of_readDistance_raise {sym : Nat} {e : Err} {s t : State} (ha : 4 ≤ avail s)
    (h : readDistance (advance (lenExtra.getD (sym - 257) 0) s) = .raise e t) :
    backReference sym s = .raise e t := by
  rw [backReference, lengthExtraBits, readBits_eq, if_neg (Nat.not_lt.2 ha), Res.ok_bind, h, Res.raise_bind]

/-- After the symbol's code, the distance is what follows its symbol (44_lz77.md R106). -/
theorem readDistance_of_decodeBits {ds len : Nat} {s : State} (ha : 4 ≤ avail s)
    (h : decodeBits (installed s.dDec) (peekWord s) = some (ds, len)) :
    readDistance s = distanceFrom ds (advance len s) := by
  rw [readDistance, decodeSymbol_eq, if_neg (Nat.not_lt.2 ha), h, Res.ok_bind]

/-- Settles O28: a back-reference is its length's extra bits, the distance, the check and the copy, in this order. -/
theorem backReferenceErrorOrder : Obligations.BackReferenceErrorOrder := by
  intro s sym i h1 h2 hi s₁
  have hraise (e : Err) {t : State} (h : backReference sym s = .raise e t) :
      exec i s = .next (latched (errCode e) t) := by
    rw [exec_lengthSymbol h1 h2 hi, lengthSymbol, h, deliverUnit_raise, enterError_eq_latched]
  have hfail {t : State} (h : backReference sym s = .raise (srcFail s) t) :
      exec i s = .next (latched (srcFailCode s) t) := by
    rw [hraise _ h, errCode_srcFail]
  refine ⟨fun ha => hfail ?_, fun ha hd => hfail ?_, fun ha hd hnone => hraise .huffmanDecoderCodeNotFound ?_,
    fun ds l ha hd hsome => ?_, fun len dist u hr hfar => hraise .distanceTooMuch ?_⟩
  · rw [backReference, readBits_eq, if_pos ha, Res.raise_bind]
  · refine backReference_of_readDistance_raise ha ?_
    rw [readDistance, decodeSymbol_eq, if_pos hd]; rfl
  · refine backReference_of_readDistance_raise ha ?_
    have hnone : decodeBits (installed s₁.dDec) (peekWord s₁) = none := hnone
    rw [readDistance, decodeSymbol_eq, if_neg (Nat.not_lt.2 hd), hnone]; rfl
  · have hdist := readDistance_of_decodeBits hd hsome
    refine ⟨fun hds => hraise .invalidDistanceSymbol ?_, fun hds hx => hfail ?_⟩
    · exact backReference_of_readDistance_raise ha (hdist.trans (distanceFrom_illegal hds))
    · exact backReference_of_readDistance_raise ha (hdist.trans (distanceFrom_srcFail hds hx))
  · rw [hr.backReference_eq, if_pos (by rw [hr.lzCur_eq]; exact hfar)]

end Sys2Proof.Machine
end

section
/-! That a decode call is the unbounded loop of its symbols' own instructions (44_lz77.md R99, R100; 60_exceptions.md
R141), and the test it makes before each symbol (R100). -/

namespace Sys2Proof.Machine

/-! ## Instructions that respond only when they raise -/

/-- The operation sends nothing from `s` on, whether it returns or raises. -/
abbrev Res.SilentFrom {α : Type} (s : State) (r : Res α) : Prop :=
  r.Meets (fun _ t => t.responses = s.responses) (fun _ t => t.responses = s.responses) True

/-- The operation raises, and `x` is the state with its error taken (60_exceptions.md R142). -/
def Res.RaisesTo {α : Type} (r : Res α) (x : State) : Prop := ∃ e t, r = .raise e t ∧ x = enterError e t

theorem Res.not_raisesTo_ok {α : Type} (a : α) (s x : State) : ¬ (Res.ok a s).RaisesTo x := by
  rintro ⟨e, t, h, -⟩
  cases h

theorem Res.raisesTo_bind {α β : Type} {r : Res α} {k : α → State → Res β} {x : State} :
    (r.bind k).RaisesTo x ↔ r.RaisesTo x ∨ ∃ a t, r = .ok a t ∧ (k a t).RaisesTo x := by
  cases r <;> simp [Res.RaisesTo]

section
variable {α : Type} {s x : State} {r : Res α} {k : α → State → State}

/-- A silent operation, run as an instruction, has sent nothing exactly when it has returned. -/
theorem deliver_silent_iff (hr : r.SilentFrom s) (hk : ∀ a t, (k a t).responses = t.responses) :
    (deliver r k = .next x ∧ x.responses = s.responses) ↔ ∃ a t, r = .ok a t ∧ x = k a t := by
  rw [deliver_eq_next]
  constructor
  · rintro ⟨hret | ⟨e, t, he, rfl⟩, hx⟩
    · exact hret
    · rw [enterError_responses, hr.of_raise he] at hx
      exact absurd hx (List.cons_ne_self _ _)
  · rintro ⟨a, t, ha, rfl⟩
    exact ⟨.inl ⟨a, t, ha, rfl⟩, (hk a t).trans (hr.of_ok ha)⟩

/-- A silent operation, run as an instruction, has sent something exactly when it has raised. -/
theorem deliver_responds_iff (hr : r.SilentFrom s) (hk : ∀ a t, (k a t).responses = t.responses) :
    (deliver r k = .next x ∧ x.responses ≠ s.responses) ↔ r.RaisesTo x := by
  rw [deliver_eq_next]
  constructor
  · rintro ⟨⟨a, t, ha, rfl⟩ | hraise, hx⟩
    · exact absurd ((hk a t).trans (hr.of_ok ha)) hx
    · exact hraise
  · rintro ⟨e, t, he, rfl⟩
    refine ⟨.inr ⟨e, t, he, rfl⟩, ?_⟩
    rw [enterError_responses, hr.of_raise he]
    exact List.cons_ne_self _ _

end

/-! ## The symbols other than end-of-block -/

/-- What a literal/length symbol other than end-of-block does once it is read (44_lz77.md R99). -/
def symbolBody (v : Nat) (s : State) : Res Unit :=
  if v ≤ 255 then literal (BitVec.ofNat 8 v) s
  else if v ≤ 285 then backReference v s
  else .raise .invalidLengthSymbol s

/-- The loop's turn, with its branches but for end-of-block put together. -/
theorem lz77Loop_succ (bound : Nat) (s : State) :
    lz77Loop (bound + 1) s =
      if windowNearlyFull s then .ok (.windowFull, lzCount s) s
      else (decodeSymbol (installed s.llDec) s).bind fun v u =>
        if v = 256 then .ok (.done, lzCount u) u else (symbolBody v u).bind fun _ t => lz77Loop bound t := by
  rw [lz77Loop]
  congr 2
  funext v u
  unfold symbolBody
  by_cases hend : v = 256
  · subst hend; rfl
  · rw [if_neg hend, if_neg hend]
    split
    · rfl
    · split
      · rfl
      · rfl

/-- Where the window is nearly full the loop ends, whatever its bound. -/
theorem lz77Loop_of_full {s : State} (h : windowNearlyFull s = true) (bound : Nat) :
    lz77Loop bound s = .ok (.windowFull, lzCount s) s := by
  cases bound with
  | zero => rfl
  | succ bound => rw [lz77Loop_succ, if_pos h]

theorem SymbolsWrite.responses_eq {s t : State} (h : SymbolsWrite s t) : t.responses = s.responses := by rw [h.fields]

/-- A symbol sends nothing, and one that returns has moved the write cursor on. -/
theorem symbolBody_meets {v : Nat} (hv : v ≠ 256) (s : State) :
    (symbolBody v s).Meets (fun _ t => t.responses = s.responses ∧ s.lzCur.toNat < t.lzCur.toNat)
      (fun _ t => t.responses = s.responses) True := by
  unfold symbolBody
  split
  · refine (literal_meets _ s).mono ?_ (fun _ _ => False.elim) fun _ => trivial
    rintro _ t ⟨hw, -, hcur, -⟩
    exact ⟨hw.responses_eq, by omega⟩
  · split
    · refine (backReference_meets (sym := v) (by omega) (by omega) s).mono ?_ (fun _ _ h => h.1.responses_eq)
        fun _ => trivial
      rintro _ t ⟨hw, hcur, -⟩
      exact ⟨hw.responses_eq, by omega⟩
    · exact rfl

theorem symbolBody_silent {v : Nat} (hv : v ≠ 256) (s : State) : (symbolBody v s).SilentFrom s :=
  (symbolBody_meets hv s).mono (fun _ _ h => h.1) (fun _ _ h => h) id

/-- The rows of the symbols, past the alphabet the last one, are the branches of the loop. -/
theorem exec_litlenSymbol {v : Nat} {i : Instr} (hv : v ≠ 256) (hi : decode (ruleArm (.litlenSymbol v)) = some i)
    (s : State) : exec i s = deliverUnit (symbolBody v s) := by
  unfold symbolBody
  split
  next hlit =>
    have hdec : decode (ruleArm (.litlenSymbol v)) = some (.lit (BitVec.ofNat 8 v)) := by
      rw [ruleArm, Nat.min_eq_left (by omega)]
      exact if_pos (by omega)
    cases hdec.symm.trans hi
    rfl
  next hlit =>
    split
    next hlen =>
      rw [ruleArm, Nat.min_eq_left (by omega)] at hi
      exact exec_lengthSymbol (by omega) hlen hi s
    next hlen =>
      have hmin : min v 287 = 286 ∨ min v 287 = 287 := by omega
      rw [ruleArm] at hi
      rcases hmin with hmin | hmin <;> (rw [hmin] at hi; cases hi; rfl)

/-- Every symbol has a row to run, past the alphabet the last one. -/
theorem exists_decode_ruleArm (v : Nat) : ∃ i, decode (ruleArm (.litlenSymbol v)) = some i := by
  refine Option.ne_none_iff_exists'.1 (mt decode_litlenSymbol_eq_none.1 ?_)
  omega

/-- A symbol that returns is inside the alphabet, and has a row of its own. -/
theorem exists_decode_of_symbolBody_ok {v : Nat} {s t : State} (h : symbolBody v s = .ok () t) :
    ∃ i, decode (.litlenSymbol v) = some i := by
  refine Option.ne_none_iff_exists'.1 (mt decode_litlenSymbol_eq_none.1 fun hv => ?_)
  rw [symbolBody, if_neg (by omega), if_neg (by omega)] at h
  cases h

section
variable {v : Nat} {s x : State} {i : Instr} (hv : v ≠ 256) (hi : decode (ruleArm (.litlenSymbol v)) = some i)
include hv hi

theorem exec_litlenSymbol_silent_iff :
    (exec i s = .next x ∧ x.responses = s.responses) ↔ symbolBody v s = .ok () x := by
  rw [exec_litlenSymbol hv hi, deliverUnit, deliver_silent_iff (symbolBody_silent hv s) fun _ _ => rfl]
  exact ⟨fun ⟨_, _, h, hx⟩ => hx ▸ h, fun h => ⟨(), x, h, rfl⟩⟩

theorem exec_litlenSymbol_responds_iff :
    (exec i s = .next x ∧ x.responses ≠ s.responses) ↔ (symbolBody v s).RaisesTo x := by
  rw [exec_litlenSymbol hv hi, deliverUnit, deliver_responds_iff (symbolBody_silent hv s) fun _ _ => rfl]

end

/-! ## The loop of the claims, turn by turn -/

theorem runsSymbols_of_full {s t : State} {r : LzResult} (h : windowNearlyFull s = true) :
    RunsSymbols s r t ↔ r = .windowFull ∧ t = s := by
  constructor
  · intro hr
    cases hr with
    | windowFull => exact ⟨rfl, rfl⟩
    | endOfBlock hn => cases h.symm.trans hn
    | symbol hn => cases h.symm.trans hn
  · rintro ⟨rfl, rfl⟩
    exact .windowFull h

theorem runsSymbols_of_not_full {s t : State} {r : LzResult} (h : windowNearlyFull s = false) :
    RunsSymbols s r t ↔ ∃ v u, decodeSymbol (installed s.llDec) s = .ok v u ∧
      (v = 256 ∧ r = .done ∧ t = u ∨ v ≠ 256 ∧ ∃ w, symbolBody v u = .ok () w ∧ RunsSymbols w r t) := by
  constructor
  · intro hr
    cases hr with
    | windowFull hf => cases hf.symm.trans h
    | endOfBlock _ hd => exact ⟨256, t, hd, .inl ⟨rfl, rfl, rfl⟩⟩
    | symbol _ hd hv hi he hs hr =>
      have hi := (ruleArm_of_decode hi).symm ▸ hi
      exact ⟨_, _, hd, .inr ⟨hv, _, (exec_litlenSymbol_silent_iff hv hi).1 ⟨he, hs⟩, hr⟩⟩
  · rintro ⟨v, u, hd, ⟨rfl, rfl, rfl⟩ | ⟨hv, w, hw, hr⟩⟩
    · exact .endOfBlock h hd
    · obtain ⟨i, hi⟩ := exists_decode_of_symbolBody_ok hw
      obtain ⟨he, hs⟩ := (exec_litlenSymbol_silent_iff hv (ruleArm_of_decode hi ▸ hi)).2 hw
      exact .symbol h hd hv hi he hs hr

theorem not_raisesSymbols_of_full {s x : State} (h : windowNearlyFull s = true) : ¬ RaisesSymbols s x := by
  intro hr
  cases hr with
  | source hn | noCode hn | raised hn | symbol hn => cases h.symm.trans hn

/-- The error of a symbol that is not read is one of the two of 42_huffman_decoder.md R91. -/
theorem raisesTo_decodeSymbol_iff {d : Decoder} {s x : State} :
    (decodeSymbol d s).RaisesTo x ↔
      avail s < 4 ∧ x = latched (srcFailCode s) s ∨
      4 ≤ avail s ∧ decodeBits d (peekWord s) = none ∧ x = latched 8 s := by
  constructor
  · rintro ⟨e, t, he, rfl⟩
    obtain ⟨rfl, ⟨rfl, ha⟩ | ⟨rfl, ha, hnone⟩⟩ := (decodeSymbol_meets d s).of_raise he
    · exact .inl ⟨ha, enterError_srcFail _ _⟩
    · exact .inr ⟨ha, hnone, rfl⟩
  · rintro (⟨ha, rfl⟩ | ⟨ha, hnone, rfl⟩)
    · exact ⟨srcFail s, s, by rw [decodeSymbol_eq, if_pos ha], (enterError_srcFail s s).symm⟩
    · exact ⟨.huffmanDecoderCodeNotFound, s, by rw [decodeSymbol_eq, if_neg (Nat.not_lt.2 ha), hnone], rfl⟩

theorem raisesSymbols_of_not_full {s x : State} (h : windowNearlyFull s = false) :
    RaisesSymbols s x ↔ (decodeSymbol (installed s.llDec) s).RaisesTo x ∨
      ∃ v u, decodeSymbol (installed s.llDec) s = .ok v u ∧ v ≠ 256 ∧
        ((symbolBody v u).RaisesTo x ∨ ∃ w, symbolBody v u = .ok () w ∧ RaisesSymbols w x) := by
  constructor
  · intro hr
    cases hr with
    | source _ ha => exact .inl (raisesTo_decodeSymbol_iff.2 (.inl ⟨ha, rfl⟩))
    | noCode _ ha hnone => exact .inl (raisesTo_decodeSymbol_iff.2 (.inr ⟨ha, hnone, rfl⟩))
    | @raised _ u _ v _ _ hd hi he hs =>
      have hv : v ≠ 256 := by
        rintro rfl
        cases hi
        cases he
        exact hs rfl
      exact .inr ⟨v, u, hd, hv, .inl ((exec_litlenSymbol_responds_iff hv hi).1 ⟨he, hs⟩)⟩
    | symbol _ hd hv hi he hs hr =>
      have hi := (ruleArm_of_decode hi).symm ▸ hi
      exact .inr ⟨_, _, hd, hv, .inr ⟨_, (exec_litlenSymbol_silent_iff hv hi).1 ⟨he, hs⟩, hr⟩⟩
  · rintro (hd | ⟨v, u, hd, hv, hraise | ⟨w, hw, hr⟩⟩)
    · rcases raisesTo_decodeSymbol_iff.1 hd with ⟨ha, rfl⟩ | ⟨ha, hnone, rfl⟩
      · exact .source h ha
      · exact .noCode h ha hnone
    · obtain ⟨i, hi⟩ := exists_decode_ruleArm v
      obtain ⟨he, hs⟩ := (exec_litlenSymbol_responds_iff hv hi).2 hraise
      exact .raised h hd hi he hs
    · obtain ⟨i, hi⟩ := exists_decode_of_symbolBody_ok hw
      obtain ⟨he, hs⟩ := (exec_litlenSymbol_silent_iff hv (ruleArm_of_decode hi ▸ hi)).2 hw
      exact .symbol h hd hv hi he hs hr

/-! ## The loop within its bound (notes/assumptions/20.md) -/

/-- A turn that goes on has moved the write cursor. -/
theorem lzCur_lt_of_turn {d : Decoder} {s u w : State} {v : Nat} (hd : decodeSymbol d s = .ok v u) (hv : v ≠ 256)
    (hw : symbolBody v u = .ok () w) : s.lzCur.toNat < w.lzCur.toNat := by
  obtain ⟨-, len, -, rfl⟩ := (decodeSymbol_meets d s).of_ok hd
  obtain ⟨-, hcur⟩ := (symbolBody_meets hv _).of_ok hw
  exact hcur

theorem lz77Loop_eq_ok_iff_of_full {s t : State} {r : LzResult} {n : Nat} (h : windowNearlyFull s = true)
    (bound : Nat) : lz77Loop bound s = .ok (r, n) t ↔ RunsSymbols s r t ∧ n = lzCount t := by
  rw [lz77Loop_of_full h, runsSymbols_of_full h]
  constructor
  · intro he; cases he; exact ⟨⟨rfl, rfl⟩, rfl⟩
  · rintro ⟨⟨rfl, rfl⟩, rfl⟩; rfl

theorem lz77Loop_raisesTo_iff_of_full {s x : State} (h : windowNearlyFull s = true) (bound : Nat) :
    (lz77Loop bound s).RaisesTo x ↔ RaisesSymbols s x := by
  rw [lz77Loop_of_full h]
  exact iff_of_false (Res.not_raisesTo_ok _ _ _) (not_raisesSymbols_of_full h)

/-- Every turn that goes on moves the write cursor, so a bound that could take it to the window's end is not met
before the loop's own end. -/
theorem lz77Loop_eq_ok_iff {bound : Nat} {s t : State} {r : LzResult} {n : Nat}
    (hb : 98304 ≤ bound + s.lzCur.toNat) :
    lz77Loop bound s = .ok (r, n) t ↔ RunsSymbols s r t ∧ n = lzCount t := by
  induction bound generalizing s with
  | zero => exact lz77Loop_eq_ok_iff_of_full ((windowNearlyFull_iff s).2 (by omega)) 0
  | succ bound ih =>
    cases hfull : windowNearlyFull s with
    | true => exact lz77Loop_eq_ok_iff_of_full hfull _
    | false =>
      rw [lz77Loop_succ, if_neg (by rw [hfull]; decide), Res.bind_eq_ok, runsSymbols_of_not_full hfull]
      constructor
      · rintro ⟨v, u, hd, h⟩
        split at h
        next hend => cases h; exact ⟨⟨v, t, hd, .inl ⟨hend, rfl, rfl⟩⟩, rfl⟩
        next hv =>
          obtain ⟨_, w, hw, h⟩ := Res.bind_eq_ok.1 h
          have hcur := lzCur_lt_of_turn hd hv hw
          obtain ⟨hr, hn⟩ := (ih (by omega)).1 h
          exact ⟨⟨v, u, hd, .inr ⟨hv, w, hw, hr⟩⟩, hn⟩
      · rintro ⟨⟨v, u, hd, ⟨hend, rfl, rfl⟩ | ⟨hv, w, hw, hr⟩⟩, hn⟩
        · exact ⟨v, t, hd, by rw [if_pos hend, hn]⟩
        · have hcur := lzCur_lt_of_turn hd hv hw
          exact ⟨v, u, hd, by rw [if_neg hv, hw]; exact (ih (by omega)).2 ⟨hr, hn⟩⟩

theorem lz77Loop_raisesTo_iff {bound : Nat} {s x : State} (hb : 98304 ≤ bound + s.lzCur.toNat) :
    (lz77Loop bound s).RaisesTo x ↔ RaisesSymbols s x := by
  induction bound generalizing s with
  | zero => exact lz77Loop_raisesTo_iff_of_full ((windowNearlyFull_iff s).2 (by omega)) 0
  | succ bound ih =>
    cases hfull : windowNearlyFull s with
    | true => exact lz77Loop_raisesTo_iff_of_full hfull _
    | false =>
      rw [lz77Loop_succ, if_neg (by rw [hfull]; decide), Res.raisesTo_bind, raisesSymbols_of_not_full hfull]
      refine or_congr_right (exists_congr fun v => exists_congr fun u => and_congr_right fun hd => ?_)
      split
      next hend => exact iff_of_false (Res.not_raisesTo_ok _ _ _) fun h => h.1 hend
      next hv =>
        rw [Res.raisesTo_bind]
        refine (and_iff_right hv).symm.trans (and_congr_right fun _ => or_congr_right ?_)
        constructor
        · rintro ⟨_, w, hw, h⟩
          have hcur := lzCur_lt_of_turn hd hv hw
          exact ⟨w, hw, (ih (by omega)).1 h⟩
        · rintro ⟨w, hw, h⟩
          have hcur := lzCur_lt_of_turn hd hv hw
          exact ⟨(), w, hw, (ih (by omega)).2 h⟩

/-! ## The decode call -/

theorem lz77Decode_silent (s : State) : (lz77Decode s).SilentFrom s := by
  by_cases hs : s.winBound.toNat ≤ 98304
  · exact (lz77Decode_meets s hs).mono (fun _ _ h => by rw [h.1.fields]) (fun _ _ h => by rw [h.1.fields]) False.elim
  · have hfull : windowNearlyFull (startLz77 s) = true :=
      (windowNearlyFull_iff _).2 (show 98304 < s.winBound.toNat + 258 by omega)
    rw [lz77Decode, lz77Loop_of_full hfull]
    rfl

/-- From the boundary on, `WIN_SIZE` symbols are enough for every call (notes/assumptions/20.md). -/
theorem winSize_le_bound (s : State) : 98304 ≤ Config.winSize + (callStart s).lzCur.toNat := Nat.le_add_right _ _

theorem lz77Decode_eq_ok_iff {s t : State} {r : LzResult} {n : Nat} :
    lz77Decode s = .ok (r, n) t ↔
      ∃ u, RunsSymbols (callStart s) r u ∧ n = lzCount u ∧ t = { u with lzResult := some r } := by
  rw [lz77Decode, startLz77_eq_callStart, Res.bind_eq_ok]
  constructor
  · rintro ⟨_, u, hloop, hend⟩
    cases hend
    obtain ⟨hr, hn⟩ := (lz77Loop_eq_ok_iff (winSize_le_bound s)).1 hloop
    exact ⟨u, hr, hn, rfl⟩
  · rintro ⟨u, hr, hn, rfl⟩
    exact ⟨(r, n), u, (lz77Loop_eq_ok_iff (winSize_le_bound s)).2 ⟨hr, hn⟩, rfl⟩

theorem lz77Decode_raisesTo_iff {s x : State} : (lz77Decode s).RaisesTo x ↔ RaisesSymbols (callStart s) x := by
  rw [lz77Decode, startLz77_eq_callStart, Res.raisesTo_bind, lz77Loop_raisesTo_iff (winSize_le_bound s)]
  exact or_iff_left fun ⟨_, _, _, h⟩ => Res.not_raisesTo_ok _ _ _ h

/-- Settles O31: a call is silent but for an error, and its bound is one that no loop meets. -/
theorem lz77DecodeRunsItsSymbols : Obligations.Lz77DecodeRunsItsSymbols := by
  intro s t
  have hreturns : (exec .lz77Decode s = .next t ∧ t.responses = s.responses) ↔
      ∃ r u, lz77Decode s = .ok r u ∧ t = { u with opResult := .lz77 r.1 r.2 } :=
    deliver_silent_iff (lz77Decode_silent s) fun _ _ => rfl
  have hraises : (exec .lz77Decode s = .next t ∧ t.responses ≠ s.responses) ↔ (lz77Decode s).RaisesTo t :=
    deliver_responds_iff (k := fun (r : LzResult × Nat) u => { u with opResult := .lz77 r.1 r.2 })
      (lz77Decode_silent s) fun _ _ => rfl
  refine ⟨hreturns.trans ?_, hraises.trans lz77Decode_raisesTo_iff⟩
  constructor
  · rintro ⟨⟨r, n⟩, _, hcall, rfl⟩
    obtain ⟨u, hr, rfl, rfl⟩ := lz77Decode_eq_ok_iff.1 hcall
    exact ⟨r, u, hr, rfl⟩
  · rintro ⟨r, u, hr, rfl⟩
    exact ⟨(r, lzCount u), _, lz77Decode_eq_ok_iff.2 ⟨u, hr, rfl, rfl⟩, rfl⟩

/-- Settles O32: both are turns of the loop that a call runs. -/
theorem windowFullBoundary : Obligations.WindowFullBoundary := by
  intro s
  have hfull : windowNearlyFull (callStart s) = true ↔ 98046 < s.winBound.toNat := by
    rw [windowNearlyFull_iff]
    show 98304 < s.winBound.toNat + 258 ↔ _
    omega
  constructor
  · intro h
    have hcall := (lz77DecodeRunsItsSymbols s _).1.2 ⟨_, _, .windowFull (hfull.2 h), rfl⟩
    rw [hcall.1, show (callStart s).lzCur.toNat - (callStart s).lzStart.toNat = 0 from Nat.sub_self _]
    rfl
  · intro h ha
    have hnot : windowNearlyFull (callStart s) = false := Bool.eq_false_iff.2 (mt hfull.1 (Nat.not_lt.2 h))
    exact ((lz77DecodeRunsItsSymbols s _).2.2 (.source hnot ha)).1

end Sys2Proof.Machine
end

section
/-! The header collaborator's record and its refusals (45_block_producer.md R113), and the Header step (R112). -/

namespace Sys2Proof.Machine

/-! ## The reference collaborator's optional fields (95_test_vectors.md 0.1) -/

/-- From a byte boundary on, the operation reads only, and it raises only an error of the collaborator. -/
abbrev Res.ReadsHeader {α : Type} (s : State) (r : Res α) : Prop :=
  r.Meets (fun _ t => HeaderReads s t) (fun e t => HeaderReads s t ∧ headerError e) False

theorem HeaderReads.refl {s : State} (h : s.brOff = 0) : HeaderReads s s := ⟨rfl, Nat.le_refl _, h, id⟩

theorem ifFlag_readsHeader (b : Bool) {r : State → Res Unit} {s : State} (hs : s.brOff = 0)
    (hr : (r s).ReadsHeader s) : (ifFlag b r s).ReadsHeader s := by
  unfold ifFlag
  split
  · exact hr
  · exact .refl hs

theorem skipExtra_readsHeader (s : State) : (skipExtra s).ReadsHeader s :=
  (readExact_header 2 s).bind fun _ _ ht => Res.Meets.header ht (readExact_header _ _) fun _ _ h => h

theorem skipCrc_readsHeader (s : State) : (skipCrc s).ReadsHeader s := (readExact_header 2 s).bind fun _ _ h => h

/-- What follows the fixed header is read from where it ends. -/
theorem hdrParseReference_meets_fixed (s : State) :
    (hdrParseReference s).Meets (fun _ t => HeaderReads (atByte (alignedPos s + 10) s) t) (fun _ _ => True) False := by
  unfold hdrParseReference
  refine (readExact_meets 10 s).mono (fun _ _ h => h.2.1) (fun _ _ _ => trivial) id |>.bind ?_
  rintro v _ rfl
  dsimp only
  split
  · trivial
  have h0 : HeaderReads (atByte (alignedPos s + 10) s) (atByte (alignedPos s + 10) s) := .refl rfl
  refine Res.Meets.mono (R := fun e t => HeaderReads (atByte (alignedPos s + 10) s) t ∧ headerError e) ?_
    (fun _ _ h => h) (fun _ _ _ => trivial) id
  refine Res.Meets.header h0 (ifFlag_readsHeader _ h0.aligned (skipExtra_readsHeader _)) fun _ t ht => ?_
  refine Res.Meets.header ht (ifFlag_readsHeader _ ht.aligned (skipToNul_meets _ t ht.aligned)) fun _ u hu => ?_
  refine Res.Meets.header hu (ifFlag_readsHeader _ hu.aligned (skipToNul_meets _ u hu.aligned)) fun _ v hv => ?_
  exact Res.Meets.header hv (ifFlag_readsHeader _ hv.aligned (skipCrc_readsHeader v)) fun _ _ h => h

/-! ## Either collaborator (R113, items 5 and 6) -/

theorem HeaderReads.alignedPos_le_brPos {s t : State} (h : HeaderReads s t) : alignedPos s ≤ t.brPos := by
  have hfw := h.forward
  have ht : bitAddr t = 8 * t.brPos := by rw [bitAddr, h.aligned]; rfl
  unfold alignedPos
  omega

theorem hdrAdvance_eq (n : Nat) (s : State) :
    hdrAdvance n s = atByte (alignedPos s + min n (s.inp.length - alignedPos s)) s := by
  unfold hdrAdvance; rw [byteAlign_eq]; rfl

/-- A record is returned only past the bytes of the fixed header (item 6). -/
theorem le_brPos_of_hdrParse_ok {s u : State} {record : List Byte} (h : hdrParse s = .ok record u) :
    alignedPos s + 10 ≤ u.brPos := by
  unfold hdrParse at h
  split at h
  · have hreads := (hdrParseReference_meets_fixed s).of_ok h
    simpa using hreads.alignedPos_le_brPos
  · unfold hdrParseExternal at h
    dsimp only at h
    split at h
    · cases h
    · split at h
      · cases h
      next n v _ hlen =>
        split at h
        · cases h
        · cases h
          have hlen : ¬ s.inp.length - alignedPos s < 10 := by
            rw [byteAlign_eq, List.length_drop] at hlen; exact hlen
          rw [hdrAdvance_eq]
          show alignedPos s + 10 ≤ alignedPos s + min (max 10 n) (s.inp.length - alignedPos s)
          omega

/-- Both collaborators refuse a whole fixed header with an illegal flag byte (item 5). -/
theorem hdrParse_of_illegalFlags {s : State} (hlen : alignedPos s + 10 ≤ s.inp.length)
    (hflg : flagsLegal (s.inp.getD (alignedPos s + 3) 0) = false) : ∃ t, hdrParse s = .raise .invalidGzHeader t := by
  unfold hdrParse
  split
  · have hbyte : byteAt (inBytes (alignedPos s) 10 s) 3 = s.inp.getD (alignedPos s + 3) 0 :=
      getD_inBytes _ _ _ _ (by decide)
    rw [hdrParseReference, readExact_eq 10, if_neg (by omega), Res.ok_bind]
    dsimp only
    rw [hbyte, if_pos (.inr (.inr (.inr hflg)))]
    exact ⟨_, rfl⟩
  · have hrest : illegalHeader (s.inp.drop (byteAlign s).brPos) = true := by
      have hbyte : byteAt (s.inp.drop (alignedPos s)) 3 = s.inp.getD (alignedPos s + 3) 0 := by
        simp [byteAt, List.getD_eq_getElem?_getD]
      rw [byteAlign_eq]
      show illegalHeader (s.inp.drop (alignedPos s)) = true
      rw [illegalHeader, hbyte, hflg, List.length_drop]
      simp only [Config.headerBytes, Bool.not_false, Bool.and_true, decide_eq_true_eq]; omega
    have hlen' : ¬ (s.inp.drop (byteAlign s).brPos).length < 10 := by
      rw [byteAlign_eq, List.length_drop]; show ¬ s.inp.length - alignedPos s < 10; omega
    unfold hdrParseExternal
    dsimp only
    split
    · exact ⟨_, by rw [if_pos hrest]⟩
    · exact ⟨_, by rw [if_neg hlen', if_pos hrest]⟩

/-! ## The Header step (R112) -/

section
variable {s : State}

theorem headerStep_of_data (h : s.brPos < s.inp.length) :
    headerStep s = (hdrParse s).bind fun record t => .ok () (respond (.header record) (goTo .block (markSeen t))) := by
  rw [headerStep, hasDataLeft, if_pos h]; rfl

theorem headerStep_of_eof (h : s.inp.length ≤ s.brPos) (he : s.inEnd = .eof) :
    headerStep s = if s.prSeen then .ok () (respond .endOfStream (goTo .endOfStream s)) else .raise .emptyInput s := by
  rw [headerStep, hasDataLeft, if_neg (Nat.not_lt.2 h), he]; rfl

theorem headerStep_of_ioerr (h : s.inp.length ≤ s.brPos) (he : s.inEnd = .ioerr) :
    headerStep s = .raise .ioError s := by
  rw [headerStep, hasDataLeft, if_neg (Nat.not_lt.2 h), he]; rfl

/-- Where the collaborator accepts, its record is sent and the block begins. -/
theorem exec_headerStep_of_hdrParse_ok {record : List Byte} {u : State} (h : s.brPos < s.inp.length)
    (hp : hdrParse s = .ok record u) :
    exec .headerStep s =
      .next { s with brPos := u.brPos, brOff := u.brOff, prSeen := true, prState := .block,
                     responses := .header record :: s.responses } := by
  show deliverUnit (headerStep s) = _
  rw [headerStep_of_data h, hp, ((hdrParse_meets s).of_ok hp).fields]; rfl

/-- Where the collaborator raises, so does the Header step; it has moved the cursor alone. -/
theorem exec_headerStep_of_hdrParse_raise {e : Err} {t : State} (h : s.brPos < s.inp.length)
    (hp : hdrParse s = .raise e t) : exec .headerStep s = .next (enterError e t) := by
  show deliverUnit (headerStep s) = _
  rw [headerStep_of_data h, hp]; rfl

/-- An error taken after the collaborator has read. -/
theorem HeaderReads.enterError_eq {t : State} (h : HeaderReads s t) (e : Err) :
    enterError e t = { s with brPos := t.brPos, brOff := t.brOff, prErr := errCode e,
                              responses := .error (errCode e) :: s.responses } := by
  have hf := h.fields
  generalize t.brPos = p, t.brOff = o at hf ⊢
  subst hf; rfl

theorem cursorInside_of_lt (h : s.brPos < s.inp.length) : cursorInside s :=
  ⟨Nat.le_of_lt h, fun e => absurd e (Nat.ne_of_lt h)⟩

theorem alignedPos_of_aligned (h : s.brOff = 0) : alignedPos s = s.brPos := by
  rw [alignedPos_eq, if_pos h]

/-- The collaborator leaves the cursor past the fixed header, at a byte boundary inside the input. -/
theorem cursor_of_hdrParse_ok {record : List Byte} {u : State} (ho : s.brOff = 0) (h : s.brPos < s.inp.length)
    (hp : hdrParse s = .ok record u) : s.brPos + 10 ≤ u.brPos ∧ u.brPos ≤ s.inp.length ∧ u.brOff = 0 := by
  have hreads := (hdrParse_meets s).of_ok hp
  have hpast := le_brPos_of_hdrParse_ok hp
  have hinside := (hreads.cursor (cursorInside_of_lt h)).1
  rw [alignedPos_of_aligned ho] at hpast
  rw [hreads.fields] at hinside
  exact ⟨hpast, hinside, hreads.aligned⟩

/-- With fewer bytes left than a fixed header has, the collaborator raises. -/
theorem exists_hdrParse_raise_of_short (ho : s.brOff = 0) (h : s.brPos < s.inp.length)
    (hfew : s.inp.length < s.brPos + 10) :
    ∃ e t, hdrParse s = .raise e t ∧ HeaderReads s t ∧ headerError e := by
  have hmeets := hdrParse_meets s
  cases hp : hdrParse s with
  | ok record u =>
    obtain ⟨hpast, hinside, -⟩ := cursor_of_hdrParse_ok ho h hp
    omega
  | raise e t => exact ⟨e, t, rfl, hmeets.of_raise hp⟩
  | fault f => rw [hp] at hmeets; exact hmeets.elim

theorem headerError_code {e : Err} (h : headerError e) : errCode e ∈ ([1, 2, 4] : List (BitVec 5)) := by
  rcases h with rfl | rfl | rfl <;> decide

end

/-- Settles O37: the two ends of the input, the collaborator's record, and fewer bytes than a record takes. -/
theorem headerStepCases : Obligations.HeaderStepCases := by
  intro s
  refine ⟨fun h he => ?_, fun h he hseen => ?_, fun h he hseen => ?_, fun record u h hp => ?_, fun ho h hfew => ?_⟩
  · show deliverUnit (headerStep s) = _
    rw [headerStep_of_ioerr h he]; rfl
  · show deliverUnit (headerStep s) = _
    rw [headerStep_of_eof h he, if_neg (by rw [hseen]; decide)]; rfl
  · show deliverUnit (headerStep s) = _
    rw [headerStep_of_eof h he, if_pos hseen]; rfl
  · exact ⟨exec_headerStep_of_hdrParse_ok h hp, fun ho => cursor_of_hdrParse_ok ho h hp⟩
  · obtain ⟨e, t, hp, hreads, herr⟩ := exists_hdrParse_raise_of_short ho h hfew
    refine ⟨_, exec_headerStep_of_hdrParse_raise h hp, headerError_code herr, ?_⟩
    rw [hreads.enterError_eq]
    exact ⟨rfl, rfl⟩

/-- Settles O38: both collaborators refuse the flag byte, and neither writes more than the cursor. -/
theorem illegalFlagByteRaises : Obligations.IllegalFlagByteRaises := by
  intro s ho hlen hflg
  have hpos := alignedPos_of_aligned ho
  have hlegal : flagsLegal (s.inp.getD (alignedPos s + 3) 0) = false := by
    rw [hpos]; exact beq_eq_false_iff_ne.2 hflg
  obtain ⟨t, hp⟩ := hdrParse_of_illegalFlags (by rw [hpos]; exact hlen) hlegal
  obtain ⟨hreads, -⟩ := (hdrParse_meets s).of_raise hp
  refine ⟨_, exec_headerStep_of_hdrParse_raise (by omega) hp, ?_⟩
  rw [hreads.enterError_eq]
  exact ⟨rfl, rfl, rfl⟩

/-- Settles O39: with no flag set the ten bytes are all that the reference collaborator reads. -/
theorem referenceHeaderRead : Obligations.ReferenceHeaderRead := by
  intro s rest href ho hlen hbytes
  have hp : hdrParse s = .ok ([0x1F, 0x8B, 8, 0] ++ rest) (atByte (s.brPos + 10) s) := by
    rw [hdrParse, href]
    show hdrParseReference s = _
    rw [hdrParseReference, readExact_eq 10, alignedPos_of_aligned ho, if_neg (by omega), Res.ok_bind, hbytes]
    dsimp only
    have hflags : byteAt ([0x1F, 0x8B, 8, 0] ++ rest) 3 = 0 := rfl
    rw [if_neg (by simp [byteAt, flagsLegal]), hflags]
    simp only [BitVec.ofNat_eq_ofNat, BitVec.getLsbD_zero]
    rfl
  rw [exec_headerStep_of_hdrParse_ok (by omega) hp, atByte_brPos, atByte_brOff, ← ho]

end Sys2Proof.Machine
end

section
/-! That a finite input ends (45_block_producer.md R124): a STEP that neither raises nor reaches End has read at least
one bit, so as many STEPs as the input has bits, and one more, come to an end. -/

namespace Sys2Proof.Machine

/-! ## Operations that read at least one bit when they return -/

/-- If the operation returns, the cursor has moved on from where it was in `s`. -/
abbrev Res.ReadsPast {α : Type} (s : State) (r : Res α) : Prop :=
  r.Meets (fun _ t => bitAddr s < bitAddr t) (fun _ _ => True) True

theorem Res.ReadsPast.bind {α β : Type} {s : State} {r : Res α} {k : α → State → Res β} (hr : r.ReadsPast s)
    (hk : ∀ a t, (k a t).WritesFrom t) : (r.bind k).ReadsPast s :=
  Res.Meets.bind hr fun a t ht =>
    (hk a t).mono (fun _ _ h => Nat.lt_of_lt_of_le ht h.forward) (fun _ _ _ => trivial) id

theorem readBits_readsPast {n : Nat} (hn : 0 < n) (s : State) : (readBits n s).ReadsPast s := by
  refine (readBits_meets n s).mono ?_ (fun _ _ _ => trivial) False.elim
  rintro _ t ⟨rfl, -⟩
  rw [bitAddr_advance]; omega

theorem readExact_readsPast {n : Nat} (hn : 0 < n) (s : State) : (readExact n s).ReadsPast s := by
  refine (readExact_meets n s).mono ?_ (fun _ _ _ => trivial) False.elim
  rintro _ t ⟨-, rfl, -⟩
  rw [bitAddr_atByte, alignedPos]; omega

/-- No code of a decoder of the shape of 10_state.md R24 is empty. -/
theorem decodeSymbol_readsPast {d : Decoder} (hd : d.wellFormed = true) (s : State) :
    (decodeSymbol d s).ReadsPast s := by
  refine (decodeSymbol_meets d s).mono ?_ (fun _ _ _ => trivial) False.elim
  rintro sym t ⟨-, len, hdec, rfl⟩
  have hlen := decodeBits_legal hd hdec
  rw [bitAddr_advance]; omega

theorem symbolBody_writes (v : Nat) (s : State) : (symbolBody v s).WritesFrom s := by
  unfold symbolBody
  split
  · exact literal_writes _ s
  · split
    · exact backReference_writes v s
    · exact .refl s

/-- A decode call from a boundary that a run reaches has room for a symbol, so it reads one (44_lz77.md R100). -/
theorem lz77Decode_readsPast {s : State} (hl : decoderLegal s.llDec = true) (hb : s.winBound.toNat ≤ 32768) :
    (lz77Decode s).ReadsPast s := by
  have hroom : ¬ windowNearlyFull (startLz77 s) = true := by
    rw [windowNearlyFull_iff]
    show ¬ 98304 < s.winBound.toNat + 258
    omega
  rw [lz77Decode, Config.winSize, lz77Loop_succ, if_neg hroom]
  refine Res.ReadsPast.bind (Res.ReadsPast.bind (decodeSymbol_readsPast (installed_wellFormed hl) _) fun v u => ?_)
    fun _ _ => ⟨rfl, Nat.le_refl _⟩
  split
  · exact .refl u
  · exact (symbolBody_writes v u).bind fun _ t => lz77Loop_writes _ t

theorem inflate_readsPast (final : Bool) {s : State} (hs : s.Inv) : (inflate final s).ReadsPast s :=
  (lz77Decode_readsPast hs.llLegal hs.boundLegal).bind fun _ u =>
    (emitData_writes _ u).bind fun _ _ => ⟨rfl, Nat.le_refl _⟩

theorem blockStep_readsPast (s : State) : (blockStep s).ReadsPast s :=
  (readBits_readsPast (by decide) s).bind fun _ t => blockBody_writes _ t

theorem footerStep_readsPast (s : State) : (footerStep s).ReadsPast s :=
  Res.ReadsPast.bind (readExact_readsPast (by decide) (windowReset s)) fun _ _ => ⟨rfl, Nat.le_refl _⟩

/-- A Header step that returns goes to End or has read a fixed header (45_block_producer.md R112, R113). -/
theorem headerStep_ends_or_readsPast (s : State) :
    (headerStep s).Meets (fun _ t => t.prState = .endOfStream ∨ bitAddr s < bitAddr t) (fun _ _ => True) True := by
  unfold headerStep
  refine (hasDataLeft_meets s).mono (fun _ _ h => h.1) (fun _ _ _ => trivial) (fun _ => trivial) |>.bind ?_
  rintro more u rfl
  split
  · cases hp : hdrParse u with
    | ok record t =>
      have hread := le_brPos_of_hdrParse_ok hp
      refine .inr ?_
      show bitAddr u < 8 * t.brPos + t.brOff.toNat
      unfold alignedPos at hread
      omega
    | raise e t => trivial
    | fault f => trivial
  · split
    · exact .inl rfl
    · trivial

theorem producerStep_ends_or_readsPast {s : State} (hs : s.Inv) :
    (producerStep s).Meets (fun _ t => t.prState = .endOfStream ∨ bitAddr s < bitAddr t) (fun _ _ => True) True := by
  have reads : ∀ {r : Res Unit}, r.ReadsPast s →
      r.Meets (fun _ t => t.prState = .endOfStream ∨ bitAddr s < bitAddr t) (fun _ _ => True) True :=
    fun h => h.mono (fun _ _ => .inr) (fun _ _ => id) id
  unfold producerStep
  split
  next => exact headerStep_ends_or_readsPast s
  next => exact reads (blockStep_readsPast s)
  next => exact reads (inflate_readsPast false hs)
  next => exact reads (inflate_readsPast true hs)
  next => exact reads (footerStep_readsPast s)
  next hp => exact .inl hp

/-! ## STEP after STEP -/

/-- The host has seen the end of the stream or an error. -/
def State.Ended (s : State) : Prop := s.prErr ≠ 0 ∨ s.prState = .endOfStream

/-- What a STEP from the invariant comes to: an end, which stands once it is reached, or a cursor that has moved on. -/
structure StepsOn (s t : State) : Prop where
  inv : t.Inv
  commands : t.commands = s.commands
  inp : t.inp = s.inp
  progress : t.Ended ∨ ¬ s.Ended ∧ bitAddr s < bitAddr t

theorem exists_execStep_stepsOn {s : State} (hs : s.Inv) : ∃ t, execStep s = .next t ∧ StepsOn s t := by
  by_cases herr : s.prErr ≠ 0
  · have hexec : execStep s = .next (respond (.error s.prErr) s) := if_pos herr
    exact ⟨_, hexec, execStep_inv hs hexec, rfl, rfl, .inl (.inl herr)⟩
  have hexec : execStep s = deliverUnit (producerStep s) := if_neg herr
  have hmeets := producerStep_meets s hs.boundLegal
  cases hr : producerStep s with
  | ok a t =>
    rw [hr] at hexec
    have hfields := (hmeets.of_ok hr).writes.fields
    refine ⟨t, hexec, execStep_inv hs hexec, by rw [hfields], by rw [hfields], ?_⟩
    rcases (producerStep_ends_or_readsPast hs).of_ok hr with hend | hread
    · exact .inl (.inr hend)
    · by_cases hend : s.prState = .endOfStream
      · rw [producerStep, hend] at hr
        cases hr
        exact .inl (.inr hend)
      · exact .inr ⟨not_or.2 ⟨herr, hend⟩, hread⟩
  | raise e t =>
    rw [hr] at hexec
    have hfields := (hmeets.of_raise hr).writes.fields
    exact ⟨enterError e t, hexec, execStep_inv hs hexec, by rw [enterError_commands, hfields],
      by rw [enterError_inp, hfields], .inl (.inl (errCode_ne_zero e))⟩
  | fault f => rw [hr] at hmeets; exact hmeets.elim

theorem State.Inv.bitAddr_le {s : State} (hs : s.Inv) : bitAddr s ≤ 8 * s.inp.length := by
  obtain ⟨hle, hend⟩ := hs.cursor
  have hlt := s.brOff.isLt
  unfold bitAddr
  by_cases h : s.brPos = s.inp.length
  · rw [hend h, h]; exact Nat.le_refl _
  · omega

/-- `k` STEPs come to an end when they are more than the bits left, or when the end is reached already. -/
theorem exists_run_ended {k : Nat} {s : State} (hs : s.Inv) (hc : s.commands = List.replicate k 0x01)
    (hk : 8 * s.inp.length < bitAddr s + k ∨ s.Ended) :
    ∃ t : State, Host.Core.run Sys2Proof.core k s = .next t ∧ t.Ended := by
  induction k generalizing s with
  | zero =>
    have hle := hs.bitAddr_le
    exact ⟨s, rfl, hk.resolve_left (by omega)⟩
  | succ k ih =>
    have hs' : State.Inv { s with commands := List.replicate k 0x01 } := { hs with }
    obtain ⟨t, hexec, ht⟩ := exists_execStep_stepsOn hs'
    have hstep : Sys2Proof.core.step s = .next t := (step_command hs.atPort hc).trans hexec
    have hprogress : 8 * t.inp.length < bitAddr t + k ∨ t.Ended := by
      rcases ht.progress with hend | ⟨hnot, hread⟩
      · exact .inr hend
      · have hbits := hk.resolve_right hnot
        have hread : bitAddr s < bitAddr t := hread
        have hinp : t.inp = s.inp := ht.inp
        rw [hinp]
        exact .inl (by omega)
    obtain ⟨x, hrun, hx⟩ := ih ht.inv ht.commands hprogress
    exact ⟨x, by simp only [Host.Core.run, hstep]; exact hrun, hx⟩

/-- Settles O57: the STEPs given are more than the bits of the input. -/
theorem finiteInputEnds : Obligations.FiniteInputEnds := by
  intro s hs _
  exact exists_run_ended { hs with } rfl (.inl (by show 8 * s.inp.length < bitAddr s + _; omega))

end Sys2Proof.Machine
end

section
/-! What a STEP can send and where it can go (45_block_producer.md R111), Data emission (R119), and the Footer and End
steps (R121, R122). -/

namespace Sys2Proof.Machine

/-! ## Data emission (R119) -/

/-- An operation that can neither raise nor stop returns. -/
theorem Res.Meets.exists_ok {α : Type} {r : Res α} {Q : α → State → Prop}
    (h : r.Meets Q (fun _ _ => False) False) : ∃ a t, r = .ok a t ∧ Q a t := by
  cases r with
  | ok a t => exact ⟨a, t, rfl, h⟩
  | raise e t => exact h.elim
  | fault f => exact h.elim

/-- Inside the window Data emission sends the bytes from `LZ_START` on and slides over as many. -/
theorem exists_emitData_slid {n : Nat} {s : State} (hread : s.lzStart.toNat + n ≤ 98304)
    (hslide : s.winBound.toNat + n ≤ 98304) :
    ∃ t, emitData n s = .ok () t ∧
      Slid n (respond (.data (Memory.readRange s.win s.lzStart.toNat n)) s) t := by
  obtain ⟨⟨⟩, t, hr, _, rfl, ht⟩ :=
    ((emitData_meets n s).mono (fun _ _ h => h) (fun _ _ h => h) (F' := False) (by omega)).exists_ok
  exact ⟨t, hr, ht⟩

/-- Settles O23: the bytes are read before the slide, and the slide's law says the rest. -/
theorem dataEmissionSendsThenSlides : Obligations.DataEmissionSendsThenSlides := by
  intro s n hwf hread hslide
  obtain ⟨t, hemit, ht⟩ := exists_emitData_slid hread hslide
  refine ⟨t, _, congrArg deliverUnit hemit, Memory.length_readRange _ _ _,
    fun k hk => Memory.getD_readRange hwf _ _ k hk, by rw [ht.fields]; rfl, ht.bound, ht.slid hwf, ?_⟩
  have hfields := ht.fields
  generalize t.winBound = b, t.win = w at hfields ⊢
  subst hfields; rfl

/-! ## The units (R111) -/

/-- The step has sent one Data response. -/
def SendsData (s t : State) : Prop := ∃ v, t.responses = .data v :: s.responses

theorem SendsData.of_eq {s t u : State} (h : SendsData t u) (hr : t.responses = s.responses) : SendsData s u := by
  unfold SendsData; rw [← hr]; exact h

/-- If the operation returns, it has sent one Data response and gone to a state of the list. -/
abbrev Res.SendsDataTo (s : State) (ps : List PrState) (r : Res Unit) : Prop :=
  r.Meets (fun _ t => SendsData s t ∧ t.prState ∈ ps) (fun _ _ => True) True

/-- An operation that sends nothing, followed by one that sends. -/
theorem Res.SendsDataTo.bind {α : Type} {s : State} {ps : List PrState} {r : Res α} {k : α → State → Res Unit}
    (hr : r.SilentFrom s) (hk : ∀ a t, (k a t).SendsDataTo t ps) : (r.bind k).SendsDataTo s ps := by
  refine (hr.mono (fun _ _ h => h) (fun _ _ _ => trivial) id).bind fun a t ht => ?_
  exact (hk a t).mono (fun _ _ h => ⟨h.1.of_eq ht, h.2⟩) (fun _ _ => id) id

theorem readExact_silent (n : Nat) (s : State) : (readExact n s).SilentFrom s := by
  refine (readExact_meets n s).mono ?_ ?_ False.elim
  · rintro _ _ ⟨-, rfl, -⟩; rfl
  · rintro _ _ ⟨-, rfl⟩; rfl

theorem winWrite_silent (addr : Nat) (v : List Byte) (s : State) : (winWrite addr v s).SilentFrom s := by
  rw [winWrite_eq]
  split
  · rfl
  · trivial

theorem slide_silent (n : Nat) (s : State) : (slide n s).SilentFrom s :=
  (slide_meets n s).mono (fun _ _ h => by rw [h.fields]) (fun _ _ => False.elim) fun _ => trivial

theorem readBits_silent (n : Nat) (s : State) : (readBits n s).SilentFrom s := by
  refine (readBits_meets n s).mono ?_ ?_ False.elim
  · rintro _ _ ⟨rfl, -⟩; rfl
  · rintro _ _ ⟨-, rfl⟩; rfl

theorem parseDynamic_silent (s : State) : (parseDynamic s).SilentFrom s :=
  (parseDynamic_meets s).mono (fun _ _ h => by rw [h.1.fields]) (fun _ _ h => by rw [h.1.fields]) False.elim

theorem emitData_sends (n : Nat) (s : State) :
    (emitData n s).Meets (fun _ t => SendsData s t) (fun _ _ => True) True := by
  refine (emitData_meets n s).mono ?_ (fun _ _ _ => trivial) fun _ => trivial
  rintro _ t ⟨_, rfl, ht⟩
  exact ⟨_, by rw [ht.fields]; rfl⟩

/-- Where an inflate step can go (R118). -/
def inflateTargets (final : Bool) : List PrState :=
  if final then [.inflateFinalBlock, .footer] else [.inflate, .block]

theorem afterInflate_mem (r : LzResult) (final : Bool) : afterInflate r final ∈ inflateTargets final := by
  cases r <;> cases final <;> decide

theorem inflate_sends (final : Bool) (s : State) : (inflate final s).SendsDataTo s (inflateTargets final) :=
  .bind (lz77Decode_silent s) fun r u =>
    (emitData_sends r.2 u).bind fun _ _ ht => ⟨ht, afterInflate_mem r.1 final⟩

theorem storedBody_sends (final : Bool) (len nlen : BitVec 16) (s : State) :
    (storedBody final len nlen s).SendsDataTo s [afterBlock final] := by
  unfold storedBody
  dsimp only
  split
  · trivial
  refine .bind (s := latchLengths len nlen s) (readExact_silent _ _) fun v u => ?_
  refine .bind (winWrite_silent _ v u) fun _ w => ?_
  refine ((slide_silent _ (respond (.data v) w)).mono (fun _ _ h => h) (fun _ _ _ => trivial) id).bind fun _ t ht => ?_
  exact ⟨⟨v, ht⟩, List.mem_singleton_self _⟩

/-- Where a Block step can go (R111). -/
def blockTargets : List PrState := [.block, .footer, .inflate, .inflateFinalBlock]

theorem Res.SendsDataTo.mono {s : State} {ps qs : List PrState} {r : Res Unit} (h : r.SendsDataTo s ps)
    (hsub : ps ⊆ qs) : r.SendsDataTo s qs :=
  Res.Meets.mono h (fun _ _ h => ⟨h.1, hsub h.2⟩) (fun _ _ => id) id

theorem inflateTargets_subset (final : Bool) : inflateTargets final ⊆ blockTargets := by cases final <;> decide

theorem afterBlock_subset (final : Bool) : [afterBlock final] ⊆ blockTargets := by cases final <;> decide

theorem blockBody_sends (w : BitVec 3) (s : State) : (blockBody w s).SendsDataTo s blockTargets := by
  unfold blockBody
  dsimp only
  split
  · have halign : (byteAlign (latchBlockHeader w s)).responses = s.responses := by rw [byteAlign_eq]; rfl
    refine .bind ((readExact_silent 4 _).mono (fun _ _ h => h.trans halign) (fun _ _ h => h.trans halign) id)
      fun h t => ?_
    exact (storedBody_sends _ _ _ t).mono (afterBlock_subset _)
  · exact (inflate_sends _ (installDecoders fixedLlDec fixedDDec (latchBlockHeader w s))).mono
      (inflateTargets_subset _)
  · exact .bind (s := latchBlockHeader w s) (parseDynamic_silent _) fun r t =>
      (inflate_sends _ (installDecoders r.1 r.2 t)).mono (inflateTargets_subset _)
  · trivial

theorem blockStep_sends (s : State) : (blockStep s).SendsDataTo s blockTargets :=
  .bind (readBits_silent 3 s) fun _ t => blockBody_sends _ t

theorem headerStep_sends (s : State) :
    (headerStep s).Meets
      (fun _ t => ((∃ record, t.responses = .header record :: s.responses) ∧ t.prState = .block) ∨
        t.responses = .endOfStream :: s.responses ∧ t.prState = .endOfStream)
      (fun _ _ => True) True := by
  unfold headerStep
  refine (hasDataLeft_meets s).mono (fun _ _ h => h.1) (fun _ _ _ => trivial) (fun _ => trivial) |>.bind ?_
  rintro more u rfl
  split
  · refine (hdrParse_meets u).mono (fun _ _ h => h) (fun _ _ _ => trivial) (fun _ => trivial) |>.bind ?_
    intro record t ht
    exact .inl ⟨⟨record, by rw [respond_responses, goTo_responses, markSeen_responses, ht.fields]⟩, rfl⟩
  · split
    · exact .inr ⟨rfl, rfl⟩
    · trivial

theorem footerStep_sends (s : State) :
    (footerStep s).Meets
      (fun _ t => (∃ crc isize, t.responses = .footer crc isize :: s.responses) ∧ t.prState = .header)
      (fun _ _ => True) True := by
  unfold footerStep
  refine ((readExact_silent _ (windowReset s)).mono (fun _ _ h => h) (fun _ _ _ => trivial) id).bind fun f t ht => ?_
  exact ⟨⟨_, _, congrArg (_ :: ·) ht⟩, rfl⟩

/-- A STEP that latches nothing is a producer step that returned. -/
theorem producerStep_of_execStep {s t : State} (hs : s.prErr = 0) (h : execStep s = .next t) (ht : t.prErr = 0) :
    producerStep s = .ok () t := by
  rw [execStep, if_neg (not_not.2 hs)] at h
  rcases deliver_eq_next.1 h with ⟨_, u, hr, rfl⟩ | ⟨e, u, -, rfl⟩
  · exact hr
  · exact absurd ht (errCode_ne_zero e)

/-- Settles O45: the step of each state, and what it sends when it returns. -/
theorem stepUnitsAndTransitions : Obligations.StepUnitsAndTransitions := by
  intro s t hs hexec ht
  have hstep := producerStep_of_execStep hs hexec ht
  cases hp : s.prState with
  | header =>
    have hstep : headerStep s = .ok () t := by rw [producerStep, hp] at hstep; exact hstep
    rcases (headerStep_sends s).of_ok hstep with ⟨⟨record, hr⟩, hgo⟩ | ⟨hr, hgo⟩
    · exact ⟨_, hr, Or.inl ⟨⟨record, rfl⟩, hgo⟩⟩
    · exact ⟨_, hr, Or.inr ⟨rfl, hgo⟩⟩
  | block =>
    have hstep : blockStep s = .ok () t := by rw [producerStep, hp] at hstep; exact hstep
    obtain ⟨⟨v, hr⟩, hgo⟩ := (blockStep_sends s).of_ok hstep
    exact ⟨_, hr, And.intro ⟨v, rfl⟩ hgo⟩
  | inflate =>
    have hstep : inflate false s = .ok () t := by rw [producerStep, hp] at hstep; exact hstep
    obtain ⟨⟨v, hr⟩, hgo⟩ := (inflate_sends false s).of_ok hstep
    exact ⟨_, hr, And.intro ⟨v, rfl⟩ hgo⟩
  | inflateFinalBlock =>
    have hstep : inflate true s = .ok () t := by rw [producerStep, hp] at hstep; exact hstep
    obtain ⟨⟨v, hr⟩, hgo⟩ := (inflate_sends true s).of_ok hstep
    exact ⟨_, hr, And.intro ⟨v, rfl⟩ hgo⟩
  | footer =>
    have hstep : footerStep s = .ok () t := by rw [producerStep, hp] at hstep; exact hstep
    obtain ⟨⟨crc, isize, hr⟩, hgo⟩ := (footerStep_sends s).of_ok hstep
    exact ⟨_, hr, And.intro ⟨crc, isize, rfl⟩ hgo⟩
  | endOfStream =>
    have hstep : endStep s = .ok () t := by rw [producerStep, hp] at hstep; exact hstep
    cases hstep
    exact ⟨_, rfl, And.intro rfl hp⟩

/-! ## The Footer and the End step (R121, R122) -/

/-- Four bytes of a word in order make the word again (00_scope.md R14). -/
theorem le32_extractLsb' (w : BitVec 32) :
    le32 (w.extractLsb' 0 8) (w.extractLsb' 8 8) (w.extractLsb' 16 8) (w.extractLsb' 24 8) = w := by
  unfold le32
  rw [BitVec.extractLsb'_append_extractLsb'_eq_extractLsb' (show 24 = 16 + 8 from rfl),
    BitVec.extractLsb'_append_extractLsb'_eq_extractLsb' (show 16 = 8 + 8 from rfl),
    BitVec.extractLsb'_append_extractLsb'_eq_extractLsb' (show 8 = 0 + 8 from rfl)]
  exact BitVec.extractLsb'_eq_self

/-- The word that stands at a byte position of `IN`, low byte first. -/
theorem le32_of_bytes {f : Nat → Byte} {w : BitVec 32} (h : ∀ k < 4, f k = w.extractLsb' (8 * k) 8) :
    le32 (f 0) (f 1) (f 2) (f 3) = w := by
  rw [h 0 (by decide), h 1 (by decide), h 2 (by decide), h 3 (by decide)]
  exact le32_extractLsb' w

/-- The Footer step fails with the window reset and the cursor aligned, or sends the eight bytes it reads. -/
theorem footerStep_eq (s : State) :
    footerStep s =
      if s.inp.length - alignedPos s < 8 then .raise (srcFail s) (atByte (alignedPos s) (windowReset s))
      else .ok () (respond
        (.footer (le32 (byteAt (inBytes (alignedPos s) 8 s) 0) (byteAt (inBytes (alignedPos s) 8 s) 1)
            (byteAt (inBytes (alignedPos s) 8 s) 2) (byteAt (inBytes (alignedPos s) 8 s) 3))
          (le32 (byteAt (inBytes (alignedPos s) 8 s) 4) (byteAt (inBytes (alignedPos s) 8 s) 5)
            (byteAt (inBytes (alignedPos s) 8 s) 6) (byteAt (inBytes (alignedPos s) 8 s) 7)))
        (goTo .header (atByte (alignedPos s + 8) (windowReset s)))) := by
  rw [footerStep, readExact_eq]
  show (if s.inp.length - alignedPos s < 8 then _ else _ : Res (List Byte)).bind _ = _
  split
  · rfl
  · rfl

/-- Settles O44: the footer is there and is sent, or it is not and the window is reset all the same. -/
theorem footerAndEndSteps : Obligations.FooterAndEndSteps := by
  intro s
  refine ⟨fun crc isize hlen hcrc hisize => ?_, fun herr hp hlen => ?_, rfl⟩
  · have hbyte : ∀ k < 8, byteAt (inBytes (alignedPos s) 8 s) k = s.inp.getD (alignedPos s + k) 0 :=
      fun k hk => getD_inBytes _ _ _ _ hk
    have hcrcWord := le32_of_bytes fun k hk => (hbyte k (by omega)).trans (hcrc k hk)
    have hisizeWord := le32_of_bytes fun k hk =>
      ((hbyte (4 + k) (by omega)).trans (by rw [Nat.add_assoc])).trans (hisize k hk)
    show deliverUnit (footerStep s) = _
    rw [footerStep_eq, if_neg (by omega), hcrcWord, hisizeWord]
    rfl
  · show execStep s = _
    rw [execStep, if_neg (not_not.2 herr), producerStep, hp]
    show deliverUnit (footerStep s) = _
    rw [footerStep_eq, if_pos (by omega), deliverUnit_raise, enterError_srcFail]
    rfl

end Sys2Proof.Machine
end

section
/-! The Block step as the row of its header (45_block_producer.md R114, 30_encoding.md R50), and the stored block: what
it sends and its errors in order (R115, R51). -/

namespace Sys2Proof.Machine

/-! ## The block header (30_encoding.md R50) -/

theorem blockHeaderWord_eq (w : BitVec 3) : blockHeaderWord (blockType w) (blockFinal w) = w := by revert w; decide

/-- The row of a block header runs the block from that header on. -/
theorem exec_decodeBlockHeader (w : BitVec 3) (s : State) :
    exec (decodeBlockHeader w) s = deliverUnit (blockBody w s) := by
  have row : ∀ {t : BitVec 2}, (blockType w).toNat = t.toNat →
      deliverUnit (blockBody (blockHeaderWord t (blockFinal w)) s) = deliverUnit (blockBody w s) := by
    intro t ht
    rw [← BitVec.eq_of_toNat_eq ht, blockHeaderWord_eq]
  have hlt := (blockType w).isLt
  unfold decodeBlockHeader
  split
  next h => exact row (t := 0) h
  next h => exact row (t := 1) h
  next h => exact row (t := 2) h
  next h0 h1 h2 =>
    rw [imp_false] at h0 h1 h2
    have h3 : (blockType w).toNat = 3 := by omega
    exact row (t := 3) h3

theorem blockStep_of_avail {s : State} (h : 4 ≤ avail s) :
    blockStep s = blockBody (BitVec.ofNat 3 (fieldValue 3 s)) (advance 3 s) := by
  have hword : (peekWord s &&& BitVec.ofNat 32 (mask 3)).setWidth 3 = BitVec.ofNat 3 (fieldValue 3 s) := by
    apply BitVec.eq_of_toNat_eq
    rw [BitVec.toNat_setWidth, toNat_maskedPeek 3 s (by decide), BitVec.toNat_ofNat]
  rw [blockStep, readBits_eq, if_neg (Nat.not_lt.2 h), Res.ok_bind, hword]

theorem blockStep_of_short {s : State} (h : avail s < 4) : blockStep s = .raise (srcFail s) s := by
  rw [blockStep, readBits_eq, if_pos h]; rfl

/-- Settles O40: too few bytes, the row of the header read, and the reserved type. -/
theorem blockStepRunsItsHeader : Obligations.BlockStepRunsItsHeader := by
  intro s
  refine ⟨fun h => ?_, fun i h hi => ?_, fun final => ?_⟩
  · show deliverUnit (blockStep s) = _
    rw [blockStep_of_short h, deliverUnit_raise, enterError_srcFail]
  · cases hi
    show deliverUnit (blockStep s) = _
    rw [blockStep_of_avail h, exec_decodeBlockHeader]
  · cases final <;> rfl

/-! ## A stored block's header word (R114) -/

theorem exec_blockStored (final : Bool) (s : State) :
    exec (.blockStored final) s = deliverUnit (storedBlock final (withBlockHeader 0 final s)) := by
  cases final <;> rfl

theorem exec_blockStep_stored {s : State} {final : Bool} (ha : 4 ≤ avail s) (h0 : streamBit 0 s = final)
    (h1 : streamBit 1 s = false) (h2 : streamBit 2 s = false) :
    exec .blockStep s = deliverUnit (storedBlock final (withBlockHeader 0 final (advance 3 s))) := by
  have hfield : fieldValue 3 s = if final then 1 else 0 := by
    simp [fieldValue, List.range_succ, h0, h1, h2]
  show deliverUnit (blockStep s) = _
  rw [blockStep_of_avail ha, hfield]
  cases final <;> rfl

/-! ## The length fields (R51) -/

/-- Two bytes of a half-word in order make it again (00_scope.md R14). -/
theorem le16_extractLsb' (w : BitVec 16) : le16 (w.extractLsb' 0 8) (w.extractLsb' 8 8) = w := by
  unfold le16
  rw [BitVec.extractLsb'_append_extractLsb'_eq_extractLsb' (show 8 = 0 + 8 from rfl)]
  exact BitVec.extractLsb'_eq_self

theorem HoldsLengths.le_length {pos : Nat} {len nlen : BitVec 16} {s : State} (h : HoldsLengths pos len nlen s) :
    pos + 4 ≤ s.inp.length := by
  have hlen : (inBytes pos 4 s).length = 4 := by rw [h]; rfl
  rw [inBytes, List.length_take, List.length_drop] at hlen
  omega

/-- A stored block whose length fields are there goes on from them. -/
theorem storedBlock_of_fields (final : Bool) {len nlen : BitVec 16} {s : State}
    (h : HoldsLengths (alignedPos s) len nlen s) :
    storedBlock final s = storedBody final len nlen (atByte (alignedPos s + 4) s) := by
  have hle := h.le_length
  have hread : readExact 4 (byteAlign s) = .ok (inBytes (alignedPos s) 4 s) (atByte (alignedPos s + 4) s) := by
    rw [readExact_eq, byteAlign_eq, alignedPos_atByte]
    exact if_neg (by show ¬ s.inp.length - alignedPos s < 4; omega)
  rw [storedBlock, hread, Res.ok_bind, h]
  show storedBody final (le16 (len.extractLsb' 0 8) (len.extractLsb' 8 8))
    (le16 (nlen.extractLsb' 0 8) (nlen.extractLsb' 8 8)) _ = _
  rw [le16_extractLsb', le16_extractLsb']

theorem storedBlock_of_few (final : Bool) {s : State} (h : s.inp.length < alignedPos s + 4) :
    storedBlock final s = .raise (srcFail s) (atByte (alignedPos s) s) := by
  rw [storedBlock, byteAlign_eq, readExact_eq, alignedPos_atByte,
    if_pos (by show s.inp.length - alignedPos s < 4; omega)]
  rfl

/-! ## From the length fields on (R115) -/

theorem storedBody_of_mismatch (final : Bool) {len nlen : BitVec 16} (h : nlen ≠ ~~~len) (s : State) :
    storedBody final len nlen s = .raise .blockType0LenMismatch (latchLengths len nlen s) :=
  if_pos fun he => h (by rw [he, BitVec.not_not])

theorem storedBody_complement (final : Bool) (len : BitVec 16) (s : State) :
    storedBody final len (~~~len) s =
      (readExact len.toNat (latchLengths len (~~~len) s)).bind fun v u =>
        (winWrite u.winBound.toNat v u).bind fun _ u =>
          (slide len.toNat (respond (.data v) u)).bind fun _ u => .ok () (goTo (afterBlock final) u) :=
  if_neg (not_not.2 (by rw [BitVec.not_not]))

theorem storedBody_of_short (final : Bool) {len : BitVec 16} {s : State}
    (h : s.inp.length - alignedPos s < len.toNat) :
    storedBody final len (~~~len) s =
      .raise (srcFail s) (atByte (alignedPos s) (latchLengths len (~~~len) s)) := by
  rw [storedBody_complement, readExact_eq, if_pos (by exact h)]
  rfl

/-- A stored block before its slide: the lengths latched, the bytes read, written at the boundary and sent. -/
def storedSent (len : BitVec 16) (s : State) : State :=
  respond (.data (inBytes (alignedPos s) len.toNat s))
    { atByte (alignedPos s + len.toNat) (latchLengths len (~~~len) s) with
      win := Memory.writeRange s.win s.winBound.toNat (inBytes (alignedPos s) len.toNat s) }

theorem storedBody_of_whole (final : Bool) {len : BitVec 16} {s : State}
    (hroom : s.winBound.toNat + len.toNat ≤ 98304) (hdata : len.toNat ≤ s.inp.length - alignedPos s) :
    storedBody final len (~~~len) s =
      (slide len.toNat (storedSent len s)).bind fun _ u => .ok () (goTo (afterBlock final) u) := by
  rw [← length_inBytes _ _ _ hdata] at hroom
  rw [storedBody_complement, readExact_eq, if_neg (Nat.not_lt.2 (by exact hdata)), Res.ok_bind, winWrite_eq,
    if_pos (by exact hroom), Res.ok_bind]
  rfl

/-- The bytes of a stored block stand at the boundary, and the rest of the window is as it was. -/
theorem read_storedSent_win {len : BitVec 16} {s : State} (hdata : len.toNat ≤ s.inp.length - alignedPos s)
    (a : Nat) :
    Memory.read (storedSent len s).win a =
      if s.winBound.toNat ≤ a ∧ a < s.winBound.toNat + len.toNat then
        s.inp.getD (alignedPos s + (a - s.winBound.toNat)) 0
      else Memory.read s.win a := by
  refine (Memory.read_writeRange _ _ _ a).trans ?_
  rw [length_inBytes _ _ _ hdata]
  split
  · rw [getD_inBytes _ _ _ _ (by omega)]
  · rfl

/-- A stored block whose bytes are there and fit into the window sends them, keeps them and goes on. -/
theorem exists_storedBody_storesData (final : Bool) {len : BitVec 16} {s : State} (hwf : Memory.wf s.win = true)
    (hroom : s.winBound.toNat + len.toNat ≤ 98304) (hdata : len.toNat ≤ s.inp.length - alignedPos s) :
    ∃ t, storedBody final len (~~~len) s = .ok () t ∧
      StoresData final len.toNat (atByte (alignedPos s) s) t := by
  have hread := read_storedSent_win hdata
  have hsentWf : Memory.wf (storedSent len s).win = true := Memory.wf_writeRange hwf _ _
  obtain ⟨⟨⟩, t, hslide, ht⟩ := ((slide_meets len.toNat (storedSent len s)).mono (fun _ _ h => h)
    (fun _ _ h => h) (F' := False) (fun h => absurd hroom (Nat.not_le.2 h))).exists_ok
  refine ⟨goTo (afterBlock final) t, by rw [storedBody_of_whole final hroom hdata, hslide]; rfl, ?_⟩
  have hfields := ht.fields
  have hslid := ht.slid hsentWf
  have hcanonical := ht.wf hsentWf
  have hbound := ht.bound
  generalize t.winBound = b, t.win = w at hfields hslid hcanonical hbound
  subst hfields
  exact {
    response := rfl
    cursor := ⟨rfl, rfl⟩
    lengths := by rw [BitVec.ofNat_toNat, BitVec.setWidth_eq]; exact ⟨rfl, rfl⟩
    bound := hbound
    state := by cases final <;> rfl
    window := by
      refine ⟨(storedSent len s).win, fun a ha => ?_, fun k hk => ?_, hslid⟩
      · have ha : a < s.winBound.toNat ∨ s.winBound.toNat + len.toNat ≤ a := ha
        exact (hread a).trans (if_neg (by omega))
      · have hk : s.winBound.toNat ≤ s.winBound.toNat + k ∧
            s.winBound.toNat + k < s.winBound.toNat + len.toNat := by omega
        refine (hread (s.winBound.toNat + k)).trans ((if_pos hk).trans ?_)
        rw [Nat.add_sub_cancel_left]; rfl
    canonical := hcanonical
    others := rfl }

/-! ## A row that comes to a stored block -/

section
variable {row : Instr} {final : Bool} {len : BitVec 16} {s b : State}

theorem exists_exec_storesData (hrow : exec row s = deliverUnit (storedBlock final b)) (hwf : Memory.wf b.win = true)
    (hroom : b.winBound.toNat + len.toNat ≤ 98304) (h : HoldsStored (alignedPos b) len b) :
    ∃ t, exec row s = .next t ∧ StoresData final len.toNat (atByte (alignedPos b + 4) b) t := by
  have hdata : len.toNat ≤ b.inp.length - (alignedPos b + 4) := by have := h.inside; omega
  obtain ⟨t, hbody, ht⟩ := exists_storedBody_storesData final (s := atByte (alignedPos b + 4) b) hwf hroom
    (by rw [alignedPos_atByte]; exact hdata)
  rw [alignedPos_atByte, atByte_atByte] at ht
  exact ⟨t, by rw [hrow, storedBlock_of_fields final h.fields, hbody]; rfl, ht⟩

theorem storedRaises_of_exec (hrow : exec row s = deliverUnit (storedBlock final b)) : StoredRaises row s b where
  noFields h := by rw [hrow, storedBlock_of_few final h, deliverUnit_raise, enterError_srcFail]
  mismatch len nlen h hne := by rw [hrow, storedBlock_of_fields final h, storedBody_of_mismatch final hne]; rfl
  noData len h hshort := by
    rw [hrow, storedBlock_of_fields final h, storedBody_of_short final
      (by rw [alignedPos_atByte]; show b.inp.length - (alignedPos b + 4) < _; have := h.le_length; omega),
      deliverUnit_raise, enterError_srcFail, alignedPos_atByte]
    rfl

end

/-- Settles O41: the fields alone, and three rows that come to a stored block. -/
theorem storedBlockSendsAllBytes : Obligations.StoredBlockSendsAllBytes := by
  intro s final len hwf hroom
  refine ⟨fun hdata => ?_, fun h => ⟨?_, ?_⟩, fun ha h0 h1 h2 h => ?_⟩
  · obtain ⟨t, hbody, ht⟩ := exists_storedBody_storesData s.prFinal hwf hroom hdata
    exact ⟨t, congrArg deliverUnit hbody, ht⟩
  · exact exists_exec_storesData rfl hwf hroom h
  · have hstores := exists_exec_storesData (exec_blockStored final s) hwf hroom ⟨h.inside, h.fields⟩
    cases final <;> exact hstores
  · have hstores := exists_exec_storesData (exec_blockStep_stored ha h0 h1 h2) hwf hroom ⟨h.inside, h.fields⟩
    cases final <;> exact hstores

/-- Settles O42: the two errors of the fields alone, and three rows that come to a stored block. -/
theorem storedHeaderErrors : Obligations.StoredHeaderErrors := by
  intro s
  refine ⟨fun len nlen => ⟨fun hne => ?_, fun he hshort => ?_⟩, fun final => ⟨?_, ?_, fun ha h0 h1 h2 => ?_⟩⟩
  · show deliverUnit (storedBody s.prFinal len nlen s) = _
    rw [storedBody_of_mismatch _ hne]; rfl
  · subst he
    show deliverUnit (storedBody s.prFinal len (~~~len) s) = _
    rw [storedBody_of_short _ hshort, deliverUnit_raise, enterError_srcFail]; rfl
  · exact storedRaises_of_exec (final := final) rfl
  · exact storedRaises_of_exec (exec_blockStored final s)
  · exact storedRaises_of_exec (exec_blockStep_stored ha h0 h1 h2)

end Sys2Proof.Machine
end

section
/-! That parsing a dynamic header which is whole gives the decoders of its two codebooks (46_dynamic_codebook.md R126 to
R131). -/

namespace Sys2Proof.Machine

/-! ## The counts (R127) -/

theorem readCounts_of_avail {s : State} (h : CountsThere s) :
    readCounts s = .ok () (withCountsOf s (advance 14 s)) := by
  have h10 : advance 10 s = advance 5 (advance 5 s) := by rw [advance_advance]
  have h14 : advance 14 s = advance 4 (advance 5 (advance 5 s)) := by rw [advance_advance, advance_advance]
  obtain ⟨ha0, ha5, ha10⟩ := h
  rw [h10] at ha10
  rw [withCountsOf, h10, h14]
  obtain ⟨hlit, hread, hvalue⟩ := readBits_of_avail (n := 5) (by decide) ha0
  rw [readCounts, hread, Res.ok_bind, hvalue]
  generalize BitVec.ofNat 9 (fieldValue 5 s + 257) = lit
  obtain ⟨hdist, hread, hvalue⟩ := readBits_of_avail (n := 5) (s := { advance 5 s with dyHlit := lit }) (by decide) ha5
  have hvalue : hdist.toNat = fieldValue 5 (advance 5 s) := hvalue
  rw [hread, Res.ok_bind, hvalue]
  generalize BitVec.ofNat 6 (fieldValue 5 (advance 5 s) + 1) = dist
  obtain ⟨hclen, hread, hvalue⟩ := readBits_of_avail (n := 4)
    (s := { advance 5 { advance 5 s with dyHlit := lit } with dyHdist := dist }) (by decide) ha10
  have hvalue : hclen.toNat = fieldValue 4 (advance 5 (advance 5 s)) := hvalue
  rw [hread, Res.ok_bind, hvalue]
  generalize BitVec.ofNat 5 (fieldValue 4 (advance 5 (advance 5 s)) + 4) = count
  rfl

theorem fieldValue_lt (n : Nat) (s : State) (hn : n ≤ 32) : fieldValue n s < 2 ^ n := by
  rw [fieldValue_eq n s hn]; exact Nat.mod_lt _ (Nat.two_pow_pos n)

theorem clCount_le (s : State) : clCount s ≤ 19 := by
  have := fieldValue_lt 4 (advance 10 s) (by decide)
  unfold clCount; omega

theorem dyHclen_withCountsOf (s u : State) : (withCountsOf s u).dyHclen.toNat = clCount s := by
  have := clCount_le s
  show (BitVec.ofNat 5 (clCount s)).toNat = _
  rw [BitVec.toNat_ofNat]; omega

/-- The counts and the code-length lengths do not bear on where the cursor goes. -/
theorem advance_withCountsOf (n : Nat) (s u : State) (cl : List (BitVec 3)) :
    advance n { withCountsOf s u with dyCl := cl } = { withCountsOf s (advance n u) with dyCl := cl } := by
  have haddr : bitAddr { withCountsOf s u with dyCl := cl } = bitAddr u := by unfold bitAddr; rfl
  unfold advance
  rw [haddr]
  rfl

/-! ## The code-length lengths (R128) -/

/-- The 3-bit values that are read go to the lengths of the symbols of the list, which differ, and no other length
changes. -/
theorem readClLens_of_avail {syms : List Nat} {s : State} (hnodup : syms.Nodup)
    (hin : ∀ v ∈ syms, v < s.dyCl.length)
    (ha : ∀ i < syms.length, 4 ≤ avail (advance (3 * i) s)) :
    ∃ cl, readClLens syms s = .ok () { advance (3 * syms.length) s with dyCl := cl } ∧ cl.length = s.dyCl.length ∧
      (∀ i < syms.length, cl.getD (syms.getD i 0) 0 = BitVec.ofNat 3 (fieldValue 3 (advance (3 * i) s))) ∧
      ∀ v, v ∉ syms → cl.getD v 0 = s.dyCl.getD v 0 := by
  induction syms generalizing s with
  | nil => exact ⟨s.dyCl, by rw [List.length_nil, Nat.mul_zero, advance_zero]; rfl, rfl, nofun, fun _ _ => rfl⟩
  | cons v syms ih =>
    obtain ⟨hv, hnodup⟩ := List.nodup_cons.1 hnodup
    have hshift : ∀ i, advance (3 * (i + 1)) s = advance (3 * i) (advance 3 s) := by
      intro i; rw [advance_advance, Nat.mul_succ, Nat.add_comm]
    obtain ⟨x, hread, hx⟩ := readBits_of_avail (n := 3) (by decide) (by simpa using ha 0 (by simp))
    have hvalue : x.setWidth 3 = BitVec.ofNat 3 (fieldValue 3 s) := by
      apply BitVec.eq_of_toNat_eq; rw [BitVec.toNat_setWidth, BitVec.toNat_ofNat, hx]
    obtain ⟨cl, hrest, hlen, hnew, hold⟩ := ih
      (s := { advance 3 s with dyCl := s.dyCl.set v (BitVec.ofNat 3 (fieldValue 3 s)) }) hnodup
      (fun w hw => by rw [List.length_set]; exact hin w (List.mem_cons_of_mem v hw))
      (fun i hi => by have := ha (i + 1) (Nat.succ_lt_succ hi); rw [hshift] at this; exact this)
    refine ⟨cl, ?_, by rw [hlen, List.length_set], fun i hi => ?_, fun w hw => ?_⟩
    · rw [readClLens, hread, Res.ok_bind, hvalue, List.length_cons, hshift]
      exact hrest
    · cases i with
      | zero =>
        have hlt := hin v (List.mem_cons_self ..)
        rw [List.getD_cons_zero, hold v hv, Nat.mul_zero, advance_zero]
        simp [List.getD_eq_getElem?_getD, hlt]
      | succ i => rw [List.getD_cons_succ, hnew i (Nat.lt_of_succ_lt_succ hi), hshift]; rfl
    · obtain ⟨hne, hw⟩ := not_or.1 (mt List.mem_cons.2 hw)
      rw [hold w hw]
      simp [List.getD_eq_getElem?_getD, List.getElem?_set_ne (Ne.symm hne)]

/-- Every code-length symbol has its place in the order of R57. -/
theorem exists_clPerm_eq {v : Nat} (hv : v < 19) : ∃ i < 19, clPerm.getD i 0 = v := by
  interval_cases v <;> decide

/-- No symbol comes twice in the order of R57. -/
theorem getD_clPerm_notMem_take {n i : Nat} (h : n ≤ i) (hi : i < 19) : clPerm.getD i 0 ∉ clPerm.take n := by
  rw [List.getD_eq_getElem _ _ hi, List.mem_take_iff_getElem]
  rintro ⟨j, hj, heq⟩
  have hnodup : clPerm.Nodup := by decide
  have := hnodup.getElem_inj_iff.1 heq
  omega

theorem GivesClLengths.unique {cl cl' : List (BitVec 3)} {s : State} (h : GivesClLengths cl s)
    (h' : GivesClLengths cl' s) : cl = cl' := by
  refine List.ext_getElem (h.1.trans h'.1.symm) fun v hv hv' => ?_
  obtain ⟨i, hi, rfl⟩ := exists_clPerm_eq (by rw [← h.1]; exact hv)
  have heq := (h.2 i hi).trans (h'.2 i hi).symm
  rwa [List.getD_eq_getElem _ _ hv, List.getD_eq_getElem _ _ hv'] at heq

theorem readCodeLengthCode_of_avail {s : State} (h : ValuesThere (clCount s) s) {cl : List (BitVec 3)} {cb : Codebook}
    (hcl : GivesClLengths cl s) (hcb : buildCodebook (cl.map BitVec.toNat) = some cb) :
    readCodeLengthCode (withCountsOf s (advance 14 s)) =
      .ok () { withCountsOf s (advance (14 + 3 * clCount s) s) with dyCl := cl, clDec := compileDecoder cb } := by
  have hle := clCount_le s
  have hlen : (clPerm.take (clCount s)).length = clCount s := by
    rw [List.length_take]; exact Nat.min_eq_left hle
  have hget : ∀ i < clCount s, (clPerm.take (clCount s)).getD i 0 = clPerm.getD i 0 := by
    intro i hi; simp [List.getD_eq_getElem?_getD, hi]
  obtain ⟨cl', hread, hlen', hnew, hold⟩ := readClLens_of_avail (syms := clPerm.take (clCount s))
    (s := { withCountsOf s (advance 14 s) with dyCl := List.replicate 19 0 })
    ((List.take_sublist _ _).nodup (by decide))
    (fun v hv => by
      rw [List.length_replicate]
      exact (by decide : ∀ v ∈ clPerm, v < 19) v (List.mem_of_mem_take hv))
    (fun i hi => by
      rw [advance_withCountsOf, advance_advance]
      exact h i (by rwa [hlen] at hi))
  have hgives : GivesClLengths cl' s := by
    refine ⟨hlen', fun i hi => ?_⟩
    split
    next hin =>
      rw [← hget i hin, hnew i (by rwa [hlen]), advance_withCountsOf, advance_advance]; rfl
    next hout =>
      exact (hold _ (getD_clPerm_notMem_take (Nat.not_lt.1 hout) hi)).trans (List.getElem?_getD_replicate_default_eq ..)
  rw [readCodeLengthCode, dyHclen_withCountsOf]
  show (readClLens _ { withCountsOf s (advance 14 s) with dyCl := List.replicate 19 0 }).bind _ = _
  rw [hread, Res.ok_bind, hgives.unique hcl, hlen, advance_withCountsOf, advance_advance]
  show (buildOrRaise (cl.map BitVec.toNat) _).bind _ = _
  rw [buildOrRaise, hcb]
  rfl

/-! ## The coded lengths (R129, R130) -/

theorem clSymbol_silent (v : Nat) (s : State) : (clSymbol v s).SilentFrom s :=
  (clSymbol_meets v s).mono (fun _ _ h => by rw [h.1.fields]) (fun _ _ h => by rw [h.1.fields]) False.elim

theorem exec_clSymbol {v : Nat} {i : Instr} (hi : decode (.clSymbol v) = some i) (s : State) :
    exec i s = deliverUnit (clSymbol v s) := by
  have hv : v < 19 := Nat.lt_of_not_le fun h => by rw [decode_clSymbol_eq_none.2 h] at hi; cases hi
  interval_cases v <;> cases hi <;> rfl

/-- A code-length symbol's instruction that raises nothing is the symbol, returning. -/
theorem clSymbol_of_exec_silent {v : Nat} {i : Instr} {s t : State} (hi : decode (.clSymbol v) = some i)
    (he : exec i s = .next t) (hr : t.responses = s.responses) : clSymbol v s = .ok () t := by
  rw [exec_clSymbol hi] at he
  obtain ⟨_, u, hu, rfl⟩ := (deliver_silent_iff (clSymbol_silent v s) fun _ _ => rfl).1 ⟨he, hr⟩
  exact hu

/-- Each symbol appends a length, so a bound as high as the lengths that are missing is not met before the loop's own
end (notes/assumptions/20.md). -/
theorem lensLoop_of_runsLengths {s t : State} (h : RunsLengths s t) {bound : Nat}
    (hb : lensTotal s ≤ bound + s.dyLens.length) : lensLoop bound s = .ok () t := by
  induction h generalizing bound with
  | reached hdone =>
    cases bound with
    | zero => rfl
    | succ bound => rw [lensLoop, if_neg (Nat.not_lt.2 hdone)]
  | @symbol s u w t v i hmissing hd hi he hr _ ih =>
    cases bound with
    | zero => omega
    | succ bound =>
      obtain ⟨-, len, -, rfl⟩ := (decodeSymbol_meets s.clDec s).of_ok hd
      have hsym := clSymbol_of_exec_silent hi he hr
      obtain ⟨-, hgrows, -, hlit, hdist⟩ := (clSymbol_meets v _).of_ok hsym
      have htotal : lensTotal w = lensTotal s := by rw [lensTotal, lensTotal, hlit, hdist]; rfl
      have hgrows : s.dyLens.length < w.dyLens.length := hgrows
      rw [lensLoop, if_pos hmissing, hd, Res.ok_bind, hsym, Res.ok_bind]
      exact ih (by omega)

/-- Once the coded lengths are read, the check of their number and the two builds are left. -/
theorem parseDynamic_of_parsesLengths {s t : State} (h : ParsesLengths s t) :
    parseDynamic s = (checkCount t).bind fun _ u => splitAndBuild u := by
  obtain ⟨cl, cb, hcl, hcb, hrun⟩ := h.run
  rw [parseDynamic, readCounts_of_avail h.countsThere, Res.ok_bind, readCodeLengthCode_of_avail h.valuesThere hcl hcb,
    Res.ok_bind, readLengths]
  show ((lensLoop (lensTotal (lengthsStart cl cb s)) (lengthsStart cl cb s)).bind _).bind _ = _
  rw [lensLoop_of_runsLengths hrun (Nat.le_add_right _ _)]
  rfl

/-! ## The two codebooks (R131) -/

theorem parseDynamic_of_parsesDynamic {s t : State} {ll d : Codebook} (h : ParsesDynamic s t ll d) :
    parseDynamic s = .ok (compileDecoder ll, compileDecoder d) t := by
  have hdist : ((t.dyLens.map BitVec.toNat).drop t.dyHlit.toNat).take t.dyHdist.toNat =
      (t.dyLens.drop t.dyHlit.toNat).map BitVec.toNat := by
    rw [← List.map_drop, List.take_of_length_le]
    have := h.count
    unfold lensTotal at this
    rw [List.length_map, List.length_drop]; omega
  rw [parseDynamic_of_parsesLengths h.lengths, checkCount, if_neg (not_not.2 h.count), Res.ok_bind, splitAndBuild,
    ← List.map_take, buildOrRaise, h.llBook, Res.ok_bind, hdist, buildOrRaise, h.dBook]
  rfl

end Sys2Proof.Machine
end

section
/-! That a coded block emits what its decode call wrote, and that one whose call or header raises emits nothing
(45_block_producer.md R114 to R119, 60_exceptions.md R143). -/

namespace Sys2Proof.Machine

/-! ## The inflate step (R118, R119) -/

/-- A decode call that returns has its bytes sent, the window slid over them, and its result dropped. -/
theorem exists_inflate_emitsRun (final : Bool) {s u : State} {r : LzResult} (hwf : Memory.wf s.win = true)
    (hs : s.winBound.toNat ≤ 98304) (hrun : RunsSymbols (callStart s) r u) :
    ∃ t, inflate final s = .ok () t ∧ EmitsRun final s r u t := by
  have hcall : lz77Decode s = .ok (r, lzCount u) { u with lzResult := some r } :=
    lz77Decode_eq_ok_iff.2 ⟨u, hrun, rfl, rfl⟩
  obtain ⟨hwrites, -, -⟩ := (lz77Decode_meets s hs).of_ok hcall
  have hstart : u.lzStart = s.winBound := hwrites.start
  have hbound : u.winBound = s.winBound :=
    show ({ u with lzResult := some r } : State).winBound = s.winBound by rw [hwrites.fields]
  have hinside : u.lzCur.toNat ≤ 98304 := hwrites.inside
  have hgrows : s.winBound.toNat ≤ u.lzCur.toNat := hwrites.grows
  have huwf : Memory.wf u.win = true := hwrites.wf hwf
  have hcount : lzCount u = u.lzCur.toNat - s.winBound.toNat := by rw [lzCount, hstart]
  have hend : s.winBound.toNat + lzCount u = u.lzCur.toNat := by omega
  obtain ⟨t, hemit, ht⟩ := exists_emitData_slid (n := lzCount u) (s := { u with lzResult := some r })
    (show u.lzStart.toNat + lzCount u ≤ 98304 by rw [hstart]; omega)
    (show u.winBound.toNat + lzCount u ≤ 98304 by rw [hbound]; omega)
  refine ⟨goTo (afterInflate r final) (dropLzResult t), by rw [inflate, hcall, Res.ok_bind, hemit]; rfl, ?_⟩
  have hfields := ht.fields
  have hslid := ht.slid huwf
  have hcanonical := ht.wf huwf
  have hnew := ht.bound
  have hedge : (respond (.data (Memory.readRange u.win u.lzStart.toNat (lzCount u)))
      { u with lzResult := some r }).winBound.toNat + lzCount u = u.lzCur.toNat :=
    show u.winBound.toNat + lzCount u = _ by rw [hbound, hend]
  generalize t.winBound = b, t.win = w at hfields hslid hcanonical hnew
  subst hfields
  exact {
    response := ⟨Memory.readRange u.win u.lzStart.toNat (lzCount u), rfl, by rw [Memory.length_readRange, hcount],
      fun k hk => by
        rw [Memory.length_readRange] at hk
        rw [Memory.getD_readRange huwf _ _ _ hk, hstart]⟩
    bound := by rw [hedge] at hnew; exact hnew
    window := by rw [hedge] at hslid; exact hslid
    canonical := hcanonical
    state := by cases r <;> cases final <;> rfl
    flag := rfl
    others := rfl }

theorem streamError_code {e : Err} (h : streamError e) : errCode e ∈ ([1, 2, 8, 9, 14, 15] : List (BitVec 5)) := by
  rcases h with rfl | rfl | rfl | rfl | rfl | rfl <;> decide

/-- A decode call that raises has sent its error, and its writes stand above the boundary. -/
theorem callRaises_of_raisesTo {s x : State} (hwf : Memory.wf s.win = true) (hs : s.winBound.toNat ≤ 98304)
    (h : (lz77Decode s).RaisesTo x) : CallRaises (callStart s) x := by
  obtain ⟨e, t, hcall, rfl⟩ := h
  obtain ⟨hwrites, herr, hresult⟩ := (lz77Decode_meets s hs).of_raise hcall
  have hstart := hwrites.start
  have houtside := hwrites.outside
  have hcanonical := hwrites.wf hwf
  have hfields := hwrites.fields
  rw [hstart, hresult] at hfields
  generalize t.brPos = p, t.brOff = o, t.win = w, t.lzCur = c at hfields houtside hcanonical
  subst hfields
  exact {
    response := rfl
    error := streamError_code herr
    window := houtside
    canonical := hcanonical
    others := rfl }

/-- A row that runs an inflate step from `b` ends as the step's decode call does. -/
theorem endsAsItsCall_of_exec {final : Bool} {row : Instr} {s b : State}
    (hrow : exec row s = deliverUnit (inflate final b)) (hwf : Memory.wf b.win = true)
    (hb : b.winBound.toNat ≤ 32768) (hs : b.winBound = s.winBound) : EndsAsItsCall final row s (callStart b) where
  returns r u hrun := by
    obtain ⟨t, hinflate, ht⟩ := exists_inflate_emitsRun final hwf (Nat.le_trans hb (by decide)) hrun
    obtain ⟨hresponse, hbound, hwindow, hcanonical, hstate, hflag, hothers⟩ := ht
    rw [hs] at hresponse
    exact ⟨t, by rw [hrow, hinflate]; rfl, hresponse, hbound, hwindow, hcanonical, hstate, hflag, hothers⟩
  raises x hraises := by
    have hcall := lz77Decode_raisesTo_iff.2 hraises
    refine ⟨?_, callRaises_of_raisesTo hwf (Nat.le_trans hb (by decide)) hcall⟩
    obtain ⟨e, t, he, rfl⟩ := hcall
    rw [hrow, inflate, he]; rfl

/-! ## The dynamic block (R117) -/

theorem parseError_code {e : Err} (h : parseError e) : errCode e ∈ ([1, 2, 7, 8, 10] : List (BitVec 5)) := by
  rcases h with rfl | rfl | rfl | rfl | rfl <;> decide

/-- A dynamic header that raises has sent its error, and parsing has written its own registers alone. -/
theorem parseRaises_of_raisesTo {s x : State} (h : (parseDynamic s).RaisesTo x) : ParseRaises s x := by
  obtain ⟨e, t, hparse, rfl⟩ := h
  obtain ⟨hwrites, herr⟩ := (parseDynamic_meets s).of_raise hparse
  have hfields := hwrites.fields
  generalize t.brPos = a, t.brOff = b, t.dyHlit = c, t.dyHdist = d, t.dyHclen = f, t.dyCl = g, t.dyLens = l,
    t.clDec = k at hfields
  subst hfields
  exact { response := rfl, error := parseError_code herr, others := rfl }

/-- A row that runs a dynamic block from `b` ends as its header and its decode call do. -/
theorem endsAsItsDynamicBlock_of_exec {final : Bool} {row : Instr} {s b : State}
    (hrow : exec row s = deliverUnit (dynamicBlock final b)) (hwf : Memory.wf b.win = true)
    (hb : b.winBound.toNat ≤ 32768) (hs : b.winBound = s.winBound) : EndsAsItsDynamicBlock final row s b where
  parses p ll d hparses := by
    have hparse := parseDynamic_of_parsesDynamic hparses
    obtain ⟨hwrites, -⟩ := (parseDynamic_meets b).of_ok hparse
    have hwin : p.win = b.win := by rw [hwrites.fields]
    have hbound : p.winBound = b.winBound := by rw [hwrites.fields]
    have hinstalled : exec row s =
        deliverUnit (inflate final (installDecoders (compileDecoder ll) (compileDecoder d) p)) := by
      rw [hrow, dynamicBlock, hparse]; rfl
    exact endsAsItsCall_of_exec hinstalled (by rw [installDecoders_win, hwin]; exact hwf)
      (by rw [installDecoders_winBound, hbound]; exact hb) (hbound.trans hs)
  raises x he hr := by
    have hparse : (parseDynamic b).RaisesTo x :=
      (deliver_responds_iff (k := fun (r : Decoder × Decoder) t => { t with opResult := .decoders r.1 r.2 })
        (parseDynamic_silent b) fun _ _ => rfl).1 ⟨he, hr⟩
    refine ⟨?_, parseRaises_of_raisesTo hparse⟩
    obtain ⟨e, t, ht, rfl⟩ := hparse
    rw [hrow, dynamicBlock, ht]; rfl

/-! ## The rows -/

theorem exec_blockFixed (final : Bool) (s : State) :
    exec (.blockFixed final) s = deliverUnit (fixedBlock final (withBlockHeader 0b010 final s)) := by
  cases final <;> rfl

theorem exec_blockDynamic (final : Bool) (s : State) :
    exec (.blockDynamic final) s = deliverUnit (dynamicBlock final (withBlockHeader 0b100 final s)) := by
  cases final <;> rfl

/-- Settles O43: three rows run an inflate step, two of them with the fixed decoders, and two run a dynamic block. -/
theorem codedBlocksEmitTheirRun : Obligations.CodedBlocksEmitTheirRun := by
  intro s final hwf hb
  refine ⟨?_, ?_, ?_, ?_, ?_⟩
  · exact endsAsItsCall_of_exec rfl hwf hb rfl
  · exact endsAsItsCall_of_exec (b := installDecoders fixedLlDec fixedDDec s) rfl hwf hb rfl
  · exact endsAsItsCall_of_exec (b := installDecoders fixedLlDec fixedDDec (withBlockHeader 0b010 final s))
      (exec_blockFixed final s) hwf hb rfl
  · exact endsAsItsDynamicBlock_of_exec rfl hwf hb rfl
  · exact endsAsItsDynamicBlock_of_exec (exec_blockDynamic final s) hwf hb rfl

end Sys2Proof.Machine
end

section
/-! The counts of a dynamic header and its code-length symbols run as instructions, and what parsing a header that is
cut short or gives lengths that build nothing raises (46_dynamic_codebook.md R127 to R131, 60_exceptions.md R141). -/

namespace Sys2Proof.Machine

/-! ## The counts as an instruction (R127) -/

/-- Settles O33: no count is as large as its register's width, so storing it cuts nothing. -/
theorem dynamicHeaderSetsCounts : Obligations.DynamicHeaderSetsCounts := by
  intro s hlit hdist hclen
  have hlitLt := hlit.isLt
  have hdistLt := hdist.isLt
  have hclenLt := hclen.isLt
  refine ⟨setCounts hlit.toNat hdist.toNat hclen.toNat s, rfl, ?_, ?_, ?_, rfl⟩
  · show (BitVec.ofNat 9 (hlit.toNat + 257)).toNat = _
    rw [BitVec.toNat_ofNat]; omega
  · show (BitVec.ofNat 6 (hdist.toNat + 1)).toNat = _
    rw [BitVec.toNat_ofNat]; omega
  · show (BitVec.ofNat 5 (hclen.toNat + 4)).toNat = _
    rw [BitVec.toNat_ofNat]; omega

/-! ## The code-length symbols (R129, 30_encoding.md R54) -/

/-- A field that is not there ends what would have been done with it. -/
theorem readBits_bind_of_short {α : Type} {s : State} (h : avail s < 4) (n : Nat) (k : BitVec 32 → State → Res α) :
    (readBits n s).bind k = .raise (srcFail s) s := by
  rw [readBits_eq, if_pos h, Res.raise_bind]

theorem deliverUnit_readBits_of_short {s : State} (h : avail s < 4) (n : Nat) (k : BitVec 32 → State → Res Unit) :
    deliverUnit ((readBits n s).bind k) = .next (latched (srcFailCode s) s) := by
  rw [readBits_bind_of_short h, deliverUnit_raise, enterError_srcFail]

theorem readBits_appendLens_of_avail {n : Nat} {s : State} (hn : n ≤ 32) (h : 4 ≤ avail s) (base : Nat)
    (l : BitVec 4) :
    ((readBits n s).bind fun x u => .ok () (appendLens (List.replicate (base + x.toNat) l) u)) =
      .ok () { advance n s with dyLens := s.dyLens ++ List.replicate (base + fieldValue n s) l } := by
  obtain ⟨x, hread, hx⟩ := readBits_of_avail hn h
  rw [hread, Res.ok_bind, hx]
  rfl

theorem clRepeat_of_getLast? {s : State} {l : BitVec 4} (h : s.dyLens.getLast? = some l) :
    clRepeat s = (readBits 2 s).bind fun x u => .ok () (appendLens (List.replicate (3 + x.toNat) l) u) := by
  rw [clRepeat, h]; rfl

theorem clRepeat_of_nil {s : State} (h : s.dyLens = []) : clRepeat s = .raise .readDynamicCodebook s := by
  rw [clRepeat, h]; rfl

/-- Settles O34: a symbol appends at once or reads one field, and 16 looks for the last length before its field. -/
theorem codeLengthSymbolsAppend : Obligations.CodeLengthSymbolsAppend := by
  intro s
  refine ⟨fun v i hv hi => ?_, fun l hl ha => ?_, fun hnil => ?_, fun ha => ⟨?_, ?_⟩,
    fun ha => ⟨fun hne => ?_, ?_, ?_⟩⟩
  · rw [exec_clSymbol hi, clSymbol, if_pos hv]; rfl
  · show deliverUnit (clRepeat s) = _
    rw [clRepeat_of_getLast? hl, readBits_appendLens_of_avail (by decide) ha, deliverUnit_ok]
  · show deliverUnit (clRepeat s) = _
    rw [clRepeat_of_nil hnil]; rfl
  · exact congrArg deliverUnit (readBits_appendLens_of_avail (n := 3) (by decide) ha 3 0)
  · exact congrArg deliverUnit (readBits_appendLens_of_avail (n := 7) (by decide) ha 11 0)
  · show deliverUnit (clRepeat s) = _
    rw [clRepeat_of_getLast? (List.getLast?_eq_some_getLast hne), deliverUnit_readBits_of_short ha]
  · exact deliverUnit_readBits_of_short ha 3 _
  · exact deliverUnit_readBits_of_short ha 7 _

/-! ## A whole header (R126) -/

theorem exec_parseDynamic (s : State) :
    exec .parseDynamic s = deliverResult (parseDynamic s) fun r => .decoders r.1 r.2 := rfl

/-- Settles O35: parsing a whole header returns its two decoders, which the instruction leaves as its result. -/
theorem parseDynamicBuildsDecoders : Obligations.ParseDynamicBuildsDecoders := by
  intro s t ll d h
  rw [exec_parseDynamic, parseDynamic_of_parsesDynamic h, deliverResult_ok]

/-- A parse that raises has its error taken (60_exceptions.md R142). -/
theorem exec_parseDynamic_of_raisesTo {s x : State} (h : (parseDynamic s).RaisesTo x) :
    exec .parseDynamic s = .next x := by
  obtain ⟨e, t, hraise, rfl⟩ := h
  rw [exec_parseDynamic, hraise, deliverResult_raise]

/-! ## Lengths that are rejected (R130, R131) -/

theorem buildOrRaise_of_none {lens : List Nat} (h : buildCodebook lens = none) (s : State) :
    buildOrRaise lens s = .raise .invalidCodeLengths s := by
  rw [buildOrRaise, h]

theorem parseDynamic_of_wrong_count {s t : State} (h : ParsesLengths s t) (hne : t.dyLens.length ≠ lensTotal t) :
    parseDynamic s = .raise .readDynamicCodebook t := by
  rw [parseDynamic_of_parsesLengths h, checkCount, if_pos hne, Res.raise_bind]

theorem parseDynamic_of_count {s t : State} (h : ParsesLengths s t) (hcount : t.dyLens.length = lensTotal t) :
    parseDynamic s = splitAndBuild t := by
  rw [parseDynamic_of_parsesLengths h, checkCount, if_neg (not_not.2 hcount), Res.ok_bind]

/-- With as many lengths as declared, all of those behind the literal/length ones are distance lengths. -/
theorem take_drop_map_dyLens {t : State} (hcount : t.dyLens.length = lensTotal t) :
    ((t.dyLens.map BitVec.toNat).drop t.dyHlit.toNat).take t.dyHdist.toNat =
      (t.dyLens.drop t.dyHlit.toNat).map BitVec.toNat := by
  rw [lensTotal] at hcount
  rw [← List.map_drop, List.take_of_length_le]
  rw [List.length_map, List.length_drop]; omega

theorem splitAndBuild_of_no_llBook {t : State}
    (hll : buildCodebook ((t.dyLens.take t.dyHlit.toNat).map BitVec.toNat) = none) :
    splitAndBuild t = .raise .invalidCodeLengths t := by
  rw [splitAndBuild, ← List.map_take, buildOrRaise_of_none hll, Res.raise_bind]

theorem splitAndBuild_of_no_dBook {t : State} {ll : Codebook} (hcount : t.dyLens.length = lensTotal t)
    (hll : buildCodebook ((t.dyLens.take t.dyHlit.toNat).map BitVec.toNat) = some ll)
    (hd : buildCodebook ((t.dyLens.drop t.dyHlit.toNat).map BitVec.toNat) = none) :
    splitAndBuild t = .raise .invalidCodeLengths t := by
  rw [splitAndBuild, ← List.map_take, buildOrRaise, hll, Res.ok_bind, take_drop_map_dyLens hcount,
    buildOrRaise_of_none hd, Res.raise_bind]

/-- Settles O36: the count is checked first, then the literal/length codebook is built, then the distance one. -/
theorem parseDynamicRejectsLengths : Obligations.ParseDynamicRejectsLengths := by
  intro s t h
  refine ⟨fun hne => ?_, fun hcount hnone => ?_⟩
  · rw [exec_parseDynamic, parseDynamic_of_wrong_count h hne]; rfl
  · have hsplit : splitAndBuild t = .raise .invalidCodeLengths t := by
      cases hll : buildCodebook ((t.dyLens.take t.dyHlit.toNat).map BitVec.toNat) with
      | none => exact splitAndBuild_of_no_llBook hll
      | some ll => exact splitAndBuild_of_no_dBook hcount hll (hnone.resolve_left (by rw [hll]; nofun))
    rw [exec_parseDynamic, parseDynamic_of_count h hcount, hsplit]; rfl

/-! ## A count that is not there (R127) -/

theorem raisesTo_srcFail {α : Type} {r : Res α} {s t : State} (h : r = .raise (srcFail s) t) :
    r.RaisesTo (latched (srcFailCode s) t) := ⟨_, _, h, (enterError_srcFail s t).symm⟩

theorem parseDynamic_raisesTo_of_counts {s x : State} (h : (readCounts s).RaisesTo x) :
    (parseDynamic s).RaisesTo x := Res.raisesTo_bind.2 (.inl h)

theorem readCounts_of_no_hlit {s : State} (h : avail s < 4) : readCounts s = .raise (srcFail s) s :=
  readBits_bind_of_short h 5 _

/-- The state in which the second count is read. -/
def withHlitOf (s : State) : State := { advance 5 s with dyHlit := BitVec.ofNat 9 (fieldValue 5 s + 257) }

theorem readCounts_of_hlit {s : State} (h : 4 ≤ avail s) :
    readCounts s =
      (readBits 5 (withHlitOf s)).bind fun hdist u =>
        (readBits 4 { u with dyHdist := BitVec.ofNat 6 (hdist.toNat + 1) }).bind fun hclen v =>
          .ok () { v with dyHclen := BitVec.ofNat 5 (hclen.toNat + 4) } := by
  obtain ⟨hlit, hread, hvalue⟩ := readBits_of_avail (n := 5) (by decide) h
  rw [readCounts, hread, Res.ok_bind, hvalue, withHlitOf]

theorem readCounts_of_no_hdist {s : State} (h : 4 ≤ avail s) (h5 : avail (advance 5 s) < 4) :
    readCounts s = .raise (srcFail s) (withHlitOf s) := by
  rw [readCounts_of_hlit h]
  exact readBits_bind_of_short (s := withHlitOf s) h5 5 _

theorem readCounts_of_no_hclen {s : State} (h : 4 ≤ avail s) (h5 : 4 ≤ avail (advance 5 s))
    (h10 : avail (advance 10 s) < 4) :
    readCounts s = .raise (srcFail s)
      { advance 10 s with dyHlit := BitVec.ofNat 9 (fieldValue 5 s + 257),
                          dyHdist := BitVec.ofNat 6 (fieldValue 5 (advance 5 s) + 1) } := by
  have hadvance : advance 10 s = advance 5 (advance 5 s) := by rw [advance_advance]
  rw [hadvance] at h10 ⊢
  obtain ⟨hdist, hread, hvalue⟩ := readBits_of_avail (n := 5) (s := withHlitOf s) (by decide) h5
  have hvalue : hdist.toNat = fieldValue 5 (advance 5 s) := hvalue
  rw [readCounts_of_hlit h, hread, Res.ok_bind, hvalue]
  exact readBits_bind_of_short (s := { advance 5 (withHlitOf s) with
    dyHdist := BitVec.ofNat 6 (fieldValue 5 (advance 5 s) + 1) }) h10 4 _

/-! ## The code-length code (R128) -/

theorem parseDynamic_of_counts {s : State} (h : CountsThere s) :
    parseDynamic s = (readCodeLengthCode (withCountsOf s (advance 14 s))).bind fun _ u =>
      (readLengths u).bind fun _ v => splitAndBuild v := by
  rw [parseDynamic, readCounts_of_avail h, Res.ok_bind]

theorem parseDynamic_raisesTo_of_codeLengthCode {s x : State} (h : CountsThere s)
    (hraise : (readCodeLengthCode (withCountsOf s (advance 14 s))).RaisesTo x) : (parseDynamic s).RaisesTo x := by
  rw [parseDynamic_of_counts h]
  exact Res.raisesTo_bind.2 (.inl hraise)

theorem readClLens_append (syms syms' : List Nat) (s : State) :
    readClLens (syms ++ syms') s = (readClLens syms s).bind fun _ u => readClLens syms' u := by
  induction syms generalizing s with
  | nil => rfl
  | cons sym syms ih =>
    rw [List.cons_append, readClLens, readClLens, Res.bind_assoc]
    simp only [ih]

/-- The state in which the 3-bit values of a dynamic header at `s` are read. -/
def clLengthsStart (s : State) : State :=
  { withCountsOf s (advance 14 s) with dyCl := List.replicate Config.clAlphabet 0 }

theorem readCodeLengthCode_withCountsOf (s : State) :
    readCodeLengthCode (withCountsOf s (advance 14 s)) =
      (readClLens (clPerm.take (clCount s)) (clLengthsStart s)).bind fun _ u =>
        (buildOrRaise (u.dyCl.map BitVec.toNat) u).bind fun b v => .ok () { v with clDec := compileDecoder b } := by
  rw [readCodeLengthCode, dyHclen_withCountsOf]
  rfl

theorem advance_clLengthsStart (n : Nat) (s : State) :
    advance n (clLengthsStart s) =
      { withCountsOf s (advance (14 + n) s) with dyCl := List.replicate Config.clAlphabet 0 } := by
  rw [clLengthsStart, advance_withCountsOf, advance_advance]

/-- The first `n` values, when they are there, are the lengths of the first `n` symbols in `CL_PERM` order; the other
lengths are 0. -/
theorem exists_readClLens_take {s : State} {n : Nat} (hn : n ≤ 19) (h : ValuesThere n s) :
    ∃ cl : List (BitVec 3),
      readClLens (clPerm.take n) (clLengthsStart s) =
        .ok () { withCountsOf s (advance (14 + 3 * n) s) with dyCl := cl } ∧
      cl.length = 19 ∧ ∀ i < 19, cl.getD (clPerm.getD i 0) 0 =
        if i < n then BitVec.ofNat 3 (fieldValue 3 (advance (14 + 3 * i) s)) else 0 := by
  have hlen : (clPerm.take n).length = n := List.length_take.trans (Nat.min_eq_left hn)
  have hzeros : (clLengthsStart s).dyCl.length = 19 := List.length_replicate
  obtain ⟨cl, hread, hcl, hnew, hold⟩ := readClLens_of_avail (syms := clPerm.take n) (s := clLengthsStart s)
    ((List.take_sublist _ _).nodup (by decide))
    (fun v hv => by
      rw [hzeros]; exact (by decide : ∀ v ∈ clPerm, v < 19) v (List.mem_of_mem_take hv))
    (fun i hi => by rw [advance_clLengthsStart]; exact h i (by rwa [hlen] at hi))
  rw [hlen, advance_clLengthsStart] at hread
  refine ⟨cl, hread, hcl.trans hzeros, fun i hi => ?_⟩
  split
  next hin =>
    have hsym : (clPerm.take n).getD i 0 = clPerm.getD i 0 := by simp [List.getD_eq_getElem?_getD, hin]
    have hvalue := hnew i (by rwa [hlen])
    rw [hsym, advance_clLengthsStart] at hvalue
    exact hvalue
  next hout =>
    exact (hold _ (getD_clPerm_notMem_take (Nat.not_lt.1 hout) hi)).trans (List.getElem?_getD_replicate_default_eq ..)

/-- A value that is not there fails behind the ones before it. -/
theorem exists_readCodeLengthCode_of_short {s : State} {n : Nat} (hn : n < clCount s) (h : ValuesThere n s)
    (hshort : avail (advance (14 + 3 * n) s) < 4) :
    ∃ cl, readCodeLengthCode (withCountsOf s (advance 14 s)) =
      .raise (srcFail s) { withCountsOf s (advance (14 + 3 * n) s) with dyCl := cl } := by
  have hle := clCount_le s
  obtain ⟨cl, hread, -, -⟩ := exists_readClLens_take (by omega) h
  have hsplit : clPerm.take (clCount s) =
      clPerm.take n ++ clPerm.getD n 0 :: (clPerm.take (clCount s)).drop (n + 1) := by
    have hlt : n < (clPerm.take (clCount s)).length :=
      hn.trans_eq (List.length_take.trans (Nat.min_eq_left hle)).symm
    have hhead : clPerm.getD n 0 = (clPerm.take (clCount s))[n] := by
      rw [List.getElem_take, List.getD_eq_getElem]
    have htake : (clPerm.take (clCount s)).take n = clPerm.take n := by
      rw [List.take_take, Nat.min_eq_left hn.le]
    rw [hhead, List.getElem_cons_drop, ← htake, List.take_append_drop]
  refine ⟨cl, ?_⟩
  rw [readCodeLengthCode_withCountsOf, hsplit, readClLens_append, hread, Res.ok_bind, readClLens,
    readBits_bind_of_short (by exact hshort), Res.raise_bind]
  rfl

theorem readCodeLengthCode_of_no_book {s : State} (h : ValuesThere (clCount s) s) {cl : List (BitVec 3)}
    (hcl : GivesClLengths cl s) (hnone : buildCodebook (cl.map BitVec.toNat) = none) :
    readCodeLengthCode (withCountsOf s (advance 14 s)) =
      .raise .invalidCodeLengths { withCountsOf s (advance (14 + 3 * clCount s) s) with dyCl := cl } := by
  obtain ⟨cl', hread, hgives⟩ := exists_readClLens_take (clCount_le s) h
  obtain rfl : cl' = cl := GivesClLengths.unique hgives hcl
  rw [readCodeLengthCode_withCountsOf, hread, Res.ok_bind]
  exact congrArg (Res.bind · _) (buildOrRaise_of_none hnone _)

/-! ## The coded lengths, wherever their loop has got to (R129) -/

/-- A code-length symbol keeps the total and appends a length. -/
theorem lens_lt_of_turn {d : Decoder} {s u w : State} {v : Nat} (hd : decodeSymbol d s = .ok v u)
    (hsym : clSymbol v u = .ok () w) : lensTotal w = lensTotal s ∧ s.dyLens.length < w.dyLens.length := by
  obtain ⟨-, len, -, rfl⟩ := (decodeSymbol_meets d s).of_ok hd
  obtain ⟨-, hgrows, -, hlit, hdist⟩ := (clSymbol_meets v _).of_ok hsym
  exact ⟨by rw [lensTotal, lensTotal, hlit, hdist]; rfl, hgrows⟩

theorem inEnd_of_turn {d : Decoder} {s u w : State} {v : Nat} (hd : decodeSymbol d s = .ok v u)
    (hsym : clSymbol v u = .ok () w) : w.inEnd = s.inEnd := by
  obtain ⟨-, len, -, rfl⟩ := (decodeSymbol_meets d s).of_ok hd
  obtain ⟨hwrites, -⟩ := (clSymbol_meets v _).of_ok hsym
  rw [hwrites.fields]; rfl

/-- The source fails at the lengths as it would have at the header. -/
theorem srcFailCode_of_runsSomeLengths {s t : State} (h : RunsSomeLengths s t) : srcFailCode t = srcFailCode s := by
  induction h with
  | start => rfl
  | symbol _ hd hi he hr _ ih =>
    rw [ih, srcFailCode, srcFailCode, inEnd_of_turn hd (clSymbol_of_exec_silent hi he hr)]

/-- The loop goes on from where it has got to, with a bound that is still not met before its own end
(notes/assumptions/20.md). -/
theorem exists_lensLoop_of_runsSomeLengths {s t : State} (h : RunsSomeLengths s t) {bound : Nat}
    (hb : lensTotal s ≤ bound + s.dyLens.length) :
    ∃ rest, lensLoop bound s = lensLoop rest t ∧ lensTotal t ≤ rest + t.dyLens.length := by
  induction h generalizing bound with
  | start => exact ⟨bound, rfl, hb⟩
  | symbol hmissing hd hi he hr _ ih =>
    cases bound with
    | zero => omega
    | succ bound =>
      have hsym := clSymbol_of_exec_silent hi he hr
      obtain ⟨htotal, hgrows⟩ := lens_lt_of_turn hd hsym
      rw [lensLoop, if_pos hmissing, hd, Res.ok_bind, hsym, Res.ok_bind]
      exact ih (by omega)

/-- The next turn of the lengths' loop raises `x`: the symbol is not read, or raises by itself. -/
def TurnRaisesTo (s x : State) : Prop :=
  (decodeSymbol s.clDec s).RaisesTo x ∨ ∃ v u, decodeSymbol s.clDec s = .ok v u ∧ (clSymbol v u).RaisesTo x

theorem lensLoop_raisesTo_of_turn {s x : State} {bound : Nat} (hb : lensTotal s ≤ bound + s.dyLens.length)
    (hmissing : s.dyLens.length < lensTotal s) (h : TurnRaisesTo s x) : (lensLoop bound s).RaisesTo x := by
  cases bound with
  | zero => omega
  | succ bound =>
    rw [lensLoop, if_pos hmissing, Res.raisesTo_bind]
    exact h.imp_right fun ⟨v, u, hd, hraise⟩ => ⟨v, u, hd, Res.raisesTo_bind.2 (.inl hraise)⟩

/-- The parse raises what a turn of its lengths' loop raises. -/
theorem parseDynamic_raisesTo_of_turn {s t x : State} {cl : List (BitVec 3)} {cb : Codebook} (hcounts : CountsThere s)
    (hvalues : ValuesThere (clCount s) s) (hcl : GivesClLengths cl s)
    (hcb : buildCodebook (cl.map BitVec.toNat) = some cb) (hrun : RunsSomeLengths (lengthsStart cl cb s) t)
    (hmissing : t.dyLens.length < lensTotal t) (h : TurnRaisesTo t x) : (parseDynamic s).RaisesTo x := by
  obtain ⟨rest, hloop, hb⟩ := exists_lensLoop_of_runsSomeLengths hrun (Nat.le_add_right _ _)
  have hraise : (lensLoop (lensTotal (lengthsStart cl cb s)) (lengthsStart cl cb s)).RaisesTo x := by
    rw [hloop]; exact lensLoop_raisesTo_of_turn hb hmissing h
  rw [parseDynamic_of_counts hcounts, readCodeLengthCode_of_avail hvalues hcl hcb, Res.ok_bind, readLengths]
  exact Res.raisesTo_bind.2 (.inl (Res.raisesTo_bind.2 (.inl hraise)))

/-- A code-length symbol's instruction that responds is the symbol, raising. -/
theorem clSymbol_raisesTo_of_exec {v : Nat} {i : Instr} {s x : State} (hi : decode (.clSymbol v) = some i)
    (he : exec i s = .next x) (hr : x.responses ≠ s.responses) : (clSymbol v s).RaisesTo x := by
  rw [exec_clSymbol hi] at he
  exact (deliver_responds_iff (clSymbol_silent v s) fun _ _ => rfl).1 ⟨he, hr⟩

/-- Settles O60: the parse is its counts, its code-length code and its lengths, and raises what the first of them that
fails raises. -/
theorem parseDynamicErrorOrder : Obligations.ParseDynamicErrorOrder := by
  intro s
  refine ⟨fun h => ?_, fun h h5 => ?_, fun h h5 h10 => ?_, fun n hn hcounts hvalues hshort => ?_,
    fun cl hcounts hvalues hcl hnone => ?_, fun cl cb t hcounts hvalues hcl hcb hrun hmissing => ?_⟩
  · exact exec_parseDynamic_of_raisesTo
      (parseDynamic_raisesTo_of_counts (raisesTo_srcFail (readCounts_of_no_hlit h)))
  · exact exec_parseDynamic_of_raisesTo
      (parseDynamic_raisesTo_of_counts (raisesTo_srcFail (readCounts_of_no_hdist h h5)))
  · exact exec_parseDynamic_of_raisesTo
      (parseDynamic_raisesTo_of_counts (raisesTo_srcFail (readCounts_of_no_hclen h h5 h10)))
  · obtain ⟨cl, hread⟩ := exists_readCodeLengthCode_of_short hn hvalues hshort
    exact ⟨cl, exec_parseDynamic_of_raisesTo
      (parseDynamic_raisesTo_of_codeLengthCode hcounts (raisesTo_srcFail hread))⟩
  · exact exec_parseDynamic_of_raisesTo (parseDynamic_raisesTo_of_codeLengthCode hcounts
      ⟨_, _, readCodeLengthCode_of_no_book hvalues hcl hnone, rfl⟩)
  · have hturn : ∀ {x}, TurnRaisesTo t x → exec .parseDynamic s = .next x := fun h =>
      exec_parseDynamic_of_raisesTo (parseDynamic_raisesTo_of_turn hcounts hvalues hcl hcb hrun hmissing h)
    refine ⟨fun ha => ?_, fun ha hcode => ?_, fun v u i x hd hi he hr => ?_⟩
    · have hcode : srcFailCode t = srcFailCode s := (srcFailCode_of_runsSomeLengths hrun).trans rfl
      rw [← hcode]
      exact hturn (.inl (raisesTo_decodeSymbol_iff.2 (.inl ⟨ha, rfl⟩)))
    · exact hturn (.inl (raisesTo_decodeSymbol_iff.2 (.inr ⟨ha, hcode, rfl⟩)))
    · exact hturn (.inr ⟨v, u, hd, clSymbol_raisesTo_of_exec hi he hr⟩)

end Sys2Proof.Machine
end

section
/-! The command port (47_port_commands.md): which instruction a step runs (R133), that a command is answered once in
every state (R133, 30_encoding.md R68), and STEP, STATUS and the illegal command words (R135 to R137). -/

namespace Sys2Proof.Machine

/-! ## What a producer step sends

In every state, also where the window's addresses run out and the operation stops: there nothing is claimed. -/

/-- The operation sends one response when it returns, and none when it raises. -/
abbrev Res.SendsOnce {α : Type} (s : State) (r : Res α) : Prop :=
  r.Meets (fun _ t => ∃ u, t.responses = u :: s.responses) (fun _ t => t.responses = s.responses) True

/-- What a producer step's law says of its responses. -/
theorem Res.SendsOnce.of_step {s : State} {r : Res Unit} {F : Prop}
    (h : r.Meets (fun _ t => StepReturns s t) (fun e t => StepRaises s t e) F) : r.SendsOnce s :=
  h.mono (fun _ _ h => h.sent) (fun _ _ h => h.silent) fun _ => trivial

/-- An operation that sends nothing, followed by one that sends. -/
theorem Res.SilentFrom.bind_sendsOnce {α β : Type} {s : State} {r : Res α} {k : α → State → Res β}
    (hr : r.SilentFrom s) (hk : ∀ a t, (k a t).SendsOnce t) : (r.bind k).SendsOnce s := by
  refine Res.Meets.bind hr fun a t ht => ?_
  rw [← ht]
  exact hk a t

theorem emitData_sendsOnce (n : Nat) (s : State) : (emitData n s).SendsOnce s := by
  refine (emitData_meets n s).mono ?_ (fun _ _ => False.elim) fun _ => trivial
  rintro _ t ⟨_, rfl, ht⟩
  exact ⟨_, by rw [ht.fields]; rfl⟩

theorem inflate_sendsOnce (final : Bool) (s : State) : (inflate final s).SendsOnce s :=
  (lz77Decode_silent s).bind_sendsOnce fun r t => (emitData_sendsOnce r.2 t).bind fun _ _ h => h

theorem storedBlock_sendsOnce (final : Bool) (s : State) : (storedBlock final s).SendsOnce s := by
  have halign : (byteAlign s).responses = s.responses := by rw [byteAlign_eq]; rfl
  have hread : (readExact 4 (byteAlign s)).SilentFrom s := by
    rw [Res.SilentFrom, ← halign]; exact readExact_silent 4 _
  exact hread.bind_sendsOnce fun _ t => .of_step (storedBody_meets _ _ _ t)

theorem blockBody_sendsOnce (w : BitVec 3) (s : State) : (blockBody w s).SendsOnce s := by
  unfold blockBody
  dsimp only
  split
  · exact storedBlock_sendsOnce _ (latchBlockHeader w s)
  · exact inflate_sendsOnce _ (installDecoders fixedLlDec fixedDDec (latchBlockHeader w s))
  · exact (parseDynamic_silent (latchBlockHeader w s)).bind_sendsOnce fun r t =>
      inflate_sendsOnce _ (installDecoders r.1 r.2 t)
  · rfl

theorem blockStep_sendsOnce (s : State) : (blockStep s).SendsOnce s :=
  (readBits_silent 3 s).bind_sendsOnce fun _ t => blockBody_sendsOnce _ t

theorem producerStep_sendsOnce (s : State) : (producerStep s).SendsOnce s := by
  unfold producerStep
  split
  · exact .of_step (headerStep_meets s)
  · exact blockStep_sendsOnce s
  · exact inflate_sendsOnce false s
  · exact inflate_sendsOnce true s
  · exact .of_step (footerStep_meets s)
  · exact ⟨.endOfStream, rfl⟩

/-! ## One response for each command (R133, 30_encoding.md R68) -/

/-- One response more has been sent, and no command taken. -/
structure AnswersOnce (s t : State) : Prop where
  commands : t.commands = s.commands
  sent : ∃ u, t.responses = u :: s.responses

theorem StepWrites.commands_eq {s t : State} (h : StepWrites s t) : t.commands = s.commands := by rw [h.fields]

theorem execStep_answersOnce {s t : State} (h : execStep s = .next t) : AnswersOnce s t := by
  unfold execStep at h
  split at h
  · cases h; exact ⟨rfl, _, rfl⟩
  · rcases deliver_eq_next.1 h with ⟨_, u, hr, rfl⟩ | ⟨e, u, hr, rfl⟩
    · exact ⟨((producerStep_writes s).of_ok hr).commands_eq, (producerStep_sendsOnce s).of_ok hr⟩
    · have hsilent : u.responses = s.responses := (producerStep_sendsOnce s).of_raise hr
      exact ⟨((producerStep_writes s).of_raise hr).commands_eq, _, by rw [enterError_responses, hsilent]⟩

theorem commandMeaning_answersOnce {w : BitVec 8} {s t : State} (h : commandMeaning w s = .next t) :
    AnswersOnce s t := by
  rcases commandMeaning_cases w with hw | hw | hw | hw <;> rw [hw] at h
  · cases h; exact ⟨rfl, _, rfl⟩
  · exact execStep_answersOnce h
  · cases h; exact ⟨rfl, _, rfl⟩
  · cases h; exact ⟨rfl, _, rfl⟩

/-- Settles O48: a step takes the head command and does what its word means, and each of the four meanings answers
once. -/
theorem oneResponsePerCommand : Obligations.OneResponsePerCommand := by
  intro s t w rest hport hcommands hstep
  rw [step_command hport hcommands] at hstep
  obtain ⟨htaken, hsent⟩ := commandMeaning_answersOnce hstep
  exact ⟨htaken, hsent⟩

/-! ## The STATUS word (R136, 10_state.md R23) -/

/-- Bit by bit, the status word is its fields one above the other. -/
theorem getLsbD_statusWord (s : State) (i : Nat) :
    (statusWord s).getLsbD i =
      if i < 3 then (prStateCode s.prState).getLsbD i
      else if i = 3 then s.prFinal
      else if i = 4 then s.prSeen
      else if i < 10 then s.prErr.getLsbD (i - 5)
      else if i < 27 then s.winBound.getLsbD (i - 10)
      else s.brOff.getLsbD (i - 27) := by
  by_cases hi : i < 32
  · simp only [statusWord, BitVec.getLsbD_or, BitVec.getLsbD_shiftLeft, BitVec.getLsbD_setWidth]
    interval_cases i <;> simp
  · simp only [BitVec.getLsbD_of_ge _ _ (not_lt.1 hi)]
    rw [if_neg (by omega), if_neg (by omega), if_neg (by omega), if_neg (by omega), if_neg (by omega),
      BitVec.getLsbD_of_ge _ _ (by omega)]

/-- Settles O51: the word sent is `statusWord`, whose bits are its fields' bits. -/
theorem statusSendsItsFields : Obligations.StatusSendsItsFields := by
  intro s
  have hstate : (statusWord s).extractLsb' 0 3 = prStateCode s.prState :=
    BitVec.eq_of_getLsbD_eq fun i hi => by grind [getLsbD_statusWord]
  refine ⟨statusWord s, rfl, hstate, ?_, getLsbD_statusWord s 3, getLsbD_statusWord s 4, ?_, ?_, ?_, ?_⟩
  · rw [hstate]; cases s.prState <;> rfl
  all_goals exact BitVec.eq_of_getLsbD_eq fun i hi => by grind [getLsbD_statusWord]

/-! ## Illegal command words (R137) -/

/-- Settles O52: a word above 0x02 decodes to a row whose whole meaning is the illegal command's response. -/
theorem illegalCommandsChangeNothing : Obligations.IllegalCommandsChangeNothing := by
  intro s w i hw hi
  obtain ⟨j, hj, hmeaning⟩ := decodePortCmd_illegal hw
  obtain rfl : j = i := Option.some.inj (hj.symm.trans hi)
  rw [hmeaning]; rfl

/-! ## The command a step runs (R133, R135) -/

/-- What a command word means is the instruction it decodes to. -/
theorem commandMeaning_of_decode {w : BitVec 8} {i : Instr} (h : decode (.portCmd w) = some i) (s : State) :
    commandMeaning w s = exec i s := by
  rw [← runElement_portCmd]; exact runElement_of_decode (e := .portCmd w) h s

/-- Settles O1: a step at the port does what the head word means, and every word decodes to an instruction with that
meaning. -/
theorem stepRunsHeadCommand : Obligations.StepRunsHeadCommand := by
  intro s hport
  refine ⟨fun w rest hcommands => ?_, step_idle hport⟩
  obtain ⟨i, hi⟩ := Option.isSome_iff_exists.1 (decode_portCmd_isSome w)
  exact ⟨i, hi, by rw [step_command hport hcommands, commandMeaning_of_decode hi]⟩

/-- A producer step is the internal operation of `PR_STATE`, run as an instruction (45_block_producer.md R111). -/
theorem deliverUnit_producerStep (s : State) : deliverUnit (producerStep s) = exec (stepInstr s.prState) s := by
  unfold producerStep
  cases s.prState <;> rfl

theorem exec_step_of_no_error {s : State} (h : s.prErr = 0) : exec .step s = exec (stepInstr s.prState) s := by
  rw [← deliverUnit_producerStep]; exact if_neg (not_not.2 h)

/-- Settles O46: with nothing latched STEP is the producer step, which in End is one response. -/
theorem stepCommandDispatch : Obligations.StepCommandDispatch := by
  refine fun s hs => ⟨exec_step_of_no_error hs, fun hend => ?_⟩
  have hinstr : stepInstr s.prState = .endStep := by rw [hend]; rfl
  rw [exec_step_of_no_error hs, hinstr]; rfl

end Sys2Proof.Machine
end

section
/-! The decoder and the encoder are inverses: an encoding decodes to its instruction, and a stream element or command
word that decodes is the encoding of what it decodes to (30_encoding.md R48 to R69). -/

namespace Sys2Proof.Machine

/-! ## The fields of a word (R50, R51, R53, R67) -/

theorem decodeStoredHeader_append (len nlen : BitVec 16) :
    decodeStoredHeader (nlen ++ len) = .storedHeader len nlen := by
  rw [decodeStoredHeader, BitVec.extractLsb'_append_eq_right, BitVec.extractLsb'_append_eq_left]

theorem decodeDynamicHeader_append (hlit hdist : BitVec 5) (hclen : BitVec 4) :
    decodeDynamicHeader (hclen ++ hdist ++ hlit) = .dynamicHeader hlit hdist hclen := by
  have hmiddle : (hclen ++ hdist ++ hlit).extractLsb' 5 5 = hdist := by
    rw [BitVec.extractLsb'_append_eq_of_le (by decide)]; exact BitVec.extractLsb'_append_eq_right
  have htop : (hclen ++ hdist ++ hlit).extractLsb' 10 4 = hclen := by
    rw [BitVec.extractLsb'_append_eq_of_le (by decide)]; exact BitVec.extractLsb'_append_eq_left
  rw [decodeDynamicHeader, BitVec.extractLsb'_append_eq_right, hmiddle, htop]

/-- A literal's value is below 256, and is its byte. -/
theorem decodeLitlenSymbol_literal (b : Byte) : decodeLitlenSymbol b.toNat = some (.lit b) := by
  rw [decodeLitlenSymbol, if_pos b.isLt, BitVec.ofNat_toNat, BitVec.setWidth_eq]

/-- A command word is its two nibbles. -/
theorem decodePortCmd_append (high low : BitVec 4) :
    decodePortCmd (high ++ low) =
      if high.toNat = 0 then cmdInstrs[low.toNat]? else badhighInstrs[high.toNat - 1]?.map (· low) := by
  rw [decodePortCmd, BitVec.extractLsb'_append_eq_left, BitVec.extractLsb'_append_eq_right]

/-! ## Decoding an encoding -/

/-- Every instruction is what its encoding decodes to, well formed or not: the operands of an internal operation travel
as they are, and the fields of a word are read where the encoder put them. -/
theorem decode_encode (i : Instr) : decode (encode i) = some i := by
  cases i with
  | blockStored final | blockFixed final | blockDynamic final | blockReserved final => cases final <;> rfl
  | storedHeader len nlen => exact congrArg some (decodeStoredHeader_append len nlen)
  | dynamicHeader hlit hdist hclen => exact congrArg some (decodeDynamicHeader_append hlit hdist hclen)
  | lit byte => exact decodeLitlenSymbol_literal byte
  | cmdBadhigh1 low | cmdBadhigh2 low | cmdBadhigh3 low | cmdBadhigh4 low | cmdBadhigh5 low | cmdBadhigh6 low
  | cmdBadhigh7 low | cmdBadhigh8 low | cmdBadhigh9 low | cmdBadhighA low | cmdBadhighB low | cmdBadhighC low
  | cmdBadhighD low | cmdBadhighE low | cmdBadhighF low => exact decodePortCmd_append _ low
  | _ => rfl

/-- Settles O4: every instruction, well formed or not, is what its encoding decodes to. -/
theorem decodeEncode : Obligations.DecodeEncode := fun i _ => decode_encode i

/-! ## Encoding what an element decodes to -/

theorem encode_decodeBlockHeader (w : BitVec 3) : encode (decodeBlockHeader w) = .blockHeader w := by
  revert w; decide

theorem encode_decodeStoredHeader (w : BitVec 32) : encode (decodeStoredHeader w) = .storedHeader w :=
  congrArg Element.storedHeader BitVec.extractLsb'_append_extractLsb'

theorem encode_decodeDynamicHeader (w : BitVec 14) : encode (decodeDynamicHeader w) = .dynamicHeader w := by
  have hword : w.extractLsb' 10 4 ++ w.extractLsb' 5 5 ++ w.extractLsb' 0 5 = w := by
    rw [BitVec.extractLsb'_append_extractLsb'_eq_extractLsb' (by decide)]
    exact BitVec.extractLsb'_append_extractLsb'
  exact congrArg Element.dynamicHeader hword

/-- In a table whose rows have the encodings `f 0`, `f 1` and so on, row `v` has the encoding `f v`. -/
theorem encoding_of_getElem? {α : Type} {table : List α} {enc : α → Element} {f : Nat → Element}
    (htable : table.map enc = (List.range table.length).map f) {v : Nat} {a : α} (hv : table[v]? = some a) :
    enc a = f v := by
  obtain ⟨hlt, rfl⟩ := List.getElem?_eq_some_iff.1 hv
  have hrow := congrArg (·[v]?) htable
  simpa [hlt] using hrow

theorem encode_clInstrs : clInstrs.map encode = (List.range clInstrs.length).map .clSymbol := rfl

theorem encode_distInstrs : distInstrs.map encode = (List.range distInstrs.length).map .distSymbol := rfl

theorem encode_lengthInstrs :
    lengthInstrs.map encode = (List.range lengthInstrs.length).map fun n => .litlenSymbol (256 + n) := rfl

theorem encode_cmdInstrs :
    cmdInstrs.map encode = (List.range cmdInstrs.length).map fun n => .portCmd (0#4 ++ BitVec.ofNat 4 n) := rfl

theorem encode_badhighInstrs (low : BitVec 4) :
    badhighInstrs.map (fun row => encode (row low)) =
      (List.range badhighInstrs.length).map fun n => .portCmd (BitVec.ofNat 4 (n + 1) ++ low) := rfl

theorem encode_of_decodeLitlenSymbol {v : Nat} {i : Instr} (h : decodeLitlenSymbol v = some i) :
    encode i = .litlenSymbol v := by
  unfold decodeLitlenSymbol at h
  split at h
  next hv =>
    cases h
    exact congrArg Element.litlenSymbol (Nat.mod_eq_of_lt hv)
  next hv =>
    rw [encoding_of_getElem? encode_lengthInstrs h, Nat.add_sub_cancel' (Nat.le_of_not_lt hv)]

/-- A command word is the encoding of its row, by its high nibble: the row of the low nibble, or the row of the high
one with the low nibble as its operand. -/
theorem encode_of_decodePortCmd {w : BitVec 8} {i : Instr} (h : decodePortCmd w = some i) : encode i = .portCmd w := by
  have hword : w.extractLsb' 4 4 ++ w.extractLsb' 0 4 = w := BitVec.extractLsb'_append_extractLsb'
  rw [← hword] at h ⊢
  generalize w.extractLsb' 4 4 = high, w.extractLsb' 0 4 = low at h ⊢
  rw [decodePortCmd_append] at h
  split at h
  next hzero =>
    have hhigh : high = 0#4 := BitVec.eq_of_toNat_eq hzero
    rw [encoding_of_getElem? encode_cmdInstrs h, hhigh, BitVec.ofNat_toNat, BitVec.setWidth_eq]
  next hzero =>
    obtain ⟨row, hrow, rfl⟩ := Option.map_eq_some_iff.1 h
    have henc : encode (row low) = .portCmd (BitVec.ofNat 4 (high.toNat - 1 + 1) ++ low) :=
      encoding_of_getElem? (encode_badhighInstrs low) hrow
    rw [henc, Nat.sub_add_cancel (Nat.pos_of_ne_zero hzero), BitVec.ofNat_toNat, BitVec.setWidth_eq]

/-- Settles O5, format by format: the fields make up the word, and the tables list their rows by value. -/
theorem encodeDecode : Obligations.EncodeDecode := by
  intro e i hexternal h
  cases e with
  | blockHeader w => cases h; exact encode_decodeBlockHeader w
  | storedHeader w => cases h; exact encode_decodeStoredHeader w
  | dynamicHeader w => cases h; exact encode_decodeDynamicHeader w
  | clSymbol v => exact encoding_of_getElem? encode_clInstrs h
  | litlenSymbol v => exact encode_of_decodeLitlenSymbol h
  | distSymbol v => exact encoding_of_getElem? encode_distInstrs h
  | portCmd w => exact encode_of_decodePortCmd h
  | internalOp w args => exact absurd rfl (hexternal w args)

end Sys2Proof.Machine
end

section
/-! How an error is taken and left: a STEP that raises latches its code in place, what is latched stays until RESET
(60_exceptions.md R142 to R144), and what RESET and power-on give (70_reset_and_hazards.md R152). -/

namespace Sys2Proof.Machine

/-! ## Where a producer step raises (60_exceptions.md R143)

In every state, also where the window's addresses run out and the operation stops: there nothing is claimed. -/

/-- A raise that leaves `PR_STATE` at `p`, with a code that may be latched (60_exceptions.md R138). -/
structure LatchesIn (p : PrState) (e : Err) (t : State) : Prop where
  state : t.prState = p
  legal : errLegal (errCode e) = true

/-- If the operation raises, `PR_STATE` is `p` there. -/
abbrev Res.RaisesIn {α : Type} (p : PrState) (r : Res α) : Prop := r.Meets (fun _ _ => True) (LatchesIn p) True

/-- However the operation ends, `PR_STATE` is `p` there. -/
abbrev Res.StaysIn {α : Type} (p : PrState) (r : Res α) : Prop :=
  r.Meets (fun _ t => t.prState = p) (LatchesIn p) True

/-- An operation that stays in `p`, followed by one that raises where it begins. -/
theorem Res.StaysIn.bind {α β : Type} {p : PrState} {r : Res α} {k : α → State → Res β} (hr : r.StaysIn p)
    (hk : ∀ a t, (k a t).RaisesIn t.prState) : (r.bind k).RaisesIn p :=
  Res.Meets.bind hr fun a t ht => ht ▸ hk a t

theorem StepRaises.latchesIn {s t : State} {e : Err} (h : StepRaises s t e) : LatchesIn s.prState e t :=
  ⟨h.state, h.legal⟩

/-- What a producer step's law says of its raises. -/
theorem Res.RaisesIn.of_step {s : State} {r : Res Unit} {F : Prop}
    (h : r.Meets (fun _ t => StepReturns s t) (fun e t => StepRaises s t e) F) : r.RaisesIn s.prState :=
  h.mono (fun _ _ _ => trivial) (fun _ _ h => h.latchesIn) fun _ => trivial

theorem readBits_staysIn (n : Nat) (s : State) : (readBits n s).StaysIn s.prState := by
  refine (readBits_meets n s).mono ?_ ?_ False.elim
  · rintro _ _ ⟨rfl, -⟩; rfl
  · rintro _ _ ⟨rfl, rfl⟩; exact ⟨rfl, streamError_legal (streamError_srcFail _)⟩

theorem readExact_staysIn (n : Nat) (s : State) : (readExact n s).StaysIn s.prState :=
  (readExact_header n s).mono (fun _ _ h => by rw [h.fields]) (fun _ _ h => (h.1.raises h.2).latchesIn) False.elim

theorem parseDynamic_staysIn (s : State) : (parseDynamic s).StaysIn s.prState :=
  (parseDynamic_meets s).mono (fun _ _ h => by rw [h.1.fields])
    (fun _ _ h => ⟨by rw [h.1.fields], parseError_legal h.2⟩) False.elim

/-- From a boundary past the window's end the call returns at once; from any other its law says how it raises. -/
theorem lz77Decode_staysIn (s : State) : (lz77Decode s).StaysIn s.prState := by
  by_cases hs : s.winBound.toNat ≤ 98304
  · exact (lz77Decode_meets s hs).mono (fun _ _ h => by rw [h.1.fields])
      (fun _ _ h => (h.1.raises h.2.1 h.2.2).latchesIn) False.elim
  · have hfull : windowNearlyFull (startLz77 s) = true :=
      (windowNearlyFull_iff _).2 (show 98304 < s.winBound.toNat + 258 by omega)
    rw [lz77Decode, lz77Loop_of_full hfull]
    rfl

/-- An inflate step raises in its decode call alone: Data emission never raises. -/
theorem inflate_raisesIn (final : Bool) (s : State) : (inflate final s).RaisesIn s.prState :=
  (lz77Decode_staysIn s).bind fun r t =>
    ((emitData_meets r.2 t).mono (fun _ _ _ => trivial) (fun _ _ => False.elim) fun _ => trivial).bind
      fun _ _ _ => trivial

theorem storedBlock_raisesIn (final : Bool) (s : State) : (storedBlock final s).RaisesIn s.prState := by
  have halign : (byteAlign s).prState = s.prState := by rw [byteAlign_eq]; rfl
  rw [← halign]
  exact (readExact_staysIn 4 (byteAlign s)).bind fun _ t => .of_step (storedBody_meets _ _ _ t)

theorem blockBody_raisesIn (w : BitVec 3) (s : State) : (blockBody w s).RaisesIn s.prState := by
  unfold blockBody
  dsimp only
  split
  · exact storedBlock_raisesIn _ (latchBlockHeader w s)
  · exact inflate_raisesIn _ (installDecoders fixedLlDec fixedDDec (latchBlockHeader w s))
  · exact (parseDynamic_staysIn (latchBlockHeader w s)).bind fun r t =>
      inflate_raisesIn _ (installDecoders r.1 r.2 t)
  · exact ⟨rfl, rfl⟩

theorem producerStep_raisesIn (s : State) : (producerStep s).RaisesIn s.prState := by
  unfold producerStep
  split
  · exact .of_step (headerStep_meets s)
  · exact (readBits_staysIn 3 s).bind fun _ t => blockBody_raisesIn _ t
  · exact inflate_raisesIn false s
  · exact inflate_raisesIn true s
  · exact .of_step (footerStep_meets s)
  · trivial

theorem StepWrites.prErr_eq {s t : State} (h : StepWrites s t) : t.prErr = s.prErr := by rw [h.fields]

/-- A STEP that has latched an error is a producer step that raised it. -/
theorem producerStep_raise_of_execStep {s t : State} (hs : s.prErr = 0) (h : execStep s = .next t)
    (ht : t.prErr ≠ 0) : ∃ e u, producerStep s = .raise e u ∧ t = enterError e u := by
  rw [execStep, if_neg (not_not.2 hs)] at h
  rcases deliver_eq_next.1 h with ⟨_, u, hr, rfl⟩ | hraise
  · exact absurd (((producerStep_writes s).of_ok hr).prErr_eq.trans hs) ht
  · exact hraise

/-! ## What is latched stays (60_exceptions.md R142, R144) -/

/-- Whatever next state the outcome is, an error is latched in it. -/
def LeavesError (o : Host.Outcome State Fault Refusal) : Prop := ∀ t, o = .next t → t.prErr ≠ 0

section
variable {s : State}

/-- No operation of a producer step writes `PR_ERR`, and an error taken is latched over the one before. -/
theorem leavesError_deliver {α : Type} {r : Res α} {k : α → State → State} (hs : s.prErr ≠ 0) (hr : r.WritesFrom s)
    (hk : ∀ a u, (k a u).prErr = u.prErr) : LeavesError (deliver r k) := by
  intro t ht
  rcases deliver_eq_next.1 ht with ⟨a, u, hu, rfl⟩ | ⟨e, u, -, rfl⟩
  · rw [hk, (hr.of_ok hu).prErr_eq]; exact hs
  · exact errCode_ne_zero e

theorem leavesError_deliverUnit {r : Res Unit} (hs : s.prErr ≠ 0) (hr : r.WritesFrom s) :
    LeavesError (deliverUnit r) := leavesError_deliver hs hr fun _ _ => rfl

theorem leavesError_deliverResult {α : Type} {r : Res α} {f : α → OpResult} (hs : s.prErr ≠ 0) (hr : r.WritesFrom s) :
    LeavesError (deliverResult r f) := leavesError_deliver hs hr fun _ _ => rfl

/-- An instruction that does nothing but write registers. -/
theorem leavesError_write {u : State} (hs : s.prErr ≠ 0) (hu : StepWrites s u) :
    LeavesError (deliverUnit (.ok () u)) := leavesError_deliverUnit hs hu

theorem leavesError_illegalCommand (hs : s.prErr ≠ 0) : LeavesError (illegalCommand s) :=
  leavesError_write hs ⟨rfl, Nat.le_refl _⟩

/-- With an error latched STEP sends it and nothing else. -/
theorem execStep_of_error (hs : s.prErr ≠ 0) : execStep s = .next (respond (.error s.prErr) s) := if_pos hs

/-- A command word other than RESET's leaves the error. -/
theorem leavesError_of_decode_portCmd {w : BitVec 8} {i : Instr} (hi : decode (.portCmd w) = some i) (hne : i ≠ .reset)
    (hs : s.prErr ≠ 0) : LeavesError (exec i s) := by
  by_cases hw : 3 ≤ w.toNat
  · obtain ⟨j, hj, hmeaning⟩ := decodePortCmd_illegal hw
    obtain rfl : j = i := Option.some.inj (hj.symm.trans hi)
    rw [hmeaning]; exact leavesError_illegalCommand hs
  · obtain ⟨n, hn, rfl⟩ : ∃ n < 3, w = BitVec.ofNat 8 n := ⟨w.toNat, by omega, by simp⟩
    interval_cases n
    · cases hi; exact absurd rfl hne
    · cases hi
      show LeavesError (execStep s)
      rw [execStep_of_error hs]
      exact leavesError_write hs ⟨rfl, Nat.le_refl _⟩
    · cases hi; exact leavesError_write hs ⟨rfl, Nat.le_refl _⟩

/-- The rows of the stream formats and the command words, by format (30_encoding.md R48). -/
theorem leavesError_of_decode {e : Element} {i : Instr} (hi : decode e = some i)
    (hexternal : ∀ w args, e ≠ .internalOp w args) (hne : i ≠ .reset) (hs : s.prErr ≠ 0) :
    LeavesError (exec i s) := by
  cases e with
  | blockHeader w =>
    cases hi; rw [exec_decodeBlockHeader]; exact leavesError_deliverUnit hs (blockBody_writes w s)
  | storedHeader w => cases hi; exact leavesError_deliverUnit hs (storedBody_writes s.prFinal _ _ s)
  | dynamicHeader w => cases hi; exact leavesError_write hs ⟨rfl, Nat.le_refl _⟩
  | clSymbol v => rw [exec_clSymbol hi]; exact leavesError_deliverUnit hs (clSymbol_writes v s)
  | litlenSymbol v =>
    by_cases hend : v = 256
    · subst hend; cases hi
      exact leavesError_deliverResult (r := endLz77 (.done, lzCount s) s) (f := fun r => .lz77 r.1 r.2) hs
        ⟨rfl, Nat.le_refl _⟩
    · rw [exec_litlenSymbol hend (by rw [ruleArm_of_decode hi, hi])]
      exact leavesError_deliverUnit hs (symbolBody_writes v s)
  | distSymbol v => rw [exec_distanceSymbol hi]; exact leavesError_deliverResult hs (distanceFrom_writes v s)
  | portCmd w => exact leavesError_of_decode_portCmd hi hne hs
  | internalOp w args => exact absurd rfl (hexternal w args)

/-- Every instruction but RESET: the internal operations one by one, the other rows by their format. -/
theorem exec_leavesError {i : Instr} (hne : i ≠ .reset) (hs : s.prErr ≠ 0) : LeavesError (exec i s) := by
  cases i with
  | peekBits => exact leavesError_deliverResult hs (peekBits_writes s)
  | consume n => exact leavesError_write hs (consume_writes n s)
  | readBits n => exact leavesError_deliverResult hs (readBits_writes n s)
  | byteAlign => exact leavesError_write hs (byteAlign_writes s)
  | hasDataLeft => exact leavesError_deliverResult hs (hasDataLeft_writes s)
  | read n => exact leavesError_deliverResult hs (readSome_writes n s)
  | readExact n => exact leavesError_deliverResult hs (readExact_writes n s)
  | buildCodebook lens => exact leavesError_deliverResult hs (buildOrRaise_writes lens s)
  | compileDecoder book => exact leavesError_deliverResult (r := .ok (compileDecoder book) s) hs (.refl s)
  | decode dec bits => exact leavesError_deliverResult hs (decodeOrRaise_writes dec bits s)
  | decodeSymbol which => exact leavesError_deliverResult hs (decodeSymbol_writes (namedDecoder which s) s)
  | writeBuffer =>
    exact leavesError_deliverResult (r := .ok (writeBuffer s) s) (f := fun r => .region r.1 r.2) hs (.refl s)
  | slide n => exact leavesError_deliverUnit hs (slide_writes n s)
  | windowReset => exact leavesError_write hs ⟨rfl, Nat.le_refl _⟩
  | lz77Decode => exact leavesError_deliverResult hs (lz77Decode_writes s)
  | parseDynamic => exact leavesError_deliverResult hs (parseDynamic_writes s)
  | headerStep => exact leavesError_deliverUnit hs (headerStep_writes s)
  | blockStep => exact leavesError_deliverUnit hs (blockStep_writes s)
  | storedBlock final => exact leavesError_deliverUnit hs (storedBlock_writes final s)
  | fixedBlock final => exact leavesError_deliverUnit hs (fixedBlock_writes final s)
  | dynamicBlock final => exact leavesError_deliverUnit hs (dynamicBlock_writes final s)
  | inflateStep final => exact leavesError_deliverUnit hs (inflate_writes final s)
  | footerStep => exact leavesError_deliverUnit hs (footerStep_writes s)
  | endStep => exact leavesError_deliverUnit hs (endStep_writes s)
  | dataEmission n => exact leavesError_deliverUnit hs (emitData_writes n s)
  | _ => exact leavesError_of_decode (decode_encode _) nofun hne hs

end

/-- Settles O47: a STEP that latches an error is a producer step that raised in place, and no meaning but RESET's
writes 0 to `PR_ERR`. -/
theorem errorEntryIsSticky : Obligations.ErrorEntryIsSticky := by
  refine fun s => ⟨fun t hs hexec ht => ?_, fun hs => execStep_of_error hs,
    fun i t hne hs => exec_leavesError hne hs t⟩
  obtain ⟨e, u, hraise, rfl⟩ := producerStep_raise_of_execStep hs hexec ht
  obtain ⟨hstate, hlegal⟩ := (producerStep_raisesIn s).of_raise hraise
  have hsilent : u.responses = s.responses := (producerStep_sendsOnce s).of_raise hraise
  exact ⟨by rw [enterError_responses, enterError_prErr, hsilent], hstate, hlegal⟩

/-! ## RESET and power-on (70_reset_and_hazards.md R152) -/

/-- RESET is `resetState`, answered with OK (47_port_commands.md R134). -/
theorem exec_reset (s : State) : exec .reset s = .next (respond .ok (resetState s)) := rfl

/-- Power-on has every register that RESET writes at its reset value. -/
theorem resetState_reset : resetState State.reset = State.reset := rfl

/-- At the reset values every field of the STATUS word is 0 (10_state.md R23). -/
theorem statusWord_resetState (s : State) : statusWord (resetState s) = 0 := by
  simp [statusWord, prStateCode]

/-- Settles O50: RESET's registers are those `resetState` writes, and it changes nothing in the power-on state. -/
theorem resetRestoresResetValues : Obligations.ResetRestoresResetValues := by
  refine ⟨fun s => ⟨_, exec_reset s, rfl, rfl, rfl, rfl, rfl, rfl, rfl, rfl, rfl, rfl, rfl,
    statusWord_resetState s, rfl⟩, ⟨_, exec_reset State.reset, ?_⟩, ?_⟩
  · rw [resetState_reset]; rfl
  · rw [← resetState_reset]; exact statusWord_resetState State.reset

/-! ## The invariant at reset -/

/-- At reset the window and the input are empty, no decoder is installed, and no member has been begun. -/
theorem State.Inv.reset : State.reset.Inv where
  atPort := rfl
  winCanonical := reset_win_wf
  winInside := rfl
  boundLegal := Nat.zero_le _
  cursor := ⟨Nat.le_refl _, fun _ => rfl⟩
  errCodeLegal := rfl
  llLegal := rfl
  dLegal := rfl
  inflating := nofun
  inflatingFinal := nofun
  seen := fun h => absurd rfl h
  headerAligned := fun _ => ⟨rfl, rfl⟩
  endEmpty := nofun
  noResult := rfl

/-- Settles O53: the invariant field by field, and the history of a member that has put out nothing. -/
theorem resetSatisfiesInvariant : Obligations.ResetSatisfiesInvariant :=
  ⟨State.Inv.reset, (historyHeld_iff reset_win_wf).2 fun _ => .of_empty reset_win_wf rfl⟩

end Sys2Proof.Machine
end
